-- ==== Sys2Proof/Word.lean ====
section
/-! DEFINITION. The word types of VPX-CORE and their plainest arithmetic (R10: every value is an unsigned integer). -/

namespace Sys2Proof

/-- One byte of PIXMEM or CODEMEM (R60). -/
abbrev Byte := BitVec 8

/-- A 32-bit host register (R27). -/
abbrev Word32 := BitVec 32

/-- A 64-bit command word (R80) or result register (R21). -/
abbrev Word64 := BitVec 64

/-- An LZW code or a slot index: 12 bits (R8, R31). -/
abbrev Code := BitVec 12

/-- `zext_64` of R10. -/
def zext64 (n : Nat) : Word64 := BitVec.ofNat 64 n

/-- `zext_32` of R244. -/
def zext32 (n : Nat) : Word32 := BitVec.ofNat 32 n

end Sys2Proof
end

