-- ==== Sys2Proof/Config.lean ====
section
/-! DEFINITION. What an implementation of VPX-CORE fixes (R8, R9), and the free values: the state that R21, R35 to R40,
R166, R191 and R246 leave unspecified. A free value is a constant without a body, so nothing can be proved about it. -/

namespace Sys2Proof.Config

/-- ST_SLOTS of R8: slots of the string table. -/
abbrev stSlots : Nat := 4096

/-- PROBE_STRIDE of R8. -/
abbrev probeStride : Nat := 601

/-- MAX_CODE_WIDTH of R8. -/
abbrev maxCodeWidth : Nat := 12

/-- MAX_CODE of R8. -/
abbrev maxCode : Nat := 4095

/-- DT_ENTRIES of R8. -/
abbrev dtEntries : Nat := 4096

/-- XSTACK_DEPTH of R8. -/
abbrev xstackDepth : Nat := 4096

/-- ACC_W of R9 (ACC_W ≥ 28, not architectural): the width the model gives CW_ACC. DESIGN CHOICE, log entry 2: the
least width R136 allows; no pending bit of any rule reaches bit 28, so no result depends on it. -/
abbrev accW : Nat := 28

/-- PIX_CAP − 1 in `State.reset` (PIX_CAP is OPEN in R9). DESIGN CHOICE, log entry 1: the capacity the vectors of
95_test_vectors.md start from; every statement about all states covers every capacity. -/
abbrev resetPixLast : BitVec 24 := 65535#24

/-- CODE_CAP − 1 in `State.reset` (CODE_CAP is OPEN in R9). DESIGN CHOICE, log entry 1. -/
abbrev resetCodeLast : BitVec 24 := 65535#24

/-- The pieces of state that some rule leaves unspecified, one name each, so that two of them that become unspecified
at one moment are independent of each other. -/
inductive FreeSite where
  | res0 | res1
  | cwPtr | cwCnt | cwAcc
  | crLen | crBitpos | crCode
  | encBpp | encClear | encEoi | encW | encLimit | encNext | encCur | encN | encI | encNcodes
  | decBpp | decClear | decEoi | decW | decLimit | decNext | decPrev | decOut | decPhase
  | xsp | xstack | pixmem | codemem
deriving DecidableEq, Repr

/-- The unspecified value of a register of `w` bits: which register, and the value of the counter `State.freeTick`
when it became unspecified. Log entry 3. -/
opaque freeBits (site : FreeSite) (tick : Nat) (w : Nat) : BitVec w

/-- The unspecified contents of a byte memory (PIXMEM, CODEMEM or XSTACK), as the bytes to lay over it. Log entry 3. -/
opaque freeBytes (site : FreeSite) (tick : Nat) : List (Nat × BitVec 8)

/-- The unspecified contents of the string table, as (slot, (code, prefix, suffix)). Log entry 3. -/
opaque freeSlots (tick : Nat) : List (Nat × (BitVec 12 × BitVec 12 × BitVec 8))

/-- The unspecified contents of the decode table, as (code, (prefix, suffix)). Log entry 3. -/
opaque freeEntries (tick : Nat) : List (Nat × (BitVec 12 × BitVec 8))

end Sys2Proof.Config
end

