-- ==== Sys2Proof/Syntax.lean ====
section
/-! DEFINITION. The commands of VPX-CORE: one constructor of `Instr` per row of the opcode map (R83), each operand at its
field's width (R81, R82), in the operand order of the assembler (R88). -/

namespace Sys2Proof

/-- The bit-depth variant that DEPTH and PA_DEPTH name (R41, R82): 0, 1, 2, 3 in this order. -/
inductive Depth where
  | bpp1 | bpp4 | bpp8 | bpp24
deriving DecidableEq, Repr

/-- The row order that ORDER and PA_ORDER name (R41, R82): 0 = bottom-to-top (BMP), 1 = top-to-bottom (GIF). -/
inductive RowOrder where
  | bottomToTop | topToBottom
deriving DecidableEq, Repr

/-- A command with its operands. Every field value that the encoding admits is an operand value here, the illegal ones
too: they are value errors of the running command, not decode failures (R87). -/
inductive Instr where
  | nop
  | clrerr
  | cwReset
  | cwWrite (code : BitVec 16) (width : BitVec 4)
  | cwEnd
  | crOpen (len : BitVec 32)
  | crRead (width : BitVec 4)
  | stReset
  | stSearch (pre : BitVec 12) (suf : BitVec 8)
  | stAdd (index : BitVec 12) (pre : BitVec 12) (suf : BitVec 8) (code : BitVec 12)
  | encRun (bpp : BitVec 4) (len : BitVec 32)
  | decRun (bpp : BitVec 4) (len : BitVec 32)
  | paConfig (depth : Depth) (width : BitVec 24) (height : BitVec 24) (order : RowOrder)
  | paRowlen
  | paOffset (x : BitVec 24) (y : BitVec 24)
  | paExtract (byte : BitVec 8) (bit : BitVec 4)
  | paInject (byte : BitVec 8) (bit : BitVec 4) (ci : BitVec 8)
deriving DecidableEq, Repr

/-- The mnemonics of R83, one per row. -/
inductive Mnemonic where
  | nop | clrerr | cwReset | cwWrite | cwEnd | crOpen | crRead | stReset | stSearch | stAdd
  | encRun | decRun | paConfig | paRowlen | paOffset | paExtract | paInject
deriving DecidableEq, Repr

/-- The row a command belongs to. -/
def Instr.mnemonic : Instr → Mnemonic
  | .nop => .nop
  | .clrerr => .clrerr
  | .cwReset => .cwReset
  | .cwWrite _ _ => .cwWrite
  | .cwEnd => .cwEnd
  | .crOpen _ => .crOpen
  | .crRead _ => .crRead
  | .stReset => .stReset
  | .stSearch _ _ => .stSearch
  | .stAdd _ _ _ _ => .stAdd
  | .encRun _ _ => .encRun
  | .decRun _ _ => .decRun
  | .paConfig _ _ _ _ => .paConfig
  | .paRowlen => .paRowlen
  | .paOffset _ _ => .paOffset
  | .paExtract _ _ => .paExtract
  | .paInject _ _ _ => .paInject

end Sys2Proof
end

