-- ==== Sys2Proof/WellFormed.lean ====
section
/-! DEFINITION. Operand values that R82 and R83 call legal whatever the machine's state. The operand types already bound
each field to its width, so every `Instr` has an encoding; a command that is not well formed still decodes (R87) and
raises its value error when it executes (R243). -/

namespace Sys2Proof

/-- WIDTH: the legal values are 1..12 (R82, R83). -/
def widthWellFormed (w : BitVec 4) : Bool := decide (1 ≤ w.toNat) && decide (w.toNat ≤ 12)

/-- BPP: the legal values are 1..8 for ENC_RUN and DEC_RUN (R82, R83). -/
def bppWellFormed (b : BitVec 4) : Bool := decide (1 ≤ b.toNat) && decide (b.toNat ≤ 8)

/-- LEN: legal up to the capacity of the memory it describes (R82), which is at most 2^24 (R9). -/
def lenWellFormed (n : BitVec 32) : Bool := decide (n.toNat ≤ 2 ^ 24)

/-- BIT: 8..15 is illegal at every depth (R214). -/
def bitWellFormed (k : BitVec 4) : Bool := decide (k.toNat ≤ 7)

/-- Every operand has a value that some state of the machine accepts. -/
def Instr.wellFormed : Instr → Bool
  | .nop => true
  | .clrerr => true
  | .cwReset => true
  | .cwWrite _ width => widthWellFormed width
  | .cwEnd => true
  | .crOpen len => lenWellFormed len
  | .crRead width => widthWellFormed width
  | .stReset => true
  | .stSearch _ _ => true
  | .stAdd _ _ _ _ => true
  | .encRun bpp len => bppWellFormed bpp && lenWellFormed len
  | .decRun bpp len => bppWellFormed bpp && lenWellFormed len
  | .paConfig _ _ _ _ => true
  | .paRowlen => true
  | .paOffset _ _ => true
  | .paExtract _ bit => bitWellFormed bit
  | .paInject _ bit _ => bitWellFormed bit

end Sys2Proof
end

