-- ==== Sys2Proof/Decode.lean ====
section
/-! DEFINITION. The command-word encoding (30_encoding.md): the opcode map, the decoder, the encoder and the assembler's
operand forms. -/

namespace Sys2Proof

/-- OPC of each row (R83). -/
def Mnemonic.opc : Mnemonic → BitVec 8
  | .nop => 0x00#8
  | .clrerr => 0x01#8
  | .cwReset => 0x10#8
  | .cwWrite => 0x11#8
  | .cwEnd => 0x12#8
  | .crOpen => 0x18#8
  | .crRead => 0x19#8
  | .stReset => 0x20#8
  | .stSearch => 0x21#8
  | .stAdd => 0x22#8
  | .encRun => 0x30#8
  | .decRun => 0x38#8
  | .paConfig => 0x40#8
  | .paRowlen => 0x41#8
  | .paOffset => 0x42#8
  | .paExtract => 0x43#8
  | .paInject => 0x44#8

/-- The match word of each row (R84): OPC << 56. -/
def Mnemonic.matchWord (m : Mnemonic) : Word64 := m.opc ++ 0#56

/-- The mask word of each row (R84): OPC and every reserved bit. -/
def Mnemonic.mask : Mnemonic → Word64
  | .nop => 0xFFFFFFFFFFFFFFFF#64
  | .clrerr => 0xFFFFFFFFFFFFFFFF#64
  | .cwReset => 0xFFFFFFFFFFFFFFFF#64
  | .cwWrite => 0xFFFFFFFFFFF00000#64
  | .cwEnd => 0xFFFFFFFFFFFFFFFF#64
  | .crOpen => 0xFFFFFFFF00000000#64
  | .crRead => 0xFFFFFFFFFFF0FFFF#64
  | .stReset => 0xFFFFFFFFFFFFFFFF#64
  | .stSearch => 0xFFFFFFFFFF00F000#64
  | .stAdd => 0xFFFF00000000F000#64
  | .encRun => 0xFFFFFFF000000000#64
  | .decRun => 0xFFFFFFF000000000#64
  | .paConfig => 0xFFF8000000000000#64
  | .paRowlen => 0xFFFFFFFFFFFFFFFF#64
  | .paOffset => 0xFFFF000000000000#64
  | .paExtract => 0xFFFFFFFFFFFFF000#64
  | .paInject => 0xFFFFFFFFFF00F000#64

/-- The row with a given OPC (R83); none for the reserved OPC values of R86. -/
def Mnemonic.ofOpc (opc : BitVec 8) : Option Mnemonic :=
  if opc = 0x00#8 then some .nop
  else if opc = 0x01#8 then some .clrerr
  else if opc = 0x10#8 then some .cwReset
  else if opc = 0x11#8 then some .cwWrite
  else if opc = 0x12#8 then some .cwEnd
  else if opc = 0x18#8 then some .crOpen
  else if opc = 0x19#8 then some .crRead
  else if opc = 0x20#8 then some .stReset
  else if opc = 0x21#8 then some .stSearch
  else if opc = 0x22#8 then some .stAdd
  else if opc = 0x30#8 then some .encRun
  else if opc = 0x38#8 then some .decRun
  else if opc = 0x40#8 then some .paConfig
  else if opc = 0x41#8 then some .paRowlen
  else if opc = 0x42#8 then some .paOffset
  else if opc = 0x43#8 then some .paExtract
  else if opc = 0x44#8 then some .paInject
  else none

/-- The OPC field, bits [63:56] (R80). -/
def opcOf (w : Word64) : BitVec 8 := w.extractLsb' 56 8

/-- DEPTH as R82 encodes it. -/
def Depth.ofBits (d : BitVec 2) : Depth :=
  if d = 0#2 then .bpp1 else if d = 1#2 then .bpp4 else if d = 2#2 then .bpp8 else .bpp24

/-- DEPTH as R82 encodes it. -/
def Depth.toBits : Depth → BitVec 2
  | .bpp1 => 0#2
  | .bpp4 => 1#2
  | .bpp8 => 2#2
  | .bpp24 => 3#2

/-- ORDER as R82 encodes it. -/
def RowOrder.ofBits (o : BitVec 1) : RowOrder := if o = 0#1 then .bottomToTop else .topToBottom

/-- ORDER as R82 encodes it. -/
def RowOrder.toBits : RowOrder → BitVec 1
  | .bottomToTop => 0#1
  | .topToBottom => 1#1

/-- The command of a row with the field values of a word (R81): each field is `w.extractLsb' lo width`. -/
def Mnemonic.fields (m : Mnemonic) (w : Word64) : Instr :=
  match m with
  | .nop => .nop
  | .clrerr => .clrerr
  | .cwReset => .cwReset
  | .cwWrite => .cwWrite (w.extractLsb' 0 16) (w.extractLsb' 16 4)
  | .cwEnd => .cwEnd
  | .crOpen => .crOpen (w.extractLsb' 0 32)
  | .crRead => .crRead (w.extractLsb' 16 4)
  | .stReset => .stReset
  | .stSearch => .stSearch (w.extractLsb' 0 12) (w.extractLsb' 16 8)
  | .stAdd => .stAdd (w.extractLsb' 24 12) (w.extractLsb' 0 12) (w.extractLsb' 16 8) (w.extractLsb' 36 12)
  | .encRun => .encRun (w.extractLsb' 32 4) (w.extractLsb' 0 32)
  | .decRun => .decRun (w.extractLsb' 32 4) (w.extractLsb' 0 32)
  | .paConfig => .paConfig (Depth.ofBits (w.extractLsb' 48 2)) (w.extractLsb' 0 24) (w.extractLsb' 24 24)
      (RowOrder.ofBits (w.extractLsb' 50 1))
  | .paRowlen => .paRowlen
  | .paOffset => .paOffset (w.extractLsb' 0 24) (w.extractLsb' 24 24)
  | .paExtract => .paExtract (w.extractLsb' 0 8) (w.extractLsb' 8 4)
  | .paInject => .paInject (w.extractLsb' 0 8) (w.extractLsb' 8 4) (w.extractLsb' 16 8)

/-- The decoder (R84, R87): the one row whose masked word equals its match word, with its field values; `none` is
ILLEGAL_COMMAND, for a reserved OPC (R86) or a set reserved bit (R85). -/
def decode (w : Word64) : Option Instr :=
  match Mnemonic.ofOpc (opcOf w) with
  | none => none
  | some m => if w &&& m.mask = m.matchWord then some (m.fields w) else none

/-- The command word of a command (R80, R81): OPC, then the operand fields from high to low, reserved bits 0. -/
def encode : Instr → Word64
  | .nop => 0x00#8 ++ 0#56
  | .clrerr => 0x01#8 ++ 0#56
  | .cwReset => 0x10#8 ++ 0#56
  | .cwWrite code width => 0x11#8 ++ (0#36 ++ (width ++ code))
  | .cwEnd => 0x12#8 ++ 0#56
  | .crOpen len => 0x18#8 ++ (0#24 ++ len)
  | .crRead width => 0x19#8 ++ (0#36 ++ (width ++ 0#16))
  | .stReset => 0x20#8 ++ 0#56
  | .stSearch pre suf => 0x21#8 ++ (0#32 ++ (suf ++ (0#4 ++ pre)))
  | .stAdd index pre suf code => 0x22#8 ++ (0#8 ++ (code ++ (index ++ (suf ++ (0#4 ++ pre)))))
  | .encRun bpp len => 0x30#8 ++ (0#20 ++ (bpp ++ len))
  | .decRun bpp len => 0x38#8 ++ (0#20 ++ (bpp ++ len))
  | .paConfig depth width height order =>
      0x40#8 ++ (0#5 ++ (order.toBits ++ (depth.toBits ++ (height ++ width))))
  | .paRowlen => 0x41#8 ++ 0#56
  | .paOffset x y => 0x42#8 ++ (0#8 ++ (y ++ x))
  | .paExtract byte bit => 0x43#8 ++ (0#44 ++ (bit ++ byte))
  | .paInject byte bit ci => 0x44#8 ++ (0#32 ++ (ci ++ (0#4 ++ (bit ++ byte))))

/-- The decoder on a word numbered as spec/opcode_table.json numbers it; a command is one 64-bit word (R80), so there is
no byte order to undo. -/
def decodeTableWord (nbits w : Nat) : Option Instr :=
  if nbits ≤ 64 then decode (BitVec.ofNat 64 (w % 2 ^ nbits)) else none

/-- The operand forms of the assembler (R88): an operand that does not fit its field is an assembly error (`none`);
PA_CONFIG's depth is written as the bit count, and its order as 0 for `bmp` and 1 for `gif`. -/
def assemble (m : Mnemonic) (ops : List Nat) : Option Instr :=
  match m, ops with
  | .nop, [] => some .nop
  | .clrerr, [] => some .clrerr
  | .cwReset, [] => some .cwReset
  | .cwWrite, [code, width] =>
      if code < 2 ^ 16 ∧ width < 2 ^ 4 then some (.cwWrite (BitVec.ofNat 16 code) (BitVec.ofNat 4 width)) else none
  | .cwEnd, [] => some .cwEnd
  | .crOpen, [len] => if len < 2 ^ 32 then some (.crOpen (BitVec.ofNat 32 len)) else none
  | .crRead, [width] => if width < 2 ^ 4 then some (.crRead (BitVec.ofNat 4 width)) else none
  | .stReset, [] => some .stReset
  | .stSearch, [pre, suf] =>
      if pre < 2 ^ 12 ∧ suf < 2 ^ 8 then some (.stSearch (BitVec.ofNat 12 pre) (BitVec.ofNat 8 suf)) else none
  | .stAdd, [index, pre, suf, code] =>
      if index < 2 ^ 12 ∧ pre < 2 ^ 12 ∧ suf < 2 ^ 8 ∧ code < 2 ^ 12 then
        some (.stAdd (BitVec.ofNat 12 index) (BitVec.ofNat 12 pre) (BitVec.ofNat 8 suf) (BitVec.ofNat 12 code))
      else none
  | .encRun, [bpp, len] =>
      if bpp < 2 ^ 4 ∧ len < 2 ^ 32 then some (.encRun (BitVec.ofNat 4 bpp) (BitVec.ofNat 32 len)) else none
  | .decRun, [bpp, len] =>
      if bpp < 2 ^ 4 ∧ len < 2 ^ 32 then some (.decRun (BitVec.ofNat 4 bpp) (BitVec.ofNat 32 len)) else none
  | .paConfig, [depth, width, height, order] =>
      if width < 2 ^ 24 ∧ height < 2 ^ 24 ∧ order < 2 then
        (if depth = 1 then some .bpp1 else if depth = 4 then some .bpp4
          else if depth = 8 then some .bpp8 else if depth = 24 then some .bpp24 else none).map fun d =>
            .paConfig d (BitVec.ofNat 24 width) (BitVec.ofNat 24 height) (RowOrder.ofBits (BitVec.ofNat 1 order))
      else none
  | .paRowlen, [] => some .paRowlen
  | .paOffset, [x, y] =>
      if x < 2 ^ 24 ∧ y < 2 ^ 24 then some (.paOffset (BitVec.ofNat 24 x) (BitVec.ofNat 24 y)) else none
  | .paExtract, [byte, bit] =>
      if byte < 2 ^ 8 ∧ bit < 2 ^ 4 then some (.paExtract (BitVec.ofNat 8 byte) (BitVec.ofNat 4 bit)) else none
  | .paInject, [byte, bit, ci] =>
      if byte < 2 ^ 8 ∧ bit < 2 ^ 4 ∧ ci < 2 ^ 8 then
        some (.paInject (BitVec.ofNat 8 byte) (BitVec.ofNat 4 bit) (BitVec.ofNat 8 ci))
      else none
  | _, _ => none

end Sys2Proof
end

