-- ==== Sys2Proof/Machine/State.lean ====
section
/-! DEFINITION. The state of one VPX-CORE instance as plain data (10_state.md), the host's pending accesses beside it, and
the reasons a step can stop. Every register has the width its rule gives it. -/

namespace Sys2Proof.Machine

/-- Sparse storage: (index, value) pairs in one canonical form (`Cells.wf`). What an unlisted index reads as is the
`default` that every operation on it takes. -/
abbrev Cells (α : Type) := List (Nat × α)

/-- A byte memory; an unlisted address reads 0 (R42: every byte is 0 at reset). -/
abbrev Memory := List Host.Cell

/-- The canonical form: indexes strictly rising and below `bound`, and no entry equal to what an unlisted index reads. -/
abbrev Cells.wf {α : Type} [DecidableEq α] (default : α) (bound : Nat) (m : Cells α) : Prop :=
  m.Pairwise (fun c d => c.1 < d.1) ∧ ∀ c ∈ m, c.1 < bound ∧ c.2 ≠ default

/-- The canonical form of a byte memory of `cap` bytes. -/
abbrev Memory.wf (cap : Nat) (m : Memory) : Prop := Cells.wf (α := BitVec 8) 0#8 cap m

/-- One slot of the string table: ST_CODE, ST_PREFIX, ST_SUFFIX (R31). -/
structure StSlot where
  code : BitVec 12
  pre  : BitVec 12
  suf  : BitVec 8
deriving DecidableEq, Repr

/-- The slot ST_RESET leaves: all three arrays 0 (R31, R144). -/
def StSlot.empty : StSlot := ⟨0#12, 0#12, 0#8⟩

/-- One entry of the implicit decode table: DT_PREFIX, DT_SUFFIX (R39). -/
structure DtEntry where
  pre : BitVec 12
  suf : BitVec 8
deriving DecidableEq, Repr

/-- What an unlisted decode-table entry holds (never read before it is written, R39). -/
def DtEntry.empty : DtEntry := ⟨0#12, 0#8⟩

/-- The code writer's registers (R28). -/
structure CwRegs where
  /-- CW_PTR: completed bytes, and the address of the next one. -/
  ptr : BitVec 25
  /-- CW_CNT: pending bits, 0 to 7 at a command boundary. -/
  cnt : BitVec 4
  /-- CW_ACC: the pending bits, bit 0 the oldest. -/
  acc : BitVec Config.accW
deriving DecidableEq, Repr

/-- The code reader's registers (R30). -/
structure CrRegs where
  /-- CR_LEN: length of the input in bytes. -/
  len : BitVec 25
  /-- CR_BITPOS: stream bits consumed. -/
  bitpos : BitVec 28
deriving DecidableEq, Repr

/-- The encoder's session registers (R33) and run registers (R36). -/
structure EncRegs where
  bpp    : BitVec 4
  clear  : BitVec 9
  eoi    : BitVec 9
  w      : BitVec 4
  limit  : BitVec 13
  next   : BitVec 13
  cur    : BitVec 12
  n      : BitVec 25
  i      : BitVec 25
  ncodes : BitVec 32
deriving DecidableEq, Repr

/-- DEC_PHASE, the decoder's control state (R38). -/
inductive DecPhase where
  | init | first | run | done | fault
deriving DecidableEq, Repr

/-- The decoder's session registers (R37) and its control state (R38). -/
structure DecRegs where
  bpp   : BitVec 4
  clear : BitVec 9
  eoi   : BitVec 9
  w     : BitVec 4
  limit : BitVec 13
  next  : BitVec 13
  prev  : BitVec 12
  out   : BitVec 25
  phase : DecPhase
deriving DecidableEq, Repr

/-- The pixel-address translator's registers (R41). -/
structure PaRegs where
  depth  : Depth
  width  : BitVec 24
  height : BitVec 24
  order  : RowOrder
deriving DecidableEq, Repr

/-- The width of a host access (R63: 8 bits for the memories, 32 bits for the registers; the others are refused). -/
inductive AccessWidth where
  | bits8 | bits16 | bits32 | bits64
deriving DecidableEq, Repr

/-- What the world outside the block can do to it: a host access at an offset from the instance's base address (R62,
R63), with the data of a write in the low bits, or the hardware reset (R270). -/
inductive HostEvent where
  | read  (width : AccessWidth) (offset : Nat)
  | write (width : AccessWidth) (offset : Nat) (data : BitVec 64)
  | hardwareReset
deriving DecidableEq, Repr

/-- What the last host read returned. -/
inductive HostReply where
  | none
  | byte (value : BitVec 8)
  | word (value : BitVec 32)
deriving DecidableEq, Repr

/-- The state of one instance. The last three fields are the model's own: the host's pending accesses, what the last
read returned, and the counter that makes free values fresh. -/
structure State where
  /-- STATUS.ERR (R23). -/
  err : BitVec 8
  /-- STATUS.BUSY (R23). -/
  busy : Bool
  /-- ERRINFO (R24). -/
  errInfo : Word32
  /-- RES0 (R21). -/
  res0 : Word64
  /-- RES1 (R21). -/
  res1 : Word64
  /-- The CMD_LO latch (R26). -/
  cmdLo : Word32
  /-- The CMD_HI latch (R26). -/
  cmdHi : Word32
  /-- PIX_CAP − 1, the highest PIXMEM address: CFG_PIXCAP is hardwired to PIX_CAP (R25), and 1 ≤ PIX_CAP ≤ 2^24 (R9). -/
  pixLast : BitVec 24
  /-- CODE_CAP − 1, the highest CODEMEM address: CFG_CODECAP is hardwired to CODE_CAP (R25). -/
  codeLast : BitVec 24
  /-- CW_PTR, CW_CNT, CW_ACC (R28). -/
  cw : CwRegs
  /-- CR_LEN, CR_BITPOS (R30). -/
  cr : CrRegs
  /-- The string table (R31); an unlisted slot is all zero. -/
  st : Cells StSlot
  /-- The ENC_* registers (R33, R36). -/
  enc : EncRegs
  /-- The DEC_* registers and DEC_PHASE (R37, R38). -/
  dec : DecRegs
  /-- The implicit decode table (R39). -/
  dt : Cells DtEntry
  /-- XSTACK (R40). -/
  xstack : Memory
  /-- XSP (R40). -/
  xsp : BitVec 13
  /-- PA_DEPTH, PA_WIDTH, PA_HEIGHT, PA_ORDER (R41). -/
  pa : PaRegs
  /-- PIXMEM (R42, R60). -/
  pixmem : Memory
  /-- CODEMEM (R42, R60). -/
  codemem : Memory
  /-- The host's pending accesses, oldest first. -/
  inbox : List HostEvent
  /-- What the host's last read returned. -/
  reply : HostReply
  /-- How many times some state became unspecified so far (log entry 3). -/
  freeTick : Nat
deriving DecidableEq, Repr

/-- Why the machine stops. Only a host access that R63 refuses does: a command's errors are next
states (R244), and every command ends (R279). -/
inductive Fault where
  /-- Raised by a host access of a width its window does not admit (R63). Safe: the spec refuses the access. -/
  | busWidth
  /-- Raised by a register-window access whose offset is no multiple of 4 (R63, R68). Safe: the spec refuses it. -/
  | busMisaligned
  /-- Raised by a host access to an offset that is not mapped, or at or beyond a memory's capacity (R62, R63). Safe: the
  spec refuses the access. -/
  | busUnmapped
deriving DecidableEq, Repr

/-- Why an instruction has no next state although the machine is sound. -/
inductive Refusal where
  /-- Raised by an arm of `exec` that has no meaning yet; no arm does. Safe. -/
  | notModelled (mnemonic : String)
deriving DecidableEq, Repr

/-- The state right after reset (R44, R270). The ENC_*, DEC_*, DT, XSTACK and XSP values are unspecified there; the
model names zero and the phase INIT (DESIGN CHOICE, log entry 4). The capacities are parameters (log entry 1). -/
def State.reset : State where
  err := 0#8
  busy := false
  errInfo := 0#32
  res0 := 0#64
  res1 := 0#64
  cmdLo := 0#32
  cmdHi := 0#32
  pixLast := Config.resetPixLast
  codeLast := Config.resetCodeLast
  cw := ⟨0#25, 0#4, 0⟩
  cr := ⟨0#25, 0#28⟩
  st := []
  enc := ⟨0#4, 0#9, 0#9, 0#4, 0#13, 0#13, 0#12, 0#25, 0#25, 0#32⟩
  dec := ⟨0#4, 0#9, 0#9, 0#4, 0#13, 0#13, 0#12, 0#25, .init⟩
  dt := []
  xstack := []
  xsp := 0#13
  pa := ⟨.bpp8, 0#24, 0#24, .bottomToTop⟩
  pixmem := []
  codemem := []
  inbox := []
  reply := .none
  freeTick := 0

end Sys2Proof.Machine
end

