-- ==== Sys2Proof/Machine/Flags.lean ====
section
/-! DEFINITION. STATUS and ERRINFO, the only flags of the block (R13, R23, R24), and the error codes (R240). No command
sets a flag from a result: there is no condition code to compute. -/

namespace Sys2Proof.Machine

/-- The errors of R240. -/
inductive ErrorKind where
  | illegalCommand | badWidth | badDepth | range | noMoreCode | notAClearCode | notAPixel
  | codeOverflow | pixOverflow | pixelValue | undefinedEntry | expansionOverflow | tableFull
deriving DecidableEq, Repr

/-- The code of each error (R240). -/
def ErrorKind.code : ErrorKind → BitVec 8
  | .illegalCommand => 0x01#8
  | .badWidth => 0x02#8
  | .badDepth => 0x03#8
  | .range => 0x04#8
  | .noMoreCode => 0x05#8
  | .notAClearCode => 0x06#8
  | .notAPixel => 0x07#8
  | .codeOverflow => 0x08#8
  | .pixOverflow => 0x09#8
  | .pixelValue => 0x0A#8
  | .undefinedEntry => 0x0B#8
  | .expansionOverflow => 0x0C#8
  | .tableFull => 0x0D#8

/-- What RANGE was raised for (R240). -/
inductive RangeCause where
  | x | y | bit | colour | depth24 | len
deriving DecidableEq, Repr

/-- The RANGE sub-codes (R240). -/
def RangeCause.subCode : RangeCause → Nat
  | .x => 1
  | .y => 2
  | .bit => 3
  | .colour => 4
  | .depth24 => 5
  | .len => 6

/-- An error on its way to STATUS: `raise E(info)` of R11 before it has taken effect. -/
structure Raise where
  kind : ErrorKind
  info : Nat
deriving DecidableEq, Repr

/-- `RANGE(sub-code)` (R240). -/
def Raise.range (c : RangeCause) : Raise := ⟨.range, c.subCode⟩

/-- STATUS as the host reads it: ERR in [7:0], BUSY in [8], zeros above (R23). -/
def State.status (s : State) : Word32 := 0#23 ++ (BitVec.ofBool s.busy ++ s.err)

end Sys2Proof.Machine
end

