-- ==== Sys2Proof/Machine/Ops.lean ====
section
/-! DEFINITION. The named operations every meaning is built from: sparse storage, the registers and memories, raising and
clearing an error, and what becomes unspecified after a run or a failed command. -/

namespace Sys2Proof.Machine

/-- What one step of the machine answers. -/
abbrev Outcome := Host.Outcome State Fault Refusal

/-! ## Sparse storage -/

/-- The value at an index. -/
def Cells.read {α : Type} (default : α) : Cells α → Nat → α
  | [], _ => default
  | (k, v) :: m, a => if a = k then v else Cells.read default m a

/-- Store a value at an index, keeping the canonical form: writing what an unlisted index reads removes the entry. -/
def Cells.write {α : Type} [DecidableEq α] (default : α) : Cells α → Nat → α → Cells α
  | [], a, v => if v = default then [] else [(a, v)]
  | (k, w) :: m, a, v =>
      if a < k then (if v = default then (k, w) :: m else (a, v) :: (k, w) :: m)
      else if a = k then (if v = default then m else (a, v) :: m)
      else (k, w) :: Cells.write default m a v

/-- Lay unspecified contents over the indexes from `lo` up to and excluding `hi`; the others keep their values. -/
def Cells.overlay {α : Type} [DecidableEq α] (default : α) (lo hi : Nat) (m : Cells α) (free : Cells α) : Cells α :=
  free.foldl (fun m c => if lo ≤ c.1 ∧ c.1 < hi then Cells.write default m c.1 c.2 else m) m

/-! ## Registers and memories -/

/-- PIX_CAP (R9): the capacity of PIXMEM in bytes. -/
def State.pixCap (s : State) : Nat := s.pixLast.toNat + 1

/-- CODE_CAP (R9): the capacity of CODEMEM in bytes. -/
def State.codeCap (s : State) : Nat := s.codeLast.toNat + 1

@[simps] def State.setError (s : State) (err : BitVec 8) (info : Word32) (busy : Bool) : State :=
  { s with err := err, errInfo := info, busy := busy }

@[simps] def State.setBusy (s : State) (v : Bool) : State := { s with busy := v }

@[simps] def State.setRes0 (s : State) (v : Word64) : State := { s with res0 := v }

@[simps] def State.setRes1 (s : State) (v : Word64) : State := { s with res1 := v }

@[simps] def State.setCmdLo (s : State) (v : Word32) : State := { s with cmdLo := v }

@[simps] def State.setCmdHi (s : State) (v : Word32) : State := { s with cmdHi := v }

@[simps] def State.setCw (s : State) (v : CwRegs) : State := { s with cw := v }

@[simps] def State.setCr (s : State) (v : CrRegs) : State := { s with cr := v }

@[simps] def State.setSt (s : State) (v : Cells StSlot) : State := { s with st := v }

@[simps] def State.setEnc (s : State) (v : EncRegs) : State := { s with enc := v }

@[simps] def State.setDec (s : State) (v : DecRegs) : State := { s with dec := v }

@[simps] def State.setDt (s : State) (v : Cells DtEntry) : State := { s with dt := v }

@[simps] def State.setXstack (s : State) (v : Memory) (sp : BitVec 13) : State := { s with xstack := v, xsp := sp }

@[simps] def State.setPa (s : State) (v : PaRegs) : State := { s with pa := v }

@[simps] def State.setPixmem (s : State) (v : Memory) : State := { s with pixmem := v }

@[simps] def State.setCodemem (s : State) (v : Memory) : State := { s with codemem := v }

@[simps] def State.setInbox (s : State) (v : List HostEvent) : State := { s with inbox := v }

@[simps] def State.setReply (s : State) (v : HostReply) : State := { s with reply := v }

@[simps] def State.setFreeTick (s : State) (v : Nat) : State := { s with freeTick := v }

/-- The byte at an address of a byte memory; an unlisted address reads 0 (R42). -/
def Memory.read (m : Memory) (a : Nat) : Byte := Cells.read (α := BitVec 8) 0#8 m a

/-- Store a byte. -/
def Memory.write (m : Memory) (a : Nat) (v : Byte) : Memory := Cells.write (α := BitVec 8) 0#8 m a v

/-- `MemRead(PIX, a)` (R11); its callers keep a below PIX_CAP (R69). -/
def State.readPix (s : State) (a : Nat) : Byte := Memory.read s.pixmem a

/-- `MemRead(CODE, a)` (R11); its callers keep a below CODE_CAP (R69, R120). -/
def State.readCode (s : State) (a : Nat) : Byte := Memory.read s.codemem a

/-- `MemWrite(PIX, a, v)` (R11); its callers check a against PIX_CAP first. -/
def State.writePix (s : State) (a : Nat) (v : Byte) : State := s.setPixmem (Memory.write s.pixmem a v)

/-- `MemWrite(CODE, a, v)` (R11); its callers check a against CODE_CAP first. -/
def State.writeCode (s : State) (a : Nat) (v : Byte) : State := s.setCodemem (Memory.write s.codemem a v)

/-- The slot of the string table at an index (R31). -/
def State.readSlot (s : State) (i : BitVec 12) : StSlot := Cells.read StSlot.empty s.st i.toNat

/-- Write a slot of the string table (R31). -/
def State.writeSlot (s : State) (i : BitVec 12) (v : StSlot) : State :=
  s.setSt (Cells.write StSlot.empty s.st i.toNat v)

/-- The entry of the decode table for a code (R39). -/
def State.readEntry (s : State) (k : Nat) : DtEntry := Cells.read DtEntry.empty s.dt k

/-- Write an entry of the decode table (R39). -/
def State.writeEntry (s : State) (k : Nat) (v : DtEntry) : State := s.setDt (Cells.write DtEntry.empty s.dt k v)

/-- `XSTACK[XSP] <- p; XSP <- XSP + 1` (R184). -/
def State.pushX (s : State) (p : Byte) : State :=
  s.setXstack (Memory.write s.xstack s.xsp.toNat p) (s.xsp + 1#13)

/-- Bit k of a byte memory read as a code stream (R12): `B[k div 8][k mod 8]`. -/
def streamBit (m : Memory) (k : Nat) : Nat := ((Memory.read m (k / 8)).toNat >>> (k % 8)) % 2

/-- `StreamBits(B, p, w)` (R12): the sum of `bit (p+i) · 2^i` over i < w. -/
def streamBits (m : Memory) (p : Nat) : Nat → Nat
  | 0 => 0
  | w + 1 => streamBits m p w + streamBit m (p + w) * 2 ^ w

/-! ## Errors -/

/-- Error entry, `raise E(info)` (R244): ERR and ERRINFO take the error, BUSY becomes 0, and nothing else changes. There
is no vector, no handler and no saved state. -/
def raise (r : Raise) (s : State) : State := s.setError r.kind.code (zext32 r.info) false

/-- The return from an error (R111, R247): ERR and ERRINFO become 0; nothing else is restored. -/
def clearError (s : State) : State := s.setError 0#8 0#32 s.busy

/-- While ERR is not 0 a command other than CLRERR is ignored and changes no state (R245). -/
def unlessError (s : State) (command : Outcome) : Outcome := if s.err = 0#8 then command else .next s

/-! ## State that becomes unspecified -/

/-- The unspecified value of the byte memory at `site` from `lo` up to `hi`, over what it held. -/
def freeMemory (site : Config.FreeSite) (tick lo hi : Nat) (m : Memory) : Memory :=
  Cells.overlay (α := BitVec 8) 0#8 lo hi m (Config.freeBytes site tick)

/-- Any value of CW_PTR, CW_CNT and CW_ACC (R246). -/
def freeCw (t : Nat) : CwRegs :=
  ⟨Config.freeBits .cwPtr t 25, Config.freeBits .cwCnt t 4, Config.freeBits .cwAcc t Config.accW⟩

/-- Any value of CR_LEN and CR_BITPOS (R246). -/
def freeCr (t : Nat) : CrRegs := ⟨Config.freeBits .crLen t 25, Config.freeBits .crBitpos t 28⟩

/-- Any contents of the string table (R246). -/
def freeSt (t : Nat) : Cells StSlot :=
  Cells.overlay StSlot.empty 0 Config.stSlots []
    ((Config.freeSlots t).map fun c => (c.1, ⟨c.2.1, c.2.2.1, c.2.2.2⟩))

/-- Any value of the ENC_* registers (R35, R36). -/
def freeEnc (t : Nat) : EncRegs where
  bpp := Config.freeBits .encBpp t 4
  clear := Config.freeBits .encClear t 9
  eoi := Config.freeBits .encEoi t 9
  w := Config.freeBits .encW t 4
  limit := Config.freeBits .encLimit t 13
  next := Config.freeBits .encNext t 13
  cur := Config.freeBits .encCur t 12
  n := Config.freeBits .encN t 25
  i := Config.freeBits .encI t 25
  ncodes := Config.freeBits .encNcodes t 32

/-- A phase from three free bits; each of the five is among its values. -/
def DecPhase.ofBits (b : BitVec 3) : DecPhase :=
  if b = 0#3 then .init else if b = 1#3 then .first else if b = 2#3 then .run else if b = 3#3 then .done else .fault

/-- Any value of the DEC_* registers and DEC_PHASE (R37, R38). -/
def freeDec (t : Nat) : DecRegs where
  bpp := Config.freeBits .decBpp t 4
  clear := Config.freeBits .decClear t 9
  eoi := Config.freeBits .decEoi t 9
  w := Config.freeBits .decW t 4
  limit := Config.freeBits .decLimit t 13
  next := Config.freeBits .decNext t 13
  prev := Config.freeBits .decPrev t 12
  out := Config.freeBits .decOut t 25
  phase := DecPhase.ofBits (Config.freeBits .decPhase t 3)

/-- Any contents of the decode table (R39). -/
def freeDt (t : Nat) : Cells DtEntry :=
  Cells.overlay DtEntry.empty 0 Config.dtEntries [] ((Config.freeEntries t).map fun c => (c.1, ⟨c.2.1, c.2.2⟩))

/-- The ENC_* registers are unspecified after an ENC_RUN (R35, R36, R166). That the DEC_* registers, DT and XSTACK keep their
values over it is the model's choice (log entry 18). -/
def forgetEnc (s : State) : State := { s with enc := freeEnc s.freeTick, freeTick := s.freeTick + 1 }

/-- The DEC_* registers, DT and XSTACK are unspecified after a DEC_RUN (R37 to R40, R191). That the ENC_* registers keep their
values over it is the model's choice (log entry 18). -/
def forgetDec (s : State) : State :=
  { s with
    dec := freeDec s.freeTick
    dt := freeDt s.freeTick
    xstack := freeMemory .xstack s.freeTick 0 Config.xstackDepth []
    xsp := Config.freeBits .xsp s.freeTick 13
    freeTick := s.freeTick + 1 }

/-- CW_WRITE or CW_END fails while it executes (R246): CODEMEM from the CW_PTR the command started with, CW and RES0
become unspecified; everything else is as it was when the command started. -/
def failCw (r : Raise) (s : State) : State :=
  raise r { s with
    codemem := freeMemory .codemem s.freeTick s.cw.ptr.toNat s.codeCap s.codemem
    cw := freeCw s.freeTick
    res0 := Config.freeBits .res0 s.freeTick 64
    freeTick := s.freeTick + 1 }

/-- ENC_RUN fails while it executes (R246): all of CODEMEM, CW, ST, RES0 and RES1 become unspecified, and the ENC_*
registers as after every ENC_RUN (`forgetEnc`; log entry 18). -/
def failEnc (r : Raise) (s : State) : State :=
  raise r (forgetEnc { s with
    codemem := freeMemory .codemem s.freeTick 0 s.codeCap s.codemem
    cw := freeCw s.freeTick
    st := freeSt s.freeTick
    res0 := Config.freeBits .res0 s.freeTick 64
    res1 := Config.freeBits .res1 s.freeTick 64 })

/-- DEC_RUN fails while it executes (R246): all of PIXMEM, CR, RES0 and RES1 become unspecified, and the DEC_* registers,
DT and XSTACK as after every DEC_RUN (`forgetDec`; log entry 18). -/
def failDec (r : Raise) (s : State) : State :=
  raise r (forgetDec { s with
    pixmem := freeMemory .pixmem s.freeTick 0 s.pixCap s.pixmem
    cr := freeCr s.freeTick
    res0 := Config.freeBits .res0 s.freeTick 64
    res1 := Config.freeBits .res1 s.freeTick 64 })

end Sys2Proof.Machine
end

