-- ==== Sys2Proof/Machine/Control.lean ====
section
/-! DEFINITION. The control commands (40_control.md): NOP and CLRERR. -/

namespace Sys2Proof.Machine

/-- NOP (R110): no state changes. -/
def execNop (s : State) : Outcome := unlessError s (.next s)

/-- CLRERR (R111): the only command executed while ERR is not 0. -/
def execClrerr (s : State) : Outcome := .next (clearError s)

end Sys2Proof.Machine
end

