-- ==== Sys2Proof/Machine/Operands.lean ====
section
/-! DEFINITION. The operand value checks of R83 and R243, and the helper functions of 46_pixel_address.md section 1. Every
operand is a field of the command word, used as an unsigned number (R82); there is no other operand form. -/

namespace Sys2Proof.Machine

/-- WIDTH is legal (R82, R83): 1 ≤ WIDTH ≤ 12. -/
abbrev legalWidth (w : BitVec 4) : Prop := 1 ≤ w.toNat ∧ w.toNat ≤ 12

/-- BPP is legal for ENC_RUN and DEC_RUN (R83): 1 ≤ BPP ≤ 8. -/
abbrev legalBpp (b : BitVec 4) : Prop := 1 ≤ b.toNat ∧ b.toNat ≤ 8

/-- `bpp(d)`: bits per pixel of a depth. -/
def bitsPerPixel : Depth → Nat
  | .bpp1 => 1
  | .bpp4 => 4
  | .bpp8 => 8
  | .bpp24 => 24

/-- `IMASK(d)`: the colour-index mask; none at 24 bpp. -/
def colourMask : Depth → Option (BitVec 8)
  | .bpp1 => some 0x01#8
  | .bpp4 => some 0x0F#8
  | .bpp8 => some 0xFF#8
  | .bpp24 => none

/-- `LEGALBIT(d, k)`. -/
def legalBit (d : Depth) (k : BitVec 4) : Bool :=
  match d with
  | .bpp1 => decide (k.toNat ≤ 7)
  | .bpp4 => decide (k.toNat = 0) || decide (k.toNat = 4)
  | .bpp8 => decide (k.toNat = 0)
  | .bpp24 => false

/-- `RowLen()`: bytes in a row, without padding (R211, R221). -/
def rowLen (pa : PaRegs) : Nat :=
  match pa.depth with
  | .bpp1 => (pa.width.toNat + 7) / 8
  | .bpp4 => (pa.width.toNat + 1) / 2
  | .bpp8 => pa.width.toNat
  | .bpp24 => 3 * pa.width.toNat

/-- `RowIdx(y)`. -/
def rowIdx (pa : PaRegs) (y : BitVec 24) : Nat :=
  match pa.order with
  | .bottomToTop => pa.height.toNat - 1 - y.toNat
  | .topToBottom => y.toNat

/-- `ColByte(x)`. -/
def colByte (d : Depth) (x : BitVec 24) : Nat :=
  match d with
  | .bpp1 => x.toNat / 8
  | .bpp4 => x.toNat / 2
  | .bpp8 => x.toNat
  | .bpp24 => 3 * x.toNat

/-- `BitOff(x)`: the leftmost pixel of a byte takes its highest-order bits (R213, the spec's default of parameter P6; log
entry 9), and 0 at 24 bpp (R212). -/
def bitOff (d : Depth) (x : BitVec 24) : Nat :=
  match d with
  | .bpp1 => 7 - x.toNat % 8
  | .bpp4 => if x.toNat % 2 = 0 then 4 else 0
  | .bpp8 => 0
  | .bpp24 => 0

end Sys2Proof.Machine
end

