-- ==== Sys2Proof/Machine/CodeReader.lean ====
section
/-! DEFINITION. The code reader (41_code_reader.md): CR_OPEN, CR_READ and the read primitive that DEC_RUN shares. -/

namespace Sys2Proof.Machine

/-- `CR_Read(w)` (R120): the next w-bit code of the stream in CODEMEM as it stands, and the state past it; `none` is
EXHAUSTED, which changes nothing. -/
def crRead (w : Nat) (s : State) : Option (BitVec 12 × State) :=
  if 8 * s.cr.len.toNat < s.cr.bitpos.toNat + w then none
  else some (BitVec.ofNat 12 (streamBits s.codemem s.cr.bitpos.toNat w),
    s.setCr { s.cr with bitpos := BitVec.ofNat 28 (s.cr.bitpos.toNat + w) })

/-- Attach the reader to CODEMEM[0 .. len−1] (R121, R182). -/
def crOpen (len : Nat) (s : State) : State := s.setCr ⟨BitVec.ofNat 25 len, 0#28⟩

/-- CR_OPEN (R121). -/
def execCrOpen (len : BitVec 32) (s : State) : Outcome :=
  unlessError s <|
    if s.codeCap < len.toNat then .next (raise (.range .len) s)
    else .next (crOpen len.toNat s)

/-- The code of a read that reaches past CODE_CAP, of which CODEMEM holds the first bits alone: the others are bytes that
do not exist (R11 refuses them), so each is a free bit. Only an unspecified CR_LEN leads here (R246, log entry 7). -/
def crPastCap (w : Nat) (s : State) : Nat :=
  let held := 8 * s.codeCap - s.cr.bitpos.toNat
  streamBits s.codemem s.cr.bitpos.toNat held +
    2 ^ held * ((Config.freeBits .crCode s.freeTick 12).toNat % 2 ^ (w - held))

/-- RES0 of CR_READ (R122): the code read from CODEMEM, or what a read past CODE_CAP answers. -/
def crResult (w : Nat) (code : BitVec 12) (s t : State) : State :=
  if s.cr.bitpos.toNat + w ≤ 8 * s.codeCap then t.setRes0 (zext64 code.toNat)
  else (t.setRes0 (zext64 (crPastCap w s))).setFreeTick (s.freeTick + 1)

/-- CR_READ (R122): RES0 is the code and RES1 the new CR_BITPOS. -/
def execCrRead (width : BitVec 4) (s : State) : Outcome :=
  unlessError s <|
    if ¬ legalWidth width then .next (raise ⟨.badWidth, width.toNat⟩ s)
    else match crRead width.toNat s with
      | none => .next (raise ⟨.noMoreCode, s.cr.bitpos.toNat⟩ s)
      | some (code, t) => .next ((crResult width.toNat code s t).setRes1 (zext64 t.cr.bitpos.toNat))

end Sys2Proof.Machine
end

