-- ==== Sys2Proof/Machine/Decoder.lean ====
section
/-! DEFINITION. The LZW decoder (45_lzw_decoder.md): DEC_RUN as the micro-steps of R180 to R190, run as one transition. -/

namespace Sys2Proof.Machine

/-- `DEC_InitSession()` (R181). DT keeps its entries: those at or above DEC_NEXT are undefined and never read (R39). -/
def decInitSession (s : State) : State :=
  s.setDec { s.dec with
    w := s.dec.bpp + 1#4
    limit := BitVec.ofNat 13 (2 ^ (s.dec.bpp.toNat + 1))
    next := BitVec.ofNat 13 (s.dec.clear.toNat + 2) }

/-- The reader and the session at the start of a run, before the opening code is read (R182). -/
def dBegin (n : Nat) (s : State) : State :=
  let s := crOpen n s
  let s := s.setDec { s.dec with
    phase := .init
    clear := BitVec.ofNat 9 (2 ^ s.dec.bpp.toNat)
    eoi := BitVec.ofNat 9 (2 ^ s.dec.bpp.toNat + 1) }
  let s := decInitSession s
  s.setDec { s.dec with out := 0#25 }

/-- `D_INIT(n)` (R182): the opening code must be CLEAR. -/
def dInit (n : Nat) (s : State) : Except Raise State :=
  match crRead (dBegin n s).dec.w.toNat (dBegin n s) with
  | none => .error ⟨.noMoreCode, (dBegin n s).cr.bitpos.toNat⟩
  | some (r, s) =>
    if r.toNat ≠ s.dec.clear.toNat then .error ⟨.notAClearCode, r.toNat⟩
    else .ok (s.setDec { s.dec with phase := .first })

/-- The loop of `Expand(k0)` (R184) at code k, with so much room left in XSTACK (4096 − XSP). -/
def expandFrom (k0 : BitVec 12) : Nat → BitVec 12 → State → Except Raise State
  | 0, k, s =>
    if s.dec.clear.toNat ≤ k.toNat ∧ (k.toNat ≤ s.dec.eoi.toNat ∨ s.dec.next.toNat ≤ k.toNat) then
      .error ⟨.undefinedEntry, k.toNat⟩
    else .error ⟨.expansionOverflow, k0.toNat⟩
  | room + 1, k, s =>
    if k.toNat < s.dec.clear.toNat then .ok (s.pushX (k.setWidth 8))
    else if k.toNat ≤ s.dec.eoi.toNat ∨ s.dec.next.toNat ≤ k.toNat then .error ⟨.undefinedEntry, k.toNat⟩
    else expandFrom k0 room (s.readEntry k.toNat).pre (s.pushX (s.readEntry k.toNat).suf)

/-- The pixels in XSTACK, the outermost (last pushed) first (R184). -/
def xstackPixels (s : State) : List Byte := (List.range s.xsp.toNat).reverse.map (Memory.read s.xstack)

/-- `Expand(k0)` (R184): the pixels of a code, first pixel first. -/
def expand (k0 : BitVec 12) (s : State) : Except Raise (List Byte × State) := do
  let s ← expandFrom k0 Config.xstackDepth k0 (s.setXstack s.xstack 0#13)
  .ok (xstackPixels s, s)

/-- `D_Emit(p)` (R190). -/
def dEmit (p : Byte) (s : State) : Except Raise State :=
  if s.pixCap ≤ s.dec.out.toNat then .error ⟨.pixOverflow, s.dec.out.toNat⟩
  else .ok ((s.writePix s.dec.out.toNat p).setDec { s.dec with out := s.dec.out + 1#25 })

/-- `D_EmitSeq(s)` (R190). -/
def dEmitSeq : List Byte → State → Except Raise State
  | [], s => .ok s
  | p :: ps, s => do
    let s ← dEmit p s
    dEmitSeq ps s

/-- `D_AddEntry(first)` (R188): the table freezes at 4096 entries. -/
def dAddEntry (first : Byte) (s : State) : State :=
  if s.dec.next.toNat < Config.dtEntries then
    (s.writeEntry s.dec.next.toNat ⟨s.dec.prev, first⟩).setDec { s.dec with next := s.dec.next + 1#13 }
  else s

/-- `D_Clear()` (R185). -/
def dClear (s : State) : Except Raise State :=
  match crRead (decInitSession s).dec.w.toNat (decInitSession s) with
  | none => .ok ((decInitSession s).setDec { (decInitSession s).dec with phase := .done })
  | some (r, s) =>
    if s.dec.clear.toNat ≤ r.toNat then .error ⟨.notAPixel, r.toNat⟩
    else do
      let s ← dEmit (r.setWidth 8) s
      .ok (s.setDec { s.dec with prev := r, phase := .run })

/-- `D_First(c)` (R186). -/
def dFirst (c : BitVec 12) (s : State) : Except Raise State :=
  if s.dec.clear.toNat ≤ c.toNat then .error ⟨.notAPixel, c.toNat⟩
  else do
    let s ← dEmit (c.setWidth 8) s
    .ok (s.setDec { s.dec with prev := c, phase := .run })

/-- The end of the KwKwK case of `D_Code` (R187): the first pixel is emitted again; a known code emits nothing more. -/
def dRepeat (known : Bool) (first : Byte) (s : State) : Except Raise State :=
  if known then .ok s else dEmit first s

/-- `D_Code(c)` (R187): a code below the next free one is expanded; one at or above it is the KwKwK case. -/
def dCode (c : BitVec 12) (s : State) : Except Raise State := do
  let known := decide (c.toNat < s.dec.next.toNat)
  let (pixels, s) ← expand (if known then c else s.dec.prev) s
  let s ← dEmitSeq pixels s
  let s ← dRepeat known (pixels.headD 0#8) s
  let s := dAddEntry (pixels.headD 0#8) s
  .ok (s.setDec { s.dec with prev := c })

/-- `D_Grow()` (R189). -/
def dGrow (s : State) : State :=
  if s.dec.limit.toNat ≤ s.dec.next.toNat ∧ s.dec.w.toNat < Config.maxCodeWidth then
    s.setDec { s.dec with w := s.dec.w + 1#4, limit := s.dec.limit <<< 1 }
  else s

/-- The three cases of `D_STEP` for a code that is not EOI (R183). -/
def dHandle (r : BitVec 12) (s : State) : Except Raise State :=
  if r.toNat = s.dec.clear.toNat then dClear s
  else if s.dec.phase = .first then dFirst r s
  else dCode r s

/-- `D_STEP` (R183). -/
def dStep (s : State) : Except Raise State :=
  match crRead s.dec.w.toNat s with
  | none => .ok (s.setDec { s.dec with phase := .done })
  | some (r, s) =>
    if r.toNat = s.dec.eoi.toNat then .ok (s.setDec { s.dec with phase := .done })
    else do
      let s ← dHandle r s
      .ok (if s.dec.phase = .done then s else dGrow s)

/-- The loop of DEC_RUN (R180): `while DEC_PHASE = FIRST or DEC_PHASE = RUN: D_STEP`, in at most so many turns. Every turn
that does not end the run consumes at least 2 stream bits, so 4·LEN + 1 turns are enough (R194). -/
def dLoop : Nat → State → Except Raise State
  | 0, s => .ok s
  | k + 1, s =>
    if s.dec.phase = .first ∨ s.dec.phase = .run then do
      let s ← dStep s
      dLoop k s
    else .ok s

/-- The run of R180 after its operand checks. -/
def decRun (b : BitVec 4) (n : Nat) (s : State) : Except Raise State := do
  let s := s.setDec { s.dec with bpp := b }
  let s ← dInit n s
  let s ← dLoop (4 * n + 1) s
  .ok ((s.setRes0 (zext64 s.dec.out.toNat)).setRes1 (zext64 s.cr.bitpos.toNat))

/-- DEC_RUN (R180). After the run the DEC_* registers, DT and XSTACK are unspecified (R191). A raise inside the run sets
DEC_PHASE to FAULT (R194), which is part of what is unspecified once the run has ended. -/
def execDecRun (bpp : BitVec 4) (len : BitVec 32) (s : State) : Outcome :=
  unlessError s <|
    if ¬ legalBpp bpp then .next (raise ⟨.badDepth, bpp.toNat⟩ s)
    else if s.codeCap < len.toNat then .next (raise (.range .len) s)
    else match decRun bpp len.toNat s with
      | .ok t => .next (forgetDec t)
      | .error r => .next (failDec r s)

end Sys2Proof.Machine
end

