-- ==== Sys2Proof/Machine/CodeWriter.lean ====
section
/-! DEFINITION. The code writer (42_code_writer.md): CW_RESET, CW_WRITE, CW_END and the primitives that ENC_RUN shares. -/

namespace Sys2Proof.Machine

/-- `CW_EmitByte(v)` (R131). CODE_OVERFLOW is raised at every address that CODEMEM does not have (R11), not at CODE_CAP
alone: a CW_PTR above CODE_CAP is possible only after an error left it unspecified (R246, log entry 8). -/
def cwEmitByte (v : Byte) (s : State) : Except Raise State :=
  if s.codeCap ≤ s.cw.ptr.toNat then .error ⟨.codeOverflow, s.cw.ptr.toNat⟩
  else .ok ((s.writeCode s.cw.ptr.toNat v).setCw { s.cw with ptr := s.cw.ptr + 1#25 })

/-- The loop of `CW_Write` (R133): as many turns as whole bytes are pending. -/
def cwDrain : Nat → State → Except Raise State
  | 0, s => .ok s
  | k + 1, s => do
    let s ← cwEmitByte (s.cw.acc.setWidth 8) s
    cwDrain k (s.setCw { s.cw with acc := s.cw.acc >>> 8 })

/-- `CW_Write(code, w)` (R133): append the low w bits of the code. CW_CNT exceeds its register only inside the loop. -/
def cwWrite (code w : Nat) (s : State) : Except Raise State := do
  let pending := s.cw.cnt.toNat + w
  let acc := s.cw.acc ||| (BitVec.ofNat Config.accW (code % 2 ^ w) <<< s.cw.cnt.toNat)
  let s ← cwDrain (pending / 8) (s.setCw { s.cw with acc := acc })
  .ok (s.setCw { s.cw with cnt := BitVec.ofNat 4 (pending % 8) })

/-- The pending bits as one zero-padded byte, if there are any (R134). -/
def cwFlush (s : State) : Except Raise State :=
  if 0 < s.cw.cnt.toNat then cwEmitByte (s.cw.acc.setWidth 8) s else .ok s

/-- `CW_End()` (R134): flush the pending bits; nothing is pending after. -/
def cwEnd (s : State) : Except Raise State := do
  let s ← cwFlush s
  .ok (s.setCw { s.cw with cnt := 0#4, acc := 0 })

/-- Start an output stream at CODEMEM address 0 (R132, R162). -/
def cwReset (s : State) : State := s.setCw ⟨0#25, 0#4, 0⟩

/-- CW_RESET (R132): pending bits are discarded and CODEMEM is not changed. -/
def execCwReset (s : State) : Outcome := unlessError s (.next (cwReset s))

/-- CW_WRITE (R133). -/
def execCwWrite (code : BitVec 16) (width : BitVec 4) (s : State) : Outcome :=
  unlessError s <|
    if ¬ legalWidth width then .next (raise ⟨.badWidth, width.toNat⟩ s)
    else match cwWrite code.toNat width.toNat s with
      | .ok t => .next (t.setRes0 (zext64 t.cw.ptr.toNat))
      | .error r => .next (failCw r s)

/-- CW_END (R134). -/
def execCwEnd (s : State) : Outcome :=
  unlessError s <|
    match cwEnd s with
    | .ok t => .next (t.setRes0 (zext64 t.cw.ptr.toNat))
    | .error r => .next (failCw r s)

end Sys2Proof.Machine
end

