-- ==== Sys2Proof/Machine/StringTable.lean ====
section
/-! DEFINITION. The string table (43_string_table.md): ST_RESET, ST_SEARCH, ST_ADD and the primitives that ENC_RUN shares. -/

namespace Sys2Proof.Machine

/-- The key of a probe (R141): `(prefix << 8) | suffix`, 20 bits. -/
def stKey (pre : BitVec 12) (suf : BitVec 8) : BitVec 20 := pre ++ suf

/-- `ST_Hash(prefix, suffix)` (R141). -/
def stHash (pre : BitVec 12) (suf : BitVec 8) : BitVec 12 :=
  (stKey pre suf ^^^ (stKey pre suf >>> 12)).setWidth 12

/-- The next slot of a probe sequence (R142): 601 further, modulo 4096. -/
def stNext (i : BitVec 12) : BitVec 12 := i + BitVec.ofNat 12 Config.probeStride

/-- The loop of `ST_Probe` (R143) from slot i with so many slots left to visit; `none` is TABLE_FULL. -/
def stProbeFrom (pre : BitVec 12) (suf : BitVec 8) (s : State) : Nat → BitVec 12 → Option (BitVec 12 × BitVec 12)
  | 0, _ => none
  | k + 1, i =>
    if (s.readSlot i).code = 0#12 then some (0#12, i)
    else if (s.readSlot i).pre = pre ∧ (s.readSlot i).suf = suf then some ((s.readSlot i).code, i)
    else stProbeFrom pre suf s k (stNext i)

/-- `ST_Probe(prefix, suffix)` (R143): the code (0 where the key is absent) and the slot. -/
def stProbe (pre : BitVec 12) (suf : BitVec 8) (s : State) : Option (BitVec 12 × BitVec 12) :=
  stProbeFrom pre suf s Config.stSlots (stHash pre suf)

/-- TABLE_FULL with the probed key (R143, R240). -/
def tableFull (pre : BitVec 12) (suf : BitVec 8) : Raise := ⟨.tableFull, (stKey pre suf).toNat⟩

/-- `ST_Clear()` (R144): every slot of the three arrays becomes 0. -/
def stClear (s : State) : State := s.setSt []

/-- `ST_Write(index, prefix, suffix, code)` (R146). -/
def stWrite (index pre : BitVec 12) (suf : BitVec 8) (code : BitVec 12) (s : State) : State :=
  s.writeSlot index ⟨code, pre, suf⟩

/-- ST_RESET (R144). -/
def execStReset (s : State) : Outcome := unlessError s (.next (stClear s))

/-- ST_SEARCH (R145). -/
def execStSearch (pre : BitVec 12) (suf : BitVec 8) (s : State) : Outcome :=
  unlessError s <|
    match stProbe pre suf s with
    | some (code, index) => .next ((s.setRes0 (zext64 code.toNat)).setRes1 (zext64 index.toNat))
    | none => .next (raise (tableFull pre suf) s)

/-- ST_ADD (R146): every index is a slot, and nothing is checked (R147). -/
def execStAdd (index pre : BitVec 12) (suf : BitVec 8) (code : BitVec 12) (s : State) : Outcome :=
  unlessError s (.next (stWrite index pre suf code s))

end Sys2Proof.Machine
end

