-- ==== Sys2Proof/Machine/Encoder.lean ====
section
/-! DEFINITION. The LZW encoder (44_lzw_encoder.md): ENC_RUN as the micro-steps of R160 to R165, run as one transition. -/

namespace Sys2Proof.Machine

/-- `ENC_InitSession()` (R161). -/
def encInitSession (s : State) : State :=
  stClear (s.setEnc { s.enc with
    w := s.enc.bpp + 1#4
    limit := BitVec.ofNat 13 (2 ^ (s.enc.bpp.toNat + 1))
    next := BitVec.ofNat 13 (s.enc.clear.toNat + 2) })

/-- `E_Emit(c)` (R162): write one code at the current width. -/
def eEmit (c : Nat) (s : State) : Except Raise State := do
  let s ← cwWrite c s.enc.w.toNat s
  .ok (s.setEnc { s.enc with ncodes := s.enc.ncodes + 1#32 })

/-- The session and the writer at the start of a run, before the opening CLEAR (R162). -/
def eBegin (s : State) : State :=
  let s := s.setEnc { s.enc with
    clear := BitVec.ofNat 9 (2 ^ s.enc.bpp.toNat)
    eoi := BitVec.ofNat 9 (2 ^ s.enc.bpp.toNat + 1) }
  let s := cwReset (encInitSession s)
  s.setEnc { s.enc with ncodes := 0#32 }

/-- `E_INIT` for no pixel at all: EOI and the flush (R162). -/
def eEmpty (s : State) : Except Raise State := do
  let s ← eEmit s.enc.eoi.toNat s
  let s ← cwEnd s
  .ok (s.setEnc { s.enc with i := 0#25 })

/-- `E_INIT` for the first pixel: it becomes the current string (R162). -/
def eSeed (s : State) : Except Raise State :=
  if s.enc.clear.toNat ≤ (s.readPix 0).toNat then .error ⟨.pixelValue, 0⟩
  else .ok (s.setEnc { s.enc with cur := (s.readPix 0).setWidth 12, i := 1#25 })

/-- `E_INIT` (R162). -/
def eInit (s : State) : Except Raise State := do
  let s := eBegin s
  let s ← eEmit s.enc.clear.toNat s
  if s.enc.n = 0#25 then eEmpty s else eSeed s

/-- The new entry of `E_Miss` (R164): (current string, pixel) takes ENC_NEXT, in the slot the probe returned. -/
def eEnter (p : Byte) (index : BitVec 12) (s : State) : State :=
  (stWrite index s.enc.cur p (s.enc.next.setWidth 12) s).setEnc { s.enc with next := s.enc.next + 1#13 }

/-- The width test of `E_Miss` (R164): the width grows when the next free code exceeds the limit, up to 12 bits. -/
def eGrow (s : State) : State :=
  if s.enc.limit.toNat < s.enc.next.toNat ∧ s.enc.w.toNat < Config.maxCodeWidth then
    s.setEnc { s.enc with w := s.enc.w + 1#4, limit := s.enc.limit <<< 1 }
  else s

/-- The insertion of `E_Miss` (R164). -/
def eInsert (p : Byte) (index : BitVec 12) (s : State) : State := eGrow (eEnter p index s)

/-- The table-full case of `E_Miss` (R164): CLEAR at the old width, then a new session. -/
def eRestart (s : State) : Except Raise State := do
  let s ← eEmit s.enc.clear.toNat s
  .ok (encInitSession s)

/-- What `E_Miss` does between writing the current string and taking the pixel as the new one (R164). -/
def eExtend (p : Byte) (index : BitVec 12) (s : State) : Except Raise State :=
  if s.enc.next.toNat ≤ Config.maxCode then .ok (eInsert p index s) else eRestart s

/-- `E_Miss(p, idx)` (R164). -/
def eMiss (p : Byte) (index : BitVec 12) (s : State) : Except Raise State := do
  let s ← eEmit s.enc.cur.toNat s
  let s ← eExtend p index s
  .ok (s.setEnc { s.enc with cur := p.setWidth 12 })

/-- The hit and the miss case of `E_STEP` (R163): a found code extends the match. -/
def eLookup (code : BitVec 12) (p : Byte) (index : BitVec 12) (s : State) : Except Raise State :=
  if code ≠ 0#12 then .ok (s.setEnc { s.enc with cur := code }) else eMiss p index s

/-- `E_STEP` (R163): consume pixel ENC_I. -/
def eStep (s : State) : Except Raise State :=
  if s.enc.clear.toNat ≤ (s.readPix s.enc.i.toNat).toNat then .error ⟨.pixelValue, s.enc.i.toNat⟩
  else match stProbe s.enc.cur (s.readPix s.enc.i.toNat) s with
    | none => .error (tableFull s.enc.cur (s.readPix s.enc.i.toNat))
    | some (code, index) => do
      let s ← eLookup code (s.readPix s.enc.i.toNat) index s
      .ok (s.setEnc { s.enc with i := s.enc.i + 1#25 })

/-- The loop of ENC_RUN (R160): `while ENC_I < ENC_N: E_STEP`, in at most so many turns; every turn increments ENC_I, so
ENC_N turns are enough (R168). -/
def eLoop : Nat → State → Except Raise State
  | 0, s => .ok s
  | k + 1, s =>
    if s.enc.i.toNat < s.enc.n.toNat then do
      let s ← eStep s
      eLoop k s
    else .ok s

/-- `E_FINISH` (R165). -/
def eFinish (s : State) : Except Raise State :=
  if s.enc.n = 0#25 then .ok s
  else do
    let s ← eEmit s.enc.cur.toNat s
    let s ← eEmit s.enc.eoi.toNat s
    cwEnd s

/-- The run of R160 after its operand checks. -/
def encRun (b : BitVec 4) (n : Nat) (s : State) : Except Raise State := do
  let s := s.setEnc { s.enc with bpp := b, n := BitVec.ofNat 25 n }
  let s ← eInit s
  let s ← eLoop n s
  let s ← eFinish s
  .ok ((s.setRes0 (zext64 s.cw.ptr.toNat)).setRes1 (zext64 s.enc.ncodes.toNat))

/-- ENC_RUN (R160). After the run the ENC_* registers are unspecified (R166). -/
def execEncRun (bpp : BitVec 4) (len : BitVec 32) (s : State) : Outcome :=
  unlessError s <|
    if ¬ legalBpp bpp then .next (raise ⟨.badDepth, bpp.toNat⟩ s)
    else if s.pixCap < len.toNat then .next (raise (.range .len) s)
    else match encRun bpp len.toNat s with
      | .ok t => .next (forgetEnc t)
      | .error r => .next (failEnc r s)

end Sys2Proof.Machine
end

