-- ==== Sys2Proof/Machine/PixelAddress.lean ====
section
/-! DEFINITION. The pixel-address translator (46_pixel_address.md): pure arithmetic on the PA registers; no PA command
reads or writes a memory. -/

namespace Sys2Proof.Machine

/-- PA_CONFIG (R210). -/
def execPaConfig (depth : Depth) (width height : BitVec 24) (order : RowOrder) (s : State) : Outcome :=
  unlessError s (.next (s.setPa ⟨depth, width, height, order⟩))

/-- PA_ROWLEN (R211). -/
def execPaRowlen (s : State) : Outcome := unlessError s (.next (s.setRes0 (zext64 (rowLen s.pa))))

/-- PA_OFFSET (R212). -/
def execPaOffset (x y : BitVec 24) (s : State) : Outcome :=
  unlessError s <|
    if s.pa.width.toNat ≤ x.toNat then .next (raise (.range .x) s)
    else if s.pa.height.toNat ≤ y.toNat then .next (raise (.range .y) s)
    else .next ((s.setRes0 (zext64 (rowIdx s.pa y * rowLen s.pa + colByte s.pa.depth x))).setRes1
      (zext64 (bitOff s.pa.depth x)))

/-- The colour index at a bit offset of a byte (R214). -/
def extractIndex (mask : BitVec 8) (byte : BitVec 8) (bit : BitVec 4) : BitVec 8 := (byte >>> bit.toNat) &&& mask

/-- The byte with a colour index put at a bit offset (R215). -/
def injectIndex (mask : BitVec 8) (byte : BitVec 8) (bit : BitVec 4) (ci : BitVec 8) : BitVec 8 :=
  (byte &&& ~~~(mask <<< bit.toNat)) ||| (ci <<< bit.toNat)

/-- PA_EXTRACT (R214). -/
def execPaExtract (byte : BitVec 8) (bit : BitVec 4) (s : State) : Outcome :=
  unlessError s <|
    match colourMask s.pa.depth with
    | none => .next (raise (.range .depth24) s)
    | some mask =>
      if legalBit s.pa.depth bit = false then .next (raise (.range .bit) s)
      else .next (s.setRes0 (zext64 (extractIndex mask byte bit).toNat))

/-- PA_INJECT (R215). -/
def execPaInject (byte : BitVec 8) (bit : BitVec 4) (ci : BitVec 8) (s : State) : Outcome :=
  unlessError s <|
    match colourMask s.pa.depth with
    | none => .next (raise (.range .depth24) s)
    | some mask =>
      if legalBit s.pa.depth bit = false then .next (raise (.range .bit) s)
      else if mask.toNat < ci.toNat then .next (raise (.range .colour) s)
      else .next (s.setRes0 (zext64 (injectIndex mask byte bit ci).toNat))

end Sys2Proof.Machine
end

