-- ==== Sys2Proof/Machine/Dispatch.lean ====
section
/-! DEFINITION. `exec`: the effect of one decoded command, one arm per row of the opcode map (R83). -/

namespace Sys2Proof.Machine

-- The value checks and the effect of each row (R112 after the decode); every meaning but CLRERR's begins with R245.
def exec (i : Instr) (s : State) : Host.Outcome State Fault Refusal :=
  match i with
  | .nop => Sys2Proof.Machine.execNop s
  | .clrerr => Sys2Proof.Machine.execClrerr s
  | .cwReset => Sys2Proof.Machine.execCwReset s
  | .cwWrite code width => Sys2Proof.Machine.execCwWrite code width s
  | .cwEnd => Sys2Proof.Machine.execCwEnd s
  | .crOpen len => Sys2Proof.Machine.execCrOpen len s
  | .crRead width => Sys2Proof.Machine.execCrRead width s
  | .stReset => Sys2Proof.Machine.execStReset s
  | .stSearch pre suf => Sys2Proof.Machine.execStSearch pre suf s
  | .stAdd index pre suf code => Sys2Proof.Machine.execStAdd index pre suf code s
  | .encRun bpp len => Sys2Proof.Machine.execEncRun bpp len s
  | .decRun bpp len => Sys2Proof.Machine.execDecRun bpp len s
  | .paConfig depth width height order => Sys2Proof.Machine.execPaConfig depth width height order s
  | .paRowlen => Sys2Proof.Machine.execPaRowlen s
  | .paOffset x y => Sys2Proof.Machine.execPaOffset x y s
  | .paExtract byte bit => Sys2Proof.Machine.execPaExtract byte bit s
  | .paInject byte bit ci => Sys2Proof.Machine.execPaInject byte bit ci s

end Sys2Proof.Machine
end

