-- ==== Sys2Proof/Machine/Issue.lean ====
section
/-! DEFINITION. Command dispatch, `Issue(w)` (R112). -/

namespace Sys2Proof.Machine

/-- The end of a command (R279): BUSY is 0 again. -/
def endCommand (o : Outcome) : Outcome :=
  match o with
  | .next s => .next (s.setBusy false)
  | .fault r => .fault r
  | .refused r => .refused r

/-- A command word that spells no command (R85, R86): ILLEGAL_COMMAND with the OPC, or nothing while ERR is not 0. -/
def issueIllegal (w : Word64) (s : State) : Outcome :=
  unlessError s (.next (raise ⟨.illegalCommand, (opcOf w).toNat⟩ s))

/-- `Issue(w)` (R112): decode, then execute with BUSY = 1 (R23) until the command ends, all in one transition (R64). While
ERR is not 0 only CLRERR has an effect (R245): every other meaning, and `issueIllegal`, leaves the state as it is. -/
def issue (w : Word64) (s : State) : Outcome :=
  endCommand <|
    match decode w with
    | some i => exec i (s.setBusy true)
    | none => issueIllegal w (s.setBusy true)

end Sys2Proof.Machine
end

