-- ==== Sys2Proof/Machine/HostBus.lean ====
section
/-! DEFINITION. What the host and the platform do to an instance: the three windows (R62), the register map (R27), the
accesses R63 admits, and the hardware reset (R270). -/

namespace Sys2Proof.Machine

/-- The registers of the map (R27). -/
inductive HostReg where
  | cmdLo | cmdHi | status | errInfo | res0Lo | res0Hi | res1Lo | res1Hi | cfgPixcap | cfgCodecap
deriving DecidableEq, Repr

/-- The register at an offset of the register window (R27); every other offset is refused. -/
def HostReg.ofOffset (offset : Nat) : Option HostReg :=
  if offset = 0x00 then some .cmdLo
  else if offset = 0x04 then some .cmdHi
  else if offset = 0x08 then some .status
  else if offset = 0x0C then some .errInfo
  else if offset = 0x10 then some .res0Lo
  else if offset = 0x14 then some .res0Hi
  else if offset = 0x18 then some .res1Lo
  else if offset = 0x1C then some .res1Hi
  else if offset = 0x20 then some .cfgPixcap
  else if offset = 0x24 then some .cfgCodecap
  else none

/-- What the host reads in a register (R27): a write-only register reads 0. -/
def readReg (r : HostReg) (s : State) : Word32 :=
  match r with
  | .cmdLo => 0#32
  | .cmdHi => 0#32
  | .status => s.status
  | .errInfo => s.errInfo
  | .res0Lo => s.res0.extractLsb' 0 32
  | .res0Hi => s.res0.extractLsb' 32 32
  | .res1Lo => s.res1.extractLsb' 0 32
  | .res1Hi => s.res1.extractLsb' 32 32
  | .cfgPixcap => zext32 s.pixCap
  | .cfgCodecap => zext32 s.codeCap

/-- What a host write to a register does (R26, R27): CMD_LO latches, CMD_HI latches and issues the command
`{CMD_HI, CMD_LO}`, and a read-only register ignores it. -/
def writeReg (r : HostReg) (v : Word32) (s : State) : Outcome :=
  match r with
  | .cmdLo => .next (s.setCmdLo v)
  | .cmdHi => issue (v ++ s.cmdLo) (s.setCmdHi v)
  | .status => .next s
  | .errInfo => .next s
  | .res0Lo => .next s
  | .res0Hi => .next s
  | .res1Lo => .next s
  | .res1Hi => .next s
  | .cfgPixcap => .next s
  | .cfgCodecap => .next s

/-- The windows of the host address map (R62). -/
inductive Window where
  | registers (offset : Nat)
  | pixmem (address : Nat)
  | codemem (address : Nat)
  | unmapped
deriving DecidableEq, Repr

/-- The window an offset from the instance's base falls into (R62). -/
def windowOf (offset : Nat) (s : State) : Window :=
  if offset < 0x100 then .registers offset
  else if 0x01000000 ≤ offset ∧ offset < 0x01000000 + s.pixCap then .pixmem (offset - 0x01000000)
  else if 0x02000000 ≤ offset ∧ offset < 0x02000000 + s.codeCap then .codemem (offset - 0x02000000)
  else .unmapped

/-- Whether R63 admits an access: 8 bits in a memory, 32 bits at a multiple of 4 in the register window, and there only
at a register of the map. Otherwise the reason, as the host-side bus fault R63 allows a total step to take. -/
def busFault (width : AccessWidth) (offset : Nat) (s : State) : Option Fault :=
  match windowOf offset s with
  | .registers o =>
    if width ≠ .bits32 then some .busWidth
    else if o % 4 ≠ 0 then some .busMisaligned
    else if HostReg.ofOffset o = none then some .busUnmapped
    else none
  | .pixmem _ => if width ≠ .bits8 then some .busWidth else none
  | .codemem _ => if width ≠ .bits8 then some .busWidth else none
  | .unmapped => some .busUnmapped

/-- What an admitted host read returns; it changes no register and no memory (R65). -/
def busRead (offset : Nat) (s : State) : HostReply :=
  match windowOf offset s with
  | .registers o =>
    match HostReg.ofOffset o with
    | some r => .word (readReg r s)
    | none => .none
  | .pixmem a => .byte (s.readPix a)
  | .codemem a => .byte (s.readCode a)
  | .unmapped => .none

/-- What an admitted host write does; only a write to CMD_HI does more than store its value (R65). -/
def busWrite (offset : Nat) (data : BitVec 64) (s : State) : Outcome :=
  match windowOf offset s with
  | .registers o =>
    match HostReg.ofOffset o with
    | some r => writeReg r (data.setWidth 32) s
    | none => .fault .busUnmapped
  | .pixmem a => .next (s.writePix a (data.setWidth 8))
  | .codemem a => .next (s.writeCode a (data.setWidth 8))
  | .unmapped => .fault .busUnmapped

/-- The hardware reset (R270): every piece of state at its reset value. The capacities are parameters and stay (R25); the
host's pending accesses, its last reply and the freshness counter are not the block's. -/
def hardwareReset (s : State) : State :=
  { State.reset with
    pixLast := s.pixLast, codeLast := s.codeLast, inbox := s.inbox, reply := s.reply, freeTick := s.freeTick }

/-- One event of the outside world. -/
def perform (e : HostEvent) (s : State) : Outcome :=
  match e with
  | .read width offset =>
    match busFault width offset s with
    | some f => .fault f
    | none => .next (s.setReply (busRead offset s))
  | .write width offset data =>
    match busFault width offset s with
    | some f => .fault f
    | none => busWrite offset data s
  | .hardwareReset => .next (hardwareReset s)

end Sys2Proof.Machine
end

