-- ==== Sys2Proof/Machine/Step.lean ====
section
/-! DEFINITION. One step of the machine: the oldest pending host access, with the whole command where it issues one. -/

namespace Sys2Proof.Machine

/-- One step. The block fetches nothing (R22, R74): a command runs when the host writes CMD_HI (R26), atomically (R64).
With no access pending the block is idle and holds all state (R256). -/
def step (s : State) : Host.Outcome State Fault Refusal :=
  match s.inbox with
  | [] => .next s
  | e :: rest => perform e (s.setInbox rest)

/-- The state in which the next step issues the command word w: CMD_LO holds its low half and the host's next access
writes its high half to CMD_HI (R26, R275). The bits above nbits are 0. Log entry 6. -/
def State.withFetchWord (s : State) (nbits w : Nat) : State :=
  let word := BitVec.ofNat 64 (w % 2 ^ nbits)
  (s.setCmdLo (word.extractLsb' 0 32)).setInbox
    (.write .bits32 0x04 ((word.extractLsb' 32 32).setWidth 64) :: s.inbox)

end Sys2Proof.Machine
end

