-- ==== Sys2Proof/Safety.lean ====
section
/-! DEFINITION. What a sound state is, in the terms the statements use: the invariants of 10_state.md and the stream views
of the code writer and the code reader. -/

namespace Sys2Proof.Machine

/-- Every memory and table is in its canonical form and inside its capacity (R7, R9, R60). -/
structure State.MemOk (s : State) : Prop where
  pixmem : Memory.wf s.pixCap s.pixmem
  codemem : Memory.wf s.codeCap s.codemem
  st : Cells.wf StSlot.empty Config.stSlots s.st
  dt : Cells.wf DtEntry.empty Config.dtEntries s.dt
  xstack : Memory.wf Config.xstackDepth s.xstack

/-- The error state: ERR holds a code of R240, ERRINFO is 0 whenever ERR is 0 (R111), and no command is running (R23). -/
structure State.ErrOk (s : State) : Prop where
  code : s.err.toNat ≤ 0x0D
  info : s.err = 0#8 → s.errInfo = 0#32
  idle : s.busy = false

/-- The invariant every step keeps. -/
structure State.Inv (s : State) : Prop where
  mem : s.MemOk
  err : s.ErrOk

/-- The code writer at a command boundary (R28). An error that leaves CW unspecified (R246) may break it. -/
structure State.CwOk (s : State) : Prop where
  ptr : s.cw.ptr.toNat ≤ s.codeCap
  cnt : s.cw.cnt.toNat < 8
  acc : s.cw.acc.toNat < 2 ^ s.cw.cnt.toNat

/-- The code reader (R30). An error that leaves CR unspecified (R246) may break it. -/
structure State.CrOk (s : State) : Prop where
  len : s.cr.len.toNat ≤ s.codeCap
  bitpos : s.cr.bitpos.toNat ≤ 8 * s.cr.len.toNat

/-- The encoder's session at a micro-step boundary of a run (R33, R34), with CLEAR and EOI as the run set them (R162). -/
structure State.EncOk (s : State) : Prop where
  bpp : 1 ≤ s.enc.bpp.toNat ∧ s.enc.bpp.toNat ≤ 8
  clear : s.enc.clear.toNat = 2 ^ s.enc.bpp.toNat
  eoi : s.enc.eoi.toNat = s.enc.clear.toNat + 1
  w : s.enc.bpp.toNat + 1 ≤ s.enc.w.toNat ∧ s.enc.w.toNat ≤ 12
  limit : s.enc.limit.toNat = 2 ^ s.enc.w.toNat
  next : s.enc.clear.toNat + 2 ≤ s.enc.next.toNat ∧ s.enc.next.toNat ≤ 4096
  fits : s.enc.next.toNat ≤ s.enc.limit.toNat

/-- The decoder's session at a micro-step boundary of a run (R37). -/
structure State.DecOk (s : State) : Prop where
  bpp : 1 ≤ s.dec.bpp.toNat ∧ s.dec.bpp.toNat ≤ 8
  clear : s.dec.clear.toNat = 2 ^ s.dec.bpp.toNat
  eoi : s.dec.eoi.toNat = s.dec.clear.toNat + 1
  w : s.dec.bpp.toNat + 1 ≤ s.dec.w.toNat ∧ s.dec.w.toNat ≤ 12
  limit : s.dec.limit.toNat = 2 ^ s.dec.w.toNat
  next : s.dec.clear.toNat + 2 ≤ s.dec.next.toNat ∧ s.dec.next.toNat ≤ 4096

/-- The probe sequence of R142: `s_k = (h + 601·k) mod 4096`. -/
def probeSlot (h : BitVec 12) (k : Nat) : BitVec 12 := BitVec.ofNat 12 (h.toNat + Config.probeStride * k)

/-- A slot that a probe of a key passes over (R143): occupied, with another key. -/
def State.otherKey (s : State) (pre : BitVec 12) (suf : BitVec 8) (i : BitVec 12) : Prop :=
  (s.readSlot i).code ≠ 0#12 ∧ ¬ ((s.readSlot i).pre = pre ∧ (s.readSlot i).suf = suf)

/-- How many stream bits the writer holds: completed bytes and pending bits (R28). -/
def State.writtenBits (s : State) : Nat := 8 * s.cw.ptr.toNat + s.cw.cnt.toNat

/-- Stream bit k of the writer: in CODEMEM below CW_PTR, and bit k − 8·CW_PTR of CW_ACC above (R28, R130). -/
def State.writtenBit (s : State) (k : Nat) : Nat :=
  if k < 8 * s.cw.ptr.toNat then streamBit s.codemem k
  else (s.cw.acc.toNat >>> (k - 8 * s.cw.ptr.toNat)) % 2

/-! ## Words the statements share -/

/-- The state an error leaves where nothing else changes (R244): ERR, ERRINFO, and BUSY = 0. -/
def State.withError (s : State) (code : BitVec 8) (info : Nat) : State :=
  { s with err := code, errInfo := BitVec.ofNat 32 info, busy := false }

/-- How a command is written and encoded (R80, R81, R88): these assembler operands, this word, and the decoder reads the
command back from it. -/
def spelledAs (i : Instr) (operands : List Nat) (w : Word64) : Prop :=
  assemble i.mnemonic operands = some i ∧ encode i = w ∧ decode w = some i

/-- A word with the row's OPC and a reserved bit set raises ILLEGAL_COMMAND with the OPC in ERRINFO, and nothing else
changes (R85). -/
def rejectsReserved (m : Mnemonic) : Prop :=
  ∀ (w : Word64) (s : State), opcOf w = m.opc → w &&& m.mask ≠ m.matchWord → s.err = 0#8 → s.busy = false →
    issue w s = .next (s.withError 0x01#8 m.opc.toNat)

/-- Commands one after the other, with no host access between them. -/
def execAll : List Instr → State → Outcome
  | [], s => .next s
  | i :: is, s =>
    match exec i s with
    | .next t => execAll is t
    | .fault r => .fault r
    | .refused r => .refused r

/-- The same state but for what is unspecified between runs (R35 to R40): ENC_*, DEC_*, DT and XSTACK. -/
def State.sameVisible (s t : State) : Prop :=
  t = { s with enc := t.enc, dec := t.dec, dt := t.dt, xstack := t.xstack, xsp := t.xsp }

/-- The first n pixels of PIXMEM (R96). -/
def State.pixels (s : State) (n : Nat) : List Byte := (List.range n).map s.readPix

/-! ## The LZW format, over lists (R92 to R95)

What a code stream means, with whole strings in place of the decode table, the expansion buffer and the string table: the
statements compare ENC_RUN and DEC_RUN with it. -/

/-- The w-bit code at position p of a bit string, its low bit first (R12). -/
def codeAt (bit : Nat → Nat) (p : Nat) : Nat → Nat
  | 0 => 0
  | w + 1 => codeAt bit p w + bit (p + w) * 2 ^ w

/-- A session that has seen a data code: the strings of its table codes in order, and the string of the last code. -/
structure LzwSession where
  table : List (List Byte)
  last  : List Byte
deriving DecidableEq, Repr

/-- The next free code of a table (R92). -/
def lzwNext (b : Nat) (table : List (List Byte)) : Nat := 2 ^ b + 2 + table.length

/-- The string of a code (R92): a raw code is its own pixel, a table code has an entry, CLEAR and EOI have none. -/
def lzwString (b : Nat) (table : List (List Byte)) (c : Nat) : Option (List Byte) :=
  if c < 2 ^ b then some [BitVec.ofNat 8 c]
  else if c < 2 ^ b + 2 then none
  else table[c - (2 ^ b + 2)]?

/-- The width of the code to come (R93): b + 1 after a CLEAR, then as many bits as the next free code has, up to 12. -/
def lzwWidth (b : Nat) : Option LzwSession → Nat
  | none => b + 1
  | some se => min 12 (Nat.size (lzwNext b se.table))

/-- A data code in a session (R187, R188): its string, and the session after it. A code above the next free one is in no
well-formed stream. -/
def lzwData (b : Nat) (se : LzwSession) (c : Nat) : Option (List Byte × LzwSession) :=
  (if c < lzwNext b se.table then lzwString b se.table c
    else if c = lzwNext b se.table then some (se.last ++ se.last.take 1) else none).map fun s =>
      (s, ⟨if lzwNext b se.table < 4096 then se.table ++ [se.last ++ s.take 1] else se.table, s⟩)

/-- The pixels of the codes from position p on, and the position after the last bit consumed, in at most so many codes. -/
def lzwCodes (bit : Nat → Nat) (bits b : Nat) : Nat → Option LzwSession → Nat → Option (List Byte × Nat)
  | 0, _, _ => none
  | k + 1, st, p =>
    if bits < p + lzwWidth b st then some ([], p)
    else if codeAt bit p (lzwWidth b st) = 2 ^ b + 1 then some ([], p + lzwWidth b st)
    else if codeAt bit p (lzwWidth b st) = 2 ^ b then
      if bits < p + lzwWidth b st + (b + 1) then some ([], p + lzwWidth b st)
      else if codeAt bit (p + lzwWidth b st) (b + 1) < 2 ^ b then
        (lzwCodes bit bits b k (some ⟨[], [BitVec.ofNat 8 (codeAt bit (p + lzwWidth b st) (b + 1))]⟩)
          (p + lzwWidth b st + (b + 1))).map fun r =>
            (BitVec.ofNat 8 (codeAt bit (p + lzwWidth b st) (b + 1)) :: r.1, r.2)
      else none
    else match st with
      | none =>
        if codeAt bit p (b + 1) < 2 ^ b then
          (lzwCodes bit bits b k (some ⟨[], [BitVec.ofNat 8 (codeAt bit p (b + 1))]⟩) (p + (b + 1))).map fun r =>
            (BitVec.ofNat 8 (codeAt bit p (b + 1)) :: r.1, r.2)
        else none
      | some se =>
        match lzwData b se (codeAt bit p (lzwWidth b st)) with
        | none => none
        | some (s, se') => (lzwCodes bit bits b k (some se') (p + lzwWidth b st)).map fun r => (s ++ r.1, r.2)

/-- The pixels of a code stream of so many bits, and how many bits hold them (R93, R94); `none` for a stream that is not
well formed. -/
def lzwStream (bit : Nat → Nat) (bits b : Nat) : Option (List Byte × Nat) :=
  if bits < b + 1 then none
  else if codeAt bit 0 (b + 1) = 2 ^ b then lzwCodes bit bits b (bits / 2 + 1) none (b + 1) else none

/-- The code of a string of the session: a single pixel is its own code, a table string has its entry's code (R92). -/
def lzwCodeOf (b : Nat) (table : List (List Byte)) (s : List Byte) : Nat :=
  match s with
  | [p] => p.toNat
  | s => 2 ^ b + 2 + table.idxOf s

/-- The width a data code is written at (R93): the least that fits the next free code, from b + 1 up to 12. -/
def lzwOutWidth (b : Nat) (table : List (List Byte)) : Nat := min 12 (max (b + 1) (Nat.clog 2 (lzwNext b table)))

/-- The codes the greedy encoder writes, each with its width, for the pixels left after the current string (R163 to R165),
with a list of strings in the place of the hash table (R148). -/
def lzwEncodeFrom (b : Nat) : List (List Byte) → List Byte → List Byte → List (Nat × Nat)
  | table, cur, [] => [(lzwCodeOf b table cur, lzwOutWidth b table), (2 ^ b + 1, lzwOutWidth b table)]
  | table, cur, p :: ps =>
    if cur ++ [p] ∈ table then lzwEncodeFrom b table (cur ++ [p]) ps
    else (lzwCodeOf b table cur, lzwOutWidth b table) ::
      if lzwNext b table ≤ 4095 then lzwEncodeFrom b (table ++ [cur ++ [p]]) [p] ps
      else (2 ^ b, lzwOutWidth b table) :: lzwEncodeFrom b [] [p] ps

/-- The codes of a pixel buffer (R93): CLEAR, the sessions, EOI. -/
def lzwEncode (b : Nat) : List Byte → List (Nat × Nat)
  | [] => [(2 ^ b, b + 1), (2 ^ b + 1, b + 1)]
  | p :: ps => (2 ^ b, b + 1) :: lzwEncodeFrom b [] [p] ps

/-- The codes ENC_RUN has written when it comes to the pixel after these (R162 to R164): at first CLEAR, later all of them but
the current string and EOI, which E_FINISH would write (R165). -/
def lzwBeforePixel (b : Nat) : List Byte → List (Nat × Nat)
  | [] => [(2 ^ b, b + 1)]
  | p :: ps => (lzwEncode b (p :: ps)).dropLast.dropLast

/-- How many stream bits a sequence of codes takes. -/
def codesBits (codes : List (Nat × Nat)) : Nat := (codes.map Prod.snd).sum

/-- The codes lie in the stream in their order with no gap, each with its low bit first (R91), and the bits from their end up
to `bits` are 0. -/
def packedIn (bit : Nat → Nat) (bits : Nat) (codes : List (Nat × Nat)) : Prop :=
  (∀ before after c w, codes = before ++ (c, w) :: after → ∀ k < w, bit (codesBits before + k) = c / 2 ^ k % 2) ∧
    ∀ k, codesBits codes ≤ k → k < bits → bit k = 0

end Sys2Proof.Machine
end

