-- ==== Sys2Proof/Certificates/Slice0/Obligations.lean ====
section
/-! DEFINITION. The statements about VPX-CORE, for the provers. Each docstring names the rules it formalises, or the log entry
of the model's choice it rests on. -/

section

open Sys2Proof Sys2Proof.Machine

/-! ## Reset, and the invariants -/

/-- The values R44 gives for reset. What R44 leaves unspecified is not stated. -/
def Obligations.ResetState : Prop :=
  State.reset.status = 0#32 ∧ State.reset.err = 0#8 ∧ State.reset.busy = false ∧ State.reset.errInfo = 0#32 ∧
  State.reset.res0 = 0#64 ∧ State.reset.res1 = 0#64 ∧ State.reset.cmdLo = 0#32 ∧ State.reset.cmdHi = 0#32 ∧
  readReg .cfgPixcap State.reset = BitVec.ofNat 32 State.reset.pixCap ∧
  readReg .cfgCodecap State.reset = BitVec.ofNat 32 State.reset.codeCap ∧
  State.reset.cw.ptr = 0#25 ∧ State.reset.cw.cnt = 0#4 ∧ State.reset.cw.acc.toNat = 0 ∧
  State.reset.cr.len = 0#25 ∧ State.reset.cr.bitpos = 0#28 ∧
  (∀ i, State.reset.readSlot i = ⟨0#12, 0#12, 0#8⟩) ∧
  State.reset.pa = ⟨.bpp8, 0#24, 0#24, .bottomToTop⟩ ∧
  (∀ a, State.reset.readPix a = 0#8) ∧ (∀ a, State.reset.readCode a = 0#8)

/-- The hardware reset (R270): from any state every piece of state takes its value of R44; STATUS reads 0; the capacities
are parameters and stay (R25). That the host's pending accesses stay is the model's choice (log entry 14). -/
def Obligations.HardwareReset : Prop :=
  ∀ s : State, ∃ t, perform .hardwareReset s = .next t ∧ t.status = 0#32 ∧ t.errInfo = 0#32 ∧
    t.res0 = 0#64 ∧ t.res1 = 0#64 ∧ t.cmdLo = 0#32 ∧ t.cmdHi = 0#32 ∧
    t.pixCap = s.pixCap ∧ t.codeCap = s.codeCap ∧
    t.cw.ptr = 0#25 ∧ t.cw.cnt = 0#4 ∧ t.cw.acc.toNat = 0 ∧ t.cr.len = 0#25 ∧ t.cr.bitpos = 0#28 ∧
    (∀ i, t.readSlot i = ⟨0#12, 0#12, 0#8⟩) ∧ t.pa = ⟨.bpp8, 0#24, 0#24, .bottomToTop⟩ ∧
    (∀ a, t.readPix a = 0#8) ∧ (∀ a, t.readCode a = 0#8) ∧ t.inbox = s.inbox

/-- R272's command sequence gives the command-visible registers their reset values from any error-free or failed state, and
leaves RES0, RES1 and the memories as they are. -/
def Obligations.RestoreSequence : Prop :=
  ∀ s : State, ∃ t,
    execAll [.clrerr, .cwReset, .crOpen 0#32, .stReset, .paConfig .bpp8 0#24 0#24 .bottomToTop] s = .next t ∧
    t = { s with
      err := 0#8, errInfo := 0#32, cw := ⟨0#25, 0#4, 0⟩, cr := ⟨0#25, 0#28⟩, st := t.st,
      pa := ⟨.bpp8, 0#24, 0#24, .bottomToTop⟩ } ∧
    ∀ i, t.readSlot i = ⟨0#12, 0#12, 0#8⟩

/-- The invariants hold after reset. -/
def Obligations.ResetMeetsTheInvariants : Prop :=
  State.reset.Inv ∧ State.reset.CwOk ∧ State.reset.CrOk

/-- From every state, a step keeps the memories and tables in their canonical form and inside their capacities (R7, R9,
R60), ERR a code of R240 with ERRINFO 0 whenever ERR is 0 (R111), and BUSY 0 (R23). -/
def Obligations.StepKeepsTheInvariant : Prop :=
  ∀ s t : State, s.Inv → step s = .next t → t.Inv

/-- R28 and R30 hold at every command boundary but after an error, which may leave CW or CR unspecified (R246). -/
def Obligations.ErrorFreeStepKeepsWriterAndReader : Prop :=
  ∀ s t : State, s.CwOk → s.CrOk → (s.err ≠ 0#8 ∨ t.err = 0#8) → step s = .next t → t.CwOk ∧ t.CrOk

/-- The ENC_* and DEC_* registers, DT and XSTACK are rewritten before use in every run (R43): what they hold never reaches
anything a host can observe. -/
def Obligations.HiddenStateIsNeverRead : Prop :=
  ∀ s t : State, s.MemOk → t.MemOk → s.sameVisible t →
    (∀ s', step s = .next s' → ∃ t', step t = .next t' ∧ s'.sameVisible t') ∧
    (∀ f, step s = .fault f → step t = .fault f) ∧ (∀ r, step s ≠ .refused r)

/-! ## Issue and decode -/

/-- A host write to CMD_HI issues the command {CMD_HI, CMD_LO}, and the whole command is that one step (R26, R64): with BUSY
= 1 while it executes and 0 after it. A write to CMD_LO only latches; with no access pending the block holds all state
(R256). The last clause is `withFetchWord` (log entry 6). -/
def Obligations.StepRunsTheIssuedCommand : Prop :=
  (∀ (s : State) (lo hi : Word32) (rest : List HostEvent) (i : Instr), s.cmdLo = lo → decode (hi ++ lo) = some i →
    s.inbox = .write .bits32 0x04 (hi.setWidth 64) :: rest →
    step s = endCommand (exec i { s with inbox := rest, cmdHi := hi, busy := true })) ∧
  (∀ (s : State) (v : Word32) (rest : List HostEvent), s.inbox = .write .bits32 0x00 (v.setWidth 64) :: rest →
    step s = .next { s with inbox := rest, cmdLo := v }) ∧
  (∀ s : State, s.inbox = [] → step s = .next s) ∧
  ∀ (s : State) (w : Word64) (i : Instr), decode w = some i →
    step (s.withFetchWord 64 w.toNat) =
      endCommand (exec i { s with cmdLo := w.extractLsb' 0 32, cmdHi := w.extractLsb' 32 32, busy := true })

/-- `Issue(w)` (R112), in the order of its pseudocode. -/
def Obligations.IssueDispatches : Prop :=
  ∀ (w : Word64) (s : State), s.busy = false →
    (s.err ≠ 0#8 → opcOf w ≠ 0x01#8 → issue w s = .next s) ∧
    (decode w = none → s.err = 0#8 → issue w s = .next (s.withError 0x01#8 (opcOf w).toNat)) ∧
    (decode w = none → s.err ≠ 0#8 → issue w s = .next s) ∧
    ∀ i, decode w = some i → issue w s = endCommand (exec i { s with busy := true })

/-- R85 and R86: a known OPC with a reserved bit set, and a reserved OPC, raise ILLEGAL_COMMAND with the OPC; nothing else
changes. NOP is the only row whose command does nothing from every state. -/
def Obligations.IllegalWordsRaise : Prop :=
  (∀ m : Mnemonic, rejectsReserved m) ∧
  (∀ (w : Word64) (s : State), Mnemonic.ofOpc (opcOf w) = none → s.err = 0#8 → s.busy = false →
    issue w s = .next (s.withError 0x01#8 (opcOf w).toNat)) ∧
  (∀ opc : BitVec 8, Mnemonic.ofOpc opc = none ↔
    (0x02 ≤ opc.toNat ∧ opc.toNat ≤ 0x0F) ∨ (0x13 ≤ opc.toNat ∧ opc.toNat ≤ 0x17) ∨
    (0x1A ≤ opc.toNat ∧ opc.toNat ≤ 0x1F) ∨ (0x23 ≤ opc.toNat ∧ opc.toNat ≤ 0x2F) ∨
    (0x31 ≤ opc.toNat ∧ opc.toNat ≤ 0x37) ∨ (0x39 ≤ opc.toNat ∧ opc.toNat ≤ 0x3F) ∨ 0x45 ≤ opc.toNat) ∧
  ∀ i : Instr, (∀ s, exec i s = .next s) → i = .nop

/-- The sticky error (R245): every issued command but a well-formed CLRERR changes nothing, so a whole batch of them changes
nothing; host reads of registers and memories, memory writes and CMD_LO writes work as ever. -/
def Obligations.ErrorIsSticky : Prop :=
  ∀ s : State, s.err ≠ 0#8 → s.busy = false →
    (∀ w, decode w ≠ some .clrerr → issue w s = .next s) ∧
    (∀ is : List Instr, Instr.clrerr ∉ is → execAll is s = .next s) ∧
    (∀ width offset, busFault width offset s = none →
      perform (.read width offset) s = .next { s with reply := busRead offset s }) ∧
    (∀ a (v : Byte), a < s.pixCap → perform (.write .bits8 (0x01000000 + a) (v.setWidth 64)) s = .next (s.writePix a v)) ∧
    (∀ a (v : Byte), a < s.codeCap →
      perform (.write .bits8 (0x02000000 + a) (v.setWidth 64)) s = .next (s.writeCode a v)) ∧
    ∀ v : Word32, perform (.write .bits32 0x00 (v.setWidth 64)) s = .next { s with cmdLo := v }

/-- The decoder and the match and mask words of R84, written out: a word spells a command iff it matches one row, no word
matches two, and every word decodes to a row's command with its field values or to none (R87). -/
def Obligations.DecodeFollowsTheMaskTable : Prop :=
  let rows : List (Mnemonic × Word64 × Word64) :=
    [(.nop, 0x0000000000000000#64, 0xFFFFFFFFFFFFFFFF#64), (.clrerr, 0x0100000000000000#64, 0xFFFFFFFFFFFFFFFF#64),
     (.cwReset, 0x1000000000000000#64, 0xFFFFFFFFFFFFFFFF#64), (.cwWrite, 0x1100000000000000#64, 0xFFFFFFFFFFF00000#64),
     (.cwEnd, 0x1200000000000000#64, 0xFFFFFFFFFFFFFFFF#64), (.crOpen, 0x1800000000000000#64, 0xFFFFFFFF00000000#64),
     (.crRead, 0x1900000000000000#64, 0xFFFFFFFFFFF0FFFF#64), (.stReset, 0x2000000000000000#64, 0xFFFFFFFFFFFFFFFF#64),
     (.stSearch, 0x2100000000000000#64, 0xFFFFFFFFFF00F000#64), (.stAdd, 0x2200000000000000#64, 0xFFFF00000000F000#64),
     (.encRun, 0x3000000000000000#64, 0xFFFFFFF000000000#64), (.decRun, 0x3800000000000000#64, 0xFFFFFFF000000000#64),
     (.paConfig, 0x4000000000000000#64, 0xFFF8000000000000#64), (.paRowlen, 0x4100000000000000#64, 0xFFFFFFFFFFFFFFFF#64),
     (.paOffset, 0x4200000000000000#64, 0xFFFF000000000000#64), (.paExtract, 0x4300000000000000#64, 0xFFFFFFFFFFFFF000#64),
     (.paInject, 0x4400000000000000#64, 0xFFFFFFFFFF00F000#64)]
  ∀ w : Word64,
    (∀ i, decode w = some i ↔ ∃ row ∈ rows, w &&& row.2.2 = row.2.1 ∧ i = row.1.fields w) ∧
    ∀ r ∈ rows, ∀ q ∈ rows, w &&& r.2.2 = r.2.1 → w &&& q.2.2 = q.2.1 → r = q

/-- Decoding the word of a command gives the command back, for every operand value: no operand bit is lost (R80 to R82). -/
def Obligations.DecodeOfEncode : Prop :=
  ∀ i : Instr, decode (encode i) = some i ∧ decodeTableWord 64 (encode i).toNat = some i

/-- A word that decodes is the word of the command it decodes to: each command has one word (R81, R85). -/
def Obligations.EncodeOfDecode : Prop :=
  ∀ (w : Word64) (i : Instr), decode w = some i → encode i = w

/-- The assembly examples of R90, their fields included. -/
def Obligations.ExampleWords : Prop :=
  spelledAs (.cwWrite 0x5#16 3#4) [0x5, 3] 0x1100000000030005#64 ∧
  spelledAs (.crRead 12#4) [12] 0x19000000000C0000#64 ∧
  spelledAs (.stAdd 0x123#12 0x104#12 0x41#8 0x105#12) [0x123, 0x104, 0x41, 0x105] 0x2200105123410104#64 ∧
  spelledAs (.encRun 8#4 100#32) [8, 100] 0x3000000800000064#64 ∧
  spelledAs (.paConfig .bpp4 10#24 3#24 .bottomToTop) [4, 10, 3, 0] 0x400100000300000A#64 ∧
  spelledAs (.paInject 0xFF#8 4#4 0x3#8) [0xFF, 4, 0x3] 0x44000000000304FF#64

/-! ## Control -/

/-- NOP (R110): no state changes, whatever ERR is. -/
def Obligations.NopChangesNothing : Prop :=
  spelledAs .nop [] 0x0000000000000000#64 ∧ rejectsReserved .nop ∧ (∀ s, exec .nop s = .next s) ∧
  ∀ s : State, s.busy = false → issue 0x0000000000000000#64 s = .next s

/-- CLRERR (R111): ERR and ERRINFO become 0 and nothing else changes; it is the only command executed while ERR is not 0; a
malformed one is ignored then; with ERR = 0 it changes nothing in a state whose ERRINFO is 0 whenever ERR is. -/
def Obligations.ClrerrClearsTheError : Prop :=
  spelledAs .clrerr [] 0x0100000000000000#64 ∧ rejectsReserved .clrerr ∧
  (∀ s, exec .clrerr s = .next { s with err := 0#8, errInfo := 0#32 }) ∧
  (∀ i s, i ≠ .clrerr → s.err ≠ 0#8 → exec i s = .next s) ∧
  (∀ (w : Word64) (s : State), opcOf w = 0x01#8 → w ≠ 0x0100000000000000#64 → s.err ≠ 0#8 → s.busy = false →
    issue w s = .next s) ∧
  ∀ s : State, s.ErrOk → s.err = 0#8 → exec .clrerr s = .next s

/-! ## The code writer -/

/-- CW_RESET (R132): the writer starts at address 0 with nothing pending; CODEMEM is not changed. -/
def Obligations.CwResetStartsAStream : Prop :=
  spelledAs .cwReset [] 0x1000000000000000#64 ∧ rejectsReserved .cwReset ∧
  ∀ s : State, s.err = 0#8 → exec .cwReset s = .next { s with cw := ⟨0#25, 0#4, 0⟩ }

/-- CW_WRITE (R133). With CW_ACC, the new code above it, as `acc`: the whole bytes among the pending bits go to CODEMEM from
CW_PTR on, in order; RES0 is the new CW_PTR; from a sound writer the new one is sound; only the low WIDTH bits of the code
count; a width outside [1, 12] and a byte that would land at CODE_CAP raise. -/
def Obligations.CwWriteAppendsACode : Prop :=
  (∀ code width, spelledAs (.cwWrite code width) [code.toNat, width.toNat] (0x11#8 ++ (0#36 ++ (width ++ code)))) ∧
  rejectsReserved .cwWrite ∧
  (∀ (code : BitVec 16) (width : BitVec 4) (s : State), s.err = 0#8 → ¬ (1 ≤ width.toNat ∧ width.toNat ≤ 12) →
    exec (.cwWrite code width) s = .next (s.withError 0x02#8 width.toNat)) ∧
  (∀ (code : BitVec 16) (width : BitVec 4) (s : State), s.err = 0#8 → s.MemOk → 1 ≤ width.toNat → width.toNat ≤ 12 →
    s.cw.ptr.toNat + (s.cw.cnt.toNat + width.toNat) / 8 ≤ s.codeCap →
    let acc := s.cw.acc.toNat ||| code.toNat % 2 ^ width.toNat * 2 ^ s.cw.cnt.toNat
    let bytes := (s.cw.cnt.toNat + width.toNat) / 8
    ∃ t, exec (.cwWrite code width) s = .next t ∧
      t = { s with cw := t.cw, codemem := t.codemem, res0 := BitVec.ofNat 64 (s.cw.ptr.toNat + bytes) } ∧
      t.cw.ptr.toNat = s.cw.ptr.toNat + bytes ∧ t.cw.cnt.toNat = (s.cw.cnt.toNat + width.toNat) % 8 ∧
      t.cw.acc.toNat = acc / 2 ^ (8 * bytes) ∧ (s.CwOk → t.CwOk) ∧
      ∀ a, (t.readCode a).toNat =
        if s.cw.ptr.toNat ≤ a ∧ a < s.cw.ptr.toNat + bytes then acc / 2 ^ (8 * (a - s.cw.ptr.toNat)) % 256
        else (s.readCode a).toNat) ∧
  (∀ (code code' : BitVec 16) (width : BitVec 4) (s : State), code.toNat % 2 ^ width.toNat = code'.toNat % 2 ^ width.toNat →
    exec (.cwWrite code width) s = exec (.cwWrite code' width) s) ∧
  ∀ (code : BitVec 16) (width : BitVec 4) (s : State), s.err = 0#8 → s.CwOk → 1 ≤ width.toNat → width.toNat ≤ 12 →
    s.codeCap < s.cw.ptr.toNat + (s.cw.cnt.toNat + width.toNat) / 8 →
    ∃ t, exec (.cwWrite code width) s = .next t ∧ t.err = 0x08#8 ∧ t.errInfo = BitVec.ofNat 32 s.codeCap

/-- CW_END (R134): the pending bits as one byte whose other bits are 0, if there are any; nothing is pending after; RES0 is
the new CW_PTR; a pending byte at CODE_CAP raises. -/
def Obligations.CwEndFlushesThePendingByte : Prop :=
  spelledAs .cwEnd [] 0x1200000000000000#64 ∧ rejectsReserved .cwEnd ∧
  (∀ s : State, s.err = 0#8 → s.cw.cnt = 0#4 →
    exec .cwEnd s = .next { s with cw := ⟨s.cw.ptr, 0#4, 0⟩, res0 := BitVec.ofNat 64 s.cw.ptr.toNat }) ∧
  (∀ s : State, s.err = 0#8 → s.MemOk → s.cw.cnt ≠ 0#4 → s.cw.ptr.toNat < s.codeCap →
    ∃ t, exec .cwEnd s = .next t ∧
      t = { s with cw := t.cw, codemem := t.codemem, res0 := BitVec.ofNat 64 (s.cw.ptr.toNat + 1) } ∧
      t.cw.ptr.toNat = s.cw.ptr.toNat + 1 ∧ t.cw.cnt = 0#4 ∧ t.cw.acc.toNat = 0 ∧
      (s.CwOk → (t.readCode s.cw.ptr.toNat).toNat = s.cw.acc.toNat) ∧
      ∀ a, t.readCode a = if a = s.cw.ptr.toNat then s.cw.acc.setWidth 8 else s.readCode a) ∧
  ∀ s : State, s.err = 0#8 → s.cw.cnt ≠ 0#4 → s.cw.ptr.toNat = s.codeCap →
    ∃ t, exec .cwEnd s = .next t ∧ t.err = 0x08#8 ∧ t.errInfo = BitVec.ofNat 32 s.codeCap

/-- A CW_WRITE or CW_END that fails while it executes (R246) leaves everything as it was but ERR, ERRINFO, the writer, RES0
and CODEMEM from the CW_PTR it started with; BUSY is 0 (R244). From a CW_PTR above CODE_CAP the error carries CW_PTR, which
is the model's choice (log entry 8). -/
def Obligations.CodeOverflowLeaves : Prop :=
  (∀ (i : Instr) (s t : State), (i = .cwEnd ∨ ∃ code width, i = .cwWrite code width) → s.err = 0#8 →
    exec i s = .next t → t.err = 0x08#8 →
    t = { s with
      err := 0x08#8, errInfo := t.errInfo, busy := false, cw := t.cw, codemem := t.codemem, res0 := t.res0,
      freeTick := t.freeTick } ∧
    t.errInfo = BitVec.ofNat 32 (max s.cw.ptr.toNat s.codeCap) ∧
    ∀ a, a < s.cw.ptr.toNat → t.readCode a = s.readCode a) ∧
  ∀ (i : Instr) (s t : State), (i = .cwEnd ∨ ∃ code width, i = .cwWrite code width) → s.err = 0#8 →
    exec i s = .next t → t.err = 0#8 ∨ t.err = 0x02#8 ∨ t.err = 0x08#8

/-- The packing law (R135), for any sequence of writes that ends without an error. -/
def Obligations.PackingLaw : Prop :=
  ∀ (s t : State) (codes : List (BitVec 16 × BitVec 4)), s.MemOk → s.err = 0#8 → t.err = 0#8 →
    execAll (.cwReset :: (codes.map fun c => .cwWrite c.1 c.2) ++ [.cwEnd]) s = .next t →
    let pairs := codes.map fun c => (c.1.toNat, c.2.toNat)
    t.cw.ptr.toNat = (codesBits pairs + 7) / 8 ∧ packedIn (streamBit t.codemem) (8 * t.cw.ptr.toNat) pairs

/-! ## The code reader -/

/-- CR_OPEN (R121): the length is checked against CODE_CAP; the reader starts at bit 0. -/
def Obligations.CrOpenAttachesTheReader : Prop :=
  (∀ len, spelledAs (.crOpen len) [len.toNat] (0x18#8 ++ (0#24 ++ len))) ∧ rejectsReserved .crOpen ∧
  (∀ (len : BitVec 32) (s : State), s.err = 0#8 → s.codeCap < len.toNat →
    exec (.crOpen len) s = .next (s.withError 0x04#8 6)) ∧
  (∀ (len : BitVec 32) (s : State), s.err = 0#8 → len.toNat ≤ s.codeCap →
    ∃ t, exec (.crOpen len) s = .next t ∧ t = { s with cr := t.cr } ∧ t.cr.len.toNat = len.toNat ∧ t.cr.bitpos = 0#28) ∧
  ∀ (width : BitVec 4) (s : State), s.err = 0#8 → 1 ≤ width.toNat → width.toNat ≤ 12 →
    execAll [.crOpen 0#32, .crRead width] s =
      .next { s with cr := ⟨0#25, 0#28⟩, err := 0x05#8, errInfo := 0#32, busy := false }

/-- CR_READ (R122, R120): the next WIDTH bits of CODEMEM as it stands, low bit first, in RES0; the position after them in
CR_BITPOS and RES1; BAD_WIDTH; NO_MORE_CODE when fewer bits are left, and then nothing is consumed. A code that reaches past
CODE_CAP, which takes a CR_LEN above it, is the subject of `NoCommandStops`. -/
def Obligations.CrReadReadsTheNextCode : Prop :=
  (∀ width, spelledAs (.crRead width) [width.toNat] (0x19#8 ++ (0#36 ++ (width ++ 0#16)))) ∧ rejectsReserved .crRead ∧
  (∀ (width : BitVec 4) (s : State), s.err = 0#8 → ¬ (1 ≤ width.toNat ∧ width.toNat ≤ 12) →
    exec (.crRead width) s = .next (s.withError 0x02#8 width.toNat)) ∧
  (∀ (width : BitVec 4) (s : State), s.err = 0#8 → 1 ≤ width.toNat → width.toNat ≤ 12 →
    8 * s.cr.len.toNat < s.cr.bitpos.toNat + width.toNat →
    exec (.crRead width) s = .next (s.withError 0x05#8 s.cr.bitpos.toNat)) ∧
  ∀ (width : BitVec 4) (s : State), s.err = 0#8 → 1 ≤ width.toNat → width.toNat ≤ 12 →
    s.cr.bitpos.toNat + width.toNat ≤ 8 * s.cr.len.toNat → s.cr.bitpos.toNat + width.toNat ≤ 8 * s.codeCap →
    ∃ t, exec (.crRead width) s = .next t ∧ t = { s with cr := t.cr, res0 := t.res0, res1 := t.res1 } ∧
      t.cr.len = s.cr.len ∧ t.cr.bitpos.toNat = s.cr.bitpos.toNat + width.toNat ∧
      t.res1.toNat = s.cr.bitpos.toNat + width.toNat ∧ t.res0.toNat < 2 ^ width.toNat ∧
      t.res0.toNat = codeAt (fun k => (s.readCode (k / 8)).toNat / 2 ^ (k % 8) % 2) s.cr.bitpos.toNat width.toNat

/-- Every command has a next state (R279), from every state. The last that could be thought to have none is a CR_READ with a
CR_LEN above CODE_CAP (R246): it takes the bits CODEMEM holds, and the others are free values (log entry 7). -/
def Obligations.NoCommandStops : Prop :=
  (∀ (width : BitVec 4) (s : State), s.err = 0#8 → 1 ≤ width.toNat → width.toNat ≤ 12 →
    s.cr.bitpos.toNat + width.toNat ≤ 8 * s.cr.len.toNat → 8 * s.codeCap < s.cr.bitpos.toNat + width.toNat →
    ∃ t, exec (.crRead width) s = .next t ∧
      t = { s with cr := t.cr, res0 := t.res0, res1 := t.res1, freeTick := s.freeTick + 1 } ∧
      t.cr.len = s.cr.len ∧ t.cr.bitpos.toNat = s.cr.bitpos.toNat + width.toNat ∧
      t.res1.toNat = s.cr.bitpos.toNat + width.toNat ∧ t.res0.toNat < 2 ^ width.toNat ∧
      ∀ j, s.cr.bitpos.toNat + j < 8 * s.codeCap →
        t.res0.toNat / 2 ^ j % 2 = streamBit s.codemem (s.cr.bitpos.toNat + j)) ∧
  ∀ (i : Instr) (s : State), ∃ t, exec i s = .next t

/-- The read-back law (R123): what CW_WRITE wrote, CR_READ reads, in order, each code reduced to its width. -/
def Obligations.ReadBackLaw : Prop :=
  ∀ (s t : State) (codes : List (BitVec 16 × BitVec 4)), s.MemOk → s.err = 0#8 → t.err = 0#8 →
    execAll (.cwReset :: (codes.map fun c => .cwWrite c.1 c.2) ++ [.cwEnd]) s = .next t →
    ∀ before after code width, codes = before ++ (code, width) :: after →
      ∃ u, execAll (.crOpen (BitVec.ofNat 32 t.cw.ptr.toNat) :: (before.map fun c => .crRead c.2) ++ [.crRead width]) t =
          .next u ∧
        u.err = 0#8 ∧ u.res0.toNat = code.toNat % 2 ^ width.toNat

/-! ## The string table -/

/-- The hash (R141), its equivalent form, and the four examples. -/
def Obligations.HashForms : Prop :=
  (∀ (pre : BitVec 12) (suf : BitVec 8),
    let key := pre.toNat <<< 8 ||| suf.toNat
    (stHash pre suf).toNat = (key ^^^ key >>> 12) &&& 0xFFF ∧
    (stHash pre suf).toNat = ((pre.toNat &&& 0xF) <<< 8 ||| suf.toNat) ^^^ pre.toNat >>> 4) ∧
  stHash 0#12 1#8 = 0x001#12 ∧ stHash 0x010#12 0#8 = 0x001#12 ∧ stHash 0x104#12 0x41#8 = 0x451#12 ∧
  stHash 0xFFF#12 0xFF#8 = 0xF00#12

/-- The probe sequence (R142): slot k is (h + 601·k) mod 4096, which is the order the table is probed in, and the 4096 slots
are each visited exactly once. -/
def Obligations.ProbeVisitsEverySlotOnce : Prop :=
  (∀ h k, (probeSlot h k).toNat = (h.toNat + 601 * k) % 4096) ∧
  (∀ h k, probeSlot h 0 = h ∧ probeSlot h (k + 1) = stNext (probeSlot h k)) ∧
  Nat.Coprime 601 4096 ∧ ∀ h i, ∃! k, k < 4096 ∧ probeSlot h k = i

/-- ST_RESET (R144): every slot is empty, and a search of any key then returns 0 and the key's hash. -/
def Obligations.StResetEmptiesTheTable : Prop :=
  spelledAs .stReset [] 0x2000000000000000#64 ∧ rejectsReserved .stReset ∧
  ∀ s : State, s.err = 0#8 → ∃ t, exec .stReset s = .next t ∧ t = { s with st := t.st } ∧
    (∀ i, t.readSlot i = ⟨0#12, 0#12, 0#8⟩) ∧
    ∀ pre suf, exec (.stSearch pre suf) t = .next { t with res0 := 0#64, res1 := BitVec.ofNat 64 (stHash pre suf).toNat }

/-- ST_SEARCH (R145) by the probe of R143: the first slot of the key's probe sequence that is empty or holds the key gives
RES0 and RES1; TABLE_FULL with the key if there is none. -/
def Obligations.StSearchFindsTheFirstSlot : Prop :=
  (∀ pre suf, spelledAs (.stSearch pre suf) [pre.toNat, suf.toNat] (0x21#8 ++ (0#32 ++ (suf ++ (0#4 ++ pre))))) ∧
  rejectsReserved .stSearch ∧
  (∀ (pre : BitVec 12) (suf : BitVec 8) (s : State) (k : Nat), s.err = 0#8 → k < 4096 →
    (∀ j < k, s.otherKey pre suf (probeSlot (stHash pre suf) j)) → ¬ s.otherKey pre suf (probeSlot (stHash pre suf) k) →
    exec (.stSearch pre suf) s = .next { s with
      res0 := BitVec.ofNat 64 (s.readSlot (probeSlot (stHash pre suf) k)).code.toNat
      res1 := BitVec.ofNat 64 (probeSlot (stHash pre suf) k).toNat }) ∧
  ∀ (pre : BitVec 12) (suf : BitVec 8) (s : State), s.err = 0#8 → (∀ i, s.otherKey pre suf i) →
    exec (.stSearch pre suf) s = .next (s.withError 0x0D#8 (pre.toNat <<< 8 ||| suf.toNat))

/-- ST_ADD (R146): the slot takes the code and the key, whatever they are (R147), and no other slot changes. -/
def Obligations.StAddWritesOneSlot : Prop :=
  (∀ index pre suf code, spelledAs (.stAdd index pre suf code) [index.toNat, pre.toNat, suf.toNat, code.toNat]
    (0x22#8 ++ (0#8 ++ (code ++ (index ++ (suf ++ (0#4 ++ pre))))))) ∧
  rejectsReserved .stAdd ∧
  ∀ (index pre : BitVec 12) (suf : BitVec 8) (code : BitVec 12) (s : State), s.err = 0#8 → s.MemOk →
    ∃ t, exec (.stAdd index pre suf code) s = .next t ∧ t = { s with st := t.st } ∧
      ∀ i, t.readSlot i = if i = index then ⟨code, pre, suf⟩ else s.readSlot i

/-! ## The LZW encoder -/

/-- ENC_RUN's spelling and its checks before the run, in their order (R160, R243): they change nothing but ERR and ERRINFO. -/
def Obligations.EncRunOperandChecks : Prop :=
  (∀ bpp len, spelledAs (.encRun bpp len) [bpp.toNat, len.toNat] (0x30#8 ++ (0#20 ++ (bpp ++ len)))) ∧
  rejectsReserved .encRun ∧
  (∀ (bpp : BitVec 4) (len : BitVec 32) (s : State), s.err = 0#8 → ¬ (1 ≤ bpp.toNat ∧ bpp.toNat ≤ 8) →
    exec (.encRun bpp len) s = .next (s.withError 0x03#8 bpp.toNat)) ∧
  ∀ (bpp : BitVec 4) (len : BitVec 32) (s : State), s.err = 0#8 → 1 ≤ bpp.toNat → bpp.toNat ≤ 8 → s.pixCap < len.toNat →
    exec (.encRun bpp len) s = .next (s.withError 0x04#8 6)

/-- ENC_RUN completes on every buffer of legal pixels when CODEMEM has 3 bytes for every pixel and 3 more, which is room
enough for any such stream. -/
def Obligations.EncRunCompletes : Prop :=
  ∀ (bpp : BitVec 4) (len : BitVec 32) (s : State), s.err = 0#8 → s.MemOk → 1 ≤ bpp.toNat → bpp.toNat ≤ 8 →
    len.toNat ≤ s.pixCap → 3 * len.toNat + 3 ≤ s.codeCap →
    (∀ a < len.toNat, (s.readPix a).toNat < 2 ^ bpp.toNat) →
    ∃ t, exec (.encRun bpp len) s = .next t ∧ t.err = 0#8

/-- ENC_RUN writes exactly the codes of the greedy LZW encoder over strings (R93), whatever the hash table does (R148), with
their widths; RES0 is the stream's length and RES1 the number of codes; it completes iff the stream fits in CODEMEM, and
raises CODE_OVERFLOW at CODE_CAP otherwise. -/
def Obligations.EncRunIsGreedyLzw : Prop :=
  ∀ (bpp : BitVec 4) (len : BitVec 32) (s : State), s.err = 0#8 → s.MemOk → 1 ≤ bpp.toNat → bpp.toNat ≤ 8 →
    len.toNat ≤ s.pixCap → (∀ a < len.toNat, (s.readPix a).toNat < 2 ^ bpp.toNat) →
    let codes := lzwEncode bpp.toNat (s.pixels len.toNat)
    ((codesBits codes + 7) / 8 ≤ s.codeCap →
      ∃ t, exec (.encRun bpp len) s = .next t ∧ t.err = 0#8 ∧ t.res0.toNat = (codesBits codes + 7) / 8 ∧
        t.res1.toNat = codes.length ∧ packedIn (streamBit t.codemem) (8 * t.res0.toNat) codes) ∧
    (s.codeCap < (codesBits codes + 7) / 8 →
      ∃ t, exec (.encRun bpp len) s = .next t ∧ t.err = 0x08#8 ∧ t.errInfo = BitVec.ofNat 32 s.codeCap)

/-- A run of ENC_RUN ends in one of three ways (R242): all pixels are legal and it succeeds, it raises PIXEL_VALUE for the
first illegal pixel (R167), or CODE_OVERFLOW at CODE_CAP. TABLE_FULL is never among them (R149). With an illegal pixel j, the
first one, which error it is follows from the codes written before the micro-step that consumes pixel j: PIXEL_VALUE(j) when
their whole bytes fit in CODEMEM, CODE_OVERFLOW when they do not. -/
def Obligations.EncRunEndings : Prop :=
  ∀ (bpp : BitVec 4) (len : BitVec 32) (s : State), s.err = 0#8 → s.MemOk → 1 ≤ bpp.toNat → bpp.toNat ≤ 8 →
    len.toNat ≤ s.pixCap →
    ∃ t, exec (.encRun bpp len) s = .next t ∧
      ((t.err = 0#8 ∧ ∀ a < len.toNat, (s.readPix a).toNat < 2 ^ bpp.toNat) ∨
       (∃ j < len.toNat, t.err = 0x0A#8 ∧ t.errInfo = BitVec.ofNat 32 j ∧ 2 ^ bpp.toNat ≤ (s.readPix j).toNat ∧
         ∀ a < j, (s.readPix a).toNat < 2 ^ bpp.toNat) ∨
       (t.err = 0x08#8 ∧ t.errInfo = BitVec.ofNat 32 s.codeCap)) ∧
      ∀ j < len.toNat, (∀ a < j, (s.readPix a).toNat < 2 ^ bpp.toNat) → 2 ^ bpp.toNat ≤ (s.readPix j).toNat →
        let bytes := codesBits (lzwBeforePixel bpp.toNat (s.pixels j)) / 8
        (bytes ≤ s.codeCap → t.err = 0x0A#8 ∧ t.errInfo = BitVec.ofNat 32 j) ∧
        (s.codeCap < bytes → t.err = 0x08#8 ∧ t.errInfo = BitVec.ofNat 32 s.codeCap)

/-- What a successful ENC_RUN leaves (R166): CODEMEM from RES0 on is unchanged, the writer stands at the end of the stream
with nothing pending, and PIXMEM, CR and everything else but ST and the ENC_* registers are unchanged. A failed one leaves
PIXMEM, CR, PA and everything else outside R246's row unchanged. That the DEC_* registers, DT and XSTACK are unchanged is the
model's choice (log entry 18). -/
def Obligations.EncRunLeaves : Prop :=
  ∀ (bpp : BitVec 4) (len : BitVec 32) (s t : State), s.err = 0#8 → exec (.encRun bpp len) s = .next t →
    (t.err = 0#8 →
      t = { s with
        cw := t.cw, codemem := t.codemem, st := t.st, enc := t.enc, res0 := t.res0, res1 := t.res1,
        freeTick := t.freeTick } ∧
      t.cw.ptr.toNat = t.res0.toNat ∧ t.cw.cnt = 0#4 ∧ t.cw.acc.toNat = 0 ∧
      ∀ a, t.res0.toNat ≤ a → t.readCode a = s.readCode a) ∧
    (t.err ≠ 0#8 →
      t = { s with
        err := t.err, errInfo := t.errInfo, busy := false, cw := t.cw, codemem := t.codemem, st := t.st, enc := t.enc,
        res0 := t.res0, res1 := t.res1, freeTick := t.freeTick })

/-- The hit case of E_STEP (R163): the found code becomes the current string, one pixel is consumed, nothing is written. -/
def Obligations.EncStepHit : Prop :=
  ∀ (s : State) (code index : BitVec 12), (s.readPix s.enc.i.toNat).toNat < s.enc.clear.toNat →
    stProbe s.enc.cur (s.readPix s.enc.i.toNat) s = some (code, index) → code ≠ 0#12 →
    eStep s = .ok { s with enc := { s.enc with cur := code, i := s.enc.i + 1#25 } }

/-- The miss case (R164), with room in CODEMEM: the current string is written at the current width; then, while codes are
left, the pair takes the next one in the slot the probe returned, and the width grows exactly when the code just inserted
equals the old limit; with none left, CLEAR is written at the old width and a new session starts. The pixel becomes the
current string. -/
def Obligations.EncStepMiss : Prop :=
  ∀ (s : State) (index : BitVec 12), s.MemOk → s.CwOk → s.EncOk → s.writtenBits + 24 ≤ 8 * s.codeCap →
    (s.readPix s.enc.i.toNat).toNat < s.enc.clear.toNat →
    stProbe s.enc.cur (s.readPix s.enc.i.toNat) s = some (0#12, index) →
    ∃ t, eStep s = .ok t ∧ t = { s with cw := t.cw, codemem := t.codemem, st := t.st, enc := t.enc } ∧
      (∀ k < s.writtenBits, t.writtenBit k = s.writtenBit k) ∧
      (∀ k < s.enc.w.toNat, t.writtenBit (s.writtenBits + k) = s.enc.cur.toNat / 2 ^ k % 2) ∧
      t.enc.i = s.enc.i + 1#25 ∧ t.enc.cur.toNat = (s.readPix s.enc.i.toNat).toNat ∧
      (s.enc.next.toNat ≤ 4095 →
        t.writtenBits = s.writtenBits + s.enc.w.toNat ∧ t.enc.ncodes = s.enc.ncodes + 1#32 ∧
        t.enc.next.toNat = s.enc.next.toNat + 1 ∧
        t.enc.w.toNat = (if s.enc.next.toNat = 2 ^ s.enc.w.toNat then s.enc.w.toNat + 1 else s.enc.w.toNat) ∧
        ∀ i, t.readSlot i =
          if i = index then ⟨s.enc.next.setWidth 12, s.enc.cur, s.readPix s.enc.i.toNat⟩ else s.readSlot i) ∧
      (s.enc.next.toNat = 4096 →
        s.enc.w.toNat = 12 ∧ t.writtenBits = s.writtenBits + 24 ∧ t.enc.ncodes = s.enc.ncodes + 2#32 ∧
        (∀ k < 12, t.writtenBit (s.writtenBits + 12 + k) = s.enc.clear.toNat / 2 ^ k % 2) ∧
        t.enc.next.toNat = s.enc.clear.toNat + 2 ∧ t.enc.w.toNat = s.enc.bpp.toNat + 1 ∧
        ∀ i, t.readSlot i = ⟨0#12, 0#12, 0#8⟩)

/-- The session invariant of R34 holds after E_INIT for every legal BPP and at every micro-step boundary after it. -/
def Obligations.EncStepsKeepTheSession : Prop :=
  (∀ s t : State, 1 ≤ s.enc.bpp.toNat → s.enc.bpp.toNat ≤ 8 → eInit s = .ok t → t.EncOk) ∧
  (∀ s t : State, s.EncOk → eStep s = .ok t → t.EncOk) ∧
  ∀ s : State, s.EncOk →
    s.enc.limit.toNat = 2 ^ s.enc.w.toNat ∧ s.enc.w.toNat ≤ 12 ∧ s.enc.clear.toNat + 2 ≤ s.enc.next.toNat ∧
    s.enc.next.toNat ≤ 4096 ∧ s.enc.next.toNat ≤ s.enc.limit.toNat

/-! ## The LZW decoder -/

/-- DEC_RUN's spelling, its checks before the run (R180, R243), and the two errors of its opening read (R182). -/
def Obligations.DecRunOpeningChecks : Prop :=
  (∀ bpp len, spelledAs (.decRun bpp len) [bpp.toNat, len.toNat] (0x38#8 ++ (0#20 ++ (bpp ++ len)))) ∧
  rejectsReserved .decRun ∧
  (∀ (bpp : BitVec 4) (len : BitVec 32) (s : State), s.err = 0#8 → ¬ (1 ≤ bpp.toNat ∧ bpp.toNat ≤ 8) →
    exec (.decRun bpp len) s = .next (s.withError 0x03#8 bpp.toNat)) ∧
  (∀ (bpp : BitVec 4) (len : BitVec 32) (s : State), s.err = 0#8 → 1 ≤ bpp.toNat → bpp.toNat ≤ 8 → s.codeCap < len.toNat →
    exec (.decRun bpp len) s = .next (s.withError 0x04#8 6)) ∧
  (∀ (bpp : BitVec 4) (len : BitVec 32) (s : State), s.err = 0#8 → 1 ≤ bpp.toNat → bpp.toNat ≤ 8 → len.toNat ≤ s.codeCap →
    8 * len.toNat < bpp.toNat + 1 →
    ∃ t, exec (.decRun bpp len) s = .next t ∧ t.err = 0x05#8 ∧ t.errInfo = 0#32) ∧
  ∀ (bpp : BitVec 4) (len : BitVec 32) (s : State), s.err = 0#8 → 1 ≤ bpp.toNat → bpp.toNat ≤ 8 → len.toNat ≤ s.codeCap →
    bpp.toNat + 1 ≤ 8 * len.toNat → codeAt (streamBit s.codemem) 0 (bpp.toNat + 1) ≠ 2 ^ bpp.toNat →
    ∃ t, exec (.decRun bpp len) s = .next t ∧ t.err = 0x06#8 ∧
      t.errInfo = BitVec.ofNat 32 (codeAt (streamBit s.codemem) 0 (bpp.toNat + 1))

/-- DEC_RUN decodes every LZW stream of R92 to R95 whose pixels fit in PIXMEM: it completes, PIXMEM holds the pixels, RES0
counts them, RES1 and CR_BITPOS count the bits consumed. One whose pixels do not fit raises PIX_OVERFLOW at PIX_CAP (R190). -/
def Obligations.DecRunDecodes : Prop :=
  ∀ (bpp : BitVec 4) (len : BitVec 32) (s : State) (pixels : List Byte) (q : Nat), s.err = 0#8 → s.MemOk →
    1 ≤ bpp.toNat → bpp.toNat ≤ 8 → len.toNat ≤ s.codeCap →
    lzwStream (streamBit s.codemem) (8 * len.toNat) bpp.toNat = some (pixels, q) →
    (pixels.length ≤ s.pixCap →
      ∃ t, exec (.decRun bpp len) s = .next t ∧ t.err = 0#8 ∧ t.res0.toNat = pixels.length ∧ t.res1.toNat = q ∧
        t.cr.len.toNat = len.toNat ∧ t.cr.bitpos.toNat = q ∧ t.pixels pixels.length = pixels) ∧
    (s.pixCap < pixels.length →
      ∃ t, exec (.decRun bpp len) s = .next t ∧ t.err = 0x09#8 ∧ t.errInfo = BitVec.ofNat 32 s.pixCap)

/-- The round trip (R169): DEC_RUN of what ENC_RUN produced gives the pixels ENC_RUN read, without an error, whatever else
the host did to PIXMEM in between. -/
def Obligations.RoundTrip : Prop :=
  ∀ (bpp : BitVec 4) (len : BitVec 32) (s t u : State), s.MemOk → s.err = 0#8 →
    exec (.encRun bpp len) s = .next t → t.err = 0#8 →
    u.MemOk → u.err = 0#8 → u.pixLast = t.pixLast → u.codeLast = t.codeLast → u.codemem = t.codemem →
    ∃ v, exec (.decRun bpp (BitVec.ofNat 32 t.res0.toNat)) u = .next v ∧ v.err = 0#8 ∧ v.res0.toNat = len.toNat ∧
      v.pixels len.toNat = s.pixels len.toNat

/-- What a successful DEC_RUN leaves (R191): PIXMEM from RES0 on is unchanged, CR stands after the last code consumed, and
CODEMEM, ST, CW and everything else but DT, XSTACK and the DEC_* registers are unchanged. A failed one raises an error of
R192 and leaves everything outside R246's row unchanged. That the ENC_* registers are unchanged is the model's choice (log
entry 18). -/
def Obligations.DecRunLeaves : Prop :=
  ∀ (bpp : BitVec 4) (len : BitVec 32) (s t : State), s.err = 0#8 → exec (.decRun bpp len) s = .next t →
    (t.err = 0#8 →
      t = { s with
        cr := t.cr, pixmem := t.pixmem, dec := t.dec, dt := t.dt, xstack := t.xstack, xsp := t.xsp, res0 := t.res0,
        res1 := t.res1, freeTick := t.freeTick } ∧
      t.cr.len.toNat = len.toNat ∧ t.cr.bitpos.toNat = t.res1.toNat ∧
      ∀ a, t.res0.toNat ≤ a → t.readPix a = s.readPix a) ∧
    (t.err ≠ 0#8 →
      (0x03 ≤ t.err.toNat ∧ t.err.toNat ≤ 0x07 ∨ t.err = 0x09#8 ∨ t.err = 0x0B#8 ∨ t.err = 0x0C#8) ∧
      t = { s with
        err := t.err, errInfo := t.errInfo, busy := false, cr := t.cr, pixmem := t.pixmem, dec := t.dec, dt := t.dt,
        xstack := t.xstack, xsp := t.xsp, res0 := t.res0, res1 := t.res1, freeTick := t.freeTick })

/-- D_First (R186) and D_Clear (R185): the code after a CLEAR must be a raw pixel, which is emitted with no table entry; after
a loop CLEAR, exhaustion ends the run. D_STEP (R183) ends the run on exhaustion and EOI, hands a CLEAR to D_Clear and the first
code to D_First, and grows the width after either unless the run is over. -/
def Obligations.DecPixelAfterClear : Prop :=
  (∀ (c : BitVec 12) (s : State), s.dec.clear.toNat ≤ c.toNat → dFirst c s = .error ⟨.notAPixel, c.toNat⟩) ∧
  (∀ (c : BitVec 12) (s : State), c.toNat < s.dec.clear.toNat → s.dec.out.toNat < s.pixCap →
    dFirst c s = .ok ((s.writePix s.dec.out.toNat (c.setWidth 8)).setDec
      { s.dec with out := s.dec.out + 1#25, prev := c, phase := .run })) ∧
  (∀ (c : BitVec 12) (s : State), c.toNat < s.dec.clear.toNat → s.pixCap ≤ s.dec.out.toNat →
    dFirst c s = .error ⟨.pixOverflow, s.dec.out.toNat⟩) ∧
  (∀ s : State, crRead (decInitSession s).dec.w.toNat (decInitSession s) = none →
    dClear s = .ok ((decInitSession s).setDec { (decInitSession s).dec with phase := .done })) ∧
  (∀ (s t : State) (r : BitVec 12), crRead (decInitSession s).dec.w.toNat (decInitSession s) = some (r, t) →
    dClear s = dFirst r t) ∧
  (∀ s : State, crRead s.dec.w.toNat s = none → dStep s = .ok (s.setDec { s.dec with phase := .done })) ∧
  (∀ (s t : State) (r : BitVec 12), crRead s.dec.w.toNat s = some (r, t) → r.toNat = t.dec.eoi.toNat →
    dStep s = .ok (t.setDec { t.dec with phase := .done })) ∧
  (∀ (s t : State) (r : BitVec 12), crRead s.dec.w.toNat s = some (r, t) → r.toNat ≠ t.dec.eoi.toNat →
    r.toNat = t.dec.clear.toNat →
    (∀ u, dClear t = .ok u → dStep s = .ok (if u.dec.phase = .done then u else dGrow u)) ∧
    ∀ e, dClear t = .error e → dStep s = .error e) ∧
  ∀ (s t : State) (r : BitVec 12), crRead s.dec.w.toNat s = some (r, t) → r.toNat ≠ t.dec.eoi.toNat →
    r.toNat ≠ t.dec.clear.toNat → t.dec.phase = .first →
    (∀ u, dFirst r t = .ok u → dStep s = .ok (dGrow u)) ∧ ∀ e, dFirst r t = .error e → dStep s = .error e

/-- D_Code (R187): a code below the next free one is expanded; one at or above it is the KwKwK case, whose pixels are those
of the previous code and its first pixel again; either way the entry of R188 takes the first pixel and DEC_PREV the code. An
error of the expansion comes before one of the output (R243), and the output raises PIX_OVERFLOW exactly where its pixels have
no room (R190). D_STEP (R183) hands every other code in the phase RUN to D_Code and then grows the width. -/
def Obligations.DecCodeEmitsAndEnters : Prop :=
  (∀ (c : BitVec 12) (s t : State) (pixels : List Byte),
    expand (if c.toNat < s.dec.next.toNat then c else s.dec.prev) s = .ok (pixels, t) →
    pixels ≠ [] ∧
    (∀ u, dEmitSeq (if c.toNat < s.dec.next.toNat then pixels else pixels ++ [pixels.headD 0#8]) t = .ok u →
      dCode c s = .ok ((dAddEntry (pixels.headD 0#8) u).setDec
        { (dAddEntry (pixels.headD 0#8) u).dec with prev := c })) ∧
    ∀ e, dEmitSeq (if c.toNat < s.dec.next.toNat then pixels else pixels ++ [pixels.headD 0#8]) t = .error e →
      dCode c s = .error e) ∧
  (∀ (c : BitVec 12) (s : State) (e : Raise),
    expand (if c.toNat < s.dec.next.toNat then c else s.dec.prev) s = .error e → dCode c s = .error e) ∧
  (∀ (pixels : List Byte) (s : State), s.dec.out.toNat ≤ s.pixCap →
    (s.dec.out.toNat + pixels.length ≤ s.pixCap → ∃ t, dEmitSeq pixels s = .ok t) ∧
    (s.pixCap < s.dec.out.toNat + pixels.length → dEmitSeq pixels s = .error ⟨.pixOverflow, s.pixCap⟩)) ∧
  ∀ (s t : State) (r : BitVec 12), crRead s.dec.w.toNat s = some (r, t) → r.toNat ≠ t.dec.eoi.toNat →
    r.toNat ≠ t.dec.clear.toNat → t.dec.phase = .run →
    (∀ u, dCode r t = .ok u → dStep s = .ok (dGrow u)) ∧ ∀ e, dCode r t = .error e → dStep s = .error e

/-- D_AddEntry (R188) and D_Grow (R189): an entry is added while the table has room, and the width grows exactly when the
next free code has reached the limit, up to 12 bits. -/
def Obligations.DecTableAndWidth : Prop :=
  (∀ (p : Byte) (s : State), s.MemOk → s.dec.next.toNat < 4096 →
    (dAddEntry p s).dec.next.toNat = s.dec.next.toNat + 1 ∧
    dAddEntry p s = { s with dt := (dAddEntry p s).dt, dec := { s.dec with next := (dAddEntry p s).dec.next } } ∧
    ∀ k, (dAddEntry p s).readEntry k = if k = s.dec.next.toNat then ⟨s.dec.prev, p⟩ else s.readEntry k) ∧
  (∀ (p : Byte) (s : State), s.dec.next.toNat = 4096 → dAddEntry p s = s) ∧
  (∀ s : State, s.dec.limit.toNat ≤ s.dec.next.toNat → s.dec.w.toNat < 12 →
    dGrow s = { s with dec := { s.dec with w := s.dec.w + 1#4, limit := s.dec.limit <<< 1 } }) ∧
  ∀ s : State, s.dec.next.toNat < s.dec.limit.toNat ∨ 12 ≤ s.dec.w.toNat → dGrow s = s

/-- Expansion (R184), as a law over whole strings: a raw code expands to its pixel; a defined code to its prefix's expansion
and its suffix where that fits in XSTACK, and to EXPANSION_OVERFLOW where its prefix's expansion already overflows; a code
without a defined entry raises UNDEFINED_ENTRY, and so does a defined code whose prefixes lead to one (R193). -/
def Obligations.ExpandLaw : Prop :=
  ∀ (k : BitVec 12) (s : State), s.MemOk →
    (k.toNat < s.dec.clear.toNat → ∃ t, expand k s = .ok ([k.setWidth 8], t)) ∧
    (s.dec.clear.toNat ≤ k.toNat → k.toNat ≤ s.dec.eoi.toNat ∨ s.dec.next.toNat ≤ k.toNat →
      expand k s = .error ⟨.undefinedEntry, k.toNat⟩) ∧
    (s.dec.clear.toNat ≤ k.toNat → s.dec.eoi.toNat < k.toNat → k.toNat < s.dec.next.toNat →
      (∀ pixels t, expand (s.readEntry k.toNat).pre s = .ok (pixels, t) → pixels.length < 4096 →
        ∃ u, expand k s = .ok (pixels ++ [(s.readEntry k.toNat).suf], u)) ∧
      (expand (s.readEntry k.toNat).pre s = .error ⟨.expansionOverflow, (s.readEntry k.toNat).pre.toNat⟩ →
        expand k s = .error ⟨.expansionOverflow, k.toNat⟩) ∧
      ∀ c, expand (s.readEntry k.toNat).pre s = .error ⟨.undefinedEntry, c⟩ →
        expand k s = .error ⟨.undefinedEntry, c⟩)

/-- Both runs end within the bounds of R168 and R194: ENC_RUN in LEN − 1 E_STEPs after E_INIT, DEC_RUN in 4·LEN D_STEPs after
D_INIT, whatever the stream; more turns of the loop change nothing. Where a D_STEP raises, DEC_RUN ends with that error. -/
def Obligations.RunsEnd : Prop :=
  (∀ (s t : State) (k : Nat), eInit s = .ok t → s.enc.n.toNat ≤ k + 1 → eLoop k t = eLoop s.enc.n.toNat t ∧
    ∀ u, eLoop k t = .ok u → s.enc.n.toNat ≤ u.enc.i.toNat) ∧
  (∀ (s t : State) (n k : Nat), 1 ≤ s.dec.bpp.toNat → s.dec.bpp.toNat ≤ 8 → n ≤ s.codeCap → dInit n s = .ok t →
    4 * n ≤ k → dLoop k t = dLoop (4 * n + 1) t ∧ ∀ u, dLoop k t = .ok u → u.dec.phase = .done) ∧
  ∀ (bpp : BitVec 4) (len : BitVec 32) (s t u : State) (k : Nat) (r : Raise), s.err = 0#8 → 1 ≤ bpp.toNat → bpp.toNat ≤ 8 →
    len.toNat ≤ s.codeCap → dInit len.toNat (s.setDec { s.dec with bpp := bpp }) = .ok t → dLoop k t = .ok u →
    u.dec.phase = .first ∨ u.dec.phase = .run → dStep u = .error r →
    ∃ v, exec (.decRun bpp len) s = .next v ∧ v.err = r.kind.code ∧ v.errInfo = BitVec.ofNat 32 r.info

/-! ## The pixel-address translator -/

/-- PA_CONFIG (R210): the four PA registers take the operands, every one of them legal. -/
def Obligations.PaConfigWritesTheRegisters : Prop :=
  (∀ depth width height order, spelledAs (.paConfig depth width height order)
    [bitsPerPixel depth, width.toNat, height.toNat, order.toBits.toNat]
    (0x40#8 ++ (0#5 ++ (order.toBits ++ (depth.toBits ++ (height ++ width)))))) ∧
  rejectsReserved .paConfig ∧
  ∀ (depth : Depth) (width height : BitVec 24) (order : RowOrder) (s : State), s.err = 0#8 →
    exec (.paConfig depth width height order) s = .next { s with pa := ⟨depth, width, height, order⟩ }

/-- PA_ROWLEN (R211): RES0 is the row length in bytes, ceil(width × bits / 8), at most 3·(2^24 − 1). -/
def Obligations.PaRowlenGivesTheRowLength : Prop :=
  spelledAs .paRowlen [] 0x4100000000000000#64 ∧ rejectsReserved .paRowlen ∧
  ∀ s : State, s.err = 0#8 →
    let bytes := (s.pa.width.toNat * bitsPerPixel s.pa.depth + 7) / 8
    bytes ≤ 3 * (2 ^ 24 - 1) ∧ exec .paRowlen s = .next { s with res0 := BitVec.ofNat 64 bytes }

/-- PA_OFFSET (R212): the byte offset (row index times row length plus column byte), which never wraps, and the bit offset;
x is checked before y. The pixel-to-bit mapping is the default of R213 (log entry 9). -/
def Obligations.PaOffsetGivesTheOffsets : Prop :=
  (∀ x y, spelledAs (.paOffset x y) [x.toNat, y.toNat] (0x42#8 ++ (0#8 ++ (y ++ x)))) ∧ rejectsReserved .paOffset ∧
  (∀ (x y : BitVec 24) (s : State), s.err = 0#8 → s.pa.width.toNat ≤ x.toNat →
    exec (.paOffset x y) s = .next (s.withError 0x04#8 1)) ∧
  (∀ (x y : BitVec 24) (s : State), s.err = 0#8 → x.toNat < s.pa.width.toNat → s.pa.height.toNat ≤ y.toNat →
    exec (.paOffset x y) s = .next (s.withError 0x04#8 2)) ∧
  ∀ (x y : BitVec 24) (s : State), s.err = 0#8 → x.toNat < s.pa.width.toNat → y.toNat < s.pa.height.toNat →
    let bits := bitsPerPixel s.pa.depth
    let row := if s.pa.order = .bottomToTop then s.pa.height.toNat - 1 - y.toNat else y.toNat
    let offset := row * ((s.pa.width.toNat * bits + 7) / 8) + x.toNat * bits / 8
    let bit := if bits < 8 then 8 - bits - x.toNat * bits % 8 else 0
    offset < 2 ^ 51 ∧ bit ≤ 7 ∧
    exec (.paOffset x y) s = .next { s with res0 := BitVec.ofNat 64 offset, res1 := BitVec.ofNat 64 bit }

/-- PA_EXTRACT (R214): the colour index in the byte at a legal bit offset; RANGE(5) at 24 bpp before RANGE(3). -/
def Obligations.PaExtractTakesTheIndex : Prop :=
  (∀ byte bit, spelledAs (.paExtract byte bit) [byte.toNat, bit.toNat] (0x43#8 ++ (0#44 ++ (bit ++ byte)))) ∧
  rejectsReserved .paExtract ∧
  (∀ byte bit (s : State), s.err = 0#8 → s.pa.depth = .bpp24 →
    exec (.paExtract byte bit) s = .next (s.withError 0x04#8 5)) ∧
  (∀ byte bit (s : State), s.err = 0#8 → s.pa.depth ≠ .bpp24 → legalBit s.pa.depth bit = false →
    exec (.paExtract byte bit) s = .next (s.withError 0x04#8 3)) ∧
  (∀ byte bit (s : State), s.err = 0#8 → s.pa.depth ≠ .bpp24 → legalBit s.pa.depth bit = true →
    exec (.paExtract byte bit) s =
      .next { s with res0 := BitVec.ofNat 64 (byte.toNat / 2 ^ bit.toNat % 2 ^ bitsPerPixel s.pa.depth) }) ∧
  ∀ (bit : BitVec 4), (legalBit .bpp1 bit = true ↔ bit.toNat ≤ 7) ∧
    (legalBit .bpp4 bit = true ↔ bit.toNat = 0 ∨ bit.toNat = 4) ∧ (legalBit .bpp8 bit = true ↔ bit.toNat = 0)

/-- PA_INJECT (R215): the byte with its field replaced by the colour index and every other bit kept; RANGE(5), RANGE(3) and
RANGE(4) in that order. -/
def Obligations.PaInjectReplacesTheIndex : Prop :=
  (∀ byte bit ci, spelledAs (.paInject byte bit ci) [byte.toNat, bit.toNat, ci.toNat]
    (0x44#8 ++ (0#32 ++ (ci ++ (0#4 ++ (bit ++ byte)))))) ∧
  rejectsReserved .paInject ∧
  (∀ byte bit ci (s : State), s.err = 0#8 → s.pa.depth = .bpp24 →
    exec (.paInject byte bit ci) s = .next (s.withError 0x04#8 5)) ∧
  (∀ byte bit ci (s : State), s.err = 0#8 → s.pa.depth ≠ .bpp24 → legalBit s.pa.depth bit = false →
    exec (.paInject byte bit ci) s = .next (s.withError 0x04#8 3)) ∧
  (∀ byte bit ci (s : State), s.err = 0#8 → s.pa.depth ≠ .bpp24 → legalBit s.pa.depth bit = true →
    2 ^ bitsPerPixel s.pa.depth ≤ ci.toNat → exec (.paInject byte bit ci) s = .next (s.withError 0x04#8 4)) ∧
  ∀ byte bit ci (s : State), s.err = 0#8 → s.pa.depth ≠ .bpp24 → legalBit s.pa.depth bit = true →
    ci.toNat < 2 ^ bitsPerPixel s.pa.depth →
    ∃ v : Byte, exec (.paInject byte bit ci) s = .next { s with res0 := BitVec.ofNat 64 v.toNat } ∧
      ∀ j < 8, v.toNat.testBit j =
        if bit.toNat ≤ j ∧ j < bit.toNat + bitsPerPixel s.pa.depth then ci.toNat.testBit (j - bit.toNat)
        else byte.toNat.testBit j

/-- The generic form (R217) equals the helper functions at every depth. That BitOff counts from the high end of the byte at 1
and 4 bpp is the model's choice, the default of R213 (log entry 9). -/
def Obligations.GenericForm : Prop :=
  (∀ d x, colByte d x = x.toNat * bitsPerPixel d / 8) ∧
  (∀ d x, d = .bpp1 ∨ d = .bpp4 → bitOff d x = 8 - bitsPerPixel d - x.toNat * bitsPerPixel d % 8) ∧
  (∀ x, bitOff .bpp8 x = 0 ∧ bitOff .bpp24 x = 0) ∧
  ∀ pa, rowLen pa = (pa.width.toNat * bitsPerPixel pa.depth + 7) / 8

/-- The four properties of R218: a PA_EXTRACT of the injected byte returns the colour index; the other pixels of the byte
stay; every x, y, bit offset or colour index out of range raises RANGE with no other change; distinct pixels have distinct
offsets (disjoint 3-byte ranges at 24 bpp), all inside the raster. -/
def Obligations.PaProperties : Prop :=
  (∀ (byte : BitVec 8) (bit : BitVec 4) (ci : BitVec 8) (s : State), s.err = 0#8 → s.pa.depth ≠ .bpp24 →
    legalBit s.pa.depth bit = true → ci.toNat < 2 ^ bitsPerPixel s.pa.depth →
    ∃ v : Byte, exec (.paInject byte bit ci) s = .next { s with res0 := BitVec.ofNat 64 v.toNat } ∧
      exec (.paExtract v bit) s = .next { s with res0 := BitVec.ofNat 64 ci.toNat } ∧
      ∀ other : BitVec 4, legalBit s.pa.depth other = true → other ≠ bit →
        exec (.paExtract v other) s = exec (.paExtract byte other) s) ∧
  (∀ (i : Instr) (s t : State), i.mnemonic ∈ [Mnemonic.paOffset, .paExtract, .paInject] → s.err = 0#8 →
    exec i s = .next t → t.err = 0#8 ∨ ∃ sub, t = s.withError 0x04#8 sub) ∧
  (∀ (x y : BitVec 24) (s : State), s.err = 0#8 → s.pa.width.toNat ≤ x.toNat ∨ s.pa.height.toNat ≤ y.toNat →
    ∃ sub, exec (.paOffset x y) s = .next (s.withError 0x04#8 sub)) ∧
  (∀ (byte : BitVec 8) (bit : BitVec 4) (ci : BitVec 8) (s : State), s.err = 0#8 →
    (legalBit s.pa.depth bit = false →
      (∃ sub, exec (.paExtract byte bit) s = .next (s.withError 0x04#8 sub)) ∧
      ∃ sub, exec (.paInject byte bit ci) s = .next (s.withError 0x04#8 sub)) ∧
    (2 ^ bitsPerPixel s.pa.depth ≤ ci.toNat →
      ∃ sub, exec (.paInject byte bit ci) s = .next (s.withError 0x04#8 sub))) ∧
  ∀ (x y x' y' : BitVec 24) (s t t' : State), s.err = 0#8 → exec (.paOffset x y) s = .next t → t.err = 0#8 →
    exec (.paOffset x' y') s = .next t' → t'.err = 0#8 →
    t.res0.toNat < rowLen s.pa * s.pa.height.toNat ∧
    ((x, y) ≠ (x', y') →
      (s.pa.depth ≠ .bpp24 → (t.res0, t.res1) ≠ (t'.res0, t'.res1)) ∧
      (s.pa.depth = .bpp24 → t.res0.toNat + 3 ≤ t'.res0.toNat ∨ t'.res0.toNat + 3 ≤ t.res0.toNat))

/-! ## The host's side -/

/-- The register map (R27): what a 32-bit read of each offset returns, that reads change nothing (R65), and that writes to
read-only registers do nothing. -/
def Obligations.RegisterMap : Prop :=
  (∀ (s : State) (offset : Nat) (value : Word32),
    (offset, value) ∈
      [(0x00, 0#32), (0x04, 0#32), (0x08, 0#23 ++ (BitVec.ofBool s.busy ++ s.err)), (0x0C, s.errInfo),
       (0x10, s.res0.extractLsb' 0 32), (0x14, s.res0.extractLsb' 32 32), (0x18, s.res1.extractLsb' 0 32),
       (0x1C, s.res1.extractLsb' 32 32), (0x20, BitVec.ofNat 32 s.pixCap), (0x24, BitVec.ofNat 32 s.codeCap)] →
    perform (.read .bits32 offset) s = .next { s with reply := .word value }) ∧
  (∀ (s : State) (offset : Nat) (data : BitVec 64), offset ∈ [0x08, 0x0C, 0x10, 0x14, 0x18, 0x1C, 0x20, 0x24] →
    perform (.write .bits32 offset data) s = .next s) ∧
  (∀ (s : State) (data : BitVec 64), perform (.write .bits32 0x00 data) s = .next { s with cmdLo := data.setWidth 32 }) ∧
  ∀ (s : State) (data : BitVec 64),
    perform (.write .bits32 0x04 data) s = issue (data.setWidth 32 ++ s.cmdLo) { s with cmdHi := data.setWidth 32 }

/-- The memory windows (R62): byte a of PIXMEM is at 0x0100_0000 + a and byte a of CODEMEM at 0x0200_0000 + a; a write changes
that byte and no other, and a read returns the last value written (R71). -/
def Obligations.MemoryWindows : Prop :=
  (∀ (s : State) (a : Nat), a < s.pixCap →
    perform (.read .bits8 (0x01000000 + a)) s = .next { s with reply := .byte (s.readPix a) }) ∧
  (∀ (s : State) (a : Nat), a < s.codeCap →
    perform (.read .bits8 (0x02000000 + a)) s = .next { s with reply := .byte (s.readCode a) }) ∧
  (∀ (s : State) (a : Nat) (data : BitVec 64), s.MemOk → a < s.pixCap →
    ∃ t, perform (.write .bits8 (0x01000000 + a) data) s = .next t ∧ t = { s with pixmem := t.pixmem } ∧
      ∀ b, t.readPix b = if b = a then data.setWidth 8 else s.readPix b) ∧
  ∀ (s : State) (a : Nat) (data : BitVec 64), s.MemOk → a < s.codeCap →
    ∃ t, perform (.write .bits8 (0x02000000 + a) data) s = .next t ∧ t = { s with codemem := t.codemem } ∧
      ∀ b, t.readCode b = if b = a then data.setWidth 8 else s.readCode b

/-- A read or write that R63 does not admit is refused, and only such an access is: an admitted write at 0x04 is the issue of
{CMD_HI, CMD_LO}, which never stops. The refusal is the host-side bus fault that R63 allows a total step to take (log entry
10). -/
def Obligations.RefusedAccesses : Prop :=
  ∀ (s : State) (width : AccessWidth) (offset : Nat),
    let admitted :=
      (width = .bits32 ∧ offset % 4 = 0 ∧ offset ≤ 0x24) ∨
      (width = .bits8 ∧ 0x01000000 ≤ offset ∧ offset < 0x01000000 + s.pixCap) ∨
      (width = .bits8 ∧ 0x02000000 ≤ offset ∧ offset < 0x02000000 + s.codeCap)
    (admitted → (∃ t, perform (.read width offset) s = .next t) ∧
      ∀ data, (∃ t, perform (.write width offset data) s = .next t) ∧
        (offset = 0x04 →
          perform (.write width offset data) s = issue (data.setWidth 32 ++ s.cmdLo) { s with cmdHi := data.setWidth 32 })) ∧
    (¬ admitted → (∃ f, perform (.read width offset) s = .fault f) ∧
      ∀ data, ∃ f, perform (.write width offset data) s = .fault f)

/-- A command always ends (R279): from every state the issue of any word has a next state, with BUSY 0. -/
def Obligations.EveryCommandEnds : Prop :=
  ∀ (w : Word64) (s : State), ∃ t, issue w s = .next t ∧ t.busy = false

/-- Which units a command may write at all (R41, R70, R220): the frame of every command, over the whole opcode map. That
ENC_RUN keeps the DEC_* registers, DT and XSTACK, and DEC_RUN the ENC_* registers, is the model's choice (log entry 18). -/
def Obligations.CommandsTouchTheirUnits : Prop :=
  ∀ (i : Instr) (s t : State), exec i s = .next t →
    t.pixLast = s.pixLast ∧ t.codeLast = s.codeLast ∧ t.cmdLo = s.cmdLo ∧ t.cmdHi = s.cmdHi ∧ t.inbox = s.inbox ∧
    t.reply = s.reply ∧
    (i.mnemonic ≠ .paConfig → t.pa = s.pa) ∧
    (i.mnemonic ∉ [Mnemonic.cwReset, .cwWrite, .cwEnd, .encRun] → t.cw = s.cw) ∧
    (i.mnemonic ∉ [Mnemonic.cwWrite, .cwEnd, .encRun] → t.codemem = s.codemem) ∧
    (i.mnemonic ∉ [Mnemonic.crOpen, .crRead, .decRun] → t.cr = s.cr) ∧
    (i.mnemonic ∉ [Mnemonic.stReset, .stAdd, .encRun] → t.st = s.st) ∧
    (i.mnemonic ≠ .encRun → t.enc = s.enc) ∧
    (i.mnemonic ≠ .decRun →
      t.pixmem = s.pixmem ∧ t.dec = s.dec ∧ t.dt = s.dt ∧ t.xstack = s.xstack ∧ t.xsp = s.xsp) ∧
    (i.mnemonic ∉ [Mnemonic.cwWrite, .cwEnd, .crRead, .stSearch, .encRun, .decRun, .paRowlen, .paOffset, .paExtract,
      .paInject] → t.res0 = s.res0) ∧
    (i.mnemonic ∉ [Mnemonic.crRead, .stSearch, .encRun, .decRun, .paOffset] → t.res1 = s.res1)

end
end

