-- ==== Sys2Proof/Laws/Cells.lean ====
section
/-! SUPPORT. The laws of sparse storage: a read after a write, and the canonical form that every operation keeps. -/

namespace Sys2Proof.Machine

variable {α : Type} {default : α} {bound : Nat}

/-- An index below every listed one reads as unlisted. -/
theorem Cells.read_eq_default {m : Cells α} {a : Nat} (h : ∀ c ∈ m, a < c.1) : Cells.read default m a = default := by
  induction m with
  | nil => rfl
  | cons c m ih =>
    have hc : a < c.1 := h c (by simp)
    simp only [Cells.read, if_neg (Nat.ne_of_lt hc)]
    exact ih fun d hd => h d (List.mem_cons_of_mem _ hd)

variable [DecidableEq α]

theorem Cells.wf_nil : Cells.wf default bound [] := ⟨List.Pairwise.nil, by simp⟩

theorem Cells.wf_cons {c : Nat × α} {m : Cells α} :
    Cells.wf default bound (c :: m) ↔
      (∀ d ∈ m, c.1 < d.1) ∧ (c.1 < bound ∧ c.2 ≠ default) ∧ Cells.wf default bound m := by
  simp only [Cells.wf, List.pairwise_cons, List.forall_mem_cons]
  constructor
  · rintro ⟨⟨h1, h2⟩, h3, h4⟩
    exact ⟨h1, h3, h2, h4⟩
  · rintro ⟨h1, h3, h2, h4⟩
    exact ⟨⟨h1, h2⟩, h3, h4⟩

/-- A write lists no index but its own and those listed before. -/
theorem Cells.mem_write {m : Cells α} {a : Nat} {v : α} {c : Nat × α} (h : c ∈ Cells.write default m a v) :
    c ∈ m ∨ (c = (a, v) ∧ v ≠ default) := by
  induction m with
  | nil =>
    simp only [Cells.write] at h
    split at h <;> simp_all
  | cons d m ih =>
    obtain ⟨k, w⟩ := d
    simp only [Cells.write] at h
    split at h
    · split at h <;> simp_all
      tauto
    · split at h
      · split at h <;> simp_all
        tauto
      · simp only [List.mem_cons] at h ⊢
        rcases h with h | h
        · exact Or.inl (Or.inl h)
        · rcases ih h with h | h
          · exact Or.inl (Or.inr h)
          · exact Or.inr h

/-- A write keeps the canonical form. -/
theorem Cells.write_wf {m : Cells α} {a : Nat} {v : α} (hm : Cells.wf default bound m) (ha : a < bound) :
    Cells.wf default bound (Cells.write default m a v) := by
  induction m with
  | nil =>
    by_cases hv : v = default
    · simp [Cells.write, hv, Cells.wf]
    · simp [Cells.write, hv, Cells.wf, ha]
  | cons d m ih =>
    obtain ⟨k, w⟩ := d
    have hm' := Cells.wf_cons.mp hm
    obtain ⟨hlt, ⟨hk, hw⟩, hwf⟩ := hm'
    simp only [Cells.write]
    split
    · rename_i hak
      split
      · exact hm
      · rename_i hv
        refine Cells.wf_cons.mpr ⟨?_, ⟨ha, hv⟩, hm⟩
        intro e he
        rcases List.mem_cons.mp he with rfl | he
        · exact hak
        · exact Nat.lt_trans hak (hlt e he)
    · split
      · rename_i hak
        split
        · exact hwf
        · rename_i hv
          exact Cells.wf_cons.mpr ⟨fun e he => hak ▸ hlt e he, ⟨ha, hv⟩, hwf⟩
      · rename_i h1 h2
        refine Cells.wf_cons.mpr ⟨?_, ⟨hk, hw⟩, ih hwf⟩
        intro e he
        rcases Cells.mem_write he with he | ⟨rfl, -⟩
        · exact hlt e he
        · exact Nat.lt_of_le_of_ne (Nat.le_of_not_lt h1) (Ne.symm h2)

/-- A read of the written index gives the written value. -/
theorem Cells.read_write_same {m : Cells α} {a : Nat} {v : α} (hm : Cells.wf default bound m) :
    Cells.read default (Cells.write default m a v) a = v := by
  induction m with
  | nil =>
    simp only [Cells.write]
    split <;> simp_all [Cells.read]
  | cons d m ih =>
    obtain ⟨k, w⟩ := d
    obtain ⟨hlt, -, hwf⟩ := Cells.wf_cons.mp hm
    simp only [Cells.write]
    split
    · rename_i hak
      split
      · rename_i hv
        rw [hv]
        refine Cells.read_eq_default ?_
        intro e he
        rcases List.mem_cons.mp he with rfl | he
        · exact hak
        · exact Nat.lt_trans hak (hlt e he)
      · simp [Cells.read]
    · split
      · rename_i hak
        split
        · rename_i hv
          rw [hv]
          exact Cells.read_eq_default fun e he => hak ▸ hlt e he
        · simp [Cells.read]
      · rename_i h2
        simp [Cells.read, h2, ih hwf]

/-- A write leaves every other index alone. -/
theorem Cells.read_write_other {m : Cells α} {a b : Nat} {v : α} (h : b ≠ a) :
    Cells.read default (Cells.write default m a v) b = Cells.read default m b := by
  induction m with
  | nil =>
    simp only [Cells.write]
    split <;> simp [Cells.read, h]
  | cons d m ih =>
    obtain ⟨k, w⟩ := d
    simp only [Cells.write]
    split
    · split <;> simp [Cells.read, h]
    · split
      · rename_i hak
        subst hak
        split <;> simp [Cells.read, h]
      · simp only [Cells.read, ih]

/-- The two laws of a write in one. -/
theorem Cells.read_write {m : Cells α} {a b : Nat} {v : α} (hm : Cells.wf default bound m) :
    Cells.read default (Cells.write default m a v) b = if b = a then v else Cells.read default m b := by
  split
  · rename_i h
    rw [h, Cells.read_write_same hm]
  · rename_i h
    exact Cells.read_write_other h

/-- Laying unspecified contents over a range keeps the canonical form. -/
theorem Cells.overlay_wf {lo hi : Nat} {m free : Cells α} (hm : Cells.wf default bound m) (hhi : hi ≤ bound) :
    Cells.wf default bound (Cells.overlay default lo hi m free) := by
  unfold Cells.overlay
  induction free generalizing m with
  | nil => exact hm
  | cons c free ih =>
    simp only [List.foldl_cons]
    split
    · rename_i h
      exact ih (Cells.write_wf hm (Nat.lt_of_lt_of_le h.2 hhi))
    · exact ih hm

/-- Laying unspecified contents over a range leaves the indexes outside it alone. -/
theorem Cells.read_overlay_outside {lo hi a : Nat} {m free : Cells α} (ha : a < lo ∨ hi ≤ a) :
    Cells.read default (Cells.overlay default lo hi m free) a = Cells.read default m a := by
  unfold Cells.overlay
  induction free generalizing m with
  | nil => rfl
  | cons c free ih =>
    simp only [List.foldl_cons]
    rw [ih]
    split
    · rename_i h
      exact Cells.read_write_other (by omega)
    · rfl

theorem Memory.write_wf {cap : Nat} {m : Memory} {a : Nat} {v : Byte} (hm : Memory.wf cap m) (ha : a < cap) :
    Memory.wf cap (Memory.write m a v) := Cells.write_wf hm ha

theorem Memory.read_write_same {cap : Nat} {m : Memory} {a : Nat} {v : Byte} (hm : Memory.wf cap m) :
    Memory.read (Memory.write m a v) a = v := Cells.read_write_same hm

theorem Memory.read_write_other {m : Memory} {a b : Nat} {v : Byte} (h : b ≠ a) :
    Memory.read (Memory.write m a v) b = Memory.read m b := Cells.read_write_other h

theorem Memory.wf_nil (cap : Nat) : Memory.wf cap [] := Cells.wf_nil

theorem freeMemory_wf {site : Config.FreeSite} {tick lo cap : Nat} {m : Memory} (hm : Memory.wf cap m) :
    Memory.wf cap (freeMemory site tick lo cap m) := Cells.overlay_wf hm (Nat.le_refl _)

theorem freeMemory_read_outside {site : Config.FreeSite} {tick lo hi a : Nat} {m : Memory} (ha : a < lo ∨ hi ≤ a) :
    Memory.read (freeMemory site tick lo hi m) a = Memory.read m a := Cells.read_overlay_outside ha

theorem freeSt_wf (t : Nat) : Cells.wf StSlot.empty Config.stSlots (freeSt t) :=
  Cells.overlay_wf Cells.wf_nil (Nat.le_refl _)

theorem freeDt_wf (t : Nat) : Cells.wf DtEntry.empty Config.dtEntries (freeDt t) :=
  Cells.overlay_wf Cells.wf_nil (Nat.le_refl _)

end Sys2Proof.Machine
end

