-- ==== Sys2Proof/Laws/State.lean ====
section
/-! SUPPORT. One lemma per field per update, true by rfl: what each composite operation leaves in each field of the state.
The setters of Machine/Ops.lean carry `@[simps]`, which states the same lemmas for them where they are declared. -/

namespace Sys2Proof.Machine

/-! ### `raise`. Error entry (R244). -/

@[simp] theorem raise_err (r : Raise) (s : State) : (raise r s).err = r.kind.code := rfl
@[simp] theorem raise_busy (r : Raise) (s : State) : (raise r s).busy = false := rfl
@[simp] theorem raise_errInfo (r : Raise) (s : State) : (raise r s).errInfo = zext32 r.info := rfl
@[simp] theorem raise_res0 (r : Raise) (s : State) : (raise r s).res0 = s.res0 := rfl
@[simp] theorem raise_res1 (r : Raise) (s : State) : (raise r s).res1 = s.res1 := rfl
@[simp] theorem raise_cmdLo (r : Raise) (s : State) : (raise r s).cmdLo = s.cmdLo := rfl
@[simp] theorem raise_cmdHi (r : Raise) (s : State) : (raise r s).cmdHi = s.cmdHi := rfl
@[simp] theorem raise_pixLast (r : Raise) (s : State) : (raise r s).pixLast = s.pixLast := rfl
@[simp] theorem raise_codeLast (r : Raise) (s : State) : (raise r s).codeLast = s.codeLast := rfl
@[simp] theorem raise_cw (r : Raise) (s : State) : (raise r s).cw = s.cw := rfl
@[simp] theorem raise_cr (r : Raise) (s : State) : (raise r s).cr = s.cr := rfl
@[simp] theorem raise_st (r : Raise) (s : State) : (raise r s).st = s.st := rfl
@[simp] theorem raise_enc (r : Raise) (s : State) : (raise r s).enc = s.enc := rfl
@[simp] theorem raise_dec (r : Raise) (s : State) : (raise r s).dec = s.dec := rfl
@[simp] theorem raise_dt (r : Raise) (s : State) : (raise r s).dt = s.dt := rfl
@[simp] theorem raise_xstack (r : Raise) (s : State) : (raise r s).xstack = s.xstack := rfl
@[simp] theorem raise_xsp (r : Raise) (s : State) : (raise r s).xsp = s.xsp := rfl
@[simp] theorem raise_pa (r : Raise) (s : State) : (raise r s).pa = s.pa := rfl
@[simp] theorem raise_pixmem (r : Raise) (s : State) : (raise r s).pixmem = s.pixmem := rfl
@[simp] theorem raise_codemem (r : Raise) (s : State) : (raise r s).codemem = s.codemem := rfl
@[simp] theorem raise_inbox (r : Raise) (s : State) : (raise r s).inbox = s.inbox := rfl
@[simp] theorem raise_reply (r : Raise) (s : State) : (raise r s).reply = s.reply := rfl
@[simp] theorem raise_freeTick (r : Raise) (s : State) : (raise r s).freeTick = s.freeTick := rfl

/-! ### `clearError`. The return from an error (R111). -/

@[simp] theorem clearError_err (s : State) : (clearError s).err = 0#8 := rfl
@[simp] theorem clearError_busy (s : State) : (clearError s).busy = s.busy := rfl
@[simp] theorem clearError_errInfo (s : State) : (clearError s).errInfo = 0#32 := rfl
@[simp] theorem clearError_res0 (s : State) : (clearError s).res0 = s.res0 := rfl
@[simp] theorem clearError_res1 (s : State) : (clearError s).res1 = s.res1 := rfl
@[simp] theorem clearError_cmdLo (s : State) : (clearError s).cmdLo = s.cmdLo := rfl
@[simp] theorem clearError_cmdHi (s : State) : (clearError s).cmdHi = s.cmdHi := rfl
@[simp] theorem clearError_pixLast (s : State) : (clearError s).pixLast = s.pixLast := rfl
@[simp] theorem clearError_codeLast (s : State) : (clearError s).codeLast = s.codeLast := rfl
@[simp] theorem clearError_cw (s : State) : (clearError s).cw = s.cw := rfl
@[simp] theorem clearError_cr (s : State) : (clearError s).cr = s.cr := rfl
@[simp] theorem clearError_st (s : State) : (clearError s).st = s.st := rfl
@[simp] theorem clearError_enc (s : State) : (clearError s).enc = s.enc := rfl
@[simp] theorem clearError_dec (s : State) : (clearError s).dec = s.dec := rfl
@[simp] theorem clearError_dt (s : State) : (clearError s).dt = s.dt := rfl
@[simp] theorem clearError_xstack (s : State) : (clearError s).xstack = s.xstack := rfl
@[simp] theorem clearError_xsp (s : State) : (clearError s).xsp = s.xsp := rfl
@[simp] theorem clearError_pa (s : State) : (clearError s).pa = s.pa := rfl
@[simp] theorem clearError_pixmem (s : State) : (clearError s).pixmem = s.pixmem := rfl
@[simp] theorem clearError_codemem (s : State) : (clearError s).codemem = s.codemem := rfl
@[simp] theorem clearError_inbox (s : State) : (clearError s).inbox = s.inbox := rfl
@[simp] theorem clearError_reply (s : State) : (clearError s).reply = s.reply := rfl
@[simp] theorem clearError_freeTick (s : State) : (clearError s).freeTick = s.freeTick := rfl

/-! ### `writePix`. A byte stored in PIXMEM (R11). -/

@[simp] theorem writePix_err (s : State) (a : Nat) (v : Byte) : (s.writePix a v).err = s.err := rfl
@[simp] theorem writePix_busy (s : State) (a : Nat) (v : Byte) : (s.writePix a v).busy = s.busy := rfl
@[simp] theorem writePix_errInfo (s : State) (a : Nat) (v : Byte) : (s.writePix a v).errInfo = s.errInfo := rfl
@[simp] theorem writePix_res0 (s : State) (a : Nat) (v : Byte) : (s.writePix a v).res0 = s.res0 := rfl
@[simp] theorem writePix_res1 (s : State) (a : Nat) (v : Byte) : (s.writePix a v).res1 = s.res1 := rfl
@[simp] theorem writePix_cmdLo (s : State) (a : Nat) (v : Byte) : (s.writePix a v).cmdLo = s.cmdLo := rfl
@[simp] theorem writePix_cmdHi (s : State) (a : Nat) (v : Byte) : (s.writePix a v).cmdHi = s.cmdHi := rfl
@[simp] theorem writePix_pixLast (s : State) (a : Nat) (v : Byte) : (s.writePix a v).pixLast = s.pixLast := rfl
@[simp] theorem writePix_codeLast (s : State) (a : Nat) (v : Byte) : (s.writePix a v).codeLast = s.codeLast := rfl
@[simp] theorem writePix_cw (s : State) (a : Nat) (v : Byte) : (s.writePix a v).cw = s.cw := rfl
@[simp] theorem writePix_cr (s : State) (a : Nat) (v : Byte) : (s.writePix a v).cr = s.cr := rfl
@[simp] theorem writePix_st (s : State) (a : Nat) (v : Byte) : (s.writePix a v).st = s.st := rfl
@[simp] theorem writePix_enc (s : State) (a : Nat) (v : Byte) : (s.writePix a v).enc = s.enc := rfl
@[simp] theorem writePix_dec (s : State) (a : Nat) (v : Byte) : (s.writePix a v).dec = s.dec := rfl
@[simp] theorem writePix_dt (s : State) (a : Nat) (v : Byte) : (s.writePix a v).dt = s.dt := rfl
@[simp] theorem writePix_xstack (s : State) (a : Nat) (v : Byte) : (s.writePix a v).xstack = s.xstack := rfl
@[simp] theorem writePix_xsp (s : State) (a : Nat) (v : Byte) : (s.writePix a v).xsp = s.xsp := rfl
@[simp] theorem writePix_pa (s : State) (a : Nat) (v : Byte) : (s.writePix a v).pa = s.pa := rfl
@[simp] theorem writePix_pixmem (s : State) (a : Nat) (v : Byte) : (s.writePix a v).pixmem = Memory.write s.pixmem a v := rfl
@[simp] theorem writePix_codemem (s : State) (a : Nat) (v : Byte) : (s.writePix a v).codemem = s.codemem := rfl
@[simp] theorem writePix_inbox (s : State) (a : Nat) (v : Byte) : (s.writePix a v).inbox = s.inbox := rfl
@[simp] theorem writePix_reply (s : State) (a : Nat) (v : Byte) : (s.writePix a v).reply = s.reply := rfl
@[simp] theorem writePix_freeTick (s : State) (a : Nat) (v : Byte) : (s.writePix a v).freeTick = s.freeTick := rfl

/-! ### `writeCode`. A byte stored in CODEMEM (R11). -/

@[simp] theorem writeCode_err (s : State) (a : Nat) (v : Byte) : (s.writeCode a v).err = s.err := rfl
@[simp] theorem writeCode_busy (s : State) (a : Nat) (v : Byte) : (s.writeCode a v).busy = s.busy := rfl
@[simp] theorem writeCode_errInfo (s : State) (a : Nat) (v : Byte) : (s.writeCode a v).errInfo = s.errInfo := rfl
@[simp] theorem writeCode_res0 (s : State) (a : Nat) (v : Byte) : (s.writeCode a v).res0 = s.res0 := rfl
@[simp] theorem writeCode_res1 (s : State) (a : Nat) (v : Byte) : (s.writeCode a v).res1 = s.res1 := rfl
@[simp] theorem writeCode_cmdLo (s : State) (a : Nat) (v : Byte) : (s.writeCode a v).cmdLo = s.cmdLo := rfl
@[simp] theorem writeCode_cmdHi (s : State) (a : Nat) (v : Byte) : (s.writeCode a v).cmdHi = s.cmdHi := rfl
@[simp] theorem writeCode_pixLast (s : State) (a : Nat) (v : Byte) : (s.writeCode a v).pixLast = s.pixLast := rfl
@[simp] theorem writeCode_codeLast (s : State) (a : Nat) (v : Byte) : (s.writeCode a v).codeLast = s.codeLast := rfl
@[simp] theorem writeCode_cw (s : State) (a : Nat) (v : Byte) : (s.writeCode a v).cw = s.cw := rfl
@[simp] theorem writeCode_cr (s : State) (a : Nat) (v : Byte) : (s.writeCode a v).cr = s.cr := rfl
@[simp] theorem writeCode_st (s : State) (a : Nat) (v : Byte) : (s.writeCode a v).st = s.st := rfl
@[simp] theorem writeCode_enc (s : State) (a : Nat) (v : Byte) : (s.writeCode a v).enc = s.enc := rfl
@[simp] theorem writeCode_dec (s : State) (a : Nat) (v : Byte) : (s.writeCode a v).dec = s.dec := rfl
@[simp] theorem writeCode_dt (s : State) (a : Nat) (v : Byte) : (s.writeCode a v).dt = s.dt := rfl
@[simp] theorem writeCode_xstack (s : State) (a : Nat) (v : Byte) : (s.writeCode a v).xstack = s.xstack := rfl
@[simp] theorem writeCode_xsp (s : State) (a : Nat) (v : Byte) : (s.writeCode a v).xsp = s.xsp := rfl
@[simp] theorem writeCode_pa (s : State) (a : Nat) (v : Byte) : (s.writeCode a v).pa = s.pa := rfl
@[simp] theorem writeCode_pixmem (s : State) (a : Nat) (v : Byte) : (s.writeCode a v).pixmem = s.pixmem := rfl
@[simp] theorem writeCode_codemem (s : State) (a : Nat) (v : Byte) :
    (s.writeCode a v).codemem = Memory.write s.codemem a v := rfl
@[simp] theorem writeCode_inbox (s : State) (a : Nat) (v : Byte) : (s.writeCode a v).inbox = s.inbox := rfl
@[simp] theorem writeCode_reply (s : State) (a : Nat) (v : Byte) : (s.writeCode a v).reply = s.reply := rfl
@[simp] theorem writeCode_freeTick (s : State) (a : Nat) (v : Byte) : (s.writeCode a v).freeTick = s.freeTick := rfl

/-! ### `writeSlot`. A slot written (R31). -/

@[simp] theorem writeSlot_err (s : State) (i : BitVec 12) (v : StSlot) : (s.writeSlot i v).err = s.err := rfl
@[simp] theorem writeSlot_busy (s : State) (i : BitVec 12) (v : StSlot) : (s.writeSlot i v).busy = s.busy := rfl
@[simp] theorem writeSlot_errInfo (s : State) (i : BitVec 12) (v : StSlot) : (s.writeSlot i v).errInfo = s.errInfo := rfl
@[simp] theorem writeSlot_res0 (s : State) (i : BitVec 12) (v : StSlot) : (s.writeSlot i v).res0 = s.res0 := rfl
@[simp] theorem writeSlot_res1 (s : State) (i : BitVec 12) (v : StSlot) : (s.writeSlot i v).res1 = s.res1 := rfl
@[simp] theorem writeSlot_cmdLo (s : State) (i : BitVec 12) (v : StSlot) : (s.writeSlot i v).cmdLo = s.cmdLo := rfl
@[simp] theorem writeSlot_cmdHi (s : State) (i : BitVec 12) (v : StSlot) : (s.writeSlot i v).cmdHi = s.cmdHi := rfl
@[simp] theorem writeSlot_pixLast (s : State) (i : BitVec 12) (v : StSlot) : (s.writeSlot i v).pixLast = s.pixLast := rfl
@[simp] theorem writeSlot_codeLast (s : State) (i : BitVec 12) (v : StSlot) : (s.writeSlot i v).codeLast = s.codeLast := rfl
@[simp] theorem writeSlot_cw (s : State) (i : BitVec 12) (v : StSlot) : (s.writeSlot i v).cw = s.cw := rfl
@[simp] theorem writeSlot_cr (s : State) (i : BitVec 12) (v : StSlot) : (s.writeSlot i v).cr = s.cr := rfl
@[simp] theorem writeSlot_st (s : State) (i : BitVec 12) (v : StSlot) :
    (s.writeSlot i v).st = Cells.write StSlot.empty s.st i.toNat v := rfl
@[simp] theorem writeSlot_enc (s : State) (i : BitVec 12) (v : StSlot) : (s.writeSlot i v).enc = s.enc := rfl
@[simp] theorem writeSlot_dec (s : State) (i : BitVec 12) (v : StSlot) : (s.writeSlot i v).dec = s.dec := rfl
@[simp] theorem writeSlot_dt (s : State) (i : BitVec 12) (v : StSlot) : (s.writeSlot i v).dt = s.dt := rfl
@[simp] theorem writeSlot_xstack (s : State) (i : BitVec 12) (v : StSlot) : (s.writeSlot i v).xstack = s.xstack := rfl
@[simp] theorem writeSlot_xsp (s : State) (i : BitVec 12) (v : StSlot) : (s.writeSlot i v).xsp = s.xsp := rfl
@[simp] theorem writeSlot_pa (s : State) (i : BitVec 12) (v : StSlot) : (s.writeSlot i v).pa = s.pa := rfl
@[simp] theorem writeSlot_pixmem (s : State) (i : BitVec 12) (v : StSlot) : (s.writeSlot i v).pixmem = s.pixmem := rfl
@[simp] theorem writeSlot_codemem (s : State) (i : BitVec 12) (v : StSlot) : (s.writeSlot i v).codemem = s.codemem := rfl
@[simp] theorem writeSlot_inbox (s : State) (i : BitVec 12) (v : StSlot) : (s.writeSlot i v).inbox = s.inbox := rfl
@[simp] theorem writeSlot_reply (s : State) (i : BitVec 12) (v : StSlot) : (s.writeSlot i v).reply = s.reply := rfl
@[simp] theorem writeSlot_freeTick (s : State) (i : BitVec 12) (v : StSlot) : (s.writeSlot i v).freeTick = s.freeTick := rfl

/-! ### `writeEntry`. A decode-table entry written (R39). -/

@[simp] theorem writeEntry_err (s : State) (k : Nat) (v : DtEntry) : (s.writeEntry k v).err = s.err := rfl
@[simp] theorem writeEntry_busy (s : State) (k : Nat) (v : DtEntry) : (s.writeEntry k v).busy = s.busy := rfl
@[simp] theorem writeEntry_errInfo (s : State) (k : Nat) (v : DtEntry) : (s.writeEntry k v).errInfo = s.errInfo := rfl
@[simp] theorem writeEntry_res0 (s : State) (k : Nat) (v : DtEntry) : (s.writeEntry k v).res0 = s.res0 := rfl
@[simp] theorem writeEntry_res1 (s : State) (k : Nat) (v : DtEntry) : (s.writeEntry k v).res1 = s.res1 := rfl
@[simp] theorem writeEntry_cmdLo (s : State) (k : Nat) (v : DtEntry) : (s.writeEntry k v).cmdLo = s.cmdLo := rfl
@[simp] theorem writeEntry_cmdHi (s : State) (k : Nat) (v : DtEntry) : (s.writeEntry k v).cmdHi = s.cmdHi := rfl
@[simp] theorem writeEntry_pixLast (s : State) (k : Nat) (v : DtEntry) : (s.writeEntry k v).pixLast = s.pixLast := rfl
@[simp] theorem writeEntry_codeLast (s : State) (k : Nat) (v : DtEntry) : (s.writeEntry k v).codeLast = s.codeLast := rfl
@[simp] theorem writeEntry_cw (s : State) (k : Nat) (v : DtEntry) : (s.writeEntry k v).cw = s.cw := rfl
@[simp] theorem writeEntry_cr (s : State) (k : Nat) (v : DtEntry) : (s.writeEntry k v).cr = s.cr := rfl
@[simp] theorem writeEntry_st (s : State) (k : Nat) (v : DtEntry) : (s.writeEntry k v).st = s.st := rfl
@[simp] theorem writeEntry_enc (s : State) (k : Nat) (v : DtEntry) : (s.writeEntry k v).enc = s.enc := rfl
@[simp] theorem writeEntry_dec (s : State) (k : Nat) (v : DtEntry) : (s.writeEntry k v).dec = s.dec := rfl
@[simp] theorem writeEntry_dt (s : State) (k : Nat) (v : DtEntry) :
    (s.writeEntry k v).dt = Cells.write DtEntry.empty s.dt k v := rfl
@[simp] theorem writeEntry_xstack (s : State) (k : Nat) (v : DtEntry) : (s.writeEntry k v).xstack = s.xstack := rfl
@[simp] theorem writeEntry_xsp (s : State) (k : Nat) (v : DtEntry) : (s.writeEntry k v).xsp = s.xsp := rfl
@[simp] theorem writeEntry_pa (s : State) (k : Nat) (v : DtEntry) : (s.writeEntry k v).pa = s.pa := rfl
@[simp] theorem writeEntry_pixmem (s : State) (k : Nat) (v : DtEntry) : (s.writeEntry k v).pixmem = s.pixmem := rfl
@[simp] theorem writeEntry_codemem (s : State) (k : Nat) (v : DtEntry) : (s.writeEntry k v).codemem = s.codemem := rfl
@[simp] theorem writeEntry_inbox (s : State) (k : Nat) (v : DtEntry) : (s.writeEntry k v).inbox = s.inbox := rfl
@[simp] theorem writeEntry_reply (s : State) (k : Nat) (v : DtEntry) : (s.writeEntry k v).reply = s.reply := rfl
@[simp] theorem writeEntry_freeTick (s : State) (k : Nat) (v : DtEntry) : (s.writeEntry k v).freeTick = s.freeTick := rfl

/-! ### `pushX`. A pixel pushed on XSTACK (R184). -/

@[simp] theorem pushX_err (s : State) (p : Byte) : (s.pushX p).err = s.err := rfl
@[simp] theorem pushX_busy (s : State) (p : Byte) : (s.pushX p).busy = s.busy := rfl
@[simp] theorem pushX_errInfo (s : State) (p : Byte) : (s.pushX p).errInfo = s.errInfo := rfl
@[simp] theorem pushX_res0 (s : State) (p : Byte) : (s.pushX p).res0 = s.res0 := rfl
@[simp] theorem pushX_res1 (s : State) (p : Byte) : (s.pushX p).res1 = s.res1 := rfl
@[simp] theorem pushX_cmdLo (s : State) (p : Byte) : (s.pushX p).cmdLo = s.cmdLo := rfl
@[simp] theorem pushX_cmdHi (s : State) (p : Byte) : (s.pushX p).cmdHi = s.cmdHi := rfl
@[simp] theorem pushX_pixLast (s : State) (p : Byte) : (s.pushX p).pixLast = s.pixLast := rfl
@[simp] theorem pushX_codeLast (s : State) (p : Byte) : (s.pushX p).codeLast = s.codeLast := rfl
@[simp] theorem pushX_cw (s : State) (p : Byte) : (s.pushX p).cw = s.cw := rfl
@[simp] theorem pushX_cr (s : State) (p : Byte) : (s.pushX p).cr = s.cr := rfl
@[simp] theorem pushX_st (s : State) (p : Byte) : (s.pushX p).st = s.st := rfl
@[simp] theorem pushX_enc (s : State) (p : Byte) : (s.pushX p).enc = s.enc := rfl
@[simp] theorem pushX_dec (s : State) (p : Byte) : (s.pushX p).dec = s.dec := rfl
@[simp] theorem pushX_dt (s : State) (p : Byte) : (s.pushX p).dt = s.dt := rfl
@[simp] theorem pushX_xstack (s : State) (p : Byte) :
    (s.pushX p).xstack = Memory.write s.xstack s.xsp.toNat p := rfl
@[simp] theorem pushX_xsp (s : State) (p : Byte) : (s.pushX p).xsp = s.xsp + 1#13 := rfl
@[simp] theorem pushX_pa (s : State) (p : Byte) : (s.pushX p).pa = s.pa := rfl
@[simp] theorem pushX_pixmem (s : State) (p : Byte) : (s.pushX p).pixmem = s.pixmem := rfl
@[simp] theorem pushX_codemem (s : State) (p : Byte) : (s.pushX p).codemem = s.codemem := rfl
@[simp] theorem pushX_inbox (s : State) (p : Byte) : (s.pushX p).inbox = s.inbox := rfl
@[simp] theorem pushX_reply (s : State) (p : Byte) : (s.pushX p).reply = s.reply := rfl
@[simp] theorem pushX_freeTick (s : State) (p : Byte) : (s.pushX p).freeTick = s.freeTick := rfl

/-! ### `cwReset`. A new output stream (R132). -/

@[simp] theorem cwReset_err (s : State) : (cwReset s).err = s.err := rfl
@[simp] theorem cwReset_busy (s : State) : (cwReset s).busy = s.busy := rfl
@[simp] theorem cwReset_errInfo (s : State) : (cwReset s).errInfo = s.errInfo := rfl
@[simp] theorem cwReset_res0 (s : State) : (cwReset s).res0 = s.res0 := rfl
@[simp] theorem cwReset_res1 (s : State) : (cwReset s).res1 = s.res1 := rfl
@[simp] theorem cwReset_cmdLo (s : State) : (cwReset s).cmdLo = s.cmdLo := rfl
@[simp] theorem cwReset_cmdHi (s : State) : (cwReset s).cmdHi = s.cmdHi := rfl
@[simp] theorem cwReset_pixLast (s : State) : (cwReset s).pixLast = s.pixLast := rfl
@[simp] theorem cwReset_codeLast (s : State) : (cwReset s).codeLast = s.codeLast := rfl
@[simp] theorem cwReset_cw (s : State) : (cwReset s).cw = ⟨0#25, 0#4, 0⟩ := rfl
@[simp] theorem cwReset_cr (s : State) : (cwReset s).cr = s.cr := rfl
@[simp] theorem cwReset_st (s : State) : (cwReset s).st = s.st := rfl
@[simp] theorem cwReset_enc (s : State) : (cwReset s).enc = s.enc := rfl
@[simp] theorem cwReset_dec (s : State) : (cwReset s).dec = s.dec := rfl
@[simp] theorem cwReset_dt (s : State) : (cwReset s).dt = s.dt := rfl
@[simp] theorem cwReset_xstack (s : State) : (cwReset s).xstack = s.xstack := rfl
@[simp] theorem cwReset_xsp (s : State) : (cwReset s).xsp = s.xsp := rfl
@[simp] theorem cwReset_pa (s : State) : (cwReset s).pa = s.pa := rfl
@[simp] theorem cwReset_pixmem (s : State) : (cwReset s).pixmem = s.pixmem := rfl
@[simp] theorem cwReset_codemem (s : State) : (cwReset s).codemem = s.codemem := rfl
@[simp] theorem cwReset_inbox (s : State) : (cwReset s).inbox = s.inbox := rfl
@[simp] theorem cwReset_reply (s : State) : (cwReset s).reply = s.reply := rfl
@[simp] theorem cwReset_freeTick (s : State) : (cwReset s).freeTick = s.freeTick := rfl

/-! ### `crOpen`. The reader attached to a stream (R121). -/

@[simp] theorem crOpen_err (n : Nat) (s : State) : (crOpen n s).err = s.err := rfl
@[simp] theorem crOpen_busy (n : Nat) (s : State) : (crOpen n s).busy = s.busy := rfl
@[simp] theorem crOpen_errInfo (n : Nat) (s : State) : (crOpen n s).errInfo = s.errInfo := rfl
@[simp] theorem crOpen_res0 (n : Nat) (s : State) : (crOpen n s).res0 = s.res0 := rfl
@[simp] theorem crOpen_res1 (n : Nat) (s : State) : (crOpen n s).res1 = s.res1 := rfl
@[simp] theorem crOpen_cmdLo (n : Nat) (s : State) : (crOpen n s).cmdLo = s.cmdLo := rfl
@[simp] theorem crOpen_cmdHi (n : Nat) (s : State) : (crOpen n s).cmdHi = s.cmdHi := rfl
@[simp] theorem crOpen_pixLast (n : Nat) (s : State) : (crOpen n s).pixLast = s.pixLast := rfl
@[simp] theorem crOpen_codeLast (n : Nat) (s : State) : (crOpen n s).codeLast = s.codeLast := rfl
@[simp] theorem crOpen_cw (n : Nat) (s : State) : (crOpen n s).cw = s.cw := rfl
@[simp] theorem crOpen_cr (n : Nat) (s : State) : (crOpen n s).cr = ⟨BitVec.ofNat 25 n, 0#28⟩ := rfl
@[simp] theorem crOpen_st (n : Nat) (s : State) : (crOpen n s).st = s.st := rfl
@[simp] theorem crOpen_enc (n : Nat) (s : State) : (crOpen n s).enc = s.enc := rfl
@[simp] theorem crOpen_dec (n : Nat) (s : State) : (crOpen n s).dec = s.dec := rfl
@[simp] theorem crOpen_dt (n : Nat) (s : State) : (crOpen n s).dt = s.dt := rfl
@[simp] theorem crOpen_xstack (n : Nat) (s : State) : (crOpen n s).xstack = s.xstack := rfl
@[simp] theorem crOpen_xsp (n : Nat) (s : State) : (crOpen n s).xsp = s.xsp := rfl
@[simp] theorem crOpen_pa (n : Nat) (s : State) : (crOpen n s).pa = s.pa := rfl
@[simp] theorem crOpen_pixmem (n : Nat) (s : State) : (crOpen n s).pixmem = s.pixmem := rfl
@[simp] theorem crOpen_codemem (n : Nat) (s : State) : (crOpen n s).codemem = s.codemem := rfl
@[simp] theorem crOpen_inbox (n : Nat) (s : State) : (crOpen n s).inbox = s.inbox := rfl
@[simp] theorem crOpen_reply (n : Nat) (s : State) : (crOpen n s).reply = s.reply := rfl
@[simp] theorem crOpen_freeTick (n : Nat) (s : State) : (crOpen n s).freeTick = s.freeTick := rfl

/-! ### `stClear`. The string table cleared (R144). -/

@[simp] theorem stClear_err (s : State) : (stClear s).err = s.err := rfl
@[simp] theorem stClear_busy (s : State) : (stClear s).busy = s.busy := rfl
@[simp] theorem stClear_errInfo (s : State) : (stClear s).errInfo = s.errInfo := rfl
@[simp] theorem stClear_res0 (s : State) : (stClear s).res0 = s.res0 := rfl
@[simp] theorem stClear_res1 (s : State) : (stClear s).res1 = s.res1 := rfl
@[simp] theorem stClear_cmdLo (s : State) : (stClear s).cmdLo = s.cmdLo := rfl
@[simp] theorem stClear_cmdHi (s : State) : (stClear s).cmdHi = s.cmdHi := rfl
@[simp] theorem stClear_pixLast (s : State) : (stClear s).pixLast = s.pixLast := rfl
@[simp] theorem stClear_codeLast (s : State) : (stClear s).codeLast = s.codeLast := rfl
@[simp] theorem stClear_cw (s : State) : (stClear s).cw = s.cw := rfl
@[simp] theorem stClear_cr (s : State) : (stClear s).cr = s.cr := rfl
@[simp] theorem stClear_st (s : State) : (stClear s).st = [] := rfl
@[simp] theorem stClear_enc (s : State) : (stClear s).enc = s.enc := rfl
@[simp] theorem stClear_dec (s : State) : (stClear s).dec = s.dec := rfl
@[simp] theorem stClear_dt (s : State) : (stClear s).dt = s.dt := rfl
@[simp] theorem stClear_xstack (s : State) : (stClear s).xstack = s.xstack := rfl
@[simp] theorem stClear_xsp (s : State) : (stClear s).xsp = s.xsp := rfl
@[simp] theorem stClear_pa (s : State) : (stClear s).pa = s.pa := rfl
@[simp] theorem stClear_pixmem (s : State) : (stClear s).pixmem = s.pixmem := rfl
@[simp] theorem stClear_codemem (s : State) : (stClear s).codemem = s.codemem := rfl
@[simp] theorem stClear_inbox (s : State) : (stClear s).inbox = s.inbox := rfl
@[simp] theorem stClear_reply (s : State) : (stClear s).reply = s.reply := rfl
@[simp] theorem stClear_freeTick (s : State) : (stClear s).freeTick = s.freeTick := rfl

/-! ### `stWrite`. A slot of the string table written (R146). -/

@[simp] theorem stWrite_err (i p : BitVec 12) (f : BitVec 8) (c : BitVec 12) (s : State) : (stWrite i p f c s).err = s.err := rfl
@[simp] theorem stWrite_busy (i p : BitVec 12) (f : BitVec 8) (c : BitVec 12) (s : State) : (stWrite i p f c s).busy = s.busy := rfl
@[simp] theorem stWrite_errInfo (i p : BitVec 12) (f : BitVec 8) (c : BitVec 12) (s : State) : (stWrite i p f c s).errInfo = s.errInfo := rfl
@[simp] theorem stWrite_res0 (i p : BitVec 12) (f : BitVec 8) (c : BitVec 12) (s : State) : (stWrite i p f c s).res0 = s.res0 := rfl
@[simp] theorem stWrite_res1 (i p : BitVec 12) (f : BitVec 8) (c : BitVec 12) (s : State) : (stWrite i p f c s).res1 = s.res1 := rfl
@[simp] theorem stWrite_cmdLo (i p : BitVec 12) (f : BitVec 8) (c : BitVec 12) (s : State) : (stWrite i p f c s).cmdLo = s.cmdLo := rfl
@[simp] theorem stWrite_cmdHi (i p : BitVec 12) (f : BitVec 8) (c : BitVec 12) (s : State) : (stWrite i p f c s).cmdHi = s.cmdHi := rfl
@[simp] theorem stWrite_pixLast (i p : BitVec 12) (f : BitVec 8) (c : BitVec 12) (s : State) : (stWrite i p f c s).pixLast = s.pixLast := rfl
@[simp] theorem stWrite_codeLast (i p : BitVec 12) (f : BitVec 8) (c : BitVec 12) (s : State) : (stWrite i p f c s).codeLast = s.codeLast := rfl
@[simp] theorem stWrite_cw (i p : BitVec 12) (f : BitVec 8) (c : BitVec 12) (s : State) : (stWrite i p f c s).cw = s.cw := rfl
@[simp] theorem stWrite_cr (i p : BitVec 12) (f : BitVec 8) (c : BitVec 12) (s : State) : (stWrite i p f c s).cr = s.cr := rfl
@[simp] theorem stWrite_st (i p : BitVec 12) (f : BitVec 8) (c : BitVec 12) (s : State) :
    (stWrite i p f c s).st = Cells.write StSlot.empty s.st i.toNat ⟨c, p, f⟩ := rfl
@[simp] theorem stWrite_enc (i p : BitVec 12) (f : BitVec 8) (c : BitVec 12) (s : State) : (stWrite i p f c s).enc = s.enc := rfl
@[simp] theorem stWrite_dec (i p : BitVec 12) (f : BitVec 8) (c : BitVec 12) (s : State) : (stWrite i p f c s).dec = s.dec := rfl
@[simp] theorem stWrite_dt (i p : BitVec 12) (f : BitVec 8) (c : BitVec 12) (s : State) : (stWrite i p f c s).dt = s.dt := rfl
@[simp] theorem stWrite_xstack (i p : BitVec 12) (f : BitVec 8) (c : BitVec 12) (s : State) : (stWrite i p f c s).xstack = s.xstack := rfl
@[simp] theorem stWrite_xsp (i p : BitVec 12) (f : BitVec 8) (c : BitVec 12) (s : State) : (stWrite i p f c s).xsp = s.xsp := rfl
@[simp] theorem stWrite_pa (i p : BitVec 12) (f : BitVec 8) (c : BitVec 12) (s : State) : (stWrite i p f c s).pa = s.pa := rfl
@[simp] theorem stWrite_pixmem (i p : BitVec 12) (f : BitVec 8) (c : BitVec 12) (s : State) : (stWrite i p f c s).pixmem = s.pixmem := rfl
@[simp] theorem stWrite_codemem (i p : BitVec 12) (f : BitVec 8) (c : BitVec 12) (s : State) : (stWrite i p f c s).codemem = s.codemem := rfl
@[simp] theorem stWrite_inbox (i p : BitVec 12) (f : BitVec 8) (c : BitVec 12) (s : State) : (stWrite i p f c s).inbox = s.inbox := rfl
@[simp] theorem stWrite_reply (i p : BitVec 12) (f : BitVec 8) (c : BitVec 12) (s : State) : (stWrite i p f c s).reply = s.reply := rfl
@[simp] theorem stWrite_freeTick (i p : BitVec 12) (f : BitVec 8) (c : BitVec 12) (s : State) : (stWrite i p f c s).freeTick = s.freeTick := rfl

/-! ### `encInitSession`. The encoder's session initialised (R161). -/

@[simp] theorem encInitSession_err (s : State) : (encInitSession s).err = s.err := rfl
@[simp] theorem encInitSession_busy (s : State) : (encInitSession s).busy = s.busy := rfl
@[simp] theorem encInitSession_errInfo (s : State) : (encInitSession s).errInfo = s.errInfo := rfl
@[simp] theorem encInitSession_res0 (s : State) : (encInitSession s).res0 = s.res0 := rfl
@[simp] theorem encInitSession_res1 (s : State) : (encInitSession s).res1 = s.res1 := rfl
@[simp] theorem encInitSession_cmdLo (s : State) : (encInitSession s).cmdLo = s.cmdLo := rfl
@[simp] theorem encInitSession_cmdHi (s : State) : (encInitSession s).cmdHi = s.cmdHi := rfl
@[simp] theorem encInitSession_pixLast (s : State) : (encInitSession s).pixLast = s.pixLast := rfl
@[simp] theorem encInitSession_codeLast (s : State) : (encInitSession s).codeLast = s.codeLast := rfl
@[simp] theorem encInitSession_cw (s : State) : (encInitSession s).cw = s.cw := rfl
@[simp] theorem encInitSession_cr (s : State) : (encInitSession s).cr = s.cr := rfl
@[simp] theorem encInitSession_st (s : State) : (encInitSession s).st = [] := rfl
@[simp] theorem encInitSession_enc (s : State) :
    (encInitSession s).enc = { s.enc with w := s.enc.bpp + 1#4, limit := BitVec.ofNat 13 (2 ^ (s.enc.bpp.toNat + 1)), next := BitVec.ofNat 13 (s.enc.clear.toNat + 2) } := rfl
@[simp] theorem encInitSession_dec (s : State) : (encInitSession s).dec = s.dec := rfl
@[simp] theorem encInitSession_dt (s : State) : (encInitSession s).dt = s.dt := rfl
@[simp] theorem encInitSession_xstack (s : State) : (encInitSession s).xstack = s.xstack := rfl
@[simp] theorem encInitSession_xsp (s : State) : (encInitSession s).xsp = s.xsp := rfl
@[simp] theorem encInitSession_pa (s : State) : (encInitSession s).pa = s.pa := rfl
@[simp] theorem encInitSession_pixmem (s : State) : (encInitSession s).pixmem = s.pixmem := rfl
@[simp] theorem encInitSession_codemem (s : State) : (encInitSession s).codemem = s.codemem := rfl
@[simp] theorem encInitSession_inbox (s : State) : (encInitSession s).inbox = s.inbox := rfl
@[simp] theorem encInitSession_reply (s : State) : (encInitSession s).reply = s.reply := rfl
@[simp] theorem encInitSession_freeTick (s : State) : (encInitSession s).freeTick = s.freeTick := rfl

/-! ### `decInitSession`. The decoder's session initialised (R181). -/

@[simp] theorem decInitSession_err (s : State) : (decInitSession s).err = s.err := rfl
@[simp] theorem decInitSession_busy (s : State) : (decInitSession s).busy = s.busy := rfl
@[simp] theorem decInitSession_errInfo (s : State) : (decInitSession s).errInfo = s.errInfo := rfl
@[simp] theorem decInitSession_res0 (s : State) : (decInitSession s).res0 = s.res0 := rfl
@[simp] theorem decInitSession_res1 (s : State) : (decInitSession s).res1 = s.res1 := rfl
@[simp] theorem decInitSession_cmdLo (s : State) : (decInitSession s).cmdLo = s.cmdLo := rfl
@[simp] theorem decInitSession_cmdHi (s : State) : (decInitSession s).cmdHi = s.cmdHi := rfl
@[simp] theorem decInitSession_pixLast (s : State) : (decInitSession s).pixLast = s.pixLast := rfl
@[simp] theorem decInitSession_codeLast (s : State) : (decInitSession s).codeLast = s.codeLast := rfl
@[simp] theorem decInitSession_cw (s : State) : (decInitSession s).cw = s.cw := rfl
@[simp] theorem decInitSession_cr (s : State) : (decInitSession s).cr = s.cr := rfl
@[simp] theorem decInitSession_st (s : State) : (decInitSession s).st = s.st := rfl
@[simp] theorem decInitSession_enc (s : State) : (decInitSession s).enc = s.enc := rfl
@[simp] theorem decInitSession_dec (s : State) :
    (decInitSession s).dec = { s.dec with w := s.dec.bpp + 1#4, limit := BitVec.ofNat 13 (2 ^ (s.dec.bpp.toNat + 1)), next := BitVec.ofNat 13 (s.dec.clear.toNat + 2) } := rfl
@[simp] theorem decInitSession_dt (s : State) : (decInitSession s).dt = s.dt := rfl
@[simp] theorem decInitSession_xstack (s : State) : (decInitSession s).xstack = s.xstack := rfl
@[simp] theorem decInitSession_xsp (s : State) : (decInitSession s).xsp = s.xsp := rfl
@[simp] theorem decInitSession_pa (s : State) : (decInitSession s).pa = s.pa := rfl
@[simp] theorem decInitSession_pixmem (s : State) : (decInitSession s).pixmem = s.pixmem := rfl
@[simp] theorem decInitSession_codemem (s : State) : (decInitSession s).codemem = s.codemem := rfl
@[simp] theorem decInitSession_inbox (s : State) : (decInitSession s).inbox = s.inbox := rfl
@[simp] theorem decInitSession_reply (s : State) : (decInitSession s).reply = s.reply := rfl
@[simp] theorem decInitSession_freeTick (s : State) : (decInitSession s).freeTick = s.freeTick := rfl

/-! ### `forgetEnc`. What is unspecified after ENC_RUN (R166). -/

@[simp] theorem forgetEnc_err (s : State) : (forgetEnc s).err = s.err := rfl
@[simp] theorem forgetEnc_busy (s : State) : (forgetEnc s).busy = s.busy := rfl
@[simp] theorem forgetEnc_errInfo (s : State) : (forgetEnc s).errInfo = s.errInfo := rfl
@[simp] theorem forgetEnc_res0 (s : State) : (forgetEnc s).res0 = s.res0 := rfl
@[simp] theorem forgetEnc_res1 (s : State) : (forgetEnc s).res1 = s.res1 := rfl
@[simp] theorem forgetEnc_cmdLo (s : State) : (forgetEnc s).cmdLo = s.cmdLo := rfl
@[simp] theorem forgetEnc_cmdHi (s : State) : (forgetEnc s).cmdHi = s.cmdHi := rfl
@[simp] theorem forgetEnc_pixLast (s : State) : (forgetEnc s).pixLast = s.pixLast := rfl
@[simp] theorem forgetEnc_codeLast (s : State) : (forgetEnc s).codeLast = s.codeLast := rfl
@[simp] theorem forgetEnc_cw (s : State) : (forgetEnc s).cw = s.cw := rfl
@[simp] theorem forgetEnc_cr (s : State) : (forgetEnc s).cr = s.cr := rfl
@[simp] theorem forgetEnc_st (s : State) : (forgetEnc s).st = s.st := rfl
@[simp] theorem forgetEnc_enc (s : State) : (forgetEnc s).enc = freeEnc s.freeTick := rfl
@[simp] theorem forgetEnc_dec (s : State) : (forgetEnc s).dec = s.dec := rfl
@[simp] theorem forgetEnc_dt (s : State) : (forgetEnc s).dt = s.dt := rfl
@[simp] theorem forgetEnc_xstack (s : State) : (forgetEnc s).xstack = s.xstack := rfl
@[simp] theorem forgetEnc_xsp (s : State) : (forgetEnc s).xsp = s.xsp := rfl
@[simp] theorem forgetEnc_pa (s : State) : (forgetEnc s).pa = s.pa := rfl
@[simp] theorem forgetEnc_pixmem (s : State) : (forgetEnc s).pixmem = s.pixmem := rfl
@[simp] theorem forgetEnc_codemem (s : State) : (forgetEnc s).codemem = s.codemem := rfl
@[simp] theorem forgetEnc_inbox (s : State) : (forgetEnc s).inbox = s.inbox := rfl
@[simp] theorem forgetEnc_reply (s : State) : (forgetEnc s).reply = s.reply := rfl
@[simp] theorem forgetEnc_freeTick (s : State) : (forgetEnc s).freeTick = s.freeTick + 1 := rfl

/-! ### `forgetDec`. What is unspecified after DEC_RUN (R191). -/

@[simp] theorem forgetDec_err (s : State) : (forgetDec s).err = s.err := rfl
@[simp] theorem forgetDec_busy (s : State) : (forgetDec s).busy = s.busy := rfl
@[simp] theorem forgetDec_errInfo (s : State) : (forgetDec s).errInfo = s.errInfo := rfl
@[simp] theorem forgetDec_res0 (s : State) : (forgetDec s).res0 = s.res0 := rfl
@[simp] theorem forgetDec_res1 (s : State) : (forgetDec s).res1 = s.res1 := rfl
@[simp] theorem forgetDec_cmdLo (s : State) : (forgetDec s).cmdLo = s.cmdLo := rfl
@[simp] theorem forgetDec_cmdHi (s : State) : (forgetDec s).cmdHi = s.cmdHi := rfl
@[simp] theorem forgetDec_pixLast (s : State) : (forgetDec s).pixLast = s.pixLast := rfl
@[simp] theorem forgetDec_codeLast (s : State) : (forgetDec s).codeLast = s.codeLast := rfl
@[simp] theorem forgetDec_cw (s : State) : (forgetDec s).cw = s.cw := rfl
@[simp] theorem forgetDec_cr (s : State) : (forgetDec s).cr = s.cr := rfl
@[simp] theorem forgetDec_st (s : State) : (forgetDec s).st = s.st := rfl
@[simp] theorem forgetDec_enc (s : State) : (forgetDec s).enc = s.enc := rfl
@[simp] theorem forgetDec_dec (s : State) : (forgetDec s).dec = freeDec s.freeTick := rfl
@[simp] theorem forgetDec_dt (s : State) : (forgetDec s).dt = freeDt s.freeTick := rfl
@[simp] theorem forgetDec_xstack (s : State) :
    (forgetDec s).xstack = freeMemory .xstack s.freeTick 0 Config.xstackDepth [] := rfl
@[simp] theorem forgetDec_xsp (s : State) :
    (forgetDec s).xsp = Config.freeBits .xsp s.freeTick 13 := rfl
@[simp] theorem forgetDec_pa (s : State) : (forgetDec s).pa = s.pa := rfl
@[simp] theorem forgetDec_pixmem (s : State) : (forgetDec s).pixmem = s.pixmem := rfl
@[simp] theorem forgetDec_codemem (s : State) : (forgetDec s).codemem = s.codemem := rfl
@[simp] theorem forgetDec_inbox (s : State) : (forgetDec s).inbox = s.inbox := rfl
@[simp] theorem forgetDec_reply (s : State) : (forgetDec s).reply = s.reply := rfl
@[simp] theorem forgetDec_freeTick (s : State) : (forgetDec s).freeTick = s.freeTick + 1 := rfl

/-! ### `failCw`. CW_WRITE or CW_END failed (R246). -/

@[simp] theorem failCw_err (r : Raise) (s : State) : (failCw r s).err = r.kind.code := rfl
@[simp] theorem failCw_busy (r : Raise) (s : State) : (failCw r s).busy = false := rfl
@[simp] theorem failCw_errInfo (r : Raise) (s : State) : (failCw r s).errInfo = zext32 r.info := rfl
@[simp] theorem failCw_res0 (r : Raise) (s : State) :
    (failCw r s).res0 = Config.freeBits .res0 s.freeTick 64 := rfl
@[simp] theorem failCw_res1 (r : Raise) (s : State) : (failCw r s).res1 = s.res1 := rfl
@[simp] theorem failCw_cmdLo (r : Raise) (s : State) : (failCw r s).cmdLo = s.cmdLo := rfl
@[simp] theorem failCw_cmdHi (r : Raise) (s : State) : (failCw r s).cmdHi = s.cmdHi := rfl
@[simp] theorem failCw_pixLast (r : Raise) (s : State) : (failCw r s).pixLast = s.pixLast := rfl
@[simp] theorem failCw_codeLast (r : Raise) (s : State) : (failCw r s).codeLast = s.codeLast := rfl
@[simp] theorem failCw_cw (r : Raise) (s : State) : (failCw r s).cw = freeCw s.freeTick := rfl
@[simp] theorem failCw_cr (r : Raise) (s : State) : (failCw r s).cr = s.cr := rfl
@[simp] theorem failCw_st (r : Raise) (s : State) : (failCw r s).st = s.st := rfl
@[simp] theorem failCw_enc (r : Raise) (s : State) : (failCw r s).enc = s.enc := rfl
@[simp] theorem failCw_dec (r : Raise) (s : State) : (failCw r s).dec = s.dec := rfl
@[simp] theorem failCw_dt (r : Raise) (s : State) : (failCw r s).dt = s.dt := rfl
@[simp] theorem failCw_xstack (r : Raise) (s : State) : (failCw r s).xstack = s.xstack := rfl
@[simp] theorem failCw_xsp (r : Raise) (s : State) : (failCw r s).xsp = s.xsp := rfl
@[simp] theorem failCw_pa (r : Raise) (s : State) : (failCw r s).pa = s.pa := rfl
@[simp] theorem failCw_pixmem (r : Raise) (s : State) : (failCw r s).pixmem = s.pixmem := rfl
@[simp] theorem failCw_codemem (r : Raise) (s : State) :
    (failCw r s).codemem = freeMemory .codemem s.freeTick s.cw.ptr.toNat s.codeCap s.codemem := rfl
@[simp] theorem failCw_inbox (r : Raise) (s : State) : (failCw r s).inbox = s.inbox := rfl
@[simp] theorem failCw_reply (r : Raise) (s : State) : (failCw r s).reply = s.reply := rfl
@[simp] theorem failCw_freeTick (r : Raise) (s : State) : (failCw r s).freeTick = s.freeTick + 1 := rfl

/-! ### `failEnc`. ENC_RUN failed while it executed (R246). -/

@[simp] theorem failEnc_err (r : Raise) (s : State) : (failEnc r s).err = r.kind.code := rfl
@[simp] theorem failEnc_busy (r : Raise) (s : State) : (failEnc r s).busy = false := rfl
@[simp] theorem failEnc_errInfo (r : Raise) (s : State) : (failEnc r s).errInfo = zext32 r.info := rfl
@[simp] theorem failEnc_res0 (r : Raise) (s : State) :
    (failEnc r s).res0 = Config.freeBits .res0 s.freeTick 64 := rfl
@[simp] theorem failEnc_res1 (r : Raise) (s : State) :
    (failEnc r s).res1 = Config.freeBits .res1 s.freeTick 64 := rfl
@[simp] theorem failEnc_cmdLo (r : Raise) (s : State) : (failEnc r s).cmdLo = s.cmdLo := rfl
@[simp] theorem failEnc_cmdHi (r : Raise) (s : State) : (failEnc r s).cmdHi = s.cmdHi := rfl
@[simp] theorem failEnc_pixLast (r : Raise) (s : State) : (failEnc r s).pixLast = s.pixLast := rfl
@[simp] theorem failEnc_codeLast (r : Raise) (s : State) : (failEnc r s).codeLast = s.codeLast := rfl
@[simp] theorem failEnc_cw (r : Raise) (s : State) : (failEnc r s).cw = freeCw s.freeTick := rfl
@[simp] theorem failEnc_cr (r : Raise) (s : State) : (failEnc r s).cr = s.cr := rfl
@[simp] theorem failEnc_st (r : Raise) (s : State) : (failEnc r s).st = freeSt s.freeTick := rfl
@[simp] theorem failEnc_enc (r : Raise) (s : State) : (failEnc r s).enc = freeEnc s.freeTick := rfl
@[simp] theorem failEnc_dec (r : Raise) (s : State) : (failEnc r s).dec = s.dec := rfl
@[simp] theorem failEnc_dt (r : Raise) (s : State) : (failEnc r s).dt = s.dt := rfl
@[simp] theorem failEnc_xstack (r : Raise) (s : State) : (failEnc r s).xstack = s.xstack := rfl
@[simp] theorem failEnc_xsp (r : Raise) (s : State) : (failEnc r s).xsp = s.xsp := rfl
@[simp] theorem failEnc_pa (r : Raise) (s : State) : (failEnc r s).pa = s.pa := rfl
@[simp] theorem failEnc_pixmem (r : Raise) (s : State) : (failEnc r s).pixmem = s.pixmem := rfl
@[simp] theorem failEnc_codemem (r : Raise) (s : State) :
    (failEnc r s).codemem = freeMemory .codemem s.freeTick 0 s.codeCap s.codemem := rfl
@[simp] theorem failEnc_inbox (r : Raise) (s : State) : (failEnc r s).inbox = s.inbox := rfl
@[simp] theorem failEnc_reply (r : Raise) (s : State) : (failEnc r s).reply = s.reply := rfl
@[simp] theorem failEnc_freeTick (r : Raise) (s : State) : (failEnc r s).freeTick = s.freeTick + 1 := rfl

/-! ### `failDec`. DEC_RUN failed while it executed (R246). -/

@[simp] theorem failDec_err (r : Raise) (s : State) : (failDec r s).err = r.kind.code := rfl
@[simp] theorem failDec_busy (r : Raise) (s : State) : (failDec r s).busy = false := rfl
@[simp] theorem failDec_errInfo (r : Raise) (s : State) : (failDec r s).errInfo = zext32 r.info := rfl
@[simp] theorem failDec_res0 (r : Raise) (s : State) :
    (failDec r s).res0 = Config.freeBits .res0 s.freeTick 64 := rfl
@[simp] theorem failDec_res1 (r : Raise) (s : State) :
    (failDec r s).res1 = Config.freeBits .res1 s.freeTick 64 := rfl
@[simp] theorem failDec_cmdLo (r : Raise) (s : State) : (failDec r s).cmdLo = s.cmdLo := rfl
@[simp] theorem failDec_cmdHi (r : Raise) (s : State) : (failDec r s).cmdHi = s.cmdHi := rfl
@[simp] theorem failDec_pixLast (r : Raise) (s : State) : (failDec r s).pixLast = s.pixLast := rfl
@[simp] theorem failDec_codeLast (r : Raise) (s : State) : (failDec r s).codeLast = s.codeLast := rfl
@[simp] theorem failDec_cw (r : Raise) (s : State) : (failDec r s).cw = s.cw := rfl
@[simp] theorem failDec_cr (r : Raise) (s : State) : (failDec r s).cr = freeCr s.freeTick := rfl
@[simp] theorem failDec_st (r : Raise) (s : State) : (failDec r s).st = s.st := rfl
@[simp] theorem failDec_enc (r : Raise) (s : State) : (failDec r s).enc = s.enc := rfl
@[simp] theorem failDec_dec (r : Raise) (s : State) : (failDec r s).dec = freeDec s.freeTick := rfl
@[simp] theorem failDec_dt (r : Raise) (s : State) : (failDec r s).dt = freeDt s.freeTick := rfl
@[simp] theorem failDec_xstack (r : Raise) (s : State) :
    (failDec r s).xstack = freeMemory .xstack s.freeTick 0 Config.xstackDepth [] := rfl
@[simp] theorem failDec_xsp (r : Raise) (s : State) :
    (failDec r s).xsp = Config.freeBits .xsp s.freeTick 13 := rfl
@[simp] theorem failDec_pa (r : Raise) (s : State) : (failDec r s).pa = s.pa := rfl
@[simp] theorem failDec_pixmem (r : Raise) (s : State) :
    (failDec r s).pixmem = freeMemory .pixmem s.freeTick 0 s.pixCap s.pixmem := rfl
@[simp] theorem failDec_codemem (r : Raise) (s : State) : (failDec r s).codemem = s.codemem := rfl
@[simp] theorem failDec_inbox (r : Raise) (s : State) : (failDec r s).inbox = s.inbox := rfl
@[simp] theorem failDec_reply (r : Raise) (s : State) : (failDec r s).reply = s.reply := rfl
@[simp] theorem failDec_freeTick (r : Raise) (s : State) : (failDec r s).freeTick = s.freeTick + 1 := rfl

/-! ### The capacities, which no update changes -/

@[simp] theorem raise_pixCap (r : Raise) (s : State) : (raise r s).pixCap = s.pixCap := by
  simp only [State.pixCap, raise_pixLast]
@[simp] theorem clearError_pixCap (s : State) : (clearError s).pixCap = s.pixCap := by
  simp only [State.pixCap, clearError_pixLast]
@[simp] theorem writePix_pixCap (s : State) (a : Nat) (v : Byte) : (s.writePix a v).pixCap = s.pixCap := by
  simp only [State.pixCap, writePix_pixLast]
@[simp] theorem writeCode_pixCap (s : State) (a : Nat) (v : Byte) : (s.writeCode a v).pixCap = s.pixCap := by
  simp only [State.pixCap, writeCode_pixLast]
@[simp] theorem writeSlot_pixCap (s : State) (i : BitVec 12) (v : StSlot) : (s.writeSlot i v).pixCap = s.pixCap := by
  simp only [State.pixCap, writeSlot_pixLast]
@[simp] theorem writeEntry_pixCap (s : State) (k : Nat) (v : DtEntry) : (s.writeEntry k v).pixCap = s.pixCap := by
  simp only [State.pixCap, writeEntry_pixLast]
@[simp] theorem pushX_pixCap (s : State) (p : Byte) : (s.pushX p).pixCap = s.pixCap := by
  simp only [State.pixCap, pushX_pixLast]
@[simp] theorem cwReset_pixCap (s : State) : (cwReset s).pixCap = s.pixCap := by
  simp only [State.pixCap, cwReset_pixLast]
@[simp] theorem crOpen_pixCap (n : Nat) (s : State) : (crOpen n s).pixCap = s.pixCap := by
  simp only [State.pixCap, crOpen_pixLast]
@[simp] theorem stClear_pixCap (s : State) : (stClear s).pixCap = s.pixCap := by
  simp only [State.pixCap, stClear_pixLast]
@[simp] theorem stWrite_pixCap (i p : BitVec 12) (f : BitVec 8) (c : BitVec 12) (s : State) : (stWrite i p f c s).pixCap = s.pixCap := by
  simp only [State.pixCap, stWrite_pixLast]
@[simp] theorem encInitSession_pixCap (s : State) : (encInitSession s).pixCap = s.pixCap := by
  simp only [State.pixCap, encInitSession_pixLast]
@[simp] theorem decInitSession_pixCap (s : State) : (decInitSession s).pixCap = s.pixCap := by
  simp only [State.pixCap, decInitSession_pixLast]
@[simp] theorem forgetEnc_pixCap (s : State) : (forgetEnc s).pixCap = s.pixCap := by
  simp only [State.pixCap, forgetEnc_pixLast]
@[simp] theorem forgetDec_pixCap (s : State) : (forgetDec s).pixCap = s.pixCap := by
  simp only [State.pixCap, forgetDec_pixLast]
@[simp] theorem failCw_pixCap (r : Raise) (s : State) : (failCw r s).pixCap = s.pixCap := by
  simp only [State.pixCap, failCw_pixLast]
@[simp] theorem failEnc_pixCap (r : Raise) (s : State) : (failEnc r s).pixCap = s.pixCap := by
  simp only [State.pixCap, failEnc_pixLast]
@[simp] theorem failDec_pixCap (r : Raise) (s : State) : (failDec r s).pixCap = s.pixCap := by
  simp only [State.pixCap, failDec_pixLast]
@[simp] theorem State.setError_pixCap (s : State) (e : BitVec 8) (i : Word32) (b : Bool) : (s.setError e i b).pixCap = s.pixCap := by
  simp only [State.pixCap, State.setError_pixLast]
@[simp] theorem State.setBusy_pixCap (s : State) (v) : (s.setBusy v).pixCap = s.pixCap := by
  simp only [State.pixCap, State.setBusy_pixLast]
@[simp] theorem State.setRes0_pixCap (s : State) (v) : (s.setRes0 v).pixCap = s.pixCap := by
  simp only [State.pixCap, State.setRes0_pixLast]
@[simp] theorem State.setRes1_pixCap (s : State) (v) : (s.setRes1 v).pixCap = s.pixCap := by
  simp only [State.pixCap, State.setRes1_pixLast]
@[simp] theorem State.setCmdLo_pixCap (s : State) (v) : (s.setCmdLo v).pixCap = s.pixCap := by
  simp only [State.pixCap, State.setCmdLo_pixLast]
@[simp] theorem State.setCmdHi_pixCap (s : State) (v) : (s.setCmdHi v).pixCap = s.pixCap := by
  simp only [State.pixCap, State.setCmdHi_pixLast]
@[simp] theorem State.setCw_pixCap (s : State) (v) : (s.setCw v).pixCap = s.pixCap := by
  simp only [State.pixCap, State.setCw_pixLast]
@[simp] theorem State.setCr_pixCap (s : State) (v) : (s.setCr v).pixCap = s.pixCap := by
  simp only [State.pixCap, State.setCr_pixLast]
@[simp] theorem State.setSt_pixCap (s : State) (v) : (s.setSt v).pixCap = s.pixCap := by
  simp only [State.pixCap, State.setSt_pixLast]
@[simp] theorem State.setEnc_pixCap (s : State) (v) : (s.setEnc v).pixCap = s.pixCap := by
  simp only [State.pixCap, State.setEnc_pixLast]
@[simp] theorem State.setDec_pixCap (s : State) (v) : (s.setDec v).pixCap = s.pixCap := by
  simp only [State.pixCap, State.setDec_pixLast]
@[simp] theorem State.setDt_pixCap (s : State) (v) : (s.setDt v).pixCap = s.pixCap := by
  simp only [State.pixCap, State.setDt_pixLast]
@[simp] theorem State.setXstack_pixCap (s : State) (v : Memory) (p : BitVec 13) : (s.setXstack v p).pixCap = s.pixCap := by
  simp only [State.pixCap, State.setXstack_pixLast]
@[simp] theorem State.setPa_pixCap (s : State) (v) : (s.setPa v).pixCap = s.pixCap := by
  simp only [State.pixCap, State.setPa_pixLast]
@[simp] theorem State.setPixmem_pixCap (s : State) (v) : (s.setPixmem v).pixCap = s.pixCap := by
  simp only [State.pixCap, State.setPixmem_pixLast]
@[simp] theorem State.setCodemem_pixCap (s : State) (v) : (s.setCodemem v).pixCap = s.pixCap := by
  simp only [State.pixCap, State.setCodemem_pixLast]
@[simp] theorem State.setInbox_pixCap (s : State) (v) : (s.setInbox v).pixCap = s.pixCap := by
  simp only [State.pixCap, State.setInbox_pixLast]
@[simp] theorem State.setReply_pixCap (s : State) (v) : (s.setReply v).pixCap = s.pixCap := by
  simp only [State.pixCap, State.setReply_pixLast]
@[simp] theorem State.setFreeTick_pixCap (s : State) (v) : (s.setFreeTick v).pixCap = s.pixCap := by
  simp only [State.pixCap, State.setFreeTick_pixLast]
@[simp] theorem raise_codeCap (r : Raise) (s : State) : (raise r s).codeCap = s.codeCap := by
  simp only [State.codeCap, raise_codeLast]
@[simp] theorem clearError_codeCap (s : State) : (clearError s).codeCap = s.codeCap := by
  simp only [State.codeCap, clearError_codeLast]
@[simp] theorem writePix_codeCap (s : State) (a : Nat) (v : Byte) : (s.writePix a v).codeCap = s.codeCap := by
  simp only [State.codeCap, writePix_codeLast]
@[simp] theorem writeCode_codeCap (s : State) (a : Nat) (v : Byte) : (s.writeCode a v).codeCap = s.codeCap := by
  simp only [State.codeCap, writeCode_codeLast]
@[simp] theorem writeSlot_codeCap (s : State) (i : BitVec 12) (v : StSlot) : (s.writeSlot i v).codeCap = s.codeCap := by
  simp only [State.codeCap, writeSlot_codeLast]
@[simp] theorem writeEntry_codeCap (s : State) (k : Nat) (v : DtEntry) : (s.writeEntry k v).codeCap = s.codeCap := by
  simp only [State.codeCap, writeEntry_codeLast]
@[simp] theorem pushX_codeCap (s : State) (p : Byte) : (s.pushX p).codeCap = s.codeCap := by
  simp only [State.codeCap, pushX_codeLast]
@[simp] theorem cwReset_codeCap (s : State) : (cwReset s).codeCap = s.codeCap := by
  simp only [State.codeCap, cwReset_codeLast]
@[simp] theorem crOpen_codeCap (n : Nat) (s : State) : (crOpen n s).codeCap = s.codeCap := by
  simp only [State.codeCap, crOpen_codeLast]
@[simp] theorem stClear_codeCap (s : State) : (stClear s).codeCap = s.codeCap := by
  simp only [State.codeCap, stClear_codeLast]
@[simp] theorem stWrite_codeCap (i p : BitVec 12) (f : BitVec 8) (c : BitVec 12) (s : State) : (stWrite i p f c s).codeCap = s.codeCap := by
  simp only [State.codeCap, stWrite_codeLast]
@[simp] theorem encInitSession_codeCap (s : State) : (encInitSession s).codeCap = s.codeCap := by
  simp only [State.codeCap, encInitSession_codeLast]
@[simp] theorem decInitSession_codeCap (s : State) : (decInitSession s).codeCap = s.codeCap := by
  simp only [State.codeCap, decInitSession_codeLast]
@[simp] theorem forgetEnc_codeCap (s : State) : (forgetEnc s).codeCap = s.codeCap := by
  simp only [State.codeCap, forgetEnc_codeLast]
@[simp] theorem forgetDec_codeCap (s : State) : (forgetDec s).codeCap = s.codeCap := by
  simp only [State.codeCap, forgetDec_codeLast]
@[simp] theorem failCw_codeCap (r : Raise) (s : State) : (failCw r s).codeCap = s.codeCap := by
  simp only [State.codeCap, failCw_codeLast]
@[simp] theorem failEnc_codeCap (r : Raise) (s : State) : (failEnc r s).codeCap = s.codeCap := by
  simp only [State.codeCap, failEnc_codeLast]
@[simp] theorem failDec_codeCap (r : Raise) (s : State) : (failDec r s).codeCap = s.codeCap := by
  simp only [State.codeCap, failDec_codeLast]
@[simp] theorem State.setError_codeCap (s : State) (e : BitVec 8) (i : Word32) (b : Bool) : (s.setError e i b).codeCap = s.codeCap := by
  simp only [State.codeCap, State.setError_codeLast]
@[simp] theorem State.setBusy_codeCap (s : State) (v) : (s.setBusy v).codeCap = s.codeCap := by
  simp only [State.codeCap, State.setBusy_codeLast]
@[simp] theorem State.setRes0_codeCap (s : State) (v) : (s.setRes0 v).codeCap = s.codeCap := by
  simp only [State.codeCap, State.setRes0_codeLast]
@[simp] theorem State.setRes1_codeCap (s : State) (v) : (s.setRes1 v).codeCap = s.codeCap := by
  simp only [State.codeCap, State.setRes1_codeLast]
@[simp] theorem State.setCmdLo_codeCap (s : State) (v) : (s.setCmdLo v).codeCap = s.codeCap := by
  simp only [State.codeCap, State.setCmdLo_codeLast]
@[simp] theorem State.setCmdHi_codeCap (s : State) (v) : (s.setCmdHi v).codeCap = s.codeCap := by
  simp only [State.codeCap, State.setCmdHi_codeLast]
@[simp] theorem State.setCw_codeCap (s : State) (v) : (s.setCw v).codeCap = s.codeCap := by
  simp only [State.codeCap, State.setCw_codeLast]
@[simp] theorem State.setCr_codeCap (s : State) (v) : (s.setCr v).codeCap = s.codeCap := by
  simp only [State.codeCap, State.setCr_codeLast]
@[simp] theorem State.setSt_codeCap (s : State) (v) : (s.setSt v).codeCap = s.codeCap := by
  simp only [State.codeCap, State.setSt_codeLast]
@[simp] theorem State.setEnc_codeCap (s : State) (v) : (s.setEnc v).codeCap = s.codeCap := by
  simp only [State.codeCap, State.setEnc_codeLast]
@[simp] theorem State.setDec_codeCap (s : State) (v) : (s.setDec v).codeCap = s.codeCap := by
  simp only [State.codeCap, State.setDec_codeLast]
@[simp] theorem State.setDt_codeCap (s : State) (v) : (s.setDt v).codeCap = s.codeCap := by
  simp only [State.codeCap, State.setDt_codeLast]
@[simp] theorem State.setXstack_codeCap (s : State) (v : Memory) (p : BitVec 13) : (s.setXstack v p).codeCap = s.codeCap := by
  simp only [State.codeCap, State.setXstack_codeLast]
@[simp] theorem State.setPa_codeCap (s : State) (v) : (s.setPa v).codeCap = s.codeCap := by
  simp only [State.codeCap, State.setPa_codeLast]
@[simp] theorem State.setPixmem_codeCap (s : State) (v) : (s.setPixmem v).codeCap = s.codeCap := by
  simp only [State.codeCap, State.setPixmem_codeLast]
@[simp] theorem State.setCodemem_codeCap (s : State) (v) : (s.setCodemem v).codeCap = s.codeCap := by
  simp only [State.codeCap, State.setCodemem_codeLast]
@[simp] theorem State.setInbox_codeCap (s : State) (v) : (s.setInbox v).codeCap = s.codeCap := by
  simp only [State.codeCap, State.setInbox_codeLast]
@[simp] theorem State.setReply_codeCap (s : State) (v) : (s.setReply v).codeCap = s.codeCap := by
  simp only [State.codeCap, State.setReply_codeLast]
@[simp] theorem State.setFreeTick_codeCap (s : State) (v) : (s.setFreeTick v).codeCap = s.codeCap := by
  simp only [State.codeCap, State.setFreeTick_codeLast]

end Sys2Proof.Machine
end

