-- ==== Sys2Proof/Laws/Ops.lean ====
section
/-! SUPPORT. The laws of the shared operations of Machine/Ops.lean: the sticky-error guard, the bits of a code stream, and
what the primitives that may raise do. -/

namespace Sys2Proof.Machine

/-! ## Sequencing -/

theorem bind_ok_iff {ε σ τ : Type} {x : Except ε σ} {f : σ → Except ε τ} {r : τ} :
    (x >>= f) = .ok r ↔ ∃ a, x = .ok a ∧ f a = .ok r := by
  cases x with
  | error e => simp [bind, Except.bind]
  | ok a => simp [bind, Except.bind]

theorem bind_error_iff {ε σ τ : Type} {x : Except ε σ} {f : σ → Except ε τ} {e : ε} :
    (x >>= f) = .error e ↔ x = .error e ∨ ∃ a, x = .ok a ∧ f a = .error e := by
  cases x with
  | error e => simp [bind, Except.bind]
  | ok a => simp [bind, Except.bind]

@[simp] theorem ok_bind {ε σ τ : Type} {a : σ} {f : σ → Except ε τ} :
    ((Except.ok a : Except ε σ) >>= f) = f a := rfl

@[simp] theorem error_bind {ε σ τ : Type} {e : ε} {f : σ → Except ε τ} :
    ((Except.error e : Except ε σ) >>= f) = .error e := rfl

/-! ## The sticky error -/

@[simp] theorem unlessError_ready {s : State} {o : Outcome} (h : s.err = 0#8) : unlessError s o = o := if_pos h

@[simp] theorem unlessError_error {s : State} {o : Outcome} (h : s.err ≠ 0#8) : unlessError s o = .next s := if_neg h

/-- Every code of R240 but NONE is not 0, and at most 0x0D. -/
theorem ErrorKind.code_ne_zero (k : ErrorKind) : k.code ≠ 0#8 := by cases k <;> decide

theorem ErrorKind.code_le (k : ErrorKind) : k.code.toNat ≤ 0x0D := by cases k <;> decide

/-! ## Stream bits -/

theorem shiftRight_mod_two (x i : Nat) : (x >>> i) % 2 = (x.testBit i).toNat := by
  rw [Nat.toNat_testBit, Nat.shiftRight_eq_div_pow]

theorem streamBit_eq (m : Memory) (k : Nat) :
    streamBit m k = ((Memory.read m (k / 8)).toNat.testBit (k % 8)).toNat := shiftRight_mod_two _ _

theorem streamBit_le (m : Memory) (k : Nat) : streamBit m k ≤ 1 := by
  unfold streamBit
  omega

/-- A code of w bits is below 2^w (R120). -/
theorem streamBits_lt (m : Memory) (p w : Nat) : streamBits m p w < 2 ^ w := by
  induction w with
  | zero => simp [streamBits]
  | succ w ih =>
    have := Nat.mul_le_mul_right (2 ^ w) (streamBit_le m (p + w))
    simp only [streamBits, Nat.pow_succ]
    omega

/-- Bit i of a code is stream bit p + i (R12). -/
theorem streamBits_testBit (m : Memory) (p w i : Nat) (h : i < w) :
    (streamBits m p w >>> i) % 2 = streamBit m (p + i) := by
  induction w with
  | zero => omega
  | succ w ih =>
    simp only [streamBits, Nat.shiftRight_eq_div_pow] at ih ⊢
    rcases Nat.lt_succ_iff_lt_or_eq.mp h with hi | hi
    · rw [← ih hi]
      obtain ⟨d, rfl⟩ := Nat.exists_eq_add_of_lt hi
      have : 2 ^ (i + d + 1) = 2 ^ i * (2 * 2 ^ d) := by ring
      rw [this, show streamBit m (p + (i + d + 1)) * (2 ^ i * (2 * 2 ^ d)) =
        2 ^ i * (2 * (streamBit m (p + (i + d + 1)) * 2 ^ d)) by ring, Nat.add_mul_div_left _ _ (Nat.two_pow_pos i)]
      omega
    · subst hi
      have hlt := streamBits_lt m p i
      have hle := streamBit_le m (p + i)
      rw [Nat.add_mul_div_right _ _ (Nat.two_pow_pos i), Nat.div_eq_of_lt hlt]
      omega

/-- The code depends only on the stream bits it covers. -/
theorem streamBits_congr {m m' : Memory} {p w : Nat} (h : ∀ i < w, streamBit m (p + i) = streamBit m' (p + i)) :
    streamBits m p w = streamBits m' p w := by
  induction w with
  | zero => rfl
  | succ w ih =>
    simp only [streamBits]
    rw [ih fun i hi => h i (Nat.lt_succ_of_lt hi), h w (Nat.lt_succ_self w)]

/-- A code whose bits are those of c is c modulo 2^w. -/
theorem streamBits_eq_mod {m : Memory} {p w c : Nat} (h : ∀ i < w, streamBit m (p + i) = (c >>> i) % 2) :
    streamBits m p w = c % 2 ^ w := by
  induction w with
  | zero => simp [streamBits, Nat.mod_one]
  | succ w ih =>
    simp only [streamBits]
    rw [ih fun i hi => h i (Nat.lt_succ_of_lt hi), h w (Nat.lt_succ_self w), Nat.shiftRight_eq_div_pow,
      Nat.pow_succ, Nat.mod_mul]
    ring

end Sys2Proof.Machine
end

