-- ==== Sys2Proof/Laws/CodeReader.lean ====
section
/-! SUPPORT. The laws of the code reader: the two answers of the read primitive (R120). -/

namespace Sys2Proof.Machine

/-- A read that succeeds takes the next w bits and moves CR_BITPOS past them; nothing else changes (R120). -/
theorem crRead_some {w : Nat} {s t : State} {r : BitVec 12} (h : crRead w s = some (r, t)) :
    s.cr.bitpos.toNat + w ≤ 8 * s.cr.len.toNat ∧ r = BitVec.ofNat 12 (streamBits s.codemem s.cr.bitpos.toNat w) ∧
      t = s.setCr { s.cr with bitpos := BitVec.ofNat 28 (s.cr.bitpos.toNat + w) } ∧
      t.cr.bitpos.toNat = (s.cr.bitpos.toNat + w) % 2 ^ 28 ∧ t.cr.len = s.cr.len := by
  unfold crRead at h
  split at h
  · cases h
  · rename_i hle
    simp only [Option.some.injEq, Prod.mk.injEq] at h
    obtain ⟨rfl, rfl⟩ := h
    exact ⟨Nat.le_of_not_lt hle, rfl, rfl, BitVec.toNat_ofNat _ _, rfl⟩

/-- A read is EXHAUSTED exactly when fewer than w bits are left (R120). -/
theorem crRead_none {w : Nat} {s : State} : crRead w s = none ↔ 8 * s.cr.len.toNat < s.cr.bitpos.toNat + w := by
  unfold crRead
  split <;> simp_all

/-- A code of at most 12 bits is held whole. -/
theorem crRead_code {w : Nat} {s t : State} {r : BitVec 12} (h : crRead w s = some (r, t)) (hw : w ≤ 12) :
    r.toNat = streamBits s.codemem s.cr.bitpos.toNat w := by
  obtain ⟨-, rfl, -⟩ := crRead_some h
  have := streamBits_lt s.codemem s.cr.bitpos.toNat w
  have : 2 ^ w ≤ 2 ^ 12 := Nat.pow_le_pow_right (by decide) hw
  rw [BitVec.toNat_ofNat, Nat.mod_eq_of_lt (by omega)]

/-- A reader in its bounds stays there, and its position does not wrap: 8·CR_LEN ≤ 2^27. -/
theorem crRead_bitpos {w : Nat} {s t : State} {r : BitVec 12} (h : crRead w s = some (r, t))
    (hl : s.cr.len.toNat ≤ 2 ^ 24) : t.cr.bitpos.toNat = s.cr.bitpos.toNat + w := by
  obtain ⟨hle, -, -, hb, -⟩ := crRead_some h
  rw [hb, Nat.mod_eq_of_lt (by omega)]

theorem crRead_crOk {w : Nat} {s t : State} {r : BitVec 12} (h : crRead w s = some (r, t)) (hs : s.CrOk) : t.CrOk := by
  have hlen := hs.len
  have hcap : s.codeCap ≤ 2 ^ 24 := by
    have := s.codeLast.isLt
    unfold State.codeCap
    omega
  have hb := crRead_bitpos h (by omega)
  obtain ⟨hle, -, rfl, -, -⟩ := crRead_some h
  exact ⟨hs.len, by rw [hb]; exact hle⟩

/-- The code of a read past CODE_CAP fits its width, and its first bits are those that CODEMEM holds. -/
theorem crPastCap_bits {w : Nat} {s : State} (h : 8 * s.codeCap < s.cr.bitpos.toNat + w) :
    crPastCap w s < 2 ^ w ∧ crPastCap w s % 2 ^ (8 * s.codeCap - s.cr.bitpos.toNat) =
      streamBits s.codemem s.cr.bitpos.toNat (8 * s.codeCap - s.cr.bitpos.toNat) := by
  have hlt := streamBits_lt s.codemem s.cr.bitpos.toNat (8 * s.codeCap - s.cr.bitpos.toNat)
  unfold crPastCap
  obtain ⟨d, hd⟩ := Nat.exists_eq_add_of_le (show 8 * s.codeCap - s.cr.bitpos.toNat ≤ w by omega)
  generalize 8 * s.codeCap - s.cr.bitpos.toNat = held at *
  subst hd
  have hf := Nat.mod_lt (Config.freeBits .crCode s.freeTick 12).toNat (Nat.two_pow_pos d)
  simp only [Nat.add_sub_cancel_left]
  generalize (Config.freeBits .crCode s.freeTick 12).toNat % 2 ^ d = f at *
  have hmul : 2 ^ held * (f + 1) ≤ 2 ^ held * 2 ^ d := Nat.mul_le_mul_left _ hf
  refine ⟨?_, by rw [Nat.add_mul_mod_self_left, Nat.mod_eq_of_lt hlt]⟩
  show _ < 2 ^ (held + d)
  rw [Nat.pow_add]
  rw [Nat.mul_add] at hmul
  omega

/-- `crResult` writes RES0 alone, and the free-value counter where the code reaches past CODE_CAP. -/
theorem crResult_eq (w : Nat) (code : BitVec 12) (s t : State) :
    crResult w code s t = { t with res0 := (crResult w code s t).res0, freeTick := (crResult w code s t).freeTick } := by
  unfold crResult
  split <;> rfl

end Sys2Proof.Machine
end

