-- ==== Sys2Proof/Laws/CodeWriter.lean ====
section
/-! SUPPORT. The laws of the code writer: what a write, a flush and their failures do, said once. -/

namespace Sys2Proof.Machine

/-! ## One byte -/

theorem cwEmitByte_ok {v : Byte} {s : State} (h : s.cw.ptr.toNat < s.codeCap) :
    cwEmitByte v s = .ok ((s.writeCode s.cw.ptr.toNat v).setCw { s.cw with ptr := s.cw.ptr + 1#25 }) :=
  if_neg (Nat.not_le.mpr h)

theorem cwEmitByte_error {v : Byte} {s : State} (h : s.codeCap ≤ s.cw.ptr.toNat) :
    cwEmitByte v s = .error ⟨.codeOverflow, s.cw.ptr.toNat⟩ := if_pos h

/-- CW_PTR does not wrap: CODE_CAP is at most 2^24 (R9) and the register has 25 bits. -/
theorem codeCap_le (s : State) : s.codeCap ≤ 2 ^ 24 := s.codeLast.isLt

theorem pixCap_le (s : State) : s.pixCap ≤ 2 ^ 24 := s.pixLast.isLt

theorem ptr_succ {p : BitVec 25} {cap : Nat} (hc : cap ≤ 2 ^ 24) (h : p.toNat < cap) :
    (p + 1#25).toNat = p.toNat + 1 := by
  rw [BitVec.toNat_add]
  simp only [BitVec.toNat_ofNat]
  omega

/-! ## The drain -/

/-- The state after one turn of the loop of `CW_Write`. -/
def cwTurn (s : State) : State :=
  { s with
    codemem := Memory.write s.codemem s.cw.ptr.toNat (s.cw.acc.setWidth 8)
    cw := { s.cw with ptr := s.cw.ptr + 1#25, acc := s.cw.acc >>> 8 } }

theorem cwDrain_succ_ok {k : Nat} {s : State} (h : s.cw.ptr.toNat < s.codeCap) :
    cwDrain (k + 1) s = cwDrain k (cwTurn s) := by
  simp only [cwDrain, cwEmitByte_ok h, ok_bind]
  rfl

/-- A turn of the loop moves no stream bit: it takes the lowest eight pending bits to CODEMEM. -/
theorem cwTurn_writtenBit {s : State} (hm : s.MemOk) (h : s.cw.ptr.toNat < s.codeCap) (k : Nat) :
    (cwTurn s).writtenBit k = s.writtenBit k := by
  have hp : (s.cw.ptr + 1#25).toNat = s.cw.ptr.toNat + 1 := ptr_succ (codeCap_le s) h
  simp only [State.writtenBit, cwTurn, hp, streamBit]
  by_cases h1 : k < 8 * s.cw.ptr.toNat
  · rw [if_pos (by omega), if_pos h1, Memory.read_write_other (by omega)]
  · rw [if_neg h1]
    by_cases h2 : k < 8 * (s.cw.ptr.toNat + 1)
    · have hk : k / 8 = s.cw.ptr.toNat := by omega
      have hr : k - 8 * s.cw.ptr.toNat = k % 8 := by omega
      rw [if_pos h2, hk, Memory.read_write_same hm.codemem, hr, shiftRight_mod_two, shiftRight_mod_two]
      simp only [BitVec.toNat_setWidth, Nat.testBit_mod_two_pow]
      simp [Nat.mod_lt]
    · rw [if_neg h2, BitVec.toNat_ushiftRight, ← Nat.shiftRight_add]
      congr 2
      omega

theorem cwTurn_memOk {s : State} (hm : s.MemOk) (h : s.cw.ptr.toNat < s.codeCap) : (cwTurn s).MemOk :=
  ⟨hm.pixmem, Memory.write_wf hm.codemem h, hm.st, hm.dt, hm.xstack⟩

/-- The loop of `CW_Write` with room for its bytes. -/
theorem cwDrain_ok (k : Nat) {s : State} (hm : s.MemOk) (hroom : s.cw.ptr.toNat + k ≤ s.codeCap) :
    ∃ t, cwDrain k s = .ok t ∧ t = { s with cw := t.cw, codemem := t.codemem } ∧ t.MemOk ∧
      t.cw.ptr.toNat = s.cw.ptr.toNat + k ∧ t.cw.cnt = s.cw.cnt ∧ t.cw.acc = s.cw.acc >>> (8 * k) ∧
      (∀ j, t.writtenBit j = s.writtenBit j) ∧
      ∀ a, a < s.cw.ptr.toNat ∨ s.cw.ptr.toNat + k ≤ a → t.readCode a = s.readCode a := by
  induction k generalizing s with
  | zero => exact ⟨s, rfl, rfl, hm, by simp, rfl, by simp, fun _ => rfl, fun _ _ => rfl⟩
  | succ k ih =>
    have h : s.cw.ptr.toNat < s.codeCap := by omega
    have hp : (cwTurn s).cw.ptr.toNat = s.cw.ptr.toNat + 1 := ptr_succ (codeCap_le s) h
    have hcap : (cwTurn s).codeCap = s.codeCap := rfl
    obtain ⟨t, h1, h2, h3, h4, h5, h6, h7, h8⟩ := ih (cwTurn_memOk hm h) (by omega)
    refine ⟨t, by rw [cwDrain_succ_ok h, h1], h2, h3, by omega, h5, ?_, ?_, ?_⟩
    · rw [h6]
      simp only [cwTurn]
      rw [← BitVec.shiftRight_add]
      congr 1
      omega
    · intro j
      rw [h7, cwTurn_writtenBit hm h]
    · intro a ha
      rw [h8 a (by omega)]
      simp only [State.readCode, cwTurn]
      exact Memory.read_write_other (by omega)

/-- The loop of `CW_Write` without room: CODE_OVERFLOW at CODE_CAP (R131). -/
theorem cwDrain_error (k : Nat) {s : State} (hp : s.cw.ptr.toNat ≤ s.codeCap) (hroom : s.codeCap < s.cw.ptr.toNat + k) :
    cwDrain k s = .error ⟨.codeOverflow, s.codeCap⟩ := by
  induction k generalizing s with
  | zero => omega
  | succ k ih =>
    rcases Nat.lt_or_ge s.cw.ptr.toNat s.codeCap with h | h
    · have hp' : (cwTurn s).cw.ptr.toNat = s.cw.ptr.toNat + 1 := ptr_succ (codeCap_le s) h
      have hcap : (cwTurn s).codeCap = s.codeCap := rfl
      rw [cwDrain_succ_ok h, ih (by omega) (by omega), hcap]
    · simp only [cwDrain, cwEmitByte_error h, error_bind]
      rw [Nat.le_antisymm hp h]

/-! ## What a write that succeeds leaves alone, in every state -/

/-- What the writer's primitives do to the rest of the state: CW and CODEMEM alone change, CW_PTR does not go down, and no
byte outside the completed ones is stored. -/
structure CwFrame (s t : State) : Prop where
  eq : t = { s with cw := t.cw, codemem := t.codemem }
  mono : s.cw.ptr.toNat ≤ t.cw.ptr.toNat
  outside : ∀ a, a < s.cw.ptr.toNat ∨ t.cw.ptr.toNat ≤ a → t.readCode a = s.readCode a
  memOk : s.MemOk → t.MemOk
  bound : s.cw.ptr.toNat ≤ s.codeCap → t.cw.ptr.toNat ≤ t.codeCap

theorem CwFrame.refl (s : State) : CwFrame s s := ⟨rfl, Nat.le_refl _, fun _ _ => rfl, id, id⟩

theorem CwFrame.trans {s t u : State} (h : CwFrame s t) (h' : CwFrame t u) : CwFrame s u where
  eq := by rw [h'.eq, h.eq]
  mono := Nat.le_trans h.mono h'.mono
  outside := fun a ha => by
    have := h.mono
    have := h'.mono
    rw [h'.outside a (by omega), h.outside a (by omega)]
  memOk := fun hm => h'.memOk (h.memOk hm)
  bound := fun hb => h'.bound (h.bound hb)

/-- Writing only CW_CNT and CW_ACC keeps the frame. -/
theorem CwFrame.setCw (s : State) (cnt : BitVec 4) (acc : BitVec Config.accW) :
    CwFrame s (s.setCw { s.cw with cnt := cnt, acc := acc }) :=
  ⟨rfl, Nat.le_refl _, fun _ _ => rfl, fun h => ⟨h.pixmem, h.codemem, h.st, h.dt, h.xstack⟩, id⟩

theorem cwEmitByte_frame {v : Byte} {s t : State} (h : cwEmitByte v s = .ok t) : CwFrame s t := by
  rcases Nat.lt_or_ge s.cw.ptr.toNat s.codeCap with hlt | hge
  · rw [cwEmitByte_ok hlt] at h
    have hp := ptr_succ (codeCap_le s) hlt
    obtain rfl := Except.ok.inj h
    refine ⟨rfl, ?_, ?_, fun hm => ⟨hm.pixmem, Memory.write_wf hm.codemem hlt, hm.st, hm.dt, hm.xstack⟩, fun _ => ?_⟩
    · show s.cw.ptr.toNat ≤ (s.cw.ptr + 1#25).toNat
      omega
    · intro a ha
      have ha' : a < s.cw.ptr.toNat ∨ (s.cw.ptr + 1#25).toNat ≤ a := ha
      exact Memory.read_write_other (by omega)
    · show (s.cw.ptr + 1#25).toNat ≤ s.codeCap
      omega
  · rw [cwEmitByte_error hge] at h
    cases h

theorem cwDrain_frame {k : Nat} {s t : State} (h : cwDrain k s = .ok t) : CwFrame s t := by
  induction k generalizing s with
  | zero =>
    obtain rfl := Except.ok.inj h
    exact CwFrame.refl _
  | succ k ih =>
    obtain ⟨u, hu, h⟩ := bind_ok_iff.mp h
    exact (cwEmitByte_frame hu).trans ((CwFrame.setCw u u.cw.cnt _).trans (ih h))

/-- Every turn of the loop drops the byte it emits. -/
theorem cwDrain_acc {k : Nat} {s t : State} (h : cwDrain k s = .ok t) : t.cw.acc = s.cw.acc >>> (8 * k) := by
  induction k generalizing s with
  | zero =>
    obtain rfl := Except.ok.inj h
    simp
  | succ k ih =>
    obtain ⟨u, hu, h⟩ := bind_ok_iff.mp h
    have hacc : u.cw.acc = s.cw.acc := by
      unfold cwEmitByte at hu
      split at hu
      · cases hu
      · rw [← Except.ok.inj hu]
        rfl
    rw [ih h]
    show (u.cw.acc >>> 8) >>> (8 * k) = _
    rw [hacc, ← BitVec.shiftRight_add]
    congr 1
    omega

theorem cwWrite_frame {code w : Nat} {s t : State} (h : cwWrite code w s = .ok t) : CwFrame s t := by
  obtain ⟨u, hu, h⟩ := bind_ok_iff.mp h
  obtain rfl := Except.ok.inj h
  exact (CwFrame.setCw s s.cw.cnt _).trans ((cwDrain_frame hu).trans (CwFrame.setCw u _ u.cw.acc))

/-- Nothing is pending after the flush (R134). -/
theorem cwEnd_clean {s t : State} (h : cwEnd s = .ok t) : t.cw.cnt = 0#4 ∧ t.cw.acc = 0 := by
  obtain ⟨u, hu, h⟩ := bind_ok_iff.mp h
  obtain rfl := Except.ok.inj h
  exact ⟨rfl, rfl⟩

theorem cwEnd_frame {s t : State} (h : cwEnd s = .ok t) : CwFrame s t := by
  obtain ⟨u, hu, h⟩ := bind_ok_iff.mp h
  obtain rfl := Except.ok.inj h
  have : CwFrame s u := by
    unfold cwFlush at hu
    split at hu
    · exact cwEmitByte_frame hu
    · obtain rfl := Except.ok.inj hu
      exact CwFrame.refl _
  exact this.trans (CwFrame.setCw u _ _)

/-! ## Writes -/

/-- The state in which the loop of `CW_Write` starts: the code's bits lie above the pending ones. -/
def cwAppend (code w : Nat) (s : State) : State :=
  s.setCw { s.cw with acc := s.cw.acc ||| (BitVec.ofNat Config.accW (code % 2 ^ w) <<< s.cw.cnt.toNat) }

theorem cwWrite_eq (code w : Nat) (s : State) :
    cwWrite code w s = (cwDrain ((s.cw.cnt.toNat + w) / 8) (cwAppend code w s)) >>= fun s' =>
      .ok (s'.setCw { s'.cw with cnt := BitVec.ofNat 4 ((s.cw.cnt.toNat + w) % 8) }) := rfl

/-- The accumulator once the code's bits lie above the pending ones. -/
theorem cwAppend_acc {code w : Nat} {s : State} (hs : s.CwOk) (hw : w ≤ 12) :
    (cwAppend code w s).cw.acc.toNat = s.cw.acc.toNat + code % 2 ^ w * 2 ^ s.cw.cnt.toNat := by
  have hc : code % 2 ^ w < 2 ^ w := Nat.mod_lt _ (Nat.two_pow_pos w)
  have hcnt := hs.cnt
  have hpow : 2 ^ w * 2 ^ s.cw.cnt.toNat ≤ 2 ^ 19 := by
    rw [← Nat.pow_add]
    exact Nat.pow_le_pow_right (by decide) (by omega)
  have hlt : code % 2 ^ w * 2 ^ s.cw.cnt.toNat < 2 ^ 28 := by
    have := Nat.mul_lt_mul_of_pos_right hc (Nat.two_pow_pos s.cw.cnt.toNat)
    omega
  have hlt' : code % 2 ^ w < 2 ^ 28 := by
    have : 2 ^ w ≤ 2 ^ 12 := Nat.pow_le_pow_right (by decide) hw
    omega
  simp only [cwAppend, State.setCw, BitVec.toNat_or, BitVec.toNat_shiftLeft, BitVec.toNat_ofNat]
  rw [Nat.mod_eq_of_lt hlt', Nat.shiftLeft_eq, Nat.mod_eq_of_lt hlt, Nat.or_comm, Nat.mul_comm,
    ← Nat.two_pow_add_eq_or_of_lt hs.acc, Nat.add_comm]

theorem cwAppend_lt {code w : Nat} {s : State} (hs : s.CwOk) (hw : w ≤ 12) :
    (cwAppend code w s).cw.acc.toNat < 2 ^ (s.cw.cnt.toNat + w) := by
  have hc : code % 2 ^ w < 2 ^ w := Nat.mod_lt _ (Nat.two_pow_pos w)
  have := hs.acc
  rw [cwAppend_acc hs hw, Nat.pow_add]
  have := Nat.mul_le_mul_left (2 ^ s.cw.cnt.toNat) (Nat.succ_le_of_lt hc)
  rw [Nat.mul_succ] at this
  rw [Nat.mul_comm (code % 2 ^ w)]
  omega

/-- Appending moves no earlier stream bit. -/
theorem cwAppend_writtenBit_old {code w : Nat} {s : State} (hs : s.CwOk) (hw : w ≤ 12) {k : Nat}
    (hk : k < s.writtenBits) : (cwAppend code w s).writtenBit k = s.writtenBit k := by
  have hk' : k < 8 * s.cw.ptr.toNat + s.cw.cnt.toNat := hk
  unfold State.writtenBit
  rw [cwAppend_acc hs hw]
  show (if k < 8 * s.cw.ptr.toNat then _ else _) = _
  split
  · rfl
  · have hlt : k - 8 * s.cw.ptr.toNat < s.cw.cnt.toNat := by omega
    show (_ >>> (k - 8 * s.cw.ptr.toNat)) % 2 = _
    obtain ⟨d, hd⟩ := Nat.exists_eq_add_of_lt hlt
    rw [hd, Nat.shiftRight_eq_div_pow, Nat.shiftRight_eq_div_pow,
      show code % 2 ^ w * 2 ^ (k - 8 * s.cw.ptr.toNat + d + 1) =
        2 ^ (k - 8 * s.cw.ptr.toNat) * (2 * (code % 2 ^ w * 2 ^ d)) by rw [Nat.pow_add, Nat.pow_add]; ring,
      Nat.add_mul_div_left _ _ (Nat.two_pow_pos _)]
    omega

/-- The appended stream bits are the low w bits of the code, bit 0 first (R12, R66). -/
theorem cwAppend_writtenBit_new {code w : Nat} {s : State} (hs : s.CwOk) (hw : w ≤ 12) {j : Nat} (hj : j < w) :
    (cwAppend code w s).writtenBit (s.writtenBits + j) = (code >>> j) % 2 := by
  unfold State.writtenBit
  rw [cwAppend_acc hs hw]
  show (if 8 * s.cw.ptr.toNat + s.cw.cnt.toNat + j < 8 * s.cw.ptr.toNat then _ else _) = _
  rw [if_neg (by omega)]
  show (_ >>> (8 * s.cw.ptr.toNat + s.cw.cnt.toNat + j - 8 * s.cw.ptr.toNat)) % 2 = _
  rw [show 8 * s.cw.ptr.toNat + s.cw.cnt.toNat + j - 8 * s.cw.ptr.toNat = s.cw.cnt.toNat + j by omega,
    Nat.shiftRight_add, Nat.shiftRight_eq_div_pow _ s.cw.cnt.toNat, Nat.add_mul_div_right _ _ (Nat.two_pow_pos _),
    Nat.div_eq_of_lt hs.acc, Nat.zero_add, shiftRight_mod_two, shiftRight_mod_two, Nat.testBit_mod_two_pow]
  simp [hj]

/-- `CW_Write` with room for its completed bytes (R133): it appends the low w bits of the code, moves no earlier stream
bit, and stores nothing outside the bytes it completes. -/
theorem cwWrite_ok {code w : Nat} {s : State} (hm : s.MemOk) (hs : s.CwOk) (hw : w ≤ 12)
    (hroom : s.cw.ptr.toNat + (s.cw.cnt.toNat + w) / 8 ≤ s.codeCap) :
    ∃ t, cwWrite code w s = .ok t ∧ t = { s with cw := t.cw, codemem := t.codemem } ∧ t.MemOk ∧ t.CwOk ∧
      t.cw.ptr.toNat = s.cw.ptr.toNat + (s.cw.cnt.toNat + w) / 8 ∧ t.cw.cnt.toNat = (s.cw.cnt.toNat + w) % 8 ∧
      (∀ k < s.writtenBits, t.writtenBit k = s.writtenBit k) ∧
      (∀ j < w, t.writtenBit (s.writtenBits + j) = (code >>> j) % 2) ∧
      ∀ a, a < s.cw.ptr.toNat ∨ t.cw.ptr.toNat ≤ a → t.readCode a = s.readCode a := by
  have hcnt := hs.cnt
  have hm' : (cwAppend code w s).MemOk := ⟨hm.pixmem, hm.codemem, hm.st, hm.dt, hm.xstack⟩
  obtain ⟨t, h1, h2, h3, h4, h5, h6, h7, h8⟩ := cwDrain_ok ((s.cw.cnt.toNat + w) / 8) hm' hroom
  have hcap : t.codeCap = s.codeCap := by rw [h2]; rfl
  have hp : t.cw.ptr.toNat = s.cw.ptr.toNat + (s.cw.cnt.toNat + w) / 8 := h4
  have hm4 : (BitVec.ofNat 4 ((s.cw.cnt.toNat + w) % 8)).toNat = (s.cw.cnt.toNat + w) % 8 := by
    rw [BitVec.toNat_ofNat]
    omega
  refine ⟨t.setCw { t.cw with cnt := BitVec.ofNat 4 ((s.cw.cnt.toNat + w) % 8) }, by rw [cwWrite_eq, h1]; rfl, ?_,
    ⟨h3.pixmem, h3.codemem, h3.st, h3.dt, h3.xstack⟩, ⟨?_, ?_, ?_⟩, h4, hm4, ?_, ?_, ?_⟩
  · rw [h2]
    rfl
  · show t.cw.ptr.toNat ≤ t.codeCap
    omega
  · show (BitVec.ofNat 4 _).toNat < 8
    omega
  · show t.cw.acc.toNat < 2 ^ (BitVec.ofNat 4 _).toNat
    rw [h6, hm4, BitVec.toNat_ushiftRight, Nat.shiftRight_eq_div_pow, Nat.div_lt_iff_lt_mul (Nat.two_pow_pos _),
      ← Nat.pow_add]
    have := cwAppend_lt (code := code) hs hw
    rwa [show (s.cw.cnt.toNat + w) % 8 + 8 * ((s.cw.cnt.toNat + w) / 8) = s.cw.cnt.toNat + w by omega]
  · intro k hk
    show t.writtenBit k = _
    rw [h7, cwAppend_writtenBit_old hs hw hk]
  · intro j hj
    show t.writtenBit _ = _
    rw [h7, cwAppend_writtenBit_new hs hw hj]
  · intro a ha
    have ha' : a < s.cw.ptr.toNat ∨ t.cw.ptr.toNat ≤ a := ha
    exact h8 a (by show a < s.cw.ptr.toNat ∨ s.cw.ptr.toNat + _ ≤ a; omega)

/-- `CW_Write` without room (R131, R133): CODE_OVERFLOW, whose ERRINFO is CODE_CAP (R240). -/
theorem cwWrite_error {code w : Nat} {s : State} (hp : s.cw.ptr.toNat ≤ s.codeCap)
    (hroom : s.codeCap < s.cw.ptr.toNat + (s.cw.cnt.toNat + w) / 8) :
    cwWrite code w s = .error ⟨.codeOverflow, s.codeCap⟩ := by
  rw [cwWrite_eq, cwDrain_error _ (s := cwAppend code w s) hp hroom]
  rfl

/-! ## The flush -/

/-- `CW_End` with room for the pending byte (R134): the bits above the pending ones are 0, and nothing is pending after. -/
theorem cwEnd_ok {s : State} (hm : s.MemOk) (hs : s.CwOk) (hroom : s.cw.cnt = 0#4 ∨ s.cw.ptr.toNat < s.codeCap) :
    ∃ t, cwEnd s = .ok t ∧ t = { s with cw := t.cw, codemem := t.codemem } ∧ t.MemOk ∧ t.CwOk ∧
      t.cw.ptr.toNat = s.cw.ptr.toNat + (s.cw.cnt.toNat + 7) / 8 ∧ t.cw.cnt = 0#4 ∧ t.cw.acc = 0 ∧
      (∀ k < s.writtenBits, streamBit t.codemem k = s.writtenBit k) ∧
      (∀ k, s.writtenBits ≤ k → k < 8 * t.cw.ptr.toNat → streamBit t.codemem k = 0) ∧
      ∀ a, a < s.cw.ptr.toNat ∨ t.cw.ptr.toNat ≤ a → t.readCode a = s.readCode a := by
  have hcnt := hs.cnt
  have hacc := hs.acc
  have hptr := hs.ptr
  by_cases h0 : s.cw.cnt.toNat = 0
  · refine ⟨s.setCw { s.cw with cnt := 0#4, acc := 0 }, ?_, rfl, ⟨hm.pixmem, hm.codemem, hm.st, hm.dt, hm.xstack⟩,
      ⟨hptr, by simp, by simp⟩, ?_, rfl, rfl, ?_, ?_, fun _ _ => rfl⟩
    · simp [cwEnd, cwFlush, h0]
    · show s.cw.ptr.toNat = _
      omega
    · intro k hk
      have : k < 8 * s.cw.ptr.toNat + s.cw.cnt.toNat := hk
      show streamBit s.codemem k = _
      rw [State.writtenBit, if_pos (by omega)]
    · intro k hk hk'
      have : 8 * s.cw.ptr.toNat + s.cw.cnt.toNat ≤ k := hk
      have : k < 8 * s.cw.ptr.toNat := hk'
      omega
  · have hlt : s.cw.ptr.toNat < s.codeCap := by
      rcases hroom with h | h
      · rw [h] at h0; exact absurd rfl h0
      · exact h
    have hp := ptr_succ (codeCap_le s) hlt
    have hm' : (cwTurn s).MemOk := cwTurn_memOk hm hlt
    have hbyte : ∀ k, k < 8 * (s.cw.ptr.toNat + 1) → streamBit (cwTurn s).codemem k = s.writtenBit k := by
      intro k hk
      rw [← cwTurn_writtenBit hm hlt k, State.writtenBit, if_pos]
      show k < 8 * (s.cw.ptr + 1#25).toNat
      omega
    refine ⟨(cwTurn s).setCw { s.cw with ptr := s.cw.ptr + 1#25, cnt := 0#4, acc := 0 }, ?_, rfl,
      ⟨hm'.pixmem, hm'.codemem, hm'.st, hm'.dt, hm'.xstack⟩, ⟨?_, by simp, by simp⟩, ?_, rfl, rfl, ?_, ?_, ?_⟩
    · simp only [cwEnd, cwFlush, if_pos (Nat.pos_of_ne_zero h0), cwEmitByte_ok hlt, ok_bind]
      rfl
    · show (s.cw.ptr + 1#25).toNat ≤ s.codeCap
      omega
    · show (s.cw.ptr + 1#25).toNat = _
      omega
    · intro k hk
      have : k < 8 * s.cw.ptr.toNat + s.cw.cnt.toNat := hk
      exact hbyte k (by omega)
    · intro k hk hk'
      have hk1 : 8 * s.cw.ptr.toNat + s.cw.cnt.toNat ≤ k := hk
      have hk2 : k < 8 * (s.cw.ptr + 1#25).toNat := hk'
      show streamBit (cwTurn s).codemem k = 0
      rw [hbyte k (by omega), State.writtenBit, if_neg (by omega), Nat.shiftRight_eq_div_pow, Nat.div_eq_of_lt]
      exact Nat.lt_of_lt_of_le hacc (Nat.pow_le_pow_right (by decide) (by omega))
    · intro a ha
      have ha' : a < s.cw.ptr.toNat ∨ (s.cw.ptr + 1#25).toNat ≤ a := ha
      exact Memory.read_write_other (by omega)

/-- `CW_End` without room (R131, R134). -/
theorem cwEnd_error {s : State} (hp : s.codeCap ≤ s.cw.ptr.toNat) (hc : s.cw.cnt ≠ 0#4) :
    cwEnd s = .error ⟨.codeOverflow, s.cw.ptr.toNat⟩ := by
  have : 0 < s.cw.cnt.toNat := by
    rcases Nat.eq_zero_or_pos s.cw.cnt.toNat with h | h
    · exact absurd (BitVec.eq_of_toNat_eq (by simpa using h)) hc
    · exact h
  simp only [cwEnd, cwFlush, if_pos this, cwEmitByte_error hp, error_bind]

end Sys2Proof.Machine
end

