-- ==== Sys2Proof/Laws/Decoder.lean ====
section
/-! SUPPORT. The laws of the decoder: what a run that succeeds leaves alone, the session invariant, and that the loop ends
within its turns. -/

namespace Sys2Proof.Machine

/-! ## What a micro-step that succeeds leaves alone -/

/-- What the decoder's micro-steps do to the rest of the state: CR_BITPOS, PIXMEM, DT, XSTACK and the DEC_* registers alone
change, and PIXMEM keeps its bytes outside the emitted ones. -/
structure DecFrame (s t : State) : Prop where
  eq : t = { s with cr := t.cr, pixmem := t.pixmem, dec := t.dec, dt := t.dt, xstack := t.xstack, xsp := t.xsp }
  len : t.cr.len = s.cr.len
  mono : s.dec.out.toNat ≤ t.dec.out.toNat
  outside : ∀ a, a < s.dec.out.toNat ∨ t.dec.out.toNat ≤ a → t.readPix a = s.readPix a
  memOk : s.MemOk → t.MemOk
  crOk : s.CrOk → t.CrOk

theorem DecFrame.refl (s : State) : DecFrame s s :=
  ⟨rfl, rfl, Nat.le_refl _, fun _ _ => rfl, id, id⟩

theorem DecFrame.trans {s t u : State} (h : DecFrame s t) (h' : DecFrame t u) : DecFrame s u where
  eq := by rw [h'.eq, h.eq]
  len := h'.len.trans h.len
  mono := Nat.le_trans h.mono h'.mono
  outside := fun a ha => by
    have := h.mono
    have := h'.mono
    rw [h'.outside a (by omega), h.outside a (by omega)]
  memOk := fun hm => h'.memOk (h.memOk hm)
  crOk := fun hm => h'.crOk (h.crOk hm)

theorem DecFrame.codemem {s t : State} (h : DecFrame s t) : t.codemem = s.codemem := by rw [h.eq]

theorem DecFrame.pixLast {s t : State} (h : DecFrame s t) : t.pixLast = s.pixLast := by rw [h.eq]

theorem DecFrame.codeLast {s t : State} (h : DecFrame s t) : t.codeLast = s.codeLast := by rw [h.eq]

/-- A write to the DEC_* registers that does not lower DEC_OUT. -/
theorem DecFrame.setDec (s : State) (d : DecRegs) (h : d.out = s.dec.out) : DecFrame s (s.setDec d) :=
  ⟨rfl, rfl, by show s.dec.out.toNat ≤ d.out.toNat; rw [h], fun _ _ => rfl,
    fun h => ⟨h.pixmem, h.codemem, h.st, h.dt, h.xstack⟩, fun h => ⟨h.len, h.bitpos⟩⟩

theorem DecFrame.initSession (s : State) : DecFrame s (decInitSession s) := DecFrame.setDec s _ rfl

theorem crRead_frame {w : Nat} {s t : State} {r : BitVec 12} (h : crRead w s = some (r, t)) : DecFrame s t := by
  have hc := crRead_crOk h
  obtain ⟨-, -, rfl, -, hl⟩ := crRead_some h
  exact ⟨rfl, hl, Nat.le_refl _, fun _ _ => rfl, fun h => ⟨h.pixmem, h.codemem, h.st, h.dt, h.xstack⟩, hc⟩

theorem dEmit_frame {p : Byte} {s t : State} (h : dEmit p s = .ok t) :
    DecFrame s t ∧ t.dec.out.toNat = s.dec.out.toNat + 1 ∧
      t = { s with pixmem := Memory.write s.pixmem s.dec.out.toNat p, dec := { s.dec with out := t.dec.out } } := by
  unfold dEmit at h
  split at h
  · cases h
  · rename_i hlt
    obtain rfl := Except.ok.inj h
    have hcap : s.pixCap ≤ 2 ^ 24 := by
      have := s.pixLast.isLt
      unfold State.pixCap
      omega
    have ho : (s.dec.out + 1#25).toNat = s.dec.out.toNat + 1 := by
      rw [BitVec.toNat_add]
      simp only [BitVec.toNat_ofNat]
      omega
    have ho' : ((s.writePix s.dec.out.toNat p).setDec { s.dec with out := s.dec.out + 1#25 }).dec.out.toNat =
      s.dec.out.toNat + 1 := ho
    refine ⟨⟨rfl, rfl, by omega, ?_, ?_, fun h => ⟨h.len, h.bitpos⟩⟩, ho, rfl⟩
    · intro a ha
      exact Memory.read_write_other (by omega)
    · intro h
      exact ⟨Memory.write_wf h.pixmem (Nat.lt_of_not_le hlt), h.codemem, h.st, h.dt, h.xstack⟩

theorem dEmitSeq_frame {ps : List Byte} {s t : State} (h : dEmitSeq ps s = .ok t) :
    DecFrame s t ∧ t.dec.out.toNat = s.dec.out.toNat + ps.length := by
  induction ps generalizing s with
  | nil =>
    obtain rfl := Except.ok.inj h
    exact ⟨DecFrame.refl _, rfl⟩
  | cons p ps ih =>
    obtain ⟨u, hu, h⟩ := bind_ok_iff.mp h
    obtain ⟨hf, ho, -⟩ := dEmit_frame hu
    obtain ⟨hf', ho'⟩ := ih h
    exact ⟨hf.trans hf', by rw [ho', ho, List.length_cons]; omega⟩

/-- A push below the depth of XSTACK (R40). -/
theorem pushX_frame (p : Byte) {s : State} (h : s.xsp.toNat < Config.xstackDepth) :
    DecFrame s (s.pushX p) ∧ (s.pushX p).xsp.toNat = s.xsp.toNat + 1 ∧
      s.pushX p = { s with xstack := Memory.write s.xstack s.xsp.toNat p, xsp := s.xsp + 1#13 } := by
  refine ⟨⟨rfl, rfl, Nat.le_refl _, fun _ _ => rfl, fun hm => ?_, fun h => ⟨h.len, h.bitpos⟩⟩, ?_, rfl⟩
  · exact ⟨hm.pixmem, hm.codemem, hm.st, hm.dt, Memory.write_wf hm.xstack h⟩
  · show (s.xsp + 1#13).toNat = _
    have h : s.xsp.toNat < 4096 := h
    rw [BitVec.toNat_add]
    simp only [BitVec.toNat_ofNat]
    omega

/-- An expansion changes XSTACK and XSP alone. -/
theorem expandFrom_frame {k0 : BitVec 12} {room : Nat} {k : BitVec 12} {s t : State}
    (hx : s.xsp.toNat + room = Config.xstackDepth) (h : expandFrom k0 room k s = .ok t) :
    DecFrame s t ∧ t = { s with xstack := t.xstack, xsp := t.xsp } := by
  induction room generalizing k s with
  | zero =>
    unfold expandFrom at h
    split at h <;> cases h
  | succ room ih =>
    have hlt : s.xsp.toNat < Config.xstackDepth := by omega
    unfold expandFrom at h
    split at h
    · obtain rfl := Except.ok.inj h
      exact ⟨(pushX_frame _ hlt).1, rfl⟩
    · split at h
      · cases h
      · obtain ⟨hf, hsp, he⟩ := pushX_frame (s.readEntry k.toNat).suf hlt
        obtain ⟨hf', he'⟩ := ih (by omega) h
        exact ⟨hf.trans hf', by rw [he', he]⟩

theorem expand_frame {k0 : BitVec 12} {s t : State} {ps : List Byte} (h : expand k0 s = .ok (ps, t)) :
    DecFrame s t ∧ t = { s with xstack := t.xstack, xsp := t.xsp } := by
  obtain ⟨u, hu, h⟩ := bind_ok_iff.mp h
  simp only [Except.ok.injEq, Prod.mk.injEq] at h
  obtain ⟨-, rfl⟩ := h
  have h0 : DecFrame s (s.setXstack s.xstack 0#13) :=
    ⟨rfl, rfl, Nat.le_refl _, fun _ _ => rfl, fun h => ⟨h.pixmem, h.codemem, h.st, h.dt, h.xstack⟩,
      fun h => ⟨h.len, h.bitpos⟩⟩
  obtain ⟨hf, he⟩ := expandFrom_frame (by rfl) hu
  exact ⟨h0.trans hf, by rw [he]; rfl⟩

theorem dAddEntry_frame (p : Byte) (s : State) : DecFrame s (dAddEntry p s) := by
  unfold dAddEntry
  split
  · rename_i hlt
    exact ⟨rfl, rfl, Nat.le_refl _, fun _ _ => rfl,
      fun h => ⟨h.pixmem, h.codemem, h.st, Cells.write_wf h.dt hlt, h.xstack⟩, fun h => ⟨h.len, h.bitpos⟩⟩
  · exact DecFrame.refl s

theorem dFirst_frame {c : BitVec 12} {s t : State} (h : dFirst c s = .ok t) : DecFrame s t := by
  unfold dFirst at h
  split at h
  · cases h
  · obtain ⟨u, hu, h⟩ := bind_ok_iff.mp h
    obtain rfl := Except.ok.inj h
    exact (dEmit_frame hu).1.trans (DecFrame.setDec u _ rfl)

theorem dClear_frame {s t : State} (h : dClear s = .ok t) : DecFrame s t := by
  unfold dClear at h
  split at h
  · obtain rfl := Except.ok.inj h
    exact (DecFrame.initSession s).trans (DecFrame.setDec _ _ rfl)
  · rename_i r u hr
    split at h
    · cases h
    · obtain ⟨v, hv, h⟩ := bind_ok_iff.mp h
      obtain rfl := Except.ok.inj h
      exact (DecFrame.initSession s).trans
        ((crRead_frame hr).trans ((dEmit_frame hv).1.trans (DecFrame.setDec v _ rfl)))

theorem dRepeat_frame {k : Bool} {p : Byte} {s t : State} (h : dRepeat k p s = .ok t) : DecFrame s t := by
  unfold dRepeat at h
  split at h
  · obtain rfl := Except.ok.inj h
    exact DecFrame.refl s
  · exact (dEmit_frame h).1

theorem dCode_frame {c : BitVec 12} {s t : State} (h : dCode c s = .ok t) : DecFrame s t := by
  obtain ⟨⟨ps, u⟩, hu, h⟩ := bind_ok_iff.mp h
  obtain ⟨v, hv, h⟩ := bind_ok_iff.mp h
  obtain ⟨w, hw, h⟩ := bind_ok_iff.mp h
  obtain rfl := Except.ok.inj h
  exact (expand_frame hu).1.trans ((dEmitSeq_frame hv).1.trans ((dRepeat_frame hw).trans
    ((dAddEntry_frame _ w).trans (DecFrame.setDec _ _ rfl))))

theorem dHandle_frame {r : BitVec 12} {s t : State} (h : dHandle r s = .ok t) : DecFrame s t := by
  unfold dHandle at h
  split at h
  · exact dClear_frame h
  · split at h
    · exact dFirst_frame h
    · exact dCode_frame h

theorem dGrow_frame (s : State) : DecFrame s (dGrow s) := by
  unfold dGrow
  split
  · exact DecFrame.setDec s _ rfl
  · exact DecFrame.refl s

theorem dStep_frame {s t : State} (h : dStep s = .ok t) : DecFrame s t := by
  unfold dStep at h
  split at h
  · obtain rfl := Except.ok.inj h
    exact DecFrame.setDec s _ rfl
  · rename_i r u hr
    split at h
    · obtain rfl := Except.ok.inj h
      exact (crRead_frame hr).trans (DecFrame.setDec u _ rfl)
    · obtain ⟨v, hv, h⟩ := bind_ok_iff.mp h
      obtain rfl := Except.ok.inj h
      refine (crRead_frame hr).trans ((dHandle_frame hv).trans ?_)
      split
      · exact DecFrame.refl v
      · exact dGrow_frame v

theorem dLoop_frame {k : Nat} {s t : State} (h : dLoop k s = .ok t) : DecFrame s t := by
  induction k generalizing s with
  | zero =>
    obtain rfl := Except.ok.inj h
    exact DecFrame.refl s
  | succ k ih =>
    unfold dLoop at h
    split at h
    · obtain ⟨u, hu, h⟩ := bind_ok_iff.mp h
      exact (dStep_frame hu).trans (ih h)
    · obtain rfl := Except.ok.inj h
      exact DecFrame.refl s

/-- What the start of a run does to the rest of the state: CR and the DEC_* registers alone change. -/
structure DecSetup (n : Nat) (s t : State) : Prop where
  eq : t = { s with cr := t.cr, dec := t.dec }
  len : t.cr.len = BitVec.ofNat 25 n
  bitpos : t.cr.bitpos = 0#28
  out : t.dec.out = 0#25
  memOk : s.MemOk → t.MemOk

theorem DecSetup.codemem {n : Nat} {s t : State} (h : DecSetup n s t) : t.codemem = s.codemem := by rw [h.eq]

theorem DecSetup.pixmem {n : Nat} {s t : State} (h : DecSetup n s t) : t.pixmem = s.pixmem := by rw [h.eq]

theorem DecSetup.pixLast {n : Nat} {s t : State} (h : DecSetup n s t) : t.pixLast = s.pixLast := by rw [h.eq]

theorem DecSetup.codeLast {n : Nat} {s t : State} (h : DecSetup n s t) : t.codeLast = s.codeLast := by rw [h.eq]

theorem dBegin_setup (n : Nat) (s : State) : DecSetup n s (dBegin n s) :=
  ⟨rfl, rfl, rfl, rfl, fun h => ⟨h.pixmem, h.codemem, h.st, h.dt, h.xstack⟩⟩

theorem DecSetup.setDec {n : Nat} {s t : State} (d : DecRegs) (h : DecSetup n (s.setDec d) t) : DecSetup n s t :=
  ⟨by rw [h.eq]; rfl, h.len, h.bitpos, h.out, fun hm => h.memOk ⟨hm.pixmem, hm.codemem, hm.st, hm.dt, hm.xstack⟩⟩

theorem dInit_frame {n : Nat} {s t : State} (h : dInit n s = .ok t) :
    DecSetup n s (dBegin n s) ∧ DecFrame (dBegin n s) t := by
  refine ⟨dBegin_setup n s, ?_⟩
  unfold dInit at h
  generalize dBegin n s = u at *
  split at h
  · cases h
  · rename_i r v hr
    split at h
    · cases h
    · obtain rfl := Except.ok.inj h
      exact (crRead_frame hr).trans (DecFrame.setDec v _ rfl)

/-- What a successful run leaves alone (R191): CODEMEM, CW, ST, PA, and PIXMEM from the end of the pixels on. -/
theorem decRun_frame {b : BitVec 4} {n : Nat} {s t : State} (hn : n ≤ s.codeCap) (h : decRun b n s = .ok t) :
    t = { s with cr := t.cr, pixmem := t.pixmem, dec := t.dec, dt := t.dt, xstack := t.xstack, xsp := t.xsp, res0 := t.res0, res1 := t.res1 } ∧
      t.res0 = zext64 t.dec.out.toNat ∧ t.res1 = zext64 t.cr.bitpos.toNat ∧ t.cr.len = BitVec.ofNat 25 n ∧ t.CrOk ∧
      (∀ a, t.dec.out.toNat ≤ a → t.readPix a = s.readPix a) ∧ (s.MemOk → t.MemOk) := by
  obtain ⟨u, hu, h⟩ := bind_ok_iff.mp h
  obtain ⟨v, hv, h⟩ := bind_ok_iff.mp h
  obtain rfl := Except.ok.inj h
  obtain ⟨hb, hf⟩ := dInit_frame hu
  have hb := DecSetup.setDec _ hb
  have hf := hf.trans (dLoop_frame hv)
  generalize dBegin n _ = d at hb hf
  have hve : v = { s with cr := v.cr, pixmem := v.pixmem, dec := v.dec, dt := v.dt, xstack := v.xstack,
                          xsp := v.xsp } := by rw [hf.eq, hb.eq]
  have hl : v.cr.len = BitVec.ofNat 25 n := hf.len.trans hb.len
  have hd : d.CrOk := by
    refine ⟨?_, ?_⟩
    · rw [hb.len, BitVec.toNat_ofNat]
      have : d.codeCap = s.codeCap := by simp only [State.codeCap, hb.codeLast]
      omega
    · rw [hb.bitpos]
      exact Nat.zero_le _
  have hc := hf.crOk hd
  have hr : ∀ a, v.dec.out.toNat ≤ a → v.readPix a = s.readPix a := fun a ha => by
    rw [hf.outside a (Or.inr ha), State.readPix, State.readPix, hb.pixmem]
  have hm : s.MemOk → v.MemOk := fun h => hf.memOk (hb.memOk h)
  clear hf hb hu hv hd
  obtain ⟨c, m, e, dt, x, sp, rfl⟩ : ∃ c m e dt x sp, v =
    { s with cr := c, pixmem := m, dec := e, dt := dt, xstack := x, xsp := sp } := ⟨_, _, _, _, _, _, hve⟩
  refine ⟨rfl, rfl, rfl, hl, ⟨hc.len, hc.bitpos⟩, hr, fun h => ?_⟩
  have := hm h
  exact ⟨this.pixmem, this.codemem, this.st, this.dt, this.xstack⟩

/-! ## The session invariant and the end of the loop -/

/-- A session that has just been initialised is sound, whatever it was before (R181). -/
theorem decInitSession_decOk {s : State} (hb : 1 ≤ s.dec.bpp.toNat ∧ s.dec.bpp.toNat ≤ 8)
    (hc : s.dec.clear.toNat = 2 ^ s.dec.bpp.toNat) (he : s.dec.eoi.toNat = s.dec.clear.toNat + 1) :
    (decInitSession s).DecOk := by
  have hpow : 2 ^ s.dec.bpp.toNat ≤ 2 ^ 8 := Nat.pow_le_pow_right (by decide) hb.2
  have hw : (s.dec.bpp + 1#4).toNat = s.dec.bpp.toNat + 1 := by
    rw [BitVec.toNat_add]
    simp only [BitVec.toNat_ofNat]
    omega
  have hl : (BitVec.ofNat 13 (2 ^ (s.dec.bpp.toNat + 1))).toNat = 2 ^ (s.dec.bpp.toNat + 1) := by
    rw [BitVec.toNat_ofNat, Nat.mod_eq_of_lt]
    rw [Nat.pow_succ]
    omega
  have hn : (BitVec.ofNat 13 (s.dec.clear.toNat + 2)).toNat = s.dec.clear.toNat + 2 := by
    rw [BitVec.toNat_ofNat, Nat.mod_eq_of_lt (by omega)]
  refine ⟨hb, hc, he, ?_, ?_, ?_⟩
  · show s.dec.bpp.toNat + 1 ≤ (s.dec.bpp + 1#4).toNat ∧ (s.dec.bpp + 1#4).toNat ≤ 12
    rw [hw]
    omega
  · show (BitVec.ofNat 13 (2 ^ (s.dec.bpp.toNat + 1))).toNat = 2 ^ (s.dec.bpp + 1#4).toNat
    rw [hl, hw]
  · show s.dec.clear.toNat + 2 ≤ (BitVec.ofNat 13 (s.dec.clear.toNat + 2)).toNat ∧
      (BitVec.ofNat 13 (s.dec.clear.toNat + 2)).toNat ≤ 4096
    rw [hn]
    omega

/-- The session invariant reads the session registers alone. -/
theorem State.DecOk.congr {s t : State} (h : s.DecOk) (hb : t.dec.bpp = s.dec.bpp) (hc : t.dec.clear = s.dec.clear)
    (he : t.dec.eoi = s.dec.eoi) (hw : t.dec.w = s.dec.w) (hl : t.dec.limit = s.dec.limit)
    (hn : t.dec.next = s.dec.next) : t.DecOk := by
  constructor
  · rw [hb]; exact h.bpp
  · rw [hb, hc]; exact h.clear
  · rw [hc, he]; exact h.eoi
  · rw [hb, hw]; exact h.w
  · rw [hl, hw]; exact h.limit
  · rw [hc, hn]; exact h.next

theorem State.DecOk.ofOut {s t : State} (h : s.DecOk) (o : BitVec 25) (ht : t.dec = { s.dec with out := o }) :
    t.DecOk := h.congr (by rw [ht]) (by rw [ht]) (by rw [ht]) (by rw [ht]) (by rw [ht]) (by rw [ht])

/-- Emitting pixels moves DEC_OUT alone among the DEC_* registers. -/
theorem dEmit_dec {p : Byte} {s t : State} (h : dEmit p s = .ok t) :
    t.dec = { s.dec with out := t.dec.out } ∧ t.cr = s.cr := by
  obtain ⟨-, -, he⟩ := dEmit_frame h
  generalize t.dec.out = o at he
  subst he
  exact ⟨rfl, rfl⟩

theorem dEmitSeq_dec {ps : List Byte} {s t : State} (h : dEmitSeq ps s = .ok t) :
    t.dec = { s.dec with out := t.dec.out } ∧ t.cr = s.cr := by
  induction ps generalizing s with
  | nil =>
    obtain rfl := Except.ok.inj h
    exact ⟨rfl, rfl⟩
  | cons p ps ih =>
    obtain ⟨u, hu, h⟩ := bind_ok_iff.mp h
    obtain ⟨h1, h2⟩ := dEmit_dec hu
    obtain ⟨h3, h4⟩ := ih h
    exact ⟨by rw [h3, h1], h4.trans h2⟩

theorem dRepeat_dec {k : Bool} {p : Byte} {s t : State} (h : dRepeat k p s = .ok t) :
    t.dec = { s.dec with out := t.dec.out } ∧ t.cr = s.cr := by
  unfold dRepeat at h
  split at h
  · obtain rfl := Except.ok.inj h
    exact ⟨rfl, rfl⟩
  · exact dEmit_dec h

/-- D_AddEntry takes at most the next free code, and never past the 4096th (R188). -/
theorem dAddEntry_decOk (p : Byte) {s : State} (h : s.DecOk) :
    (dAddEntry p s).DecOk ∧ (dAddEntry p s).dec.phase = s.dec.phase ∧ (dAddEntry p s).cr = s.cr := by
  unfold dAddEntry
  split
  · rename_i hlt
    have hlt : s.dec.next.toNat < 4096 := hlt
    have hn : (s.dec.next + 1#13).toNat = s.dec.next.toNat + 1 := by
      rw [BitVec.toNat_add]
      simp only [BitVec.toNat_ofNat]
      omega
    refine ⟨⟨h.bpp, h.clear, h.eoi, h.w, h.limit, ?_⟩, rfl, rfl⟩
    show s.dec.clear.toNat + 2 ≤ (s.dec.next + 1#13).toNat ∧ (s.dec.next + 1#13).toNat ≤ 4096
    have := h.next
    omega
  · exact ⟨h, rfl, rfl⟩

/-- D_Grow moves the width and its limit together, up to 12 bits (R189). -/
theorem dGrow_decOk {s : State} (h : s.DecOk) : (dGrow s).DecOk ∧ (dGrow s).dec.phase = s.dec.phase ∧
    (dGrow s).cr = s.cr := by
  unfold dGrow
  split
  · rename_i hg
    have hg : s.dec.limit.toNat ≤ s.dec.next.toNat ∧ s.dec.w.toNat < 12 := hg
    have hl := h.limit
    have hw1 : (s.dec.w + 1#4).toNat = s.dec.w.toNat + 1 := by
      rw [BitVec.toNat_add]
      simp only [BitVec.toNat_ofNat]
      omega
    have hpow : 2 ^ s.dec.w.toNat ≤ 2 ^ 11 := Nat.pow_le_pow_right (by decide) (by omega)
    have hl1 : (s.dec.limit <<< 1).toNat = 2 * s.dec.limit.toNat := by
      rw [BitVec.toNat_shiftLeft, Nat.shiftLeft_eq, hl, Nat.mod_eq_of_lt (by omega)]
      omega
    have hw := h.w
    refine ⟨⟨h.bpp, h.clear, h.eoi, ?_, ?_, h.next⟩, rfl, rfl⟩
    · show s.dec.bpp.toNat + 1 ≤ (s.dec.w + 1#4).toNat ∧ (s.dec.w + 1#4).toNat ≤ 12
      omega
    · show (s.dec.limit <<< 1).toNat = 2 ^ (s.dec.w + 1#4).toNat
      rw [hl1, hw1, hl, Nat.pow_succ]
      omega
  · exact ⟨h, rfl, rfl⟩

theorem crRead_dec {w : Nat} {s t : State} {r : BitVec 12} (h : crRead w s = some (r, t)) : t.dec = s.dec := by
  obtain ⟨-, -, rfl, -⟩ := crRead_some h
  rfl

/-- What D_Clear, D_First and D_Code leave of the session and of the phase. -/
theorem dHandle_decOk {r : BitVec 12} {s t : State} (hs : s.DecOk) (hp : s.dec.phase = .first ∨ s.dec.phase = .run)
    (h : dHandle r s = .ok t) : t.DecOk ∧ (t.dec.phase = .done ∨ t.dec.phase = .run) ∧
      (s.CrOk → s.cr.bitpos.toNat ≤ t.cr.bitpos.toNat) := by
  unfold dHandle at h
  split at h
  · have hi := decInitSession_decOk hs.bpp hs.clear hs.eoi
    unfold dClear at h
    split at h
    · obtain rfl := Except.ok.inj h
      exact ⟨hi.congr rfl rfl rfl rfl rfl rfl, Or.inl rfl, fun _ => Nat.le_refl _⟩
    · rename_i r u hr
      split at h
      · cases h
      · obtain ⟨v, hv, h⟩ := bind_ok_iff.mp h
        obtain rfl := Except.ok.inj h
        obtain ⟨hd, hc⟩ := dEmit_dec hv
        have hu := crRead_dec hr
        have hvok : v.DecOk := hi.ofOut v.dec.out (hd.trans (by rw [hu]))
        refine ⟨hvok.congr rfl rfl rfl rfl rfl rfl, Or.inr rfl, fun hcr => ?_⟩
        have hcap := s.codeLast.isLt
        have hlen := hcr.len
        have := crRead_bitpos hr (by
          show s.cr.len.toNat ≤ 2 ^ 24
          unfold State.codeCap at hlen
          omega)
        show s.cr.bitpos.toNat ≤ v.cr.bitpos.toNat
        rw [hc, this]
        exact Nat.le_add_right _ _
  · split at h
    · unfold dFirst at h
      split at h
      · cases h
      · obtain ⟨u, hu, h⟩ := bind_ok_iff.mp h
        obtain rfl := Except.ok.inj h
        obtain ⟨hd, hc⟩ := dEmit_dec hu
        exact ⟨(hs.ofOut u.dec.out hd).congr rfl rfl rfl rfl rfl rfl, Or.inr rfl,
          fun _ => by show s.cr.bitpos.toNat ≤ u.cr.bitpos.toNat; rw [hc]⟩
    · rename_i hf
      obtain ⟨⟨ps, u⟩, hu, h⟩ := bind_ok_iff.mp h
      obtain ⟨v, hv, h⟩ := bind_ok_iff.mp h
      obtain ⟨w, hw, h⟩ := bind_ok_iff.mp h
      obtain rfl := Except.ok.inj h
      obtain ⟨-, he⟩ := expand_frame hu
      have hud : u.dec = s.dec := by rw [he]
      have huc : u.cr = s.cr := by rw [he]
      obtain ⟨hvd, hvc⟩ := dEmitSeq_dec hv
      obtain ⟨hwd, hwc⟩ := dRepeat_dec hw
      have hwok : w.DecOk := hs.congr (by rw [hwd, hvd, hud]) (by rw [hwd, hvd, hud]) (by rw [hwd, hvd, hud])
        (by rw [hwd, hvd, hud]) (by rw [hwd, hvd, hud]) (by rw [hwd, hvd, hud])
      have hwp : w.dec.phase = s.dec.phase := by rw [hwd, hvd, hud]
      obtain ⟨hok, hph, hcr⟩ := dAddEntry_decOk (ps.headD 0#8) hwok
      refine ⟨hok.congr rfl rfl rfl rfl rfl rfl, Or.inr ?_, fun _ => ?_⟩
      · show (dAddEntry _ w).dec.phase = .run
        rw [hph, hwp]
        exact hp.resolve_left hf
      · show s.cr.bitpos.toNat ≤ (dAddEntry _ w).cr.bitpos.toNat
        rw [hcr, hwc, hvc, huc]

/-- D_STEP keeps the session sound; it ends the run or consumes at least two stream bits (R194). -/
theorem dStep_decOk {s t : State} (hs : s.DecOk) (hc : s.CrOk) (hp : s.dec.phase = .first ∨ s.dec.phase = .run)
    (h : dStep s = .ok t) :
    t.DecOk ∧ (t.dec.phase = .done ∨ (t.dec.phase = .run ∧ s.cr.bitpos.toNat + 2 ≤ t.cr.bitpos.toNat)) := by
  unfold dStep at h
  split at h
  · obtain rfl := Except.ok.inj h
    exact ⟨hs.congr rfl rfl rfl rfl rfl rfl, Or.inl rfl⟩
  · rename_i r u hr
    have hu := crRead_dec hr
    have hcu := crRead_crOk hr hc
    have huok : u.DecOk := hs.congr (by rw [hu]) (by rw [hu]) (by rw [hu]) (by rw [hu]) (by rw [hu]) (by rw [hu])
    split at h
    · obtain rfl := Except.ok.inj h
      exact ⟨huok.congr rfl rfl rfl rfl rfl rfl, Or.inl rfl⟩
    · obtain ⟨v, hv, h⟩ := bind_ok_iff.mp h
      obtain rfl := Except.ok.inj h
      obtain ⟨hok, hph, hb⟩ := dHandle_decOk huok (by rw [hu]; exact hp) hv
      split
      · rename_i hd
        exact ⟨hok, Or.inl hd⟩
      · rename_i hd
        obtain ⟨gok, gph, gcr⟩ := dGrow_decOk hok
        refine ⟨gok, Or.inr ⟨by rw [gph]; exact hph.resolve_left hd, ?_⟩⟩
        have hlen := hc.len
        have hcap := s.codeLast.isLt
        have := crRead_bitpos hr (by unfold State.codeCap at hlen; omega)
        have hw := hs.w
        have hbp := hs.bpp
        have := hb hcu
        rw [gcr]
        omega

/-- The loop ends in the phase DONE when it has a turn for every two bits left and two more (R194). -/
theorem dLoop_done {k : Nat} {s t : State} (hs : s.DecOk) (hc : s.CrOk)
    (hp : s.dec.phase = .first ∨ s.dec.phase = .run) (hk : 8 * s.cr.len.toNat + 2 ≤ s.cr.bitpos.toNat + 2 * k)
    (h : dLoop k s = .ok t) : t.dec.phase = .done := by
  induction k generalizing s with
  | zero =>
    have := hc.bitpos
    omega
  | succ k ih =>
    unfold dLoop at h
    rw [if_pos hp] at h
    obtain ⟨u, hu, h⟩ := bind_ok_iff.mp h
    obtain ⟨huok, hup⟩ := dStep_decOk hs hc hp hu
    have hf := dStep_frame hu
    rcases hup with hd | ⟨hr, hb⟩
    · cases k with
      | zero =>
        obtain rfl := Except.ok.inj h
        exact hd
      | succ k =>
        unfold dLoop at h
        rw [if_neg (by rw [hd]; decide)] at h
        obtain rfl := Except.ok.inj h
        exact hd
    · exact ih huok (hf.crOk hc) (Or.inr hr) (by rw [hf.len]; omega) h

/-- The session at the start of a run is sound. -/
theorem dBegin_decOk (n : Nat) {s : State} (hb : 1 ≤ s.dec.bpp.toNat ∧ s.dec.bpp.toNat ≤ 8) : (dBegin n s).DecOk := by
  have hpow : 2 ^ s.dec.bpp.toNat ≤ 2 ^ 8 := Nat.pow_le_pow_right (by decide) hb.2
  have hc : (BitVec.ofNat 9 (2 ^ s.dec.bpp.toNat)).toNat = 2 ^ s.dec.bpp.toNat := by
    rw [BitVec.toNat_ofNat, Nat.mod_eq_of_lt (by omega)]
  have he : (BitVec.ofNat 9 (2 ^ s.dec.bpp.toNat + 1)).toNat = 2 ^ s.dec.bpp.toNat + 1 := by
    rw [BitVec.toNat_ofNat, Nat.mod_eq_of_lt (by omega)]
  exact (decInitSession_decOk (s := (crOpen n s).setDec { s.dec with
    phase := .init, clear := BitVec.ofNat 9 (2 ^ s.dec.bpp.toNat), eoi := BitVec.ofNat 9 (2 ^ s.dec.bpp.toNat + 1) })
    hb hc (by show (BitVec.ofNat 9 (2 ^ s.dec.bpp.toNat + 1)).toNat = (BitVec.ofNat 9 (2 ^ s.dec.bpp.toNat)).toNat + 1
              rw [hc, he])).congr rfl rfl rfl rfl rfl rfl

/-- A run that raises nothing ends in the phase DONE: 4·LEN + 1 turns are enough (R194). -/
theorem decRun_done {b : BitVec 4} {n : Nat} {s t : State} (hb : legalBpp b) (hn : n ≤ s.codeCap)
    (h : decRun b n s = .ok t) : t.dec.phase = .done := by
  obtain ⟨u, hu, h⟩ := bind_ok_iff.mp h
  obtain ⟨v, hv, h⟩ := bind_ok_iff.mp h
  obtain rfl := Except.ok.inj h
  show v.dec.phase = .done
  have hset := dBegin_setup n (s.setDec { s.dec with bpp := b })
  have hdok := dBegin_decOk n (s := s.setDec { s.dec with bpp := b }) hb
  have hcl : (dBegin n (s.setDec { s.dec with bpp := b })).codeLast = s.codeLast := hset.codeLast
  have hcap := s.codeLast.isLt
  unfold State.codeCap at hn
  unfold dInit at hu
  generalize dBegin n (s.setDec { s.dec with bpp := b }) = d at *
  have hlen : d.cr.len.toNat = n := by rw [hset.len, BitVec.toNat_ofNat, Nat.mod_eq_of_lt (by omega)]
  have hdc : d.CrOk := by
    refine ⟨?_, by rw [hset.bitpos]; exact Nat.zero_le _⟩
    unfold State.codeCap
    rw [hlen, hcl]
    exact hn
  split at hu
  · cases hu
  · rename_i r x hr
    split at hu
    · cases hu
    · obtain rfl := Except.ok.inj hu
      have hx := crRead_dec hr
      have hxl := (crRead_some hr).2.2.2.2
      have hxc := crRead_crOk hr hdc
      have hxok : x.DecOk := hdok.congr (by rw [hx]) (by rw [hx]) (by rw [hx]) (by rw [hx]) (by rw [hx]) (by rw [hx])
      refine dLoop_done (s := x.setDec { x.dec with phase := .first }) (hxok.congr rfl rfl rfl rfl rfl rfl)
        ⟨hxc.len, hxc.bitpos⟩ (Or.inl rfl) ?_ hv
      show 8 * x.cr.len.toNat + 2 ≤ x.cr.bitpos.toNat + 2 * (4 * n + 1)
      rw [hxl, hlen]
      omega

/-! ## The errors of a run (R192) -/

/-- The errors R192 lists for the loop of a run. -/
def loopError (k : ErrorKind) : Prop :=
  k = .notAPixel ∨ k = .undefinedEntry ∨ k = .expansionOverflow ∨ k = .pixOverflow

theorem dEmit_error {p : Byte} {s : State} {r : Raise} (h : dEmit p s = .error r) : r.kind = .pixOverflow := by
  unfold dEmit at h
  split at h
  · obtain rfl := Except.error.inj h
    rfl
  · cases h

theorem dEmitSeq_error {ps : List Byte} {s : State} {r : Raise} (h : dEmitSeq ps s = .error r) :
    r.kind = .pixOverflow := by
  induction ps generalizing s with
  | nil => cases h
  | cons p ps ih =>
    rcases bind_error_iff.mp h with h | ⟨u, -, h⟩
    · exact dEmit_error h
    · exact ih h

theorem expandFrom_error {k0 : BitVec 12} {room : Nat} {k : BitVec 12} {s : State} {r : Raise}
    (h : expandFrom k0 room k s = .error r) : r.kind = .undefinedEntry ∨ r.kind = .expansionOverflow := by
  induction room generalizing k s with
  | zero =>
    unfold expandFrom at h
    split at h <;> obtain rfl := Except.error.inj h
    · exact Or.inl rfl
    · exact Or.inr rfl
  | succ room ih =>
    unfold expandFrom at h
    split at h
    · cases h
    · split at h
      · obtain rfl := Except.error.inj h
        exact Or.inl rfl
      · exact ih h

theorem expand_error {k0 : BitVec 12} {s : State} {r : Raise} (h : expand k0 s = .error r) :
    r.kind = .undefinedEntry ∨ r.kind = .expansionOverflow := by
  rcases bind_error_iff.mp h with h | ⟨u, -, h⟩
  · exact expandFrom_error h
  · cases h

theorem dFirst_error {c : BitVec 12} {s : State} {r : Raise} (h : dFirst c s = .error r) : loopError r.kind := by
  unfold dFirst at h
  split at h
  · obtain rfl := Except.error.inj h
    exact Or.inl rfl
  · rcases bind_error_iff.mp h with h | ⟨u, -, h⟩
    · exact Or.inr (Or.inr (Or.inr (dEmit_error h)))
    · cases h

theorem dClear_error {s : State} {r : Raise} (h : dClear s = .error r) : loopError r.kind := by
  unfold dClear at h
  split at h
  · cases h
  · split at h
    · obtain rfl := Except.error.inj h
      exact Or.inl rfl
    · rcases bind_error_iff.mp h with h | ⟨u, -, h⟩
      · exact Or.inr (Or.inr (Or.inr (dEmit_error h)))
      · cases h

theorem dCode_error {c : BitVec 12} {s : State} {r : Raise} (h : dCode c s = .error r) : loopError r.kind := by
  rcases bind_error_iff.mp h with h | ⟨⟨ps, u⟩, -, h⟩
  · rcases expand_error h with h | h
    · exact Or.inr (Or.inl h)
    · exact Or.inr (Or.inr (Or.inl h))
  · rcases bind_error_iff.mp h with h | ⟨v, -, h⟩
    · exact Or.inr (Or.inr (Or.inr (dEmitSeq_error h)))
    · rcases bind_error_iff.mp h with h | ⟨w, -, h⟩
      · unfold dRepeat at h
        split at h
        · cases h
        · exact Or.inr (Or.inr (Or.inr (dEmit_error h)))
      · cases h

theorem dStep_error {s : State} {r : Raise} (h : dStep s = .error r) : loopError r.kind := by
  unfold dStep at h
  split at h
  · cases h
  · split at h
    · cases h
    · rcases bind_error_iff.mp h with h | ⟨u, -, h⟩
      · unfold dHandle at h
        split at h
        · exact dClear_error h
        · split at h
          · exact dFirst_error h
          · exact dCode_error h
      · cases h

theorem dLoop_error {k : Nat} {s : State} {r : Raise} (h : dLoop k s = .error r) : loopError r.kind := by
  induction k generalizing s with
  | zero => cases h
  | succ k ih =>
    unfold dLoop at h
    split at h
    · rcases bind_error_iff.mp h with h | ⟨u, -, h⟩
      · exact dStep_error h
      · exact ih h
    · cases h

/-- Every error of a run after its operand checks is one of R192's. -/
theorem decRun_error {b : BitVec 4} {n : Nat} {s : State} {r : Raise} (h : decRun b n s = .error r) :
    r.kind = .noMoreCode ∨ r.kind = .notAClearCode ∨ loopError r.kind := by
  rcases bind_error_iff.mp h with h | ⟨u, -, h⟩
  · unfold dInit at h
    split at h
    · obtain rfl := Except.error.inj h
      exact Or.inl rfl
    · split at h
      · obtain rfl := Except.error.inj h
        exact Or.inr (Or.inl rfl)
      · cases h
  · rcases bind_error_iff.mp h with h | ⟨v, -, h⟩
    · exact Or.inr (Or.inr (dLoop_error h))
    · cases h

end Sys2Proof.Machine
end

