-- ==== Sys2Proof/Laws/StringTable.lean ====
section
/-! SUPPORT. The laws of the string table: where a probe ends, that it visits every slot, and that a table with a free slot
never raises TABLE_FULL. -/

namespace Sys2Proof.Machine

theorem probeSlot_zero (h : BitVec 12) : probeSlot h 0 = h := by simp [probeSlot]

theorem probeSlot_succ (h : BitVec 12) (k : Nat) : probeSlot (stNext h) k = probeSlot h (k + 1) := by
  apply BitVec.eq_of_toNat_eq
  simp only [probeSlot, stNext, Config.probeStride, BitVec.toNat_ofNat, BitVec.toNat_add]
  omega

/-- 601 is odd, so its multiples reach every slot (R142): 1513 is its inverse modulo 4096. -/
theorem probeSlot_surjective (h i : BitVec 12) : ∃ k < Config.stSlots, probeSlot h k = i := by
  refine ⟨(1513 * (i.toNat + 4096 - h.toNat)) % 4096, Nat.mod_lt _ (by decide), ?_⟩
  apply BitVec.eq_of_toNat_eq
  simp only [probeSlot, Config.probeStride, BitVec.toNat_ofNat]
  have := h.isLt
  have := i.isLt
  omega

/-- No two probes of a sequence meet (R142). -/
theorem probeSlot_injective {h : BitVec 12} {j k : Nat} (hj : j < Config.stSlots) (hk : k < Config.stSlots)
    (e : probeSlot h j = probeSlot h k) : j = k := by
  have e := congrArg BitVec.toNat e
  simp only [probeSlot, BitVec.toNat_ofNat] at e
  have := h.isLt
  simp only [Config.stSlots, Config.probeStride] at *
  omega

/-- Where a probe ends: at the first slot that is empty or holds the key. -/
theorem stProbeFrom_found {pre : BitVec 12} {suf : BitVec 8} {s : State} {n k : Nat} {h : BitVec 12} (hk : k < n)
    (hpass : ∀ j < k, s.otherKey pre suf (probeSlot h j)) (hstop : ¬ s.otherKey pre suf (probeSlot h k)) :
    stProbeFrom pre suf s n h = some ((s.readSlot (probeSlot h k)).code, probeSlot h k) := by
  induction n generalizing h k with
  | zero => omega
  | succ n ih =>
    cases k with
    | zero =>
      rw [probeSlot_zero] at hstop ⊢
      simp only [stProbeFrom]
      split
      · rename_i h0
        rw [h0]
      · rename_i h0
        rw [if_pos (by_contra fun hc => hstop ⟨h0, hc⟩)]
    | succ k =>
      have h0 := hpass 0 (Nat.succ_pos k)
      rw [probeSlot_zero] at h0
      simp only [stProbeFrom, if_neg h0.1, if_neg h0.2]
      rw [← probeSlot_succ] at hstop ⊢
      exact ih (Nat.lt_of_succ_lt_succ hk) (fun j hj => by
        rw [probeSlot_succ]
        exact hpass (j + 1) (Nat.succ_lt_succ hj)) hstop

theorem stProbeFrom_full {pre : BitVec 12} {suf : BitVec 8} {s : State} {n : Nat} {h : BitVec 12}
    (hpass : ∀ j < n, s.otherKey pre suf (probeSlot h j)) : stProbeFrom pre suf s n h = none := by
  induction n generalizing h with
  | zero => rfl
  | succ n ih =>
    have h0 := hpass 0 (Nat.succ_pos n)
    rw [probeSlot_zero] at h0
    simp only [stProbeFrom, if_neg h0.1, if_neg h0.2]
    exact ih fun j hj => by
      rw [probeSlot_succ]
      exact hpass (j + 1) (Nat.succ_lt_succ hj)

/-- A probe either passes over all 4096 slots, or ends at its first slot that is empty or holds the key (R143). -/
theorem stProbe_cases (pre : BitVec 12) (suf : BitVec 8) (s : State) :
    ((∀ i, s.otherKey pre suf i) ∧ stProbe pre suf s = none) ∨
    ∃ k < Config.stSlots, (∀ j < k, s.otherKey pre suf (probeSlot (stHash pre suf) j)) ∧
      ¬ s.otherKey pre suf (probeSlot (stHash pre suf) k) ∧
      stProbe pre suf s = some ((s.readSlot (probeSlot (stHash pre suf) k)).code, probeSlot (stHash pre suf) k) := by
  classical
  by_cases h : ∃ k < Config.stSlots, ¬ s.otherKey pre suf (probeSlot (stHash pre suf) k)
  · right
    obtain ⟨hk, hstop⟩ := Nat.find_spec h
    have hpass : ∀ j < Nat.find h, s.otherKey pre suf (probeSlot (stHash pre suf) j) := fun j hj => by
      by_contra hc
      exact Nat.find_min h hj ⟨by omega, hc⟩
    exact ⟨Nat.find h, hk, hpass, hstop, stProbeFrom_found hk hpass hstop⟩
  · left
    have hall : ∀ j < Config.stSlots, s.otherKey pre suf (probeSlot (stHash pre suf) j) := fun j hj => by
      by_contra hc
      exact h ⟨j, hj, hc⟩
    refine ⟨fun i => ?_, stProbeFrom_full hall⟩
    obtain ⟨k, hk, rfl⟩ := probeSlot_surjective (stHash pre suf) i
    exact hall k hk

/-! ## A table with room -/

theorem Cells.length_write_le {α : Type} [DecidableEq α] {default : α} (m : Cells α) (a : Nat) (v : α) :
    (Cells.write default m a v).length ≤ m.length + 1 := by
  induction m with
  | nil =>
    simp only [Cells.write]
    split <;> simp
  | cons c m ih =>
    obtain ⟨k, w⟩ := c
    simp only [Cells.write]
    split
    · split <;> simp
    · split
      · split <;> simp only [List.length_cons] <;> omega
      · simp only [List.length_cons]
        omega

/-- A value read other than the default is listed. -/
theorem Cells.mem_of_read_ne {α : Type} {default : α} {m : Cells α} {a : Nat} (h : Cells.read default m a ≠ default) :
    a ∈ m.map Prod.fst := by
  induction m with
  | nil => exact absurd rfl h
  | cons c m ih =>
    obtain ⟨k, w⟩ := c
    simp only [Cells.read] at h
    split at h
    · rename_i e
      simp [e]
    · exact List.mem_cons_of_mem _ (ih h)

/-- A table that lists fewer than 4096 slots has an empty one, so no probe of it raises TABLE_FULL (R149). -/
theorem stProbe_isSome {pre : BitVec 12} {suf : BitVec 8} {s : State} (h : s.st.length < Config.stSlots) :
    ∃ r, stProbe pre suf s = some r := by
  rcases stProbe_cases pre suf s with ⟨hall, -⟩ | ⟨k, -, -, -, hk⟩
  · exfalso
    have hsub : Finset.range Config.stSlots ⊆ (s.st.map Prod.fst).toFinset := by
      intro a ha
      have ha : a < 4096 := Finset.mem_range.mp ha
      have hne := (hall (BitVec.ofNat 12 a)).1
      have hr : (BitVec.ofNat 12 a).toNat = a := by
        rw [BitVec.toNat_ofNat]
        omega
      simp only [State.readSlot, hr] at hne
      refine List.mem_toFinset.mpr (Cells.mem_of_read_ne (default := StSlot.empty) fun e => hne ?_)
      rw [e]
      rfl
    have := (Finset.card_le_card hsub).trans (List.toFinset_card_le _)
    simp only [Finset.card_range, List.length_map] at this
    omega
  · exact ⟨_, hk⟩

end Sys2Proof.Machine
end

