-- ==== Sys2Proof/Laws/Encoder.lean ====
section
/-! SUPPORT. The laws of the encoder: what a run that succeeds leaves alone, the session invariant of R34, and that a run
with valid pixels and enough room in CODEMEM ends without an error. -/

namespace Sys2Proof.Machine

/-! ## What a micro-step that succeeds leaves alone -/

/-- What the encoder's micro-steps do to the rest of the state: CW, CODEMEM, ST and the ENC_* registers alone change, and
CODEMEM keeps its bytes outside the completed ones. -/
structure EncFrame (s t : State) : Prop where
  eq : t = { s with cw := t.cw, codemem := t.codemem, st := t.st, enc := t.enc }
  mono : s.cw.ptr.toNat ≤ t.cw.ptr.toNat
  outside : ∀ a, a < s.cw.ptr.toNat ∨ t.cw.ptr.toNat ≤ a → t.readCode a = s.readCode a
  memOk : s.MemOk → t.MemOk
  bound : s.cw.ptr.toNat ≤ s.codeCap → t.cw.ptr.toNat ≤ t.codeCap

theorem EncFrame.trans {s t u : State} (h : EncFrame s t) (h' : EncFrame t u) : EncFrame s u where
  eq := by rw [h'.eq, h.eq]
  mono := Nat.le_trans h.mono h'.mono
  outside := fun a ha => by
    have := h.mono
    have := h'.mono
    rw [h'.outside a (by omega), h.outside a (by omega)]
  memOk := fun hm => h'.memOk (h.memOk hm)
  bound := fun hb => h'.bound (h.bound hb)

theorem CwFrame.toEnc {s t : State} (h : CwFrame s t) : EncFrame s t :=
  ⟨by rw [h.eq], h.mono, h.outside, h.memOk, h.bound⟩

theorem EncFrame.setEnc (s : State) (e : EncRegs) : EncFrame s (s.setEnc e) :=
  ⟨rfl, Nat.le_refl _, fun _ _ => rfl, fun h => ⟨h.pixmem, h.codemem, h.st, h.dt, h.xstack⟩, id⟩

theorem EncFrame.stWrite (i p : BitVec 12) (f : BitVec 8) (c : BitVec 12) (s : State) :
    EncFrame s (stWrite i p f c s) :=
  ⟨rfl, Nat.le_refl _, fun _ _ => rfl,
    fun h => ⟨h.pixmem, h.codemem, Cells.write_wf h.st i.isLt, h.dt, h.xstack⟩, id⟩

theorem EncFrame.initSession (s : State) : EncFrame s (encInitSession s) :=
  ⟨rfl, Nat.le_refl _, fun _ _ => rfl, fun h => ⟨h.pixmem, h.codemem, Cells.wf_nil, h.dt, h.xstack⟩, id⟩

theorem eEmit_frame {c : Nat} {s t : State} (h : eEmit c s = .ok t) : EncFrame s t := by
  obtain ⟨u, hu, h⟩ := bind_ok_iff.mp h
  obtain rfl := Except.ok.inj h
  exact (cwWrite_frame hu).toEnc.trans (EncFrame.setEnc u _)

/-- A code written leaves the session and the run registers alone but for ENC_NCODES. -/
theorem eEmit_enc {c : Nat} {s t : State} (h : eEmit c s = .ok t) :
    t.enc = { s.enc with ncodes := s.enc.ncodes + 1#32 } ∧ t.st = s.st ∧ t.pixmem = s.pixmem := by
  obtain ⟨u, hu, h⟩ := bind_ok_iff.mp h
  obtain rfl := Except.ok.inj h
  have he := (cwWrite_frame hu).eq
  have : u.enc = s.enc := by rw [he]
  exact ⟨by rw [← this]; rfl, by show u.st = _; rw [he], by show u.pixmem = _; rw [he]⟩

theorem eGrow_frame (s : State) : EncFrame s (eGrow s) := by
  unfold eGrow
  split
  · exact EncFrame.setEnc _ _
  · exact (CwFrame.refl _).toEnc

theorem eInsert_frame (p : Byte) (i : BitVec 12) (s : State) : EncFrame s (eInsert p i s) :=
  ((EncFrame.stWrite i s.enc.cur p (s.enc.next.setWidth 12) s).trans (EncFrame.setEnc _ _)).trans (eGrow_frame _)

theorem eExtend_frame {p : Byte} {i : BitVec 12} {s t : State} (h : eExtend p i s = .ok t) : EncFrame s t := by
  unfold eExtend at h
  split at h
  · obtain rfl := Except.ok.inj h
    exact eInsert_frame p i s
  · obtain ⟨u, hu, h⟩ := bind_ok_iff.mp h
    obtain rfl := Except.ok.inj h
    exact (eEmit_frame hu).trans (EncFrame.initSession u)

theorem eMiss_frame {p : Byte} {i : BitVec 12} {s t : State} (h : eMiss p i s = .ok t) : EncFrame s t := by
  obtain ⟨u, hu, h⟩ := bind_ok_iff.mp h
  obtain ⟨v, hv, h⟩ := bind_ok_iff.mp h
  obtain rfl := Except.ok.inj h
  exact (eEmit_frame hu).trans ((eExtend_frame hv).trans (EncFrame.setEnc v _))

theorem eLookup_frame {c : BitVec 12} {p : Byte} {i : BitVec 12} {s t : State} (h : eLookup c p i s = .ok t) :
    EncFrame s t := by
  unfold eLookup at h
  split at h
  · obtain rfl := Except.ok.inj h
    exact EncFrame.setEnc s _
  · exact eMiss_frame h

theorem eStep_frame {s t : State} (h : eStep s = .ok t) : EncFrame s t := by
  unfold eStep at h
  split at h
  · cases h
  · split at h
    · cases h
    · obtain ⟨u, hu, h⟩ := bind_ok_iff.mp h
      obtain rfl := Except.ok.inj h
      exact (eLookup_frame hu).trans (EncFrame.setEnc u _)

theorem eLoop_frame {k : Nat} {s t : State} (h : eLoop k s = .ok t) : EncFrame s t := by
  induction k generalizing s with
  | zero =>
    obtain rfl := Except.ok.inj h
    exact (CwFrame.refl _).toEnc
  | succ k ih =>
    unfold eLoop at h
    split at h
    · obtain ⟨u, hu, h⟩ := bind_ok_iff.mp h
      exact (eStep_frame hu).trans (ih h)
    · obtain rfl := Except.ok.inj h
      exact (CwFrame.refl _).toEnc

/-- The loop leaves ENC_N alone. -/
theorem eLookup_n {c : BitVec 12} {p : Byte} {i : BitVec 12} {s t : State} (h : eLookup c p i s = .ok t) :
    t.enc.n = s.enc.n := by
  unfold eLookup at h
  split at h
  · obtain rfl := Except.ok.inj h
    rfl
  · obtain ⟨u, hu, h⟩ := bind_ok_iff.mp h
    obtain ⟨v, hv, h⟩ := bind_ok_iff.mp h
    obtain rfl := Except.ok.inj h
    have hun : u.enc.n = s.enc.n := by rw [(eEmit_enc hu).1]
    refine Eq.trans ?_ hun
    show v.enc.n = _
    unfold eExtend at hv
    split at hv
    · obtain rfl := Except.ok.inj hv
      unfold eInsert eGrow
      split <;> rfl
    · obtain ⟨w, hw, hv⟩ := bind_ok_iff.mp hv
      obtain rfl := Except.ok.inj hv
      show w.enc.n = _
      rw [(eEmit_enc hw).1]

theorem eLoop_n {k : Nat} {s t : State} (h : eLoop k s = .ok t) : t.enc.n = s.enc.n := by
  induction k generalizing s with
  | zero => rw [Except.ok.inj h]
  | succ k ih =>
    unfold eLoop at h
    split at h
    · obtain ⟨u, hu, h⟩ := bind_ok_iff.mp h
      rw [ih h]
      unfold eStep at hu
      split at hu
      · cases hu
      · split at hu
        · cases hu
        · obtain ⟨v, hv, hu⟩ := bind_ok_iff.mp hu
          obtain rfl := Except.ok.inj hu
          have := eLookup_n hv
          exact this
    · rw [Except.ok.inj h]

theorem eFinish_frame {s t : State} (h : eFinish s = .ok t) : EncFrame s t := by
  unfold eFinish at h
  split at h
  · obtain rfl := Except.ok.inj h
    exact (CwFrame.refl _).toEnc
  · obtain ⟨u, hu, h⟩ := bind_ok_iff.mp h
    obtain ⟨v, hv, h⟩ := bind_ok_iff.mp h
    exact (eEmit_frame hu).trans ((eEmit_frame hv).trans (cwEnd_frame h).toEnc)

/-- Nothing is pending after E_FINISH, nor after E_INIT for no pixel at all. -/
theorem eFinish_clean {s t : State} (h : eFinish s = .ok t) (h0 : s.enc.n = 0#25 → s.cw.cnt = 0#4 ∧ s.cw.acc = 0) :
    t.cw.cnt = 0#4 ∧ t.cw.acc = 0 := by
  unfold eFinish at h
  split at h
  · rename_i hn
    obtain rfl := Except.ok.inj h
    exact h0 hn
  · obtain ⟨u, hu, h⟩ := bind_ok_iff.mp h
    obtain ⟨v, hv, h⟩ := bind_ok_iff.mp h
    exact cwEnd_clean h

theorem eInit_clean {s t : State} (h : eInit s = .ok t) (hn : t.enc.n = 0#25) : t.cw.cnt = 0#4 ∧ t.cw.acc = 0 := by
  obtain ⟨u, hu, h⟩ := bind_ok_iff.mp h
  split at h
  · obtain ⟨v, hv, h⟩ := bind_ok_iff.mp h
    obtain ⟨w, hw, h⟩ := bind_ok_iff.mp h
    obtain rfl := Except.ok.inj h
    have := cwEnd_clean hw
    exact this
  · rename_i hu0
    unfold eSeed at h
    split at h
    · cases h
    · obtain rfl := Except.ok.inj h
      exact absurd hn hu0

theorem eInit_frame {s t : State} (h : eInit s = .ok t) : EncFrame (eBegin s) t := by
  obtain ⟨u, hu, h⟩ := bind_ok_iff.mp h
  refine (eEmit_frame hu).trans ?_
  split at h
  · obtain ⟨v, hv, h⟩ := bind_ok_iff.mp h
    obtain ⟨w, hw, h⟩ := bind_ok_iff.mp h
    obtain rfl := Except.ok.inj h
    exact (eEmit_frame hv).trans ((cwEnd_frame hw).toEnc.trans (EncFrame.setEnc w _))
  · unfold eSeed at h
    split at h
    · cases h
    · obtain rfl := Except.ok.inj h
      exact EncFrame.setEnc u _

/-- What the start of a run does to the rest of the state: CW, ST and the ENC_* registers alone change. -/
structure EncSetup (s t : State) : Prop where
  eq : t = { s with cw := t.cw, st := t.st, enc := t.enc }
  memOk : s.MemOk → t.MemOk

theorem EncSetup.trans {s t u : State} (h : EncSetup s t) (h' : EncSetup t u) : EncSetup s u :=
  ⟨by rw [h'.eq, h.eq], fun hm => h'.memOk (h.memOk hm)⟩

theorem EncSetup.codeLast {s t : State} (h : EncSetup s t) : t.codeLast = s.codeLast := by rw [h.eq]

theorem EncSetup.pixmem {s t : State} (h : EncSetup s t) : t.pixmem = s.pixmem := by rw [h.eq]

theorem EncSetup.codemem {s t : State} (h : EncSetup s t) : t.codemem = s.codemem := by rw [h.eq]

theorem EncSetup.setEnc (s : State) (e : EncRegs) : EncSetup s (s.setEnc e) :=
  ⟨rfl, fun h => ⟨h.pixmem, h.codemem, h.st, h.dt, h.xstack⟩⟩

theorem EncSetup.initSession (s : State) : EncSetup s (encInitSession s) :=
  ⟨rfl, fun h => ⟨h.pixmem, h.codemem, Cells.wf_nil, h.dt, h.xstack⟩⟩

theorem EncSetup.cwReset (s : State) : EncSetup s (cwReset s) :=
  ⟨rfl, fun h => ⟨h.pixmem, h.codemem, h.st, h.dt, h.xstack⟩⟩

theorem eBegin_setup (s : State) : EncSetup s (eBegin s) := by
  unfold eBegin
  exact (EncSetup.setEnc _ _).trans ((EncSetup.initSession _).trans ((EncSetup.cwReset _).trans (EncSetup.setEnc _ _)))

/-- A successful run leaves the writer with nothing pending (R166). -/
theorem encRun_clean {b : BitVec 4} {n : Nat} {s t : State} (h : encRun b n s = .ok t) :
    t.cw.cnt = 0#4 ∧ t.cw.acc = 0 := by
  obtain ⟨u, hu, h⟩ := bind_ok_iff.mp h
  obtain ⟨v, hv, h⟩ := bind_ok_iff.mp h
  obtain ⟨w, hw, h⟩ := bind_ok_iff.mp h
  obtain rfl := Except.ok.inj h
  show w.cw.cnt = 0#4 ∧ w.cw.acc = 0
  refine eFinish_clean hw fun hn => ?_
  have hu0 : u.enc.n = 0#25 → v = u := fun hn => by
    cases n with
    | zero => exact (Except.ok.inj hv).symm
    | succ n =>
      unfold eLoop at hv
      rw [if_neg (by rw [hn]; simp)] at hv
      exact (Except.ok.inj hv).symm
  have hun : u.enc.n = 0#25 := by rw [← eLoop_n hv]; exact hn
  rw [hu0 hun]
  exact eInit_clean hu hun

/-- What a successful run leaves alone (R166): PIXMEM, CR, PA, DT and all of CODEMEM from the end of the stream on. -/
theorem encRun_frame {b : BitVec 4} {n : Nat} {s t : State} (h : encRun b n s = .ok t) :
    t = { s with cw := t.cw, codemem := t.codemem, st := t.st, enc := t.enc, res0 := t.res0, res1 := t.res1 } ∧
      t.res0 = zext64 t.cw.ptr.toNat ∧ t.res1 = zext64 t.enc.ncodes.toNat ∧
      (∀ a, t.cw.ptr.toNat ≤ a → t.readCode a = s.readCode a) ∧ (s.MemOk → t.MemOk) ∧ t.CwOk := by
  have hclean := encRun_clean h
  obtain ⟨u, hu, h⟩ := bind_ok_iff.mp h
  obtain ⟨v, hv, h⟩ := bind_ok_iff.mp h
  obtain ⟨w, hw, h⟩ := bind_ok_iff.mp h
  obtain rfl := Except.ok.inj h
  have hf := (eInit_frame hu).trans ((eLoop_frame hv).trans (eFinish_frame hw))
  have hb := (EncSetup.setEnc s _).trans (eBegin_setup (s.setEnc { s.enc with bpp := b, n := BitVec.ofNat 25 n }))
  have hwe : w = { s with cw := w.cw, codemem := w.codemem, st := w.st, enc := w.enc } := by rw [hf.eq, hb.eq]
  have hbc := hb.codemem
  have hr : ∀ a, w.cw.ptr.toNat ≤ a → w.readCode a = s.readCode a := fun a ha => by
    rw [hf.outside a (Or.inr ha), State.readCode, State.readCode, hbc]
  have hm : s.MemOk → w.MemOk := fun h => hf.memOk (hb.memOk h)
  have hp := hf.bound (Nat.zero_le _)
  clear hf hb hu hv hw
  obtain ⟨c, m, st, e, rfl⟩ : ∃ c m st e, w = { s with cw := c, codemem := m, st := st, enc := e } :=
    ⟨_, _, _, _, hwe⟩
  refine ⟨rfl, rfl, rfl, hr, fun h => ?_, ⟨hp, ?_, ?_⟩⟩
  · have := hm h
    exact ⟨this.pixmem, this.codemem, this.st, this.dt, this.xstack⟩
  · show c.cnt.toNat < 8
    rw [show c.cnt = 0#4 from hclean.1]
    decide
  · show c.acc.toNat < 2 ^ c.cnt.toNat
    rw [show c.acc = 0 from hclean.2, show c.cnt = 0#4 from hclean.1]
    decide

/-! ## A run with valid pixels and enough room -/

/-- A code written with room for 12 more bits. -/
theorem eEmit_ok (c : Nat) {s : State} (hm : s.MemOk) (hs : s.CwOk) (hw : s.enc.w.toNat ≤ 12)
    (hroom : s.writtenBits + 12 ≤ 8 * s.codeCap) :
    ∃ t, eEmit c s = .ok t ∧
      t = { s with cw := t.cw, codemem := t.codemem, enc := { s.enc with ncodes := s.enc.ncodes + 1#32 } } ∧
      t.MemOk ∧ t.CwOk ∧ t.writtenBits = s.writtenBits + s.enc.w.toNat := by
  have hb : s.writtenBits = 8 * s.cw.ptr.toNat + s.cw.cnt.toNat := rfl
  obtain ⟨t, h1, h2, h3, h4, h5, h6, -⟩ := cwWrite_ok (code := c) hm hs hw (by omega)
  have he : t.enc = s.enc := by rw [h2]
  refine ⟨t.setEnc { t.enc with ncodes := t.enc.ncodes + 1#32 }, ?_, ?_,
    ⟨h3.pixmem, h3.codemem, h3.st, h3.dt, h3.xstack⟩, ⟨h4.ptr, h4.cnt, h4.acc⟩, ?_⟩
  · simp only [eEmit, h1, ok_bind]
  · rw [h2]
    rfl
  · show 8 * t.cw.ptr.toNat + t.cw.cnt.toNat = _
    omega

/-- What holds at every micro-step boundary between E_INIT and E_FINISH: the session invariant of R34, that the table
lists no more slots than the session has inserted (R149), and how many codes have been written (R168). -/
structure EncRun (s : State) : Prop where
  mem : s.MemOk
  cw : s.CwOk
  enc : s.EncOk
  slots : s.st.length + s.enc.clear.toNat + 2 ≤ s.enc.next.toNat
  bits : s.writtenBits ≤ 12 * s.enc.ncodes.toNat
  count : s.enc.ncodes.toNat + 1 ≤ 2 * s.enc.i.toNat
  first : 1 ≤ s.enc.i.toNat
  index : s.enc.i.toNat ≤ s.enc.n.toNat
  length : s.enc.n.toNat ≤ 2 ^ 24

/-- A session that has just been initialised keeps R34, whatever it was before. -/
theorem encInitSession_encOk {s : State} (hb : 1 ≤ s.enc.bpp.toNat ∧ s.enc.bpp.toNat ≤ 8)
    (hc : s.enc.clear.toNat = 2 ^ s.enc.bpp.toNat) (he : s.enc.eoi.toNat = s.enc.clear.toNat + 1) :
    (encInitSession s).EncOk ∧ (encInitSession s).enc.next.toNat = s.enc.clear.toNat + 2 := by
  have hpow : 2 ^ s.enc.bpp.toNat ≤ 2 ^ 8 := Nat.pow_le_pow_right (by decide) hb.2
  have hpow' : 2 ^ 1 ≤ 2 ^ s.enc.bpp.toNat := Nat.pow_le_pow_right (by decide) hb.1
  have hw : (s.enc.bpp + 1#4).toNat = s.enc.bpp.toNat + 1 := by
    rw [BitVec.toNat_add]
    simp only [BitVec.toNat_ofNat]
    omega
  have hl : (BitVec.ofNat 13 (2 ^ (s.enc.bpp.toNat + 1))).toNat = 2 * 2 ^ s.enc.bpp.toNat := by
    rw [BitVec.toNat_ofNat, Nat.pow_succ]
    omega
  have hn : (BitVec.ofNat 13 (s.enc.clear.toNat + 2)).toNat = s.enc.clear.toNat + 2 := by
    rw [BitVec.toNat_ofNat]
    omega
  refine ⟨⟨hb, hc, he, ?_, ?_, ?_, ?_⟩, hn⟩ <;>
    simp only [encInitSession_enc, hw, hl, hn]
  · omega
  · rw [Nat.pow_succ]
    ring
  · omega
  · omega

/-- The width test changes the width and its limit alone, and brings the next free code back under the limit. -/
theorem eGrow_encOk {s : State} (hb : 1 ≤ s.enc.bpp.toNat ∧ s.enc.bpp.toNat ≤ 8)
    (hc : s.enc.clear.toNat = 2 ^ s.enc.bpp.toNat) (he : s.enc.eoi.toNat = s.enc.clear.toNat + 1)
    (hw : s.enc.bpp.toNat + 1 ≤ s.enc.w.toNat ∧ s.enc.w.toNat ≤ 12) (hl : s.enc.limit.toNat = 2 ^ s.enc.w.toNat)
    (hn : s.enc.clear.toNat + 2 ≤ s.enc.next.toNat ∧ s.enc.next.toNat ≤ 4096)
    (hfit : s.enc.next.toNat ≤ s.enc.limit.toNat + 1) :
    (eGrow s).EncOk ∧ (eGrow s).enc = { s.enc with w := (eGrow s).enc.w, limit := (eGrow s).enc.limit } := by
  unfold eGrow
  split
  · rename_i hg
    have hg : s.enc.limit.toNat < s.enc.next.toNat ∧ s.enc.w.toNat < 12 := hg
    have hw1 : (s.enc.w + 1#4).toNat = s.enc.w.toNat + 1 := by
      rw [BitVec.toNat_add]
      simp only [BitVec.toNat_ofNat]
      omega
    have hpow : 2 ^ s.enc.w.toNat ≤ 2 ^ 11 := Nat.pow_le_pow_right (by decide) (by omega)
    have hl1 : (s.enc.limit <<< 1).toNat = 2 * s.enc.limit.toNat := by
      rw [BitVec.toNat_shiftLeft, Nat.shiftLeft_eq, hl]
      omega
    refine ⟨⟨hb, hc, he, ?_, ?_, hn, ?_⟩, rfl⟩ <;> simp only [State.setEnc_enc, hw1, hl1]
    · omega
    · rw [hl, Nat.pow_succ]
      ring
    · have : 1 ≤ 2 ^ s.enc.w.toNat := Nat.one_le_two_pow
      omega
  · rename_i hg
    have hg : ¬ (s.enc.limit.toNat < s.enc.next.toNat ∧ s.enc.w.toNat < 12) := hg
    refine ⟨⟨hb, hc, he, hw, hl, hn, ?_⟩, rfl⟩
    by_cases h12 : s.enc.w.toNat < 12
    · omega
    · have : s.enc.w.toNat = 12 := by omega
      rw [hl, this]
      omega

/-- The insertion of E_Miss keeps R34 and takes the next free code. -/
theorem eInsert_encOk {p : Byte} {i : BitVec 12} {s : State} (h : s.EncOk) (hn : s.enc.next.toNat ≤ Config.maxCode) :
    (eInsert p i s).EncOk ∧ (eInsert p i s).enc.next.toNat = s.enc.next.toNat + 1 ∧
      (eInsert p i s).enc = { s.enc with
        next := (eInsert p i s).enc.next, w := (eInsert p i s).enc.w, limit := (eInsert p i s).enc.limit } := by
  have hn : s.enc.next.toNat ≤ 4095 := hn
  have hnext : (s.enc.next + 1#13).toNat = s.enc.next.toNat + 1 := by
    rw [BitVec.toNat_add]
    simp only [BitVec.toNat_ofNat]
    omega
  have hfit := h.fits
  have hnx := h.next
  have e : (eEnter p i s).enc = { s.enc with next := s.enc.next + 1#13 } := rfl
  obtain ⟨hok, heq⟩ := eGrow_encOk (s := eEnter p i s) h.bpp h.clear h.eoi h.w h.limit
    (by rw [e]; simp only [hnext]; omega) (by rw [e]; simp only [hnext]; omega)
  refine ⟨hok, ?_, ?_⟩ <;> unfold eInsert <;> rw [heq, e]
  exact hnext

theorem eGrow_st (s : State) : (eGrow s).st = s.st := by
  unfold eGrow
  split <;> rfl

theorem eGrow_cw (s : State) : (eGrow s).cw = s.cw := by
  unfold eGrow
  split <;> rfl

theorem eInsert_st_length (p : Byte) (i : BitVec 12) (s : State) : (eInsert p i s).st.length ≤ s.st.length + 1 := by
  unfold eInsert
  rw [eGrow_st]
  exact Cells.length_write_le _ _ _

/-- The resources E_Miss needs and leaves: it writes one code, or two when the table is full. -/
theorem eMiss_ok {p : Byte} {i : BitVec 12} {s : State} (h : EncRun s) (hcap : 3 * s.enc.i.toNat + 3 ≤ s.codeCap) :
    ∃ t, eMiss p i s = .ok t ∧ t.MemOk ∧ t.CwOk ∧ t.EncOk ∧ t.st.length + t.enc.clear.toNat + 2 ≤ t.enc.next.toNat ∧
      t.writtenBits ≤ 12 * t.enc.ncodes.toNat ∧ t.enc.ncodes.toNat ≤ s.enc.ncodes.toNat + 2 ∧
      t.enc.i = s.enc.i ∧ t.enc.n = s.enc.n ∧ t.enc.bpp = s.enc.bpp ∧ t.pixmem = s.pixmem ∧
      t.codeLast = s.codeLast := by
  have hw := h.enc.w
  have hbits := h.bits
  have hcount := h.count
  have hindex := h.index
  have hlen := h.length
  have hslots := h.slots
  obtain ⟨t1, h1, e1, m1, c1, b1⟩ := eEmit_ok s.enc.cur.toNat h.mem h.cw hw.2 (by omega)
  have hn1 : (s.enc.ncodes + 1#32).toNat = s.enc.ncodes.toNat + 1 := by
    rw [BitVec.toNat_add]
    simp only [BitVec.toNat_ofNat]
    omega
  have henc1 : t1.enc = { s.enc with ncodes := s.enc.ncodes + 1#32 } := by rw [e1]
  have hst1 : t1.st = s.st := by rw [e1]
  have hcap1 : t1.codeCap = s.codeCap := by rw [e1]; rfl
  have hok1 : t1.EncOk := by
    have := h.enc
    constructor <;> rw [henc1]
    exacts [this.bpp, this.clear, this.eoi, this.w, this.limit, this.next, this.fits]
  by_cases hnext : t1.enc.next.toNat ≤ Config.maxCode
  · obtain ⟨hok2, hnx2, henc2⟩ := eInsert_encOk (p := p) (i := i) hok1 hnext
    have hst2 := eInsert_st_length p i t1
    have hf2 := eInsert_frame p i t1
    have hcw2 : (eInsert p i t1).cw = t1.cw := eGrow_cw _
    have hmem2 : (eInsert p i t1).MemOk := hf2.memOk m1
    refine ⟨(eInsert p i t1).setEnc { (eInsert p i t1).enc with cur := p.setWidth 12 }, ?_,
      ⟨hmem2.pixmem, hmem2.codemem, hmem2.st, hmem2.dt, hmem2.xstack⟩, ?_, ?_, ?_, ?_, ?_, ?_, ?_, ?_, ?_, ?_⟩
    · simp only [eMiss, h1, ok_bind, eExtend, if_pos hnext]
    · have hc : (eInsert p i t1).codeCap = t1.codeCap := by
        rw [hf2.eq]
        rfl
      refine ⟨?_, ?_, ?_⟩ <;> simp only [State.setEnc_cw, hcw2]
      · show t1.cw.ptr.toNat ≤ (eInsert p i t1).codeCap
        rw [hc]
        exact c1.ptr
      · exact c1.cnt
      · exact c1.acc
    · exact ⟨hok2.bpp, hok2.clear, hok2.eoi, hok2.w, hok2.limit, hok2.next, hok2.fits⟩
    · show (eInsert p i t1).st.length + (eInsert p i t1).enc.clear.toNat + 2 ≤ (eInsert p i t1).enc.next.toNat
      rw [hnx2, henc2]
      show _ + t1.enc.clear.toNat + 2 ≤ _
      rw [hst1] at hst2
      rw [henc1]
      show _ + s.enc.clear.toNat + 2 ≤ s.enc.next.toNat + 1
      omega
    · show 8 * (eInsert p i t1).cw.ptr.toNat + (eInsert p i t1).cw.cnt.toNat ≤ 12 * (eInsert p i t1).enc.ncodes.toNat
      rw [hcw2, henc2]
      show t1.writtenBits ≤ 12 * t1.enc.ncodes.toNat
      rw [b1, henc1]
      show _ ≤ 12 * (s.enc.ncodes + 1#32).toNat
      omega
    · show (eInsert p i t1).enc.ncodes.toNat ≤ _
      rw [henc2]
      show t1.enc.ncodes.toNat ≤ _
      rw [henc1]
      show (s.enc.ncodes + 1#32).toNat ≤ _
      omega
    · show (eInsert p i t1).enc.i = _
      rw [henc2, henc1]
    · show (eInsert p i t1).enc.n = _
      rw [henc2, henc1]
    · show (eInsert p i t1).enc.bpp = _
      rw [henc2, henc1]
    · show (eInsert p i t1).pixmem = _
      rw [hf2.eq, e1]
    · show (eInsert p i t1).codeLast = _
      rw [hf2.eq, e1]
  · have hw1 : t1.enc.w = s.enc.w := by rw [henc1]
    obtain ⟨t2, h2, e2, m2, c2, b2⟩ := eEmit_ok t1.enc.clear.toNat m1 c1 (by rw [hw1]; exact hw.2)
      (by rw [b1, hcap1]; omega)
    have henc2 : t2.enc = { s.enc with ncodes := s.enc.ncodes + 1#32 + 1#32 } := by rw [e2, henc1]
    have hn2 : (s.enc.ncodes + 1#32 + 1#32).toNat = s.enc.ncodes.toNat + 2 := by
      rw [BitVec.toNat_add, hn1]
      simp only [BitVec.toNat_ofNat]
      omega
    obtain ⟨hok3, hnx3⟩ := encInitSession_encOk (s := t2) (by rw [henc2]; exact h.enc.bpp)
      (by rw [henc2]; exact h.enc.clear) (by rw [henc2]; exact h.enc.eoi)
    have hcap2 : t2.codeCap = s.codeCap := by rw [e2, e1]; rfl
    refine ⟨(encInitSession t2).setEnc { (encInitSession t2).enc with cur := p.setWidth 12 }, ?_,
      ⟨m2.pixmem, m2.codemem, Cells.wf_nil, m2.dt, m2.xstack⟩, ⟨c2.ptr, c2.cnt, c2.acc⟩,
      ⟨hok3.bpp, hok3.clear, hok3.eoi, hok3.w, hok3.limit, hok3.next, hok3.fits⟩, ?_, ?_, ?_, ?_, ?_, ?_, ?_, ?_⟩
    · simp only [eMiss, h1, ok_bind, eExtend, if_neg hnext, eRestart, h2]
    · show ([] : Cells StSlot).length + t2.enc.clear.toNat + 2 ≤ (encInitSession t2).enc.next.toNat
      rw [hnx3]
      simp
    · show t2.writtenBits ≤ 12 * t2.enc.ncodes.toNat
      rw [b2, b1, hw1, henc2]
      show _ ≤ 12 * (s.enc.ncodes + 1#32 + 1#32).toNat
      omega
    · show t2.enc.ncodes.toNat ≤ _
      rw [henc2]
      exact Nat.le_of_eq hn2
    · show t2.enc.i = _
      rw [henc2]
    · show t2.enc.n = _
      rw [henc2]
    · show t2.enc.bpp = _
      rw [henc2]
    · show t2.pixmem = _
      rw [e2, e1]
    · show t2.codeLast = _
      rw [e2, e1]

/-- E_STEP on a valid pixel, with room, raises nothing and keeps what holds between micro-steps. -/
theorem eStep_ok {s : State} (h : EncRun s) (hcap : 3 * s.enc.i.toNat + 3 ≤ s.codeCap)
    (hi : s.enc.i.toNat < s.enc.n.toNat) (hp : (s.readPix s.enc.i.toNat).toNat < 2 ^ s.enc.bpp.toNat) :
    ∃ t, eStep s = .ok t ∧ EncRun t ∧ t.enc.i.toNat = s.enc.i.toNat + 1 ∧ t.enc.n = s.enc.n ∧
      t.enc.bpp = s.enc.bpp ∧ t.pixmem = s.pixmem ∧ t.codeLast = s.codeLast := by
  have hslots := h.slots
  have hnext := h.enc.next
  have hlen := h.length
  have hcount := h.count
  have hp' : ¬ s.enc.clear.toNat ≤ (s.readPix s.enc.i.toNat).toNat := by
    rw [h.enc.clear]
    omega
  obtain ⟨⟨c, j⟩, hprobe⟩ := stProbe_isSome (pre := s.enc.cur) (suf := s.readPix s.enc.i.toNat) (s := s)
    (by show _ < 4096; omega)
  have hi1 : (s.enc.i + 1#25).toNat = s.enc.i.toNat + 1 := by
    rw [BitVec.toNat_add]
    simp only [BitVec.toNat_ofNat]
    omega
  by_cases hc : c ≠ 0#12
  · refine ⟨(s.setEnc { s.enc with cur := c }).setEnc { s.enc with cur := c, i := s.enc.i + 1#25 }, ?_, ?_, hi1, rfl, rfl, rfl, rfl⟩
    · simp only [eStep, if_neg hp', hprobe, eLookup, if_pos hc, ok_bind]
      rfl
    · have he := h.enc
      refine ⟨⟨h.mem.pixmem, h.mem.codemem, h.mem.st, h.mem.dt, h.mem.xstack⟩, ⟨h.cw.ptr, h.cw.cnt, h.cw.acc⟩,
        ⟨he.bpp, he.clear, he.eoi, he.w, he.limit, he.next, he.fits⟩, h.slots, h.bits, ?_, ?_, ?_, h.length⟩ <;>
        simp only [State.setEnc_enc, hi1] <;> omega
  · obtain ⟨t, ht, hm, hcw, he, hsl, hb, hnc, hit, hnt, hbt, hpix, hcl⟩ :=
      eMiss_ok (p := s.readPix s.enc.i.toNat) (i := j) h hcap
    have hi2 : (t.enc.i + 1#25).toNat = s.enc.i.toNat + 1 := by rw [hit, hi1]
    refine ⟨t.setEnc { t.enc with i := t.enc.i + 1#25 }, ?_, ?_, hi2, hnt, hbt, hpix, hcl⟩
    · simp only [eStep, if_neg hp', hprobe, eLookup, if_neg hc, ht, ok_bind]
    · refine ⟨⟨hm.pixmem, hm.codemem, hm.st, hm.dt, hm.xstack⟩, ⟨hcw.ptr, hcw.cnt, hcw.acc⟩,
        ⟨he.bpp, he.clear, he.eoi, he.w, he.limit, he.next, he.fits⟩, hsl, hb, ?_, ?_, ?_, ?_⟩ <;>
        simp only [State.setEnc_enc, hi2, hnt] <;> omega

/-- The loop of ENC_RUN over valid pixels. -/
theorem eLoop_ok (k : Nat) {s : State} (h : EncRun s) (hcap : 3 * s.enc.n.toNat + 3 ≤ s.codeCap)
    (hk : s.enc.n.toNat ≤ s.enc.i.toNat + k)
    (hp : ∀ a, s.enc.i.toNat ≤ a → a < s.enc.n.toNat → (s.readPix a).toNat < 2 ^ s.enc.bpp.toNat) :
    ∃ t, eLoop k s = .ok t ∧ EncRun t ∧ t.enc.i = t.enc.n ∧ t.enc.n = s.enc.n ∧ t.codeLast = s.codeLast := by
  have hindex := h.index
  induction k generalizing s with
  | zero => exact ⟨s, rfl, h, BitVec.eq_of_toNat_eq (by omega), rfl, rfl⟩
  | succ k ih =>
    by_cases hi : s.enc.i.toNat < s.enc.n.toNat
    · obtain ⟨t, ht, hr, hit, hnt, hbt, hpix, hcl⟩ := eStep_ok h (by omega) hi (hp _ (Nat.le_refl _) hi)
      have hcap' : t.codeCap = s.codeCap := by simp only [State.codeCap, hcl]
      obtain ⟨u, hu, hru, hiu, hnu, hcu⟩ := ih hr (by rw [hnt, hcap']; exact hcap) (by rw [hnt]; omega) (by
        intro a ha ha'
        rw [hbt]
        have := hp a (by omega) (by rw [← hnt]; exact ha')
        simpa only [State.readPix, hpix] using this) hr.index
      refine ⟨u, ?_, hru, hiu, by rw [hnu, hnt], by rw [hcu, hcl]⟩
      simp only [eLoop, if_pos hi, ht, ok_bind, hu]
    · exact ⟨s, by simp only [eLoop, if_neg hi], h, BitVec.eq_of_toNat_eq (by omega), rfl, rfl⟩

/-- The session and the writer at the start of a run: R34 holds, nothing is written and no slot is occupied. -/
theorem eBegin_ok {s : State} (hm : s.MemOk) (hb : 1 ≤ s.enc.bpp.toNat ∧ s.enc.bpp.toNat ≤ 8) :
    (eBegin s).MemOk ∧ (eBegin s).CwOk ∧ (eBegin s).EncOk ∧ (eBegin s).enc.w.toNat = s.enc.bpp.toNat + 1 ∧
      (eBegin s).writtenBits = 0 ∧ (eBegin s).st = [] ∧ (eBegin s).enc.ncodes = 0#32 ∧
      (eBegin s).enc.n = s.enc.n ∧ (eBegin s).enc.bpp = s.enc.bpp := by
  have hpow : 2 ^ s.enc.bpp.toNat ≤ 2 ^ 8 := Nat.pow_le_pow_right (by decide) hb.2
  have hc : (BitVec.ofNat 9 (2 ^ s.enc.bpp.toNat)).toNat = 2 ^ s.enc.bpp.toNat := by
    rw [BitVec.toNat_ofNat, Nat.mod_eq_of_lt (by omega)]
  have he : (BitVec.ofNat 9 (2 ^ s.enc.bpp.toNat + 1)).toNat = 2 ^ s.enc.bpp.toNat + 1 := by
    rw [BitVec.toNat_ofNat, Nat.mod_eq_of_lt (by omega)]
  have hw : (s.enc.bpp + 1#4).toNat = s.enc.bpp.toNat + 1 := by
    rw [BitVec.toNat_add]
    simp only [BitVec.toNat_ofNat]
    omega
  obtain ⟨h, hn⟩ := encInitSession_encOk (s := s.setEnc { s.enc with
    clear := BitVec.ofNat 9 (2 ^ s.enc.bpp.toNat), eoi := BitVec.ofNat 9 (2 ^ s.enc.bpp.toNat + 1) }) hb hc
    (by show (BitVec.ofNat 9 (2 ^ s.enc.bpp.toNat + 1)).toNat = (BitVec.ofNat 9 (2 ^ s.enc.bpp.toNat)).toNat + 1
        rw [hc, he])
  refine ⟨(eBegin_setup s).memOk hm, ⟨Nat.zero_le _, (by decide : (0#4).toNat < 8),
    (by decide : (0#28).toNat < 2 ^ (0#4).toNat)⟩,
    ⟨h.bpp, h.clear, h.eoi, h.w, h.limit, h.next, h.fits⟩, hw, rfl, rfl, rfl, rfl, rfl⟩

/-- E_INIT on a valid first pixel. -/
theorem eInit_ok {s : State} (hm : s.MemOk) (hb : 1 ≤ s.enc.bpp.toNat ∧ s.enc.bpp.toNat ≤ 8)
    (hn : 1 ≤ s.enc.n.toNat) (hlen : s.enc.n.toNat ≤ 2 ^ 24) (hcap : 3 ≤ s.codeCap)
    (hp : (s.readPix 0).toNat < 2 ^ s.enc.bpp.toNat) :
    ∃ t, eInit s = .ok t ∧ EncRun t ∧ t.enc.i = 1#25 ∧ t.enc.n = s.enc.n ∧ t.enc.bpp = s.enc.bpp ∧
      t.pixmem = s.pixmem ∧ t.codeLast = s.codeLast := by
  obtain ⟨m0, c0, e0, w0, b0, st0, k0, n0, bp0⟩ := eBegin_ok hm hb
  have hcl := (eBegin_setup s).codeLast
  have hpm := (eBegin_setup s).pixmem
  have hcc : (eBegin s).codeCap = s.codeCap := by simp only [State.codeCap, hcl]
  unfold eInit
  generalize eBegin s = u at *
  obtain ⟨t, h1, e1, m1, c1, b1⟩ := eEmit_ok u.enc.clear.toNat m0 c0 e0.w.2 (by omega)
  have henc : t.enc = { u.enc with ncodes := u.enc.ncodes + 1#32 } := congrArg State.enc e1
  have hst : t.st = u.st := by rw [e1]
  have hcap1 : t.codeLast = u.codeLast := by rw [e1]
  have hpix : t.pixmem = u.pixmem := by rw [e1]
  have hn0 : ¬ t.enc.n = 0#25 := by
    rw [henc]
    show ¬ u.enc.n = 0#25
    rw [n0]
    intro e
    rw [e] at hn
    exact absurd hn (by decide)
  have hr : t.readPix 0 = s.readPix 0 := by simp only [State.readPix, hpix, hpm]
  have hc : ¬ t.enc.clear.toNat ≤ (t.readPix 0).toNat := by
    rw [henc, hr]
    show ¬ u.enc.clear.toNat ≤ _
    rw [e0.clear, bp0]
    omega
  refine ⟨t.setEnc { t.enc with cur := (t.readPix 0).setWidth 12, i := 1#25 }, ?_, ?_, rfl, ?_, ?_, ?_, ?_⟩
  · simp only [h1, ok_bind, if_neg hn0, eSeed, if_neg hc]
  · have he : t.EncOk := by
      constructor <;> rw [henc]
      exacts [e0.bpp, e0.clear, e0.eoi, e0.w, e0.limit, e0.next, e0.fits]
    have hk : t.enc.ncodes = 1#32 := by
      rw [henc]
      show u.enc.ncodes + 1#32 = _
      rw [k0]
      rfl
    have hnn : t.enc.n = s.enc.n := by
      rw [henc]
      exact n0
    refine ⟨⟨m1.pixmem, m1.codemem, m1.st, m1.dt, m1.xstack⟩, ⟨c1.ptr, c1.cnt, c1.acc⟩,
      ⟨he.bpp, he.clear, he.eoi, he.w, he.limit, he.next, he.fits⟩, ?_, ?_, ?_, ?_, ?_, ?_⟩
    · show t.st.length + t.enc.clear.toNat + 2 ≤ t.enc.next.toNat
      rw [hst, st0]
      have := he.next.1
      simpa using this
    · show t.writtenBits ≤ 12 * t.enc.ncodes.toNat
      rw [b1, b0, hk]
      have := e0.w.2
      simpa using this
    · show t.enc.ncodes.toNat + 1 ≤ 2 * (1#25).toNat
      rw [hk]
      decide
    · exact Nat.le_refl 1
    · show 1 ≤ t.enc.n.toNat
      rw [hnn]
      exact hn
    · show t.enc.n.toNat ≤ 2 ^ 24
      rw [hnn]
      exact hlen
  · show t.enc.n = _
    rw [henc]
    exact n0
  · show t.enc.bpp = _
    rw [henc]
    exact bp0
  · show t.pixmem = _
    rw [hpix, hpm]
  · show t.codeLast = _
    rw [hcap1, hcl]

/-- E_FINISH after the loop, with room. -/
theorem eFinish_ok {s : State} (h : EncRun s) (hi : s.enc.i = s.enc.n) (hcap : 3 * s.enc.n.toNat + 3 ≤ s.codeCap) :
    ∃ t, eFinish s = .ok t := by
  have hbits := h.bits
  have hcount := h.count
  have hlen := h.length
  have hw := h.enc.w
  rw [hi] at hcount
  obtain ⟨t, h1, e1, m1, c1, b1⟩ := eEmit_ok s.enc.cur.toNat h.mem h.cw hw.2 (by omega)
  have w1 : t.enc.w = s.enc.w := congrArg (fun u => u.enc.w) e1
  have hc1 : t.codeCap = s.codeCap := congrArg (fun u => u.toNat + 1) (congrArg State.codeLast e1)
  obtain ⟨u, h2, e2, m2, c2, b2⟩ := eEmit_ok t.enc.eoi.toNat m1 c1 (by rw [w1]; exact hw.2) (by omega)
  have hc2 : u.codeCap = t.codeCap := congrArg (fun u => u.toNat + 1) (congrArg State.codeLast e2)
  have hwb : u.writtenBits = 8 * u.cw.ptr.toNat + u.cw.cnt.toNat := rfl
  obtain ⟨v, h3, -⟩ := cwEnd_ok m2 c2 (Or.inr (by rw [w1] at b2; omega))
  refine ⟨v, ?_⟩
  unfold eFinish
  have : ¬ s.enc.n = 0#25 := by
    intro e
    have := h.first
    rw [hi, e] at this
    exact absurd this (by decide)
  simp only [if_neg this, h1, ok_bind, h2, h3]

/-- ENC_RUN raises nothing when every pixel fits the depth and CODEMEM has room for two 12-bit codes a pixel and three
bytes more (R168). -/
theorem encRun_ok {b : BitVec 4} {n : Nat} {s : State} (hm : s.MemOk) (hb : legalBpp b) (hn : n ≤ s.pixCap)
    (hcap : 3 * n + 3 ≤ s.codeCap) (hp : ∀ a < n, (s.readPix a).toNat < 2 ^ b.toNat) :
    ∃ t, encRun b n s = .ok t := by
  have hpc : s.pixCap ≤ 2 ^ 24 := by
    have := s.pixLast.isLt
    unfold State.pixCap
    omega
  have hnn : (BitVec.ofNat 25 n).toNat = n := by
    rw [BitVec.toNat_ofNat]
    omega
  have hm0 : (s.setEnc { s.enc with bpp := b, n := BitVec.ofNat 25 n }).MemOk :=
    ⟨hm.pixmem, hm.codemem, hm.st, hm.dt, hm.xstack⟩
  have h : ∃ t, (eInit (s.setEnc { s.enc with bpp := b, n := BitVec.ofNat 25 n }) >>= fun u => eLoop n u >>=
      fun v => eFinish v) = .ok t := by
    generalize hs0 : s.setEnc { s.enc with bpp := b, n := BitVec.ofNat 25 n } = s0 at hm0 ⊢
    have hbpp : s0.enc.bpp = b := by rw [← hs0]; rfl
    have hn0 : s0.enc.n.toNat = n := by rw [← hs0]; exact hnn
    have hc0 : s0.codeCap = s.codeCap := by rw [← hs0]; rfl
    have hp0 : s0.pixmem = s.pixmem := by rw [← hs0]; rfl
    have hb0 : 1 ≤ s0.enc.bpp.toNat ∧ s0.enc.bpp.toNat ≤ 8 := by rw [hbpp]; exact hb
    by_cases hz : n = 0
    · subst hz
      obtain ⟨m0, c0, e0, w0, b0, st0, k0, n0, bp0⟩ := eBegin_ok hm0 hb0
      have hl := (eBegin_setup s0).codeLast
      have hcl : (eBegin s0).codeCap = s0.codeCap := by simp only [State.codeCap, hl]
      unfold eInit
      generalize eBegin s0 = u at *
      obtain ⟨t, h1, e1, m1, c1, b1⟩ := eEmit_ok u.enc.clear.toNat m0 c0 e0.w.2 (by omega)
      have w1 : t.enc.w = u.enc.w := congrArg (fun u => u.enc.w) e1
      have hc1 : t.codeCap = u.codeCap := congrArg (fun u => u.toNat + 1) (congrArg State.codeLast e1)
      have n1 : t.enc.n = 0#25 := by
        have : t.enc.n = u.enc.n := congrArg (fun u => u.enc.n) e1
        rw [this, n0]
        exact BitVec.eq_of_toNat_eq (by rw [hn0]; rfl)
      obtain ⟨v, h2, e2, m2, c2, b2⟩ := eEmit_ok t.enc.eoi.toNat m1 c1 (by rw [w1]; exact e0.w.2) (by omega)
      have hc2 : v.codeCap = t.codeCap := congrArg (fun u => u.toNat + 1) (congrArg State.codeLast e2)
      have hwb : v.writtenBits = 8 * v.cw.ptr.toNat + v.cw.cnt.toNat := rfl
      obtain ⟨x, h3, e3, -⟩ := cwEnd_ok m2 c2 (Or.inr (by rw [w1] at b2; omega))
      have n2 : x.enc.n = 0#25 := by
        have h : x.enc.n = v.enc.n := congrArg (fun u => u.enc.n) e3
        have h' : v.enc.n = t.enc.n := congrArg (fun u => u.enc.n) e2
        rw [h, h', n1]
      refine ⟨x.setEnc { x.enc with i := 0#25 }, ?_⟩
      simp only [h1, ok_bind, if_pos n1, eEmpty, h2, h3, eLoop, eFinish]
      rw [if_pos (by exact n2)]
    · obtain ⟨t, h1, r1, i1, n1, b1, p1, l1⟩ := eInit_ok hm0 hb0 (by omega) (by omega) (by omega) (by
        rw [State.readPix, hp0, hbpp]
        exact hp 0 (by omega))
      have hc1 : t.codeCap = s0.codeCap := by simp only [State.codeCap, l1]
      have hi : t.enc.i.toNat = 1 := by rw [i1]; rfl
      obtain ⟨v, h2, r2, i2, n2, l2⟩ := eLoop_ok n r1 (by rw [n1]; omega) (by rw [n1]; omega) (by
        intro a _ ha
        rw [State.readPix, p1, hp0, b1, hbpp]
        exact hp a (by rw [n1] at ha; omega))
      have hc2 : v.codeCap = t.codeCap := by simp only [State.codeCap, l2]
      obtain ⟨x, h3⟩ := eFinish_ok r2 i2 (by rw [n2, n1]; omega)
      exact ⟨x, by simp only [h1, ok_bind, h2, h3]⟩
  obtain ⟨t, ht⟩ := h
  obtain ⟨u, hu, ht⟩ := bind_ok_iff.mp ht
  obtain ⟨v, hv, ht⟩ := bind_ok_iff.mp ht
  exact ⟨(t.setRes0 (zext64 t.cw.ptr.toNat)).setRes1 (zext64 t.enc.ncodes.toNat), by
    simp only [encRun, hu, ok_bind, hv, ht]⟩

end Sys2Proof.Machine
end

