-- ==== Sys2Proof/Laws/Exec.lean ====
section
/-! SUPPORT. What a command can do to the whole state, said once for every meaning: the host's side and the capacities stay,
the memories keep their canonical form, ERR and ERRINFO take the value of an error or of none, and the code writer and the
code reader stay sound unless the command fails. -/

namespace Sys2Proof.Machine

/-- What every command does to the parts of the state that no result is written to. -/
structure ExecFrame (s t : State) : Prop where
  pixLast : t.pixLast = s.pixLast
  codeLast : t.codeLast = s.codeLast
  cmdLo : t.cmdLo = s.cmdLo
  cmdHi : t.cmdHi = s.cmdHi
  inbox : t.inbox = s.inbox
  reply : t.reply = s.reply
  memOk : s.MemOk → t.MemOk
  err : (t.err = s.err ∧ t.errInfo = s.errInfo) ∨ (t.err = 0#8 ∧ t.errInfo = 0#32) ∨
    ∃ r : Raise, t.err = r.kind.code ∧ t.errInfo = zext32 r.info
  cwOk : s.err ≠ 0#8 ∨ t.err = 0#8 → s.CwOk → t.CwOk
  crOk : s.err ≠ 0#8 ∨ t.err = 0#8 → s.CrOk → t.CrOk

theorem ExecFrame.refl (s : State) : ExecFrame s s :=
  ⟨rfl, rfl, rfl, rfl, rfl, rfl, id, Or.inl ⟨rfl, rfl⟩, fun _ => id, fun _ => id⟩

/-- Error entry (R244). -/
theorem raise_frame (r : Raise) (s : State) : ExecFrame s (raise r s) :=
  ⟨rfl, rfl, rfl, rfl, rfl, rfl, fun h => ⟨h.pixmem, h.codemem, h.st, h.dt, h.xstack⟩, Or.inr (Or.inr ⟨r, rfl, rfl⟩),
    fun _ h => ⟨h.ptr, h.cnt, h.acc⟩, fun _ h => ⟨h.len, h.bitpos⟩⟩

/-- A command that fails while it executes (R246) makes no claim on the writer and the reader. -/
theorem ExecFrame.failed {s t : State} (r : Raise) (hs : s.err = 0#8) (he : t.err = r.kind.code)
    (hi : t.errInfo = zext32 r.info) (hp : t.pixLast = s.pixLast) (hc : t.codeLast = s.codeLast)
    (hl : t.cmdLo = s.cmdLo) (hh : t.cmdHi = s.cmdHi) (hb : t.inbox = s.inbox) (hr : t.reply = s.reply)
    (hm : s.MemOk → t.MemOk) : ExecFrame s t :=
  have hno : ¬ (s.err ≠ 0#8 ∨ t.err = 0#8) := by
    rintro (h | h)
    · exact h hs
    · exact r.kind.code_ne_zero (he ▸ h)
  ⟨hp, hc, hl, hh, hb, hr, hm, Or.inr (Or.inr ⟨r, he, hi⟩), fun h => absurd h hno, fun h => absurd h hno⟩

theorem failCw_frame (r : Raise) {s : State} (hs : s.err = 0#8) : ExecFrame s (failCw r s) :=
  ExecFrame.failed r hs rfl rfl rfl rfl rfl rfl rfl rfl fun h => ⟨h.pixmem, freeMemory_wf h.codemem, h.st, h.dt, h.xstack⟩

theorem failEnc_frame (r : Raise) {s : State} (hs : s.err = 0#8) : ExecFrame s (failEnc r s) :=
  ExecFrame.failed r hs rfl rfl rfl rfl rfl rfl rfl rfl fun h =>
    ⟨h.pixmem, freeMemory_wf h.codemem, freeSt_wf _, h.dt, h.xstack⟩

theorem failDec_frame (r : Raise) {s : State} (hs : s.err = 0#8) : ExecFrame s (failDec r s) :=
  ExecFrame.failed r hs rfl rfl rfl rfl rfl rfl rfl rfl fun h =>
    ⟨freeMemory_wf h.pixmem, h.codemem, h.st, freeDt_wf _, freeMemory_wf (Memory.wf_nil _)⟩

/-- The sticky error passes a frame on (R245). -/
theorem unlessError_frame {s t : State} {o : Outcome} (h : unlessError s o = .next t)
    (ho : s.err = 0#8 → o = .next t → ExecFrame s t) : ExecFrame s t := by
  by_cases he : s.err = 0#8
  · rw [unlessError_ready he] at h
    exact ho he h
  · rw [unlessError_error he] at h
    obtain rfl := Host.Outcome.next.inj h
    exact ExecFrame.refl s

theorem execNop_frame {s t : State} (h : execNop s = .next t) : ExecFrame s t :=
  unlessError_frame h fun _ h => by
    obtain rfl := Host.Outcome.next.inj h
    exact ExecFrame.refl s

theorem execClrerr_frame {s t : State} (h : execClrerr s = .next t) : ExecFrame s t := by
  obtain rfl := Host.Outcome.next.inj h
  exact ⟨rfl, rfl, rfl, rfl, rfl, rfl, fun h => ⟨h.pixmem, h.codemem, h.st, h.dt, h.xstack⟩, Or.inr (Or.inl ⟨rfl, rfl⟩),
    fun _ h => ⟨h.ptr, h.cnt, h.acc⟩, fun _ h => ⟨h.len, h.bitpos⟩⟩

theorem execCwReset_frame {s t : State} (h : execCwReset s = .next t) : ExecFrame s t :=
  unlessError_frame h fun _ h => by
    obtain rfl := Host.Outcome.next.inj h
    exact ⟨rfl, rfl, rfl, rfl, rfl, rfl, fun h => ⟨h.pixmem, h.codemem, h.st, h.dt, h.xstack⟩, Or.inl ⟨rfl, rfl⟩,
      fun _ _ => ⟨Nat.zero_le _, (by decide : (0#4).toNat < 8), (by decide : (0#28).toNat < 2 ^ (0#4).toNat)⟩,
      fun _ h => ⟨h.len, h.bitpos⟩⟩

/-- A write or a flush that succeeds, with its count in RES0. -/
theorem CwFrame.toExec {s t : State} (h : CwFrame s t) (hc : s.CwOk → t.CwOk) (v : Word64) :
    ExecFrame s (t.setRes0 v) := by
  have hm := h.memOk
  have he := h.eq
  generalize t.cw = c, t.codemem = m at he
  subst he
  exact ⟨rfl, rfl, rfl, rfl, rfl, rfl, fun h => ⟨h.pixmem, (hm h).codemem, h.st, h.dt, h.xstack⟩, Or.inl ⟨rfl, rfl⟩,
    fun _ h => ⟨(hc h).ptr, (hc h).cnt, (hc h).acc⟩, fun _ h => ⟨h.len, h.bitpos⟩⟩

/-- A write that succeeds keeps the writer sound. -/
theorem cwWrite_cwOk {code w : Nat} {s t : State} (hw : w ≤ 12) (h : cwWrite code w s = .ok t) (hs : s.CwOk) :
    t.CwOk := by
  have hf := cwWrite_frame h
  have hb := hf.bound hs.ptr
  refine ⟨hb, ?_, ?_⟩
  all_goals
    obtain ⟨u, hu, h⟩ := bind_ok_iff.mp h
    obtain rfl := Except.ok.inj h
  · show (BitVec.ofNat 4 _).toNat < 8
    rw [BitVec.toNat_ofNat]
    omega
  · show u.cw.acc.toNat < 2 ^ (BitVec.ofNat 4 ((s.cw.cnt.toNat + w) % 8)).toNat
    have hlt := cwAppend_lt (code := code) hs hw
    have hacc := cwDrain_acc (s := cwAppend code w s) hu
    rw [BitVec.toNat_ofNat, hacc, BitVec.toNat_ushiftRight, Nat.shiftRight_eq_div_pow,
      Nat.div_lt_iff_lt_mul (Nat.two_pow_pos _), Nat.mod_eq_of_lt (by omega), ← Nat.pow_add]
    rwa [show (s.cw.cnt.toNat + w) % 8 + 8 * ((s.cw.cnt.toNat + w) / 8) = s.cw.cnt.toNat + w by omega]

theorem execCwWrite_frame {code : BitVec 16} {width : BitVec 4} {s t : State} (h : execCwWrite code width s = .next t) :
    ExecFrame s t :=
  unlessError_frame h fun hs h => by
    split at h
    · obtain rfl := Host.Outcome.next.inj h
      exact raise_frame _ s
    · rename_i hw
      split at h <;> obtain rfl := Host.Outcome.next.inj h
      · rename_i u hu _
        exact (cwWrite_frame hu).toExec (cwWrite_cwOk (not_not.mp hw).2 hu) _
      · exact failCw_frame _ hs

theorem execCwEnd_frame {s t : State} (h : execCwEnd s = .next t) : ExecFrame s t :=
  unlessError_frame h fun hs h => by
    split at h <;> obtain rfl := Host.Outcome.next.inj h
    · rename_i u hu _
      refine (cwEnd_frame hu).toExec (fun h => ?_) _
      obtain ⟨h0, h1⟩ := cwEnd_clean hu
      exact ⟨(cwEnd_frame hu).bound h.ptr, by rw [h0]; decide, by rw [h0, h1]; decide⟩
    · exact failCw_frame _ hs

theorem execCrOpen_frame {len : BitVec 32} {s t : State} (h : execCrOpen len s = .next t) : ExecFrame s t :=
  unlessError_frame h fun _ h => by
    split at h
    · obtain rfl := Host.Outcome.next.inj h
      exact raise_frame _ s
    · rename_i hl
      obtain rfl := Host.Outcome.next.inj h
      refine ⟨rfl, rfl, rfl, rfl, rfl, rfl, fun h => ⟨h.pixmem, h.codemem, h.st, h.dt, h.xstack⟩, Or.inl ⟨rfl, rfl⟩,
        fun _ h => ⟨h.ptr, h.cnt, h.acc⟩, fun _ _ => ⟨?_, Nat.zero_le _⟩⟩
      have := codeCap_le s
      show (BitVec.ofNat 25 len.toNat).toNat ≤ s.codeCap
      rw [BitVec.toNat_ofNat]
      omega

theorem execCrRead_frame {width : BitVec 4} {s t : State} (h : execCrRead width s = .next t) : ExecFrame s t :=
  unlessError_frame h fun _ h => by
    split at h
    · obtain rfl := Host.Outcome.next.inj h
      exact raise_frame _ s
    · split at h
      · obtain rfl := Host.Outcome.next.inj h
        exact raise_frame _ s
      · rename_i code u hr
        have hc := crRead_crOk hr
        obtain ⟨-, -, rfl, -⟩ := crRead_some hr
        obtain rfl := Host.Outcome.next.inj h
        rw [crResult_eq]
        exact ⟨rfl, rfl, rfl, rfl, rfl, rfl, fun h => ⟨h.pixmem, h.codemem, h.st, h.dt, h.xstack⟩, Or.inl ⟨rfl, rfl⟩,
          fun _ h => ⟨h.ptr, h.cnt, h.acc⟩, fun _ h => ⟨(hc h).len, (hc h).bitpos⟩⟩

theorem execStReset_frame {s t : State} (h : execStReset s = .next t) : ExecFrame s t :=
  unlessError_frame h fun _ h => by
    obtain rfl := Host.Outcome.next.inj h
    exact ⟨rfl, rfl, rfl, rfl, rfl, rfl, fun h => ⟨h.pixmem, h.codemem, Cells.wf_nil, h.dt, h.xstack⟩, Or.inl ⟨rfl, rfl⟩,
      fun _ h => ⟨h.ptr, h.cnt, h.acc⟩, fun _ h => ⟨h.len, h.bitpos⟩⟩

/-- A command that writes RES0 and RES1 alone. -/
theorem ExecFrame.results (s : State) (a b : Word64) : ExecFrame s ((s.setRes0 a).setRes1 b) :=
  ⟨rfl, rfl, rfl, rfl, rfl, rfl, fun h => ⟨h.pixmem, h.codemem, h.st, h.dt, h.xstack⟩, Or.inl ⟨rfl, rfl⟩,
    fun _ h => ⟨h.ptr, h.cnt, h.acc⟩, fun _ h => ⟨h.len, h.bitpos⟩⟩

/-- A command that writes RES0 alone. -/
theorem ExecFrame.result (s : State) (a : Word64) : ExecFrame s (s.setRes0 a) :=
  ⟨rfl, rfl, rfl, rfl, rfl, rfl, fun h => ⟨h.pixmem, h.codemem, h.st, h.dt, h.xstack⟩, Or.inl ⟨rfl, rfl⟩,
    fun _ h => ⟨h.ptr, h.cnt, h.acc⟩, fun _ h => ⟨h.len, h.bitpos⟩⟩

theorem execStSearch_frame {pre : BitVec 12} {suf : BitVec 8} {s t : State} (h : execStSearch pre suf s = .next t) :
    ExecFrame s t :=
  unlessError_frame h fun _ h => by
    split at h <;> obtain rfl := Host.Outcome.next.inj h
    · exact ExecFrame.results s _ _
    · exact raise_frame _ s

theorem execStAdd_frame {index pre : BitVec 12} {suf : BitVec 8} {code : BitVec 12} {s t : State}
    (h : execStAdd index pre suf code s = .next t) : ExecFrame s t :=
  unlessError_frame h fun _ h => by
    obtain rfl := Host.Outcome.next.inj h
    exact ⟨rfl, rfl, rfl, rfl, rfl, rfl, fun h => ⟨h.pixmem, h.codemem, Cells.write_wf h.st index.isLt, h.dt, h.xstack⟩,
      Or.inl ⟨rfl, rfl⟩, fun _ h => ⟨h.ptr, h.cnt, h.acc⟩, fun _ h => ⟨h.len, h.bitpos⟩⟩

theorem execEncRun_frame {bpp : BitVec 4} {len : BitVec 32} {s t : State} (h : execEncRun bpp len s = .next t) :
    ExecFrame s t :=
  unlessError_frame h fun hs h => by
    split at h
    · obtain rfl := Host.Outcome.next.inj h
      exact raise_frame _ s
    · split at h
      · obtain rfl := Host.Outcome.next.inj h
        exact raise_frame _ s
      · split at h <;> obtain rfl := Host.Outcome.next.inj h
        · rename_i u hu _
          obtain ⟨he, -, -, -, hm, hc⟩ := encRun_frame hu
          generalize u.cw = c, u.codemem = m, u.st = st, u.enc = e, u.res0 = r0, u.res1 = r1 at he
          subst he
          exact ⟨rfl, rfl, rfl, rfl, rfl, rfl,
            fun h => ⟨(hm h).pixmem, (hm h).codemem, (hm h).st, (hm h).dt, (hm h).xstack⟩, Or.inl ⟨rfl, rfl⟩,
            fun _ _ => ⟨hc.ptr, hc.cnt, hc.acc⟩, fun _ h => ⟨h.len, h.bitpos⟩⟩
        · exact failEnc_frame _ hs

theorem execDecRun_frame {bpp : BitVec 4} {len : BitVec 32} {s t : State} (h : execDecRun bpp len s = .next t) :
    ExecFrame s t :=
  unlessError_frame h fun hs h => by
    split at h
    · obtain rfl := Host.Outcome.next.inj h
      exact raise_frame _ s
    · split at h
      · obtain rfl := Host.Outcome.next.inj h
        exact raise_frame _ s
      · rename_i hl
        split at h <;> obtain rfl := Host.Outcome.next.inj h
        · rename_i u hu _
          obtain ⟨he, -, -, -, hc, -, hm⟩ := decRun_frame (Nat.le_of_not_lt hl) hu
          generalize u.cr = c, u.pixmem = m, u.dec = d, u.dt = dt, u.xstack = x, u.xsp = sp, u.res0 = r0,
            u.res1 = r1 at he
          subst he
          exact ⟨rfl, rfl, rfl, rfl, rfl, rfl,
            fun h => ⟨(hm h).pixmem, (hm h).codemem, (hm h).st, freeDt_wf _, freeMemory_wf (Memory.wf_nil _)⟩,
            Or.inl ⟨rfl, rfl⟩, fun _ h => ⟨h.ptr, h.cnt, h.acc⟩, fun _ _ => ⟨hc.len, hc.bitpos⟩⟩
        · exact failDec_frame _ hs

theorem execPaConfig_frame {depth : Depth} {width height : BitVec 24} {order : RowOrder} {s t : State}
    (h : execPaConfig depth width height order s = .next t) : ExecFrame s t :=
  unlessError_frame h fun _ h => by
    obtain rfl := Host.Outcome.next.inj h
    exact ⟨rfl, rfl, rfl, rfl, rfl, rfl, fun h => ⟨h.pixmem, h.codemem, h.st, h.dt, h.xstack⟩, Or.inl ⟨rfl, rfl⟩,
      fun _ h => ⟨h.ptr, h.cnt, h.acc⟩, fun _ h => ⟨h.len, h.bitpos⟩⟩

theorem execPaRowlen_frame {s t : State} (h : execPaRowlen s = .next t) : ExecFrame s t :=
  unlessError_frame h fun _ h => by
    obtain rfl := Host.Outcome.next.inj h
    exact ExecFrame.result s _

theorem execPaOffset_frame {x y : BitVec 24} {s t : State} (h : execPaOffset x y s = .next t) : ExecFrame s t :=
  unlessError_frame h fun _ h => by
    split at h
    · obtain rfl := Host.Outcome.next.inj h
      exact raise_frame _ s
    · split at h <;> obtain rfl := Host.Outcome.next.inj h
      · exact raise_frame _ s
      · exact ExecFrame.results s _ _

theorem execPaExtract_frame {byte : BitVec 8} {bit : BitVec 4} {s t : State} (h : execPaExtract byte bit s = .next t) :
    ExecFrame s t :=
  unlessError_frame h fun _ h => by
    split at h
    · obtain rfl := Host.Outcome.next.inj h
      exact raise_frame _ s
    · split at h <;> obtain rfl := Host.Outcome.next.inj h
      · exact raise_frame _ s
      · exact ExecFrame.result s _

theorem execPaInject_frame {byte : BitVec 8} {bit : BitVec 4} {ci : BitVec 8} {s t : State}
    (h : execPaInject byte bit ci s = .next t) : ExecFrame s t :=
  unlessError_frame h fun _ h => by
    split at h
    · obtain rfl := Host.Outcome.next.inj h
      exact raise_frame _ s
    · split at h
      · obtain rfl := Host.Outcome.next.inj h
        exact raise_frame _ s
      · split at h <;> obtain rfl := Host.Outcome.next.inj h
        · exact raise_frame _ s
        · exact ExecFrame.result s _

/-- What any command does to the whole state. -/
theorem exec_frame {i : Instr} {s t : State} (h : exec i s = .next t) : ExecFrame s t := by
  cases i with
  | nop => exact execNop_frame h
  | clrerr => exact execClrerr_frame h
  | cwReset => exact execCwReset_frame h
  | cwWrite _ _ => exact execCwWrite_frame h
  | cwEnd => exact execCwEnd_frame h
  | crOpen _ => exact execCrOpen_frame h
  | crRead _ => exact execCrRead_frame h
  | stReset => exact execStReset_frame h
  | stSearch _ _ => exact execStSearch_frame h
  | stAdd _ _ _ _ => exact execStAdd_frame h
  | encRun _ _ => exact execEncRun_frame h
  | decRun _ _ => exact execDecRun_frame h
  | paConfig _ _ _ _ => exact execPaConfig_frame h
  | paRowlen => exact execPaRowlen_frame h
  | paOffset _ _ => exact execPaOffset_frame h
  | paExtract _ _ => exact execPaExtract_frame h
  | paInject _ _ _ => exact execPaInject_frame h

end Sys2Proof.Machine
end

