-- ==== Sys2Proof/Laws/Expansion.lean ====
section
/-! SUPPORT. The laws of expansion (R184): when a walk through the decode table ends at a code without an entry, said once over
the chain of prefixes. -/

namespace Sys2Proof.Machine

/-- The prefix of a code's entry. -/
def State.prefixOf (s : State) (k : BitVec 12) : BitVec 12 := (s.readEntry k.toNat).pre

/-- A code with a defined entry (R39). -/
def State.hasEntry (s : State) (k : BitVec 12) : Prop :=
  s.dec.clear.toNat ≤ k.toNat ∧ s.dec.eoi.toNat < k.toNat ∧ k.toNat < s.dec.next.toNat

/-- A code that is neither a raw pixel nor has a defined entry. -/
def State.noEntry (s : State) (k : BitVec 12) : Prop :=
  s.dec.clear.toNat ≤ k.toNat ∧ (k.toNat ≤ s.dec.eoi.toNat ∨ s.dec.next.toNat ≤ k.toNat)

/-- After d defined entries the prefixes of k lead to the code c, which has none. -/
def State.leadsTo (s : State) (k : BitVec 12) (d c : Nat) : Prop :=
  (∀ i < d, s.hasEntry (s.prefixOf^[i] k)) ∧ s.noEntry (s.prefixOf^[d] k) ∧ (s.prefixOf^[d] k).toNat = c

theorem leadsTo_zero {s : State} {k : BitVec 12} {c : Nat} : s.leadsTo k 0 c ↔ s.noEntry k ∧ k.toNat = c :=
  ⟨fun h => h.2, fun h => ⟨fun _ hi => absurd hi (Nat.not_lt_zero _), h⟩⟩

theorem leadsTo_succ {s : State} {k : BitVec 12} {d c : Nat} :
    s.leadsTo k (d + 1) c ↔ s.hasEntry k ∧ s.leadsTo (s.prefixOf k) d c := by
  constructor
  · rintro ⟨h1, h2⟩
    exact ⟨h1 0 (Nat.succ_pos _), fun i hi => h1 (i + 1) (Nat.succ_lt_succ hi), h2⟩
  · rintro ⟨h0, h1, h2⟩
    refine ⟨fun i hi => ?_, h2⟩
    cases i with
    | zero => exact h0
    | succ i => exact h1 i (Nat.lt_of_succ_lt_succ hi)

/-- The loop of an expansion raises UNDEFINED_ENTRY(c) exactly when the prefixes lead to c within the room left (R184). -/
theorem expandFrom_undefined {k0 : BitVec 12} {room : Nat} {k : BitVec 12} {s s' : State} {c : Nat} (hd : s'.dec = s.dec)
    (hdt : s'.dt = s.dt) :
    expandFrom k0 room k s' = .error ⟨.undefinedEntry, c⟩ ↔ ∃ d ≤ room, s.leadsTo k d c := by
  induction room generalizing k s' with
  | zero =>
    unfold expandFrom
    rw [hd]
    have h0 : (∃ d ≤ 0, s.leadsTo k d c) ↔ s.noEntry k ∧ k.toNat = c := by
      rw [← leadsTo_zero]
      exact ⟨fun ⟨d, h, hl⟩ => Nat.le_zero.mp h ▸ hl, fun h => ⟨0, Nat.le_refl _, h⟩⟩
    rw [h0]
    by_cases hn : s.noEntry k
    · rw [if_pos (c := _ ∧ _) hn]
      simp [hn]
    · rw [if_neg (c := _ ∧ _) hn]
      simp [hn]
  | succ room ih =>
    have hcases : (∃ d ≤ room + 1, s.leadsTo k d c) ↔
        (s.noEntry k ∧ k.toNat = c) ∨ s.hasEntry k ∧ ∃ d ≤ room, s.leadsTo (s.prefixOf k) d c := by
      constructor
      · rintro ⟨d, h, hl⟩
        cases d with
        | zero => exact Or.inl (leadsTo_zero.mp hl)
        | succ d => exact Or.inr ⟨(leadsTo_succ.mp hl).1, d, Nat.le_of_succ_le_succ h, (leadsTo_succ.mp hl).2⟩
      · rintro (h | ⟨h, d, hdr, hl⟩)
        · exact ⟨0, Nat.zero_le _, leadsTo_zero.mpr h⟩
        · exact ⟨d + 1, Nat.succ_le_succ hdr, leadsTo_succ.mpr ⟨h, hl⟩⟩
    rw [hcases, expandFrom, hd]
    by_cases hraw : k.toNat < s.dec.clear.toNat
    · have h1 : ¬ s.noEntry k := fun h => by have := h.1; omega
      have h2 : ¬ s.hasEntry k := fun h => by have := h.1; omega
      rw [if_pos hraw]
      simp [h1, h2]
    rw [if_neg hraw]
    by_cases hn : k.toNat ≤ s.dec.eoi.toNat ∨ s.dec.next.toNat ≤ k.toNat
    · have h1 : s.noEntry k := ⟨Nat.le_of_not_lt hraw, hn⟩
      have h2 : ¬ s.hasEntry k := fun h => by have := h.2; omega
      rw [if_pos hn]
      simp [h1, h2]
    · have h1 : ¬ s.noEntry k := fun h => hn h.2
      have h2 : s.hasEntry k := ⟨by omega, by omega, by omega⟩
      have hpre : (s'.readEntry k.toNat).pre = s.prefixOf k := by
        unfold State.prefixOf State.readEntry
        rw [hdt]
      rw [if_neg hn, hpre, ih (s' := s'.pushX (s'.readEntry k.toNat).suf) hd hdt]
      simp [h1, h2]

/-- No walk to a code without an entry passes one entry twice, so it passes fewer than 4096. -/
theorem leadsTo_lt {s : State} {k : BitVec 12} {d c : Nat} (h : s.leadsTo k d c) : d < 4096 := by
  have hinj : Set.InjOn (fun i => (s.prefixOf^[i] k).toNat) (Finset.range d) := by
    intro i hi j hj hij
    simp only [Finset.coe_range, Set.mem_Iio] at hi hj
    have heq : s.prefixOf^[i] k = s.prefixOf^[j] k := BitVec.eq_of_toNat_eq hij
    have key : ∀ a b, a < b → b < d → s.prefixOf^[a] k = s.prefixOf^[b] k → False := by
      intro a b hab hb e
      have hend : s.prefixOf^[a + (d - b)] k = s.prefixOf^[d] k := by
        rw [Nat.add_comm, Function.iterate_add_apply, e, ← Function.iterate_add_apply, Nat.sub_add_cancel (Nat.le_of_lt hb)]
      have hgood := h.1 (a + (d - b)) (by omega)
      rw [hend] at hgood
      have := h.2.1.2
      have := hgood.2
      omega
    rcases Nat.lt_trichotomy i j with hlt | e | hgt
    · exact absurd (key i j hlt hj heq) id
    · exact e
    · exact absurd (key j i hgt hi heq.symm) id
  have hmap : ∀ i ∈ Finset.range d, (s.prefixOf^[i] k).toNat ∈ Finset.Ioo 0 4096 := by
    intro i hi
    have := h.1 i (Finset.mem_range.mp hi)
    rw [Finset.mem_Ioo]
    exact ⟨Nat.lt_of_le_of_lt (Nat.zero_le _) this.2.1, (s.prefixOf^[i] k).isLt⟩
  have hcard := Finset.card_le_card_of_injOn _ hmap hinj
  rw [Finset.card_range, Nat.card_Ioo] at hcard
  omega

/-- A defined code whose prefix's expansion meets a code without an entry raises UNDEFINED_ENTRY with it too (R184, R193). -/
theorem expand_undefined {k : BitVec 12} {s : State} {c : Nat} (hk : s.hasEntry k)
    (h : expand (s.prefixOf k) s = .error ⟨.undefinedEntry, c⟩) : expand k s = .error ⟨.undefinedEntry, c⟩ := by
  rcases bind_error_iff.mp h with h | ⟨_, _, h⟩
  · obtain ⟨d, -, hl⟩ := (expandFrom_undefined (s := s) (s' := s.setXstack s.xstack 0#13) rfl rfl).mp h
    have hd := leadsTo_lt hl
    have hx : expandFrom k Config.xstackDepth k (s.setXstack s.xstack 0#13) = .error ⟨.undefinedEntry, c⟩ :=
      (expandFrom_undefined (s := s) (s' := s.setXstack s.xstack 0#13) rfl rfl).mpr ⟨d + 1, hd, leadsTo_succ.mpr ⟨hk, hl⟩⟩
    unfold expand
    rw [hx]
    rfl
  · cases h

end Sys2Proof.Machine
end

