-- ==== Sys2Proof/Laws/LzwDecoder.lean ====
section
/-! SUPPORT. The decoder against the LZW format over lists: on a well-formed stream a run of DEC_RUN emits exactly the strings
of its codes (R184 to R190 against `lzwStream`). -/

namespace Sys2Proof.Machine

theorem codeAt_streamBit (m : Memory) (p w : Nat) : codeAt (streamBit m) p w = streamBits m p w := by
  induction w with
  | zero => rfl
  | succ w ih => simp only [codeAt, streamBits, ih]

/-! ## The width of the code to come -/

/-- One more free code moves the width exactly when D_Grow does (R189). -/
theorem lzwWidth_grow {n n' w : Nat} (hw : w = min 12 (Nat.size n)) (hn : n' = n ∨ n' = n + 1) (hpos : 0 < n) :
    (if 2 ^ w ≤ n' ∧ w < 12 then w + 1 else w) = min 12 (Nat.size n') := by
  have hlt := Nat.lt_size_self n
  have hmono : Nat.size n ≤ Nat.size n' := Nat.size_le_size (by omega)
  have hup : Nat.size n' ≤ Nat.size n + 1 := by
    rw [Nat.size_le, Nat.pow_succ]
    have := Nat.one_le_two_pow (n := Nat.size n)
    omega
  split
  · rename_i h
    have hwn : w = Nat.size n := by omega
    have : Nat.size n < Nat.size n' := by
      rw [Nat.lt_size, ← hwn]
      exact h.1
    omega
  · rename_i h
    by_cases h12 : w < 12
    · have hwn : w = Nat.size n := by omega
      have : Nat.size n' ≤ w := by
        rw [Nat.size_le]
        by_contra hc
        exact h ⟨Nat.le_of_not_lt hc, h12⟩
      omega
    · omega

/-- The width after the first data code of a session (R189: it matters at 1 bpp). -/
theorem lzwWidth_first {b : Nat} (hb : 1 ≤ b ∧ b ≤ 8) :
    (if 2 ^ (b + 1) ≤ 2 ^ b + 2 ∧ b + 1 < 12 then b + 2 else b + 1) = min 12 (Nat.size (2 ^ b + 2)) := by
  obtain ⟨h1, h8⟩ := hb
  interval_cases b <;> decide

/-! ## Expansion -/

/-- The decode table of the state spells the table's strings: each entry's prefix is an earlier code, whose string its own
extends by the suffix. -/
def TableOk (s : State) (b : Nat) (table : List (List Byte)) : Prop :=
  ∀ j, ∀ h : j < table.length, ∃ σ,
    lzwString b table (s.readEntry (lzwNext b [] + j)).pre.toNat = some σ ∧
      (s.readEntry (lzwNext b [] + j)).pre.toNat < lzwNext b [] + j ∧
      table[j] = σ ++ [(s.readEntry (lzwNext b [] + j)).suf]

theorem TableOk.congr {s t : State} {b : Nat} {table : List (List Byte)} (h : TableOk s b table) (e : t.dt = s.dt) :
    TableOk t b table := by
  intro j hj
  simpa only [State.readEntry, e] using h j hj

theorem lzwString_table {b : Nat} {table : List (List Byte)} {c : Nat} {σ : List Byte}
    (h : lzwString b table c = some σ) (hc : ¬ c < 2 ^ b) :
    ∃ j, ∃ hj : j < table.length, c = lzwNext b [] + j ∧ σ = table[j] := by
  unfold lzwString at h
  rw [if_neg hc] at h
  split at h
  · cases h
  · obtain ⟨hj, e⟩ := List.getElem?_eq_some_iff.mp h
    refine ⟨c - (2 ^ b + 2), hj, ?_, e.symm⟩
    simp only [lzwNext, List.length_nil]
    omega

theorem lzwString_lt {b : Nat} {table : List (List Byte)} {c : Nat} {σ : List Byte}
    (h : lzwString b table c = some σ) : c < lzwNext b table := by
  by_cases hc : c < 2 ^ b
  · unfold lzwNext
    omega
  · obtain ⟨j, hj, rfl, -⟩ := lzwString_table h hc
    simp only [lzwNext, List.length_nil]
    omega

/-- An entry's string is at most one pixel longer than the number of entries up to it, and none is empty. -/
theorem tableOk_length {s : State} {b : Nat} {table : List (List Byte)} (h : TableOk s b table) (c : Nat) {σ : List Byte}
    (hσ : lzwString b table c = some σ) : σ ≠ [] ∧ σ.length + lzwNext b [] ≤ max (c + 2) (lzwNext b [] + 1) := by
  induction c using Nat.strong_induction_on generalizing σ with
  | _ c ih =>
    by_cases hc : c < 2 ^ b
    · unfold lzwString at hσ
      rw [if_pos hc] at hσ
      obtain rfl := Option.some.inj hσ
      simp only [List.length_singleton]
      exact ⟨by simp, by omega⟩
    · obtain ⟨j, hj, rfl, rfl⟩ := lzwString_table hσ hc
      obtain ⟨τ, hτ, hlt, e⟩ := h j hj
      have := (ih _ hlt hτ).2
      rw [e]
      simp only [List.length_append, List.length_singleton]
      refine ⟨by simp, ?_⟩
      omega

/-- The expansion of a code pushes its string, last pixel first (R184). -/
theorem expandFrom_string {b : Nat} {table : List (List Byte)} (k0 : BitVec 12) (room : Nat) {k : BitVec 12} {s : State}
    {σ : List Byte} (hx : s.xsp.toNat + room = Config.xstackDepth) (hwf : Memory.wf Config.xstackDepth s.xstack)
    (hclear : s.dec.clear.toNat = 2 ^ b) (heoi : s.dec.eoi.toNat = 2 ^ b + 1) (hb : b ≤ 8)
    (hnext : s.dec.next.toNat = lzwNext b table)
    (htab : TableOk s b table) (hσ : lzwString b table k.toNat = some σ) (hlen : σ.length ≤ room) :
    ∃ t, expandFrom k0 room k s = .ok t ∧ t = { s with xstack := t.xstack, xsp := t.xsp } ∧
      t.xsp.toNat = s.xsp.toNat + σ.length ∧ (∀ i < s.xsp.toNat, Memory.read t.xstack i = Memory.read s.xstack i) ∧
      ∀ i, ∀ h : i < σ.length, Memory.read t.xstack (s.xsp.toNat + i) = σ[σ.length - 1 - i] := by
  have hpow : 2 ^ b ≤ 2 ^ 8 := Nat.pow_le_pow_right (by decide) hb
  induction room generalizing k s σ with
  | zero =>
    have := (tableOk_length htab _ hσ).1
    exact absurd (List.length_eq_zero_iff.mp (Nat.le_zero.mp hlen)) this
  | succ room ih =>
    have hlt : s.xsp.toNat < Config.xstackDepth := by omega
    by_cases hk : k.toNat < 2 ^ b
    · have hs : σ = [BitVec.ofNat 8 k.toNat] := by
        unfold lzwString at hσ
        rw [if_pos hk] at hσ
        exact (Option.some.inj hσ).symm
      subst hs
      obtain ⟨-, hsp, he⟩ := pushX_frame (k.setWidth 8) hlt
      refine ⟨s.pushX (k.setWidth 8), ?_, rfl, hsp, ?_, ?_⟩
      · unfold expandFrom
        rw [if_pos (by rw [hclear]; exact hk)]
      · intro i hi
        rw [he]
        exact Memory.read_write_other (by omega)
      · intro i hi
        simp only [List.length_singleton] at hi
        obtain rfl : i = 0 := by omega
        rw [he]
        refine (Memory.read_write_same hwf).trans ?_
        apply BitVec.eq_of_toNat_eq
        simp
    · obtain ⟨j, hj, hkj, rfl⟩ := lzwString_table hσ hk
      obtain ⟨τ, hτ, hpre, e⟩ := htab j hj
      rw [← hkj] at hτ hpre e
      obtain ⟨hf, hsp, he⟩ := pushX_frame (s.readEntry k.toNat).suf hlt
      have hk' : ¬ (k.toNat ≤ s.dec.eoi.toNat ∨ s.dec.next.toNat ≤ k.toNat) := by
        have := lzwString_lt hσ
        rw [heoi, hnext]
        simp only [lzwNext, List.length_nil] at hkj this ⊢
        omega
      have hlenτ : τ.length ≤ room := by
        rw [e] at hlen
        simp only [List.length_append, List.length_singleton] at hlen
        omega
      have hdec : (s.pushX (s.readEntry k.toNat).suf).dec = s.dec := rfl
      have hdt : ∀ i, (s.pushX (s.readEntry k.toNat).suf).readEntry i = s.readEntry i := fun _ => rfl
      obtain ⟨t, ht, hte, htsp, htlow, htread⟩ := ih (k := (s.readEntry k.toNat).pre)
        (s := s.pushX (s.readEntry k.toNat).suf) (σ := τ) (by omega)
        (by rw [he]; exact Memory.write_wf hwf hlt) (by rw [hdec]; exact hclear) (by rw [hdec]; exact heoi)
        (by rw [hdec]; exact hnext) (by intro i hi; exact htab i hi) hτ hlenτ
      refine ⟨t, ?_, ?_, ?_, ?_, ?_⟩
      · unfold expandFrom
        rw [if_neg (by rw [hclear]; exact hk), if_neg hk']
        exact ht
      · rw [hte, he]
      · rw [htsp, hsp, e]
        simp only [List.length_append, List.length_singleton]
        omega
      · intro i hi
        rw [htlow i (by omega), he]
        exact Memory.read_write_other (by omega)
      · intro i hi
        have hl : (table[j]).length = τ.length + 1 := by
          rw [e]
          simp
        rcases Nat.eq_zero_or_pos i with rfl | hi0
        · rw [Nat.add_zero, htlow _ (by omega), he]
          refine (Memory.read_write_same hwf).trans ?_
          simp only [e, List.length_append, List.length_singleton]
          rw [List.getElem_append_right (by omega)]
          simp
        · have := htread (i - 1) (by omega)
          rw [hsp] at this
          rw [show s.xsp.toNat + i = s.xsp.toNat + 1 + (i - 1) by omega, this]
          simp only [e, List.length_append, List.length_singleton]
          rw [List.getElem_append_left (by omega)]
          congr 1
          omega

/-- An expansion returns the string of its code (R184). -/
theorem expand_string {b : Nat} {table : List (List Byte)} {k : BitVec 12} {s : State} {σ : List Byte} (hm : s.MemOk)
    (hclear : s.dec.clear.toNat = 2 ^ b) (heoi : s.dec.eoi.toNat = 2 ^ b + 1) (hb : b ≤ 8)
    (hnext : s.dec.next.toNat = lzwNext b table)
    (htab : TableOk s b table) (hσ : lzwString b table k.toNat = some σ) :
    ∃ t, expand k s = .ok (σ, t) := by
  have hlen : σ.length ≤ Config.xstackDepth := by
    have := (tableOk_length htab _ hσ).2
    have := k.isLt
    show σ.length ≤ 4096
    simp only [lzwNext, List.length_nil] at *
    omega
  obtain ⟨t, ht, -, hsp, -, hread⟩ := expandFrom_string (s := s.setXstack s.xstack 0#13) k Config.xstackDepth rfl
    hm.xstack hclear heoi hb hnext (by intro i hi; exact htab i hi) hσ hlen
  refine ⟨t, ?_⟩
  simp only [expand, ht, ok_bind]
  congr 1
  refine Prod.ext ?_ rfl
  have hsp : t.xsp.toNat = σ.length := by simpa using hsp
  have hread : ∀ i, ∀ h : i < σ.length, Memory.read t.xstack i = σ[σ.length - 1 - i] := by
    intro i hi
    have := hread i hi
    simpa using this
  show xstackPixels t = σ
  unfold xstackPixels
  rw [hsp]
  apply List.ext_getElem
  · simp
  · intro i h1 h2
    simp only [List.getElem_map, List.getElem_reverse, List.getElem_range, List.length_range]
    rw [hread _ (by omega)]
    congr 1
    omega

/-! ## Output -/

/-- Emitting pixels with room stores them in order (R190). -/
theorem dEmitSeq_ok (ps : List Byte) {s : State} (hm : s.MemOk) (hroom : s.dec.out.toNat + ps.length ≤ s.pixCap) :
    ∃ t, dEmitSeq ps s = .ok t ∧ t = { s with pixmem := t.pixmem, dec := { s.dec with out := t.dec.out } } ∧ t.MemOk ∧
      t.dec.out.toNat = s.dec.out.toNat + ps.length ∧
      (∀ i, ∀ h : i < ps.length, t.readPix (s.dec.out.toNat + i) = ps[i]) ∧
      ∀ a, a < s.dec.out.toNat ∨ t.dec.out.toNat ≤ a → t.readPix a = s.readPix a := by
  induction ps generalizing s with
  | nil => exact ⟨s, rfl, rfl, hm, rfl, fun i h => absurd h (by simp), fun _ _ => rfl⟩
  | cons p ps ih =>
    simp only [List.length_cons] at hroom
    have hlt : ¬ s.pixCap ≤ s.dec.out.toNat := by omega
    have hu : dEmit p s = .ok ((s.writePix s.dec.out.toNat p).setDec { s.dec with out := s.dec.out + 1#25 }) := by
      unfold dEmit
      rw [if_neg hlt]
    obtain ⟨hf, ho, he⟩ := dEmit_frame hu
    generalize (s.writePix s.dec.out.toNat p).setDec { s.dec with out := s.dec.out + 1#25 } = u at hu hf ho he
    have hcap : u.pixCap = s.pixCap := by simp only [State.pixCap, hf.pixLast]
    have hmu := hf.memOk hm
    obtain ⟨t, ht, hte, hmt, hto, htr, htf⟩ := ih hmu (by rw [ho, hcap]; omega)
    refine ⟨t, ?_, ?_, hmt, by rw [hto, ho, List.length_cons]; omega, ?_, ?_⟩
    · simp only [dEmitSeq, hu, ok_bind, ht]
    · generalize t.pixmem = m, t.dec.out = o at hte
      rw [hte, he]
    · intro i hi
      rcases Nat.eq_zero_or_pos i with rfl | h0
      · rw [Nat.add_zero, htf _ (by omega), he]
        exact Memory.read_write_same hm.pixmem
      · have := htr (i - 1) (by simp only [List.length_cons] at hi; omega)
        rw [ho] at this
        rw [show s.dec.out.toNat + i = s.dec.out.toNat + 1 + (i - 1) by omega, this]
        obtain ⟨d, rfl⟩ := Nat.exists_eq_add_of_lt h0
        simp
    · intro a ha
      rw [htf a (by omega), he]
      exact Memory.read_write_other (by omega)

theorem dEmit_ok (p : Byte) {s : State} (hm : s.MemOk) (hroom : s.dec.out.toNat + 1 ≤ s.pixCap) :
    ∃ t, dEmit p s = .ok t ∧ t = { s with pixmem := t.pixmem, dec := { s.dec with out := t.dec.out } } ∧ t.MemOk ∧
      t.dec.out.toNat = s.dec.out.toNat + 1 ∧ t.readPix s.dec.out.toNat = p ∧
      ∀ a, a < s.dec.out.toNat ∨ t.dec.out.toNat ≤ a → t.readPix a = s.readPix a := by
  obtain ⟨t, ht, h1, h2, h3, h4, h5⟩ := dEmitSeq_ok [p] hm hroom
  refine ⟨t, ?_, h1, h2, h3, by have := h4 0 (by simp); simpa using this, h5⟩
  simp only [dEmitSeq] at ht
  obtain ⟨u, hu, ht⟩ := bind_ok_iff.mp ht
  rw [hu, Except.ok.inj ht]

/-! ## A run against the format -/

/-- The state of the run and the session of the format agree, at a micro-step boundary (R37 to R39). -/
structure DecSession (s : State) (b : Nat) (st : Option LzwSession) : Prop where
  mem : s.MemOk
  cr : s.CrOk
  dec : s.DecOk
  depth : s.dec.bpp.toNat = b
  width : s.dec.w.toNat = lzwWidth b st
  phase : s.dec.phase = if st = none then .first else .run
  next : s.dec.next.toNat = lzwNext b ((st.map LzwSession.table).getD [])
  table : ∀ se, st = some se → TableOk s b se.table ∧ lzwString b se.table s.dec.prev.toNat = some se.last

/-- What a stretch of the run leaves: the pixels of the stretch behind DEC_OUT, and everything else alone. -/
structure Emitted (s t : State) (ps : List Byte) : Prop where
  frame : DecFrame s t
  out : t.dec.out.toNat = s.dec.out.toNat + ps.length
  pixels : ∀ i, ∀ h : i < ps.length, t.readPix (s.dec.out.toNat + i) = ps[i]

theorem Emitted.trans {s t u : State} {ps qs : List Byte} (h : Emitted s t ps) (h' : Emitted t u qs) :
    Emitted s u (ps ++ qs) := by
  refine ⟨h.frame.trans h'.frame, by rw [h'.out, h.out, List.length_append]; omega, ?_⟩
  intro i hi
  have ho := h.out
  rcases Nat.lt_or_ge i ps.length with hlt | hge
  · rw [h'.frame.outside _ (by omega), h.pixels i hlt, List.getElem_append_left hlt]
  · have := h'.pixels (i - ps.length) (by simp only [List.length_append] at hi; omega)
    rw [List.getElem_append_right hge, ← this, ho]
    congr 1
    omega

theorem Emitted.nil {s t : State} (h : DecFrame s t) (ho : t.dec.out = s.dec.out) : Emitted s t [] :=
  ⟨h, by rw [ho]; simp, fun i hi => absurd hi (by simp)⟩

/-- A read of the run reads the code of the format. -/
theorem crRead_codeAt {w : Nat} {s : State} (hw : w ≤ 12) (hc : s.CrOk)
    (hle : s.cr.bitpos.toNat + w ≤ 8 * s.cr.len.toNat) :
    ∃ r t, crRead w s = some (r, t) ∧ r.toNat = codeAt (streamBit s.codemem) s.cr.bitpos.toNat w ∧
      t.cr.bitpos.toNat = s.cr.bitpos.toNat + w ∧ Emitted s t [] ∧ t.dec = s.dec ∧ t.dt = s.dt := by
  have hlen := hc.len
  have hcap := s.codeLast.isLt
  cases h : crRead w s with
  | none =>
    rw [crRead_none] at h
    omega
  | some rt =>
    obtain ⟨r, t⟩ := rt
    have hd := crRead_dec h
    refine ⟨r, t, rfl, by rw [codeAt_streamBit]; exact crRead_code h hw,
      crRead_bitpos h (by unfold State.codeCap at hlen; omega), Emitted.nil (crRead_frame h) (by rw [hd]), hd, ?_⟩
    obtain ⟨-, -, rfl, -⟩ := crRead_some h
    rfl

/-- D_Grow leaves all but the width and its limit, and brings the width to the one the format gives (R189). -/
theorem dGrow_width (s : State) (h : s.DecOk) :
    (dGrow s).dec.w.toNat = (if 2 ^ s.dec.w.toNat ≤ s.dec.next.toNat ∧ s.dec.w.toNat < 12 then s.dec.w.toNat + 1
      else s.dec.w.toNat) ∧ dGrow s = { s with dec := { s.dec with w := (dGrow s).dec.w, limit := (dGrow s).dec.limit } } := by
  have hl := h.limit
  unfold dGrow
  rw [hl]
  split
  · rename_i hg
    have hg : 2 ^ s.dec.w.toNat ≤ s.dec.next.toNat ∧ s.dec.w.toNat < 12 := hg
    refine ⟨?_, rfl⟩
    show (s.dec.w + 1#4).toNat = _
    rw [BitVec.toNat_add]
    simp only [BitVec.toNat_ofNat]
    omega
  · rename_i hg
    exact ⟨rfl, rfl⟩

/-- The first data code of a session: a raw pixel, with no table entry (R185, R186). -/
theorem first_session {b : Nat} {r : BitVec 12} {s t : State} (hb : 1 ≤ b ∧ b ≤ 8) (hm : t.MemOk) (hc : t.CrOk)
    (hd : s.DecOk) (hbpp : s.dec.bpp.toNat = b) (hw : s.dec.w.toNat = b + 1) (hn : s.dec.next.toNat = 2 ^ b + 2)
    (ht : t.dec = { s.dec with out := t.dec.out }) (hr : r.toNat < 2 ^ b) :
    DecSession (dGrow (t.setDec { t.dec with prev := r, phase := .run })) b
      (some ⟨[], [BitVec.ofNat 8 r.toNat]⟩) ∧
      Emitted t (dGrow (t.setDec { t.dec with prev := r, phase := .run })) [] := by
  have htok : t.DecOk := hd.ofOut t.dec.out ht
  have huok : (t.setDec { t.dec with prev := r, phase := .run }).DecOk := htok.congr rfl rfl rfl rfl rfl rfl
  have hum : (t.setDec { t.dec with prev := r, phase := .run }).MemOk := ⟨hm.pixmem, hm.codemem, hm.st, hm.dt, hm.xstack⟩
  have huc : (t.setDec { t.dec with prev := r, phase := .run }).CrOk := ⟨hc.len, hc.bitpos⟩
  have hf := DecFrame.setDec t { t.dec with prev := r, phase := .run } rfl
  have hub : (t.setDec { t.dec with prev := r, phase := .run }).dec = { t.dec with prev := r, phase := .run } := rfl
  generalize t.setDec { t.dec with prev := r, phase := .run } = u at *
  obtain ⟨hgw, hge⟩ := dGrow_width u huok
  obtain ⟨hgok, hgp, -⟩ := dGrow_decOk huok
  have hfg := dGrow_frame u
  generalize dGrow u = v at *
  have huw : u.dec.w.toNat = b + 1 := by rw [hub, ht]; exact hw
  have hun : u.dec.next.toNat = 2 ^ b + 2 := by rw [hub, ht]; exact hn
  have hvp : v.dec.prev = r := by rw [hge, hub]
  have hvn : v.dec.next = u.dec.next := by rw [hge]
  have hvb : v.dec.bpp = s.dec.bpp := by rw [hge, hub, ht]
  have hvo : v.dec.out = t.dec.out := by rw [hge, hub]
  refine ⟨⟨hfg.memOk hum, hfg.crOk huc, hgok, by rw [hvb]; exact hbpp, ?_, ?_, ?_, ?_⟩, ?_⟩
  · rw [hgw, huw, hun]
    exact lzwWidth_first hb
  · rw [hgp, hub]
    rfl
  · rw [hvn, hun]
    rfl
  · rintro se ⟨rfl⟩
    refine ⟨fun j hj => absurd hj (by simp), ?_⟩
    rw [hvp]
    unfold lzwString
    rw [if_pos hr]
  · exact Emitted.nil (hf.trans hfg) hvo

theorem dEmit_emitted {p : Byte} {s t : State} (h : dEmit p s = .ok t) (hp : t.readPix s.dec.out.toNat = p) :
    Emitted s t [p] := by
  obtain ⟨hf, ho, -⟩ := dEmit_frame h
  refine ⟨hf, ho, fun i hi => ?_⟩
  simp only [List.length_singleton] at hi
  obtain rfl : i = 0 := by omega
  exact hp

theorem lzwString_append {b : Nat} {table more : List (List Byte)} {c : Nat} {σ : List Byte}
    (h : lzwString b table c = some σ) : lzwString b (table ++ more) c = some σ := by
  by_cases hc : c < 2 ^ b
  · unfold lzwString at h ⊢
    rwa [if_pos hc] at h ⊢
  · obtain ⟨j, hj, rfl, rfl⟩ := lzwString_table h hc
    unfold lzwString
    have hn : lzwNext b [] = 2 ^ b + 2 := rfl
    rw [if_neg hc, if_neg (by omega), show lzwNext b [] + j - (2 ^ b + 2) = j by omega, List.getElem?_append_left hj]
    exact List.getElem?_eq_getElem hj

theorem take_one_eq {σ : List Byte} (h : σ ≠ []) : σ.take 1 = [σ.headD 0#8] := by
  cases σ with
  | nil => exact absurd rfl h
  | cons p ps => rfl

/-- D_AddEntry extends the table of the session by the last string and the first pixel of the new one (R188). -/
theorem dAddEntry_session {b : Nat} {se : LzwSession} {p : Byte} {s : State} (hm : s.MemOk)
    (hnext : s.dec.next.toNat = lzwNext b se.table) (htab : TableOk s b se.table)
    (hprev : lzwString b se.table s.dec.prev.toNat = some se.last) (hmax : lzwNext b se.table ≤ 4096) :
    (dAddEntry p s).MemOk ∧
      (dAddEntry p s).dec = { s.dec with next := (dAddEntry p s).dec.next } ∧
      (dAddEntry p s).dec.next.toNat =
        lzwNext b (if lzwNext b se.table < 4096 then se.table ++ [se.last ++ [p]] else se.table) ∧
      TableOk (dAddEntry p s) b (if lzwNext b se.table < 4096 then se.table ++ [se.last ++ [p]] else se.table) := by
  have hmem := (dAddEntry_frame p s).memOk hm
  refine ⟨hmem, ?_⟩
  by_cases hlt : lzwNext b se.table < 4096
  · have hlt' : s.dec.next.toNat < Config.dtEntries := by rw [hnext]; exact hlt
    have hn1 : (s.dec.next + 1#13).toNat = s.dec.next.toNat + 1 := by
      have : s.dec.next.toNat < 4096 := hlt'
      rw [BitVec.toNat_add]
      simp only [BitVec.toNat_ofNat]
      omega
    have he : dAddEntry p s =
        (s.writeEntry s.dec.next.toNat ⟨s.dec.prev, p⟩).setDec { s.dec with next := s.dec.next + 1#13 } := by
      unfold dAddEntry
      rw [if_pos hlt']
    have hread : ∀ k, (dAddEntry p s).readEntry k =
        if k = s.dec.next.toNat then ⟨s.dec.prev, p⟩ else s.readEntry k := by
      intro k
      rw [he]
      exact Cells.read_write hm.dt
    rw [if_pos hlt]
    refine ⟨by rw [he]; rfl, ?_, ?_⟩
    · rw [he]
      show (s.dec.next + 1#13).toNat = _
      rw [hn1, hnext]
      simp only [lzwNext, List.length_append, List.length_singleton]
      omega
    · intro j hj
      rw [hread]
      rcases Nat.lt_or_ge j se.table.length with hjl | hjg
      · obtain ⟨σ, h1, h2, h3⟩ := htab j hjl
        rw [if_neg (by rw [hnext]; simp only [lzwNext, List.length_nil]; omega)]
        exact ⟨σ, lzwString_append h1, h2, by rw [List.getElem_append_left hjl]; exact h3⟩
      · have hjeq : j = se.table.length := by
          simp only [List.length_append, List.length_singleton] at hj
          omega
        subst hjeq
        rw [if_pos (by rw [hnext]; simp only [lzwNext, List.length_nil])]
        refine ⟨se.last, lzwString_append hprev, ?_, ?_⟩
        · have := lzwString_lt hprev
          simpa only [lzwNext, List.length_nil, Nat.add_zero] using this
        · rw [List.getElem_append_right (Nat.le_refl _)]
          simp
  · have he : dAddEntry p s = s := by
      unfold dAddEntry
      rw [if_neg (by rw [hnext]; exact hlt)]
    rw [if_neg hlt, he]
    exact ⟨rfl, hnext, htab⟩

/-- What D_Code expands on a data code of the format, and the string it gives (R187). -/
theorem lzwData_string {b : Nat} {se se' : LzwSession} {r : BitVec 12} {s : State} {σ : List Byte}
    (h : DecSession s b (some se)) (hd : lzwData b se r.toNat = some (σ, se')) :
    ∃ k σ0, k = (if decide (r.toNat < s.dec.next.toNat) then r else s.dec.prev) ∧
      lzwString b se.table k.toNat = some σ0 ∧
      σ = σ0 ++ (if decide (r.toNat < s.dec.next.toNat) then [] else [σ0.headD 0#8]) ∧
      σ0 ≠ [] ∧ (r.toNat < s.dec.next.toNat ∨ r.toNat = s.dec.next.toNat) ∧
      se' = ⟨if lzwNext b se.table < 4096 then se.table ++ [se.last ++ σ.take 1] else se.table, σ⟩ := by
  obtain ⟨htab, hprev⟩ := h.table se rfl
  have hnext : s.dec.next.toNat = lzwNext b se.table := h.next
  have hlast := (tableOk_length htab _ hprev).1
  unfold lzwData at hd
  rw [← hnext] at hd
  obtain ⟨τ, hτ, e⟩ := Option.map_eq_some_iff.mp hd
  simp only [Prod.mk.injEq] at e
  obtain ⟨rfl, rfl⟩ := e
  by_cases hlt : r.toNat < s.dec.next.toNat
  · rw [if_pos hlt] at hτ
    refine ⟨r, τ, by simp [hlt], hτ, by simp [hlt], (tableOk_length htab _ hτ).1, Or.inl hlt, ?_⟩
    rw [hnext]
  · rw [if_neg hlt] at hτ
    by_cases heq : r.toNat = s.dec.next.toNat
    · rw [if_pos heq] at hτ
      obtain rfl := Option.some.inj hτ
      refine ⟨s.dec.prev, se.last, by simp [heq], hprev, by simp [heq, take_one_eq hlast], hlast, Or.inr heq, ?_⟩
      rw [hnext]
    · rw [if_neg heq] at hτ
      cases hτ

/-- D_Code and D_Grow on a data code of the format (R187 to R189). -/
theorem dCode_session {b : Nat} {se se' : LzwSession} {r : BitVec 12} {s : State} {σ : List Byte}
    (h : DecSession s b (some se)) (hd : lzwData b se r.toNat = some (σ, se'))
    (hroom : s.dec.out.toNat + σ.length ≤ s.pixCap) :
    ∃ t, dCode r s = .ok t ∧ t.dec.phase = .run ∧ DecSession (dGrow t) b (some se') ∧ Emitted s (dGrow t) σ := by
  obtain ⟨htab, hprev⟩ := h.table se rfl
  have hnext : s.dec.next.toNat = lzwNext b se.table := h.next
  have hmax : lzwNext b se.table ≤ 4096 := by rw [← hnext]; exact h.dec.next.2
  have hbb := h.dec.bpp
  rw [h.depth] at hbb
  have hclear : s.dec.clear.toNat = 2 ^ b := by rw [h.dec.clear, h.depth]
  have heoi : s.dec.eoi.toNat = 2 ^ b + 1 := by rw [h.dec.eoi, hclear]
  have hlast := (tableOk_length htab _ hprev).1
  obtain ⟨k, σ0, hk, hσ0, hσ, hne, hr, hse'⟩ := lzwData_string h hd
  obtain ⟨u, hu⟩ := expand_string h.mem hclear heoi hbb.2 hnext htab hσ0
  obtain ⟨hfu, hue⟩ := expand_frame hu
  have hud : u.dec = s.dec := by rw [hue]
  have hudt : u.dt = s.dt := by rw [hue]
  have hup : u.pixLast = s.pixLast := by rw [hue]
  have hcapu : u.pixCap = s.pixCap := by simp only [State.pixCap, hup]
  have hlen0 : σ0.length ≤ σ.length := by rw [hσ]; simp
  obtain ⟨v, hv, hve, hvm, hvo, hvp, -⟩ := dEmitSeq_ok σ0 (hfu.memOk h.mem) (by rw [hud, hcapu]; omega)
  have hvE : Emitted u v σ0 := ⟨(dEmitSeq_frame hv).1, hvo, hvp⟩
  have hvd : v.dec = { u.dec with out := v.dec.out } := (dEmitSeq_dec hv).1
  have hvdt : v.dt = u.dt := by rw [hve]
  have hvcap : v.pixCap = u.pixCap := by simp only [State.pixCap, hvE.frame.pixLast]
  have hrep : ∃ w, dRepeat (decide (r.toNat < s.dec.next.toNat)) (σ0.headD 0#8) v = .ok w ∧ w.MemOk ∧ w.dt = v.dt ∧
      w.dec = { v.dec with out := w.dec.out } ∧
      Emitted v w (if decide (r.toNat < s.dec.next.toNat) then [] else [σ0.headD 0#8]) := by
    by_cases hlt : r.toNat < s.dec.next.toNat
    · refine ⟨v, by simp [dRepeat, hlt], hvm, rfl, rfl, ?_⟩
      simp only [hlt, decide_true, if_true]
      exact Emitted.nil (DecFrame.refl v) rfl
    · obtain ⟨w, hw, hwe, hwm, hwo, hwp, -⟩ := dEmit_ok (σ0.headD 0#8) hvm (by
        rw [hvo, hvcap, hcapu, hud]
        have : σ.length = σ0.length + 1 := by rw [hσ]; simp [hlt]
        omega)
      refine ⟨w, by simp only [dRepeat, hlt, decide_false, Bool.false_eq_true, if_false, hw], hwm, by rw [hwe], (dEmit_dec hw).1, ?_⟩
      simp only [hlt, decide_false, Bool.false_eq_true, if_false]
      exact dEmit_emitted hw hwp
  obtain ⟨w, hw, hwm, hwdt, hwd, hwE⟩ := hrep
  have hwnext : w.dec.next = s.dec.next := by rw [hwd, hvd, hud]
  have hwprev : w.dec.prev = s.dec.prev := by rw [hwd, hvd, hud]
  have hwdt' : w.dt = s.dt := hwdt.trans (hvdt.trans hudt)
  have hwtab : TableOk w b se.table := by
    intro j hj
    simpa only [State.readEntry, hwdt'] using htab j hj
  obtain ⟨hxm, hxd, hxn, hxt⟩ := dAddEntry_session (p := σ0.headD 0#8) hwm (by rw [hwnext]; exact hnext) hwtab
    (by rw [hwprev]; exact hprev) hmax
  have hfx := dAddEntry_frame (σ0.headD 0#8) w
  have hwok : w.DecOk := h.dec.congr (by rw [hwd, hvd, hud]) (by rw [hwd, hvd, hud]) (by rw [hwd, hvd, hud])
    (by rw [hwd, hvd, hud]) (by rw [hwd, hvd, hud]) (by rw [hwd, hvd, hud])
  obtain ⟨hxok, hxp, -⟩ := dAddEntry_decOk (σ0.headD 0#8) hwok
  have hfull := hfu.trans (hvE.frame.trans (hwE.frame.trans hfx))
  have hst : (List.take 1 σ) = [σ0.headD 0#8] := by
    rw [hσ, List.take_append_of_le_length (by cases σ0 with | nil => exact absurd rfl hne | cons _ _ => simp),
      take_one_eq hne]
  refine ⟨(dAddEntry (σ0.headD 0#8) w).setDec { (dAddEntry (σ0.headD 0#8) w).dec with prev := r }, ?_, ?_, ?_⟩
  · unfold dCode
    simp only [← hk, hu, ok_bind, hv, hw]
  · show (dAddEntry (σ0.headD 0#8) w).dec.phase = .run
    rw [hxp, hwd, hvd, hud, h.phase]
    rfl
  generalize hx : dAddEntry (σ0.headD 0#8) w = x at *
  have hyok : (x.setDec { x.dec with prev := r }).DecOk := hxok.congr rfl rfl rfl rfl rfl rfl
  have hym : (x.setDec { x.dec with prev := r }).MemOk := ⟨hxm.pixmem, hxm.codemem, hxm.st, hxm.dt, hxm.xstack⟩
  have hfy := DecFrame.setDec x { x.dec with prev := r } rfl
  have hyd : (x.setDec { x.dec with prev := r }).dec = { x.dec with prev := r } := rfl
  have hydt : (x.setDec { x.dec with prev := r }).dt = x.dt := rfl
  generalize x.setDec { x.dec with prev := r } = y at *
  obtain ⟨hgw, hge⟩ := dGrow_width y hyok
  obtain ⟨hgok, hgp, -⟩ := dGrow_decOk hyok
  have hfg := dGrow_frame y
  generalize dGrow y = z at *
  have hzn : z.dec.next = x.dec.next := by rw [hge, hyd]
  have hzdt : z.dt = x.dt := by rw [hge]; exact hydt
  have hyw : y.dec.w = s.dec.w := by rw [hyd, hxd, hwd, hvd, hud]
  have hyn : y.dec.next = x.dec.next := by rw [hyd]
  have hE : Emitted s w σ := by
    have := ((Emitted.nil hfu (by rw [hud])).trans hvE).trans hwE
    rw [List.nil_append, ← hσ] at this
    exact this
  have hEx : Emitted w x [] := Emitted.nil hfx (by rw [hxd])
  have hEz : Emitted x z [] := Emitted.nil (hfy.trans hfg) (by rw [hge, hyd])
  have hall : Emitted s z σ := by
    have := (hE.trans hEx).trans hEz
    rwa [List.append_nil, List.append_nil] at this
  refine ⟨⟨hfg.memOk hym, hall.frame.crOk h.cr, hgok, ?_, ?_, ?_, ?_, ?_⟩, hall⟩
  · have : z.dec.bpp = s.dec.bpp := by rw [hge, hyd, hxd, hwd, hvd, hud]
    rw [this]
    exact h.depth
  · have hse : x.dec.next.toNat = lzwNext b se'.table := by rw [hxn, hse', hst]
    have hw0 : s.dec.w.toNat = min 12 (Nat.size (lzwNext b se.table)) := h.width
    rw [hgw, hyw, hyn, hse]
    refine lzwWidth_grow hw0 ?_ (by unfold lzwNext; omega)
    rw [hse', hst]
    by_cases h4 : lzwNext b se.table < 4096
    · right
      rw [if_pos h4]
      simp only [lzwNext, List.length_append, List.length_singleton]
      omega
    · left
      rw [if_neg h4]
  · rw [hgp, hyd]
    show x.dec.phase = .run
    rw [hxp, hwd, hvd, hud, h.phase]
    rfl
  · rw [hzn, hxn, hse', hst]
    rfl
  · rintro se2 ⟨rfl⟩
    have hzt : TableOk z b se'.table := by
      rw [hse', hst]
      exact hxt.congr hzdt
    refine ⟨hzt, ?_⟩
    have hzp : z.dec.prev = r := by rw [hge, hyd]
    rw [hzp, hse']
    by_cases hlt : r.toNat < s.dec.next.toNat
    · simp only [hlt, decide_true, if_true, List.append_nil] at hσ hk
      subst hσ
      rw [hk] at hσ0
      show lzwString b (if lzwNext b se.table < 4096 then _ else _) r.toNat = _
      split
      · exact lzwString_append hσ0
      · exact hσ0
    · have hreq : r.toNat = lzwNext b se.table := by omega
      have hn4 : lzwNext b se.table < 4096 := by
        rw [← hreq]
        exact r.isLt
      simp only [hlt, decide_false, Bool.false_eq_true, if_false] at hσ hk
      rw [hk, hprev] at hσ0
      obtain rfl := Option.some.inj hσ0
      show lzwString b (if lzwNext b se.table < 4096 then _ else _) r.toNat = _
      rw [if_pos hn4, hst, hreq, hσ]
      unfold lzwString
      rw [if_neg (by unfold lzwNext; omega), if_neg (by unfold lzwNext; omega),
        show lzwNext b se.table - (2 ^ b + 2) = se.table.length by unfold lzwNext; omega]
      simp

/-- Emitting more pixels than PIXMEM has room for raises PIX_OVERFLOW at PIX_CAP (R190). -/
theorem dEmit_full {p : Byte} {s : State} (hout : s.dec.out.toNat ≤ s.pixCap) (h : s.pixCap < s.dec.out.toNat + 1) :
    dEmit p s = .error ⟨.pixOverflow, s.pixCap⟩ := by
  unfold dEmit
  rw [if_pos (by omega), show s.dec.out.toNat = s.pixCap by omega]

theorem dEmitSeq_full (ps : List Byte) {s : State} (hout : s.dec.out.toNat ≤ s.pixCap)
    (h : s.pixCap < s.dec.out.toNat + ps.length) : dEmitSeq ps s = .error ⟨.pixOverflow, s.pixCap⟩ := by
  induction ps generalizing s with
  | nil =>
    simp only [List.length_nil] at h
    omega
  | cons p ps ih =>
    simp only [List.length_cons] at h
    rw [dEmitSeq]
    cases hu : dEmit p s with
    | error r =>
      unfold dEmit at hu
      split at hu
      · obtain rfl := Except.error.inj hu
        rw [show s.dec.out.toNat = s.pixCap by omega]
        rfl
      · cases hu
    | ok u =>
      obtain ⟨hf, ho, -⟩ := dEmit_frame hu
      have hcap : u.pixCap = s.pixCap := by simp only [State.pixCap, hf.pixLast]
      have hlt : s.dec.out.toNat < s.pixCap := by
        unfold dEmit at hu
        split at hu
        · cases hu
        · omega
      rw [ok_bind, ih (by rw [ho, hcap]; omega) (by rw [ho, hcap]; omega), hcap]

/-- D_Code on a data code of the format whose string has no room in PIXMEM (R187, R190). -/
theorem dCode_full {b : Nat} {se se' : LzwSession} {r : BitVec 12} {s : State} {σ : List Byte}
    (h : DecSession s b (some se)) (hd : lzwData b se r.toNat = some (σ, se')) (hout : s.dec.out.toNat ≤ s.pixCap)
    (hfull : s.pixCap < s.dec.out.toNat + σ.length) : dCode r s = .error ⟨.pixOverflow, s.pixCap⟩ := by
  obtain ⟨htab, -⟩ := h.table se rfl
  have hbb := h.dec.bpp
  rw [h.depth] at hbb
  have hclear : s.dec.clear.toNat = 2 ^ b := by rw [h.dec.clear, h.depth]
  obtain ⟨k, σ0, hk, hσ0, hσ, -, -, -⟩ := lzwData_string h hd
  obtain ⟨u, hu⟩ := expand_string h.mem hclear (by rw [h.dec.eoi, hclear]) hbb.2 h.next htab hσ0
  obtain ⟨hfu, hue⟩ := expand_frame hu
  have hud : u.dec = s.dec := by rw [hue]
  have hcapu : u.pixCap = s.pixCap := by simp only [State.pixCap, hfu.pixLast]
  unfold dCode
  simp only [← hk, hu, ok_bind]
  by_cases h0 : s.pixCap < s.dec.out.toNat + σ0.length
  · rw [dEmitSeq_full σ0 (by rw [hud, hcapu]; exact hout) (by rw [hud, hcapu]; exact h0), hcapu]
    rfl
  · obtain ⟨v, hv, hve, -, hvo, -, -⟩ := dEmitSeq_ok σ0 (hfu.memOk h.mem) (by rw [hud, hcapu]; omega)
    have hcapv : v.pixCap = s.pixCap := by rw [← hcapu]; simp only [State.pixCap, (dEmitSeq_frame hv).1.pixLast]
    rw [hud] at hvo
    simp only [hv, ok_bind]
    by_cases hlt : r.toNat < s.dec.next.toNat
    · simp only [hlt, decide_true, if_true, List.append_nil] at hσ
      rw [hσ] at hfull
      omega
    · simp only [hlt, decide_false, Bool.false_eq_true, if_false] at hσ
      rw [hσ] at hfull
      simp only [List.length_append, List.length_singleton] at hfull
      simp only [dRepeat, hlt, decide_false, Bool.false_eq_true, if_false]
      rw [dEmit_full (by rw [hvo, hcapv]; omega) (by rw [hvo, hcapv]; omega), hcapv]
      rfl

/-- D_Code and D_Grow read nothing. -/
theorem dCode_bitpos {r : BitVec 12} {s t : State} (h : dCode r s = .ok t) : (dGrow t).cr.bitpos = s.cr.bitpos := by
  have hg : (dGrow t).cr = t.cr := by
    unfold dGrow
    split <;> rfl
  rw [hg]
  obtain ⟨⟨ps, u⟩, hu, h⟩ := bind_ok_iff.mp h
  obtain ⟨v, hv, h⟩ := bind_ok_iff.mp h
  obtain ⟨w, hw, h⟩ := bind_ok_iff.mp h
  obtain rfl := Except.ok.inj h
  have hx : (dAddEntry (ps.headD 0#8) w).cr = w.cr := by
    unfold dAddEntry
    split <;> rfl
  obtain ⟨-, he⟩ := expand_frame hu
  show (dAddEntry (ps.headD 0#8) w).cr.bitpos = _
  rw [hx, (dRepeat_dec hw).2, (dEmitSeq_dec hv).2, he]

theorem codeCap_le' (s : State) : s.codeCap ≤ 2 ^ 24 := s.codeLast.isLt

theorem dLoop_of_done (k : Nat) {s : State} (h : s.dec.phase = .done) : dLoop k s = .ok s := by
  cases k with
  | zero => rfl
  | succ k =>
    unfold dLoop
    rw [if_neg (by rw [h]; decide)]

/-- One turn of the loop in front of the rest. -/
theorem dLoop_step {k : Nat} {s t : State} (hp : s.dec.phase = .first ∨ s.dec.phase = .run) (h : dStep s = .ok t) :
    dLoop (k + 1) s = dLoop k t := by
  rw [dLoop, if_pos hp, h, ok_bind]

/-- One D_STEP against the codes of the format: it ends the run, or it takes one code (two after a loop CLEAR), whose pixels
have room in PIXMEM or raise PIX_OVERFLOW (R183 to R190). -/
theorem dStep_codes {b k : Nat} {s : State} {st : Option LzwSession} {pix : List Byte} {q : Nat}
    (h : DecSession s b st) (hout : s.dec.out.toNat ≤ s.pixCap)
    (hd : lzwCodes (streamBit s.codemem) (8 * s.cr.len.toNat) b (k + 1) st s.cr.bitpos.toNat = some (pix, q)) :
    (pix = [] ∧ ∃ t, dStep s = .ok t ∧ t.dec.phase = .done ∧ Emitted s t [] ∧ t.cr.bitpos.toNat = q) ∨
    ∃ σ qs se p, pix = σ ++ qs ∧
      lzwCodes (streamBit s.codemem) (8 * s.cr.len.toNat) b k (some se) p = some (qs, q) ∧
      (s.dec.out.toNat + σ.length ≤ s.pixCap →
        ∃ t, dStep s = .ok t ∧ Emitted s t σ ∧ DecSession t b (some se) ∧ t.cr.bitpos.toNat = p) ∧
      (s.pixCap < s.dec.out.toNat + σ.length → dStep s = .error ⟨.pixOverflow, s.pixCap⟩) := by
  have hw12 := h.dec.w.2
  have hbb := h.dec.bpp
  rw [h.depth] at hbb
  have hclear : s.dec.clear.toNat = 2 ^ b := by rw [h.dec.clear, h.depth]
  have heoi : s.dec.eoi.toNat = 2 ^ b + 1 := by rw [h.dec.eoi, hclear]
  simp only [lzwCodes] at hd
  rw [← h.width] at hd
  by_cases hex : 8 * s.cr.len.toNat < s.cr.bitpos.toNat + s.dec.w.toNat
  · rw [if_pos hex] at hd
    simp only [Option.some.injEq, Prod.mk.injEq] at hd
    obtain ⟨rfl, rfl⟩ := hd
    refine Or.inl ⟨rfl, s.setDec { s.dec with phase := .done }, ?_, rfl, Emitted.nil (DecFrame.setDec s _ rfl) rfl, rfl⟩
    simp only [dStep, crRead_none.mpr hex]
  rw [if_neg hex] at hd
  obtain ⟨r, u, hr, hrc, hub, huE, hud, hudt⟩ := crRead_codeAt hw12 h.cr (Nat.le_of_not_lt hex)
  have huc := huE.frame.crOk h.cr
  have hum := huE.frame.memOk h.mem
  have hul := huE.frame.len
  have hucm := huE.frame.codemem
  have hucap : u.pixCap = s.pixCap := by simp only [State.pixCap, huE.frame.pixLast]
  rw [← hrc, ← hub] at hd
  by_cases hre : r.toNat = 2 ^ b + 1
  · rw [if_pos hre] at hd
    simp only [Option.some.injEq, Prod.mk.injEq] at hd
    obtain ⟨rfl, rfl⟩ := hd
    have hfd := DecFrame.setDec u { u.dec with phase := .done } rfl
    refine Or.inl ⟨rfl, u.setDec { u.dec with phase := .done }, ?_, rfl, ?_, rfl⟩
    · simp only [dStep, hr]
      rw [if_pos (by rw [hud, heoi]; exact hre)]
    · exact huE.trans (Emitted.nil hfd rfl)
  rw [if_neg hre] at hd
  have hre' : ¬ r.toNat = u.dec.eoi.toNat := by rw [hud, heoi]; exact hre
  -- a step that goes on after the code has been handled
  have hgo : ∀ v, dHandle r u = .ok v → v.dec.phase = .run → dStep s = .ok (dGrow v) := by
    intro v hv hvp
    simp only [dStep, hr, if_neg hre', hv, ok_bind, hvp]
    rfl
  have hstop : ∀ e, dHandle r u = .error e → dStep s = .error e := by
    intro e he
    simp only [dStep, hr, if_neg hre', he]
    rfl
  by_cases hrcl : r.toNat = 2 ^ b
  · rw [if_pos hrcl] at hd
    have hrcl' : r.toNat = u.dec.clear.toNat := by rw [hud, hclear]; exact hrcl
    have hi : (decInitSession u).DecOk := by
      rw [← hud] at hclear heoi
      exact decInitSession_decOk (by rw [hud]; exact h.dec.bpp) (by rw [hud]; exact h.dec.clear)
        (by rw [hud]; exact h.dec.eoi)
    have hfi := DecFrame.initSession u
    have hiw : (decInitSession u).dec.w.toNat = b + 1 := by
      show (u.dec.bpp + 1#4).toNat = b + 1
      have hbd := h.depth
      rw [BitVec.toNat_add, hud, hbd]
      simp only [BitVec.toNat_ofNat]
      omega
    have hib : (decInitSession u).dec.bpp.toNat = b := by
      show u.dec.bpp.toNat = b
      rw [hud, h.depth]
    have hin : (decInitSession u).dec.next.toNat = 2 ^ b + 2 := by
      show (BitVec.ofNat 13 (u.dec.clear.toNat + 2)).toNat = _
      have hpow : 2 ^ b ≤ 2 ^ 8 := Nat.pow_le_pow_right (by decide) hbb.2
      rw [hud, hclear, BitVec.toNat_ofNat, Nat.mod_eq_of_lt (by omega)]
    have hicl : (decInitSession u).dec.clear.toNat = 2 ^ b := by
      show u.dec.clear.toNat = _
      rw [hud, hclear]
    have hio : (decInitSession u).dec.out = u.dec.out := rfl
    have hicr : (decInitSession u).cr = u.cr := rfl
    have hicm : (decInitSession u).codemem = u.codemem := rfl
    have hhandle : dHandle r u = dClear u := by
      unfold dHandle
      rw [if_pos hrcl']
    have hdc : dClear u = (match crRead (decInitSession u).dec.w.toNat (decInitSession u) with
      | none => .ok ((decInitSession u).setDec { (decInitSession u).dec with phase := .done })
      | some (r, s) =>
        if s.dec.clear.toNat ≤ r.toNat then .error ⟨.notAPixel, r.toNat⟩
        else dEmit (r.setWidth 8) s >>= fun s => .ok (s.setDec { s.dec with prev := r, phase := .run })) := rfl
    rw [← hhandle] at hdc
    generalize decInitSession u = x at *
    rw [hiw] at hdc
    by_cases hex2 : 8 * s.cr.len.toNat < u.cr.bitpos.toNat + (b + 1)
    · rw [if_pos hex2] at hd
      simp only [Option.some.injEq, Prod.mk.injEq] at hd
      obtain ⟨rfl, rfl⟩ := hd
      rw [crRead_none.mpr (by rw [hicr, hul]; exact hex2)] at hdc
      have hfd := DecFrame.setDec x { x.dec with phase := .done } rfl
      refine Or.inl ⟨rfl, x.setDec { x.dec with phase := .done }, ?_, rfl, ?_, by show x.cr.bitpos.toNat = _; rw [hicr]⟩
      · simp only [dStep, hr, if_neg hre', hdc, ok_bind]
        rfl
      · exact huE.trans (Emitted.nil (hfi.trans hfd) (by show x.dec.out = _; rw [hio]))
    · rw [if_neg hex2] at hd
      obtain ⟨r2, y, hr2, hrc2, hyb, hyE, hyd, hydt⟩ := crRead_codeAt (w := b + 1) (by omega) (hfi.crOk huc)
        (by rw [hicr, hul]; omega)
      rw [hicr, hicm, hucm] at hrc2
      rw [hicr] at hyb
      rw [← hrc2, ← hyb] at hd
      have hycap : y.pixCap = s.pixCap := by
        simp only [State.pixCap, hyE.frame.pixLast, hfi.pixLast, huE.frame.pixLast]
      by_cases hpx : r2.toNat < 2 ^ b
      · rw [if_pos hpx] at hd
        obtain ⟨⟨qs, q'⟩, hc, e⟩ := Option.map_eq_some_iff.mp hd
        simp only [Prod.mk.injEq] at e
        obtain ⟨rfl, rfl⟩ := e
        have hyo : y.dec.out.toNat = s.dec.out.toNat := by rw [hyd, hio, hud]
        have hym := hyE.frame.memOk (hfi.memOk hum)
        have hny : ¬ y.dec.clear.toNat ≤ r2.toNat := by rw [hyd, hicl]; omega
        refine Or.inr ⟨[BitVec.ofNat 8 r2.toNat], qs, _, y.cr.bitpos.toNat, rfl, hc, fun hroom => ?_, fun hfull => ?_⟩
        rotate_left
        · apply hstop
          rw [hdc, hr2]
          simp only [List.length_singleton] at hfull
          simp only [if_neg hny]
          rw [dEmit_full (by rw [hyo, hycap]; exact hout) (by rw [hyo, hycap]; exact hfull), hycap]
          rfl
        obtain ⟨z, hz, -, hzm, hzo, hzp, -⟩ := dEmit_ok (r2.setWidth 8) hym (by rw [hyo, hycap]; exact hroom)
        have hzd := dEmit_dec hz
        have hzE := dEmit_emitted hz hzp
        obtain ⟨hS, hE⟩ := first_session (r := r2) hbb hzm (hzE.frame.crOk (hyE.frame.crOk (hfi.crOk huc))) hi hib hiw
          hin (by rw [hzd.1, hyd]) hpx
        have hsy : Emitted s y [] := by
          have := (huE.trans (Emitted.nil hfi hio)).trans hyE
          simpa using this
        have hpix : r2.setWidth 8 = BitVec.ofNat 8 r2.toNat := by
          apply BitVec.eq_of_toNat_eq
          simp
        have hzz : Emitted s (dGrow (z.setDec { z.dec with prev := r2, phase := .run })) [BitVec.ofNat 8 r2.toNat] := by
          have := (hsy.trans hzE).trans hE
          rw [hpix] at this
          simpa using this
        have hbz : (dGrow (z.setDec { z.dec with prev := r2, phase := .run })).cr.bitpos = y.cr.bitpos := by
          have h1 : (dGrow (z.setDec { z.dec with prev := r2, phase := .run })).cr =
            (z.setDec { z.dec with prev := r2, phase := .run }).cr := by
            unfold dGrow
            split <;> rfl
          rw [h1]
          show z.cr.bitpos = _
          rw [hzd.2]
        refine ⟨_, hgo (z.setDec { z.dec with prev := r2, phase := .run }) ?_ rfl, hzz, hS, by rw [hbz]⟩
        rw [hdc, hr2]
        simp only [hz, ok_bind]
        rw [if_neg hny]
      · rw [if_neg hpx] at hd
        cases hd
  rw [if_neg hrcl] at hd
  have hrcl' : ¬ r.toNat = u.dec.clear.toNat := by rw [hud, hclear]; exact hrcl
  cases st with
  | none =>
    have hw : s.dec.w.toNat = b + 1 := h.width
    have hn : s.dec.next.toNat = 2 ^ b + 2 := h.next
    simp only at hd
    rw [← hw, ← hrc, ← hub] at hd
    by_cases hpx : r.toNat < 2 ^ b
    · rw [if_pos hpx] at hd
      obtain ⟨⟨qs, q'⟩, hc, e⟩ := Option.map_eq_some_iff.mp hd
      simp only [Prod.mk.injEq] at e
      obtain ⟨rfl, rfl⟩ := e
      have hhandle : dHandle r u = dFirst r u := by
        unfold dHandle
        rw [if_neg hrcl', if_pos (by rw [hud, h.phase]; rfl)]
      have hnu : ¬ u.dec.clear.toNat ≤ r.toNat := by rw [hud, hclear]; omega
      refine Or.inr ⟨[BitVec.ofNat 8 r.toNat], qs, _, u.cr.bitpos.toNat, rfl, hc, fun hroom => ?_, fun hfull => ?_⟩
      rotate_left
      · apply hstop
        rw [hhandle]
        unfold dFirst
        rw [if_neg hnu, dEmit_full (by rw [hud, hucap]; exact hout) (by rw [hud, hucap]; exact hfull), hucap]
        rfl
      obtain ⟨z, hz, -, hzm, hzo, hzp, -⟩ := dEmit_ok (r.setWidth 8) hum (by rw [hud, hucap]; exact hroom)
      have hzd := dEmit_dec hz
      have hzE := dEmit_emitted hz hzp
      obtain ⟨hS, hE⟩ := first_session (r := r) hbb hzm (hzE.frame.crOk huc) h.dec h.depth hw hn
        (by rw [hzd.1, hud]) hpx
      have hpix : r.setWidth 8 = BitVec.ofNat 8 r.toNat := by
        apply BitVec.eq_of_toNat_eq
        simp
      have hzz : Emitted s (dGrow (z.setDec { z.dec with prev := r, phase := .run })) [BitVec.ofNat 8 r.toNat] := by
        have := (huE.trans hzE).trans hE
        rw [hpix] at this
        simpa using this
      have hbz : (dGrow (z.setDec { z.dec with prev := r, phase := .run })).cr.bitpos = u.cr.bitpos := by
        have h1 : (dGrow (z.setDec { z.dec with prev := r, phase := .run })).cr =
          (z.setDec { z.dec with prev := r, phase := .run }).cr := by
          unfold dGrow
          split <;> rfl
        rw [h1]
        show z.cr.bitpos = _
        rw [hzd.2]
      refine ⟨_, hgo (z.setDec { z.dec with prev := r, phase := .run }) ?_ rfl, hzz, hS, by rw [hbz]⟩
      rw [hhandle]
      unfold dFirst
      rw [if_neg hnu]
      simp only [hz, ok_bind]
    · rw [if_neg hpx] at hd
      cases hd
  | some se =>
    simp only at hd
    cases hdata : lzwData b se r.toNat with
    | none =>
      rw [hdata] at hd
      cases hd
    | some σse =>
      obtain ⟨σ, se'⟩ := σse
      rw [hdata] at hd
      obtain ⟨⟨qs, q'⟩, hc, e⟩ := Option.map_eq_some_iff.mp hd
      simp only [Prod.mk.injEq] at e
      obtain ⟨rfl, rfl⟩ := e
      have huS : DecSession u b (some se) := by
        refine ⟨hum, huc, h.dec.congr (by rw [hud]) (by rw [hud]) (by rw [hud]) (by rw [hud]) (by rw [hud])
          (by rw [hud]), by rw [hud]; exact h.depth, by rw [hud]; exact h.width, by rw [hud]; exact h.phase,
          by rw [hud]; exact h.next, ?_⟩
        intro se2 hse2
        obtain ⟨h1, h2⟩ := h.table se2 hse2
        exact ⟨h1.congr hudt, by rw [hud]; exact h2⟩
      have hhandle : dHandle r u = dCode r u := by
        unfold dHandle
        rw [if_neg hrcl', if_neg (by rw [hud, h.phase, if_neg (by simp)]; decide)]
      refine Or.inr ⟨σ, qs, _, u.cr.bitpos.toNat, rfl, hc, fun hroom => ?_, fun hfull => ?_⟩
      rotate_left
      · apply hstop
        rw [hhandle, dCode_full huS hdata (by rw [hud, hucap]; exact hout) (by rw [hud, hucap]; exact hfull), hucap]
      obtain ⟨z, hz, hzp, hS, hE⟩ := dCode_session huS hdata (by rw [hud, hucap]; exact hroom)
      have hzz : Emitted s (dGrow z) σ := by simpa using huE.trans hE
      exact ⟨_, hgo z (by rw [hhandle]; exact hz) hzp, hzz, hS, by rw [dCode_bitpos hz]⟩

/-- The phase of a session is one in which the loop goes on. -/
theorem DecSession.running {s : State} {b : Nat} {st : Option LzwSession} (h : DecSession s b st) :
    s.dec.phase = .first ∨ s.dec.phase = .run := by
  rw [h.phase]
  split
  · exact Or.inl rfl
  · exact Or.inr rfl

/-- The loop of DEC_RUN against the codes of the format, with room in PIXMEM for their pixels. -/
theorem dLoop_codes {b : Nat} (k m : Nat) {s : State} {st : Option LzwSession} {pix : List Byte} {q : Nat}
    (h : DecSession s b st)
    (hd : lzwCodes (streamBit s.codemem) (8 * s.cr.len.toNat) b k st s.cr.bitpos.toNat = some (pix, q))
    (hroom : s.dec.out.toNat + pix.length ≤ s.pixCap) :
    ∃ t, dLoop (k + m) s = .ok t ∧ Emitted s t pix ∧ t.cr.bitpos.toNat = q := by
  induction k generalizing s st pix with
  | zero => cases hd
  | succ k ih =>
    rw [show k + 1 + m = k + m + 1 by omega]
    rcases dStep_codes h (by omega) hd with ⟨rfl, t, ht, hp, hE, hq⟩ | ⟨σ, qs, se, p, rfl, hc, hgo, -⟩
    · exact ⟨t, by rw [dLoop_step h.running ht, dLoop_of_done _ hp], hE, hq⟩
    · simp only [List.length_append] at hroom
      obtain ⟨v, hv, hE, hS, rfl⟩ := hgo (by omega)
      have hcapv : v.pixCap = s.pixCap := by simp only [State.pixCap, hE.frame.pixLast]
      obtain ⟨t, ht, htE, htq⟩ := ih hS (by rw [hE.frame.codemem, hE.frame.len]; exact hc)
        (by rw [hE.out, hcapv]; omega)
      exact ⟨t, by rw [dLoop_step h.running hv, ht], hE.trans htE, htq⟩

/-- The loop of DEC_RUN on codes whose pixels have no room in PIXMEM. -/
theorem dLoop_full {b : Nat} (k m : Nat) {s : State} {st : Option LzwSession} {pix : List Byte} {q : Nat}
    (h : DecSession s b st)
    (hd : lzwCodes (streamBit s.codemem) (8 * s.cr.len.toNat) b k st s.cr.bitpos.toNat = some (pix, q))
    (hout : s.dec.out.toNat ≤ s.pixCap) (hfull : s.pixCap < s.dec.out.toNat + pix.length) :
    dLoop (k + m) s = .error ⟨.pixOverflow, s.pixCap⟩ := by
  induction k generalizing s st pix with
  | zero => cases hd
  | succ k ih =>
    rw [show k + 1 + m = k + m + 1 by omega]
    rcases dStep_codes h hout hd with ⟨rfl, -⟩ | ⟨σ, qs, se, p, rfl, hc, hgo, hstop⟩
    · simp only [List.length_nil] at hfull
      omega
    · simp only [List.length_append] at hfull
      by_cases h0 : s.pixCap < s.dec.out.toNat + σ.length
      · rw [dLoop, if_pos h.running, hstop h0]
        rfl
      · obtain ⟨v, hv, hE, hS, rfl⟩ := hgo (by omega)
        have hcapv : v.pixCap = s.pixCap := by simp only [State.pixCap, hE.frame.pixLast]
        rw [dLoop_step h.running hv, ← hcapv]
        exact ih hS (by rw [hE.frame.codemem, hE.frame.len]; exact hc) (by rw [hE.out, hcapv]; omega)
          (by rw [hE.out, hcapv]; omega)

/-- D_INIT on a stream that opens with CLEAR (R182). -/
theorem dInit_session {b : BitVec 4} {n : Nat} {s : State} (hb : legalBpp b) (hm : s.MemOk) (hn : n ≤ s.codeCap)
    (hbits : b.toNat + 1 ≤ 8 * n) (hopen : codeAt (streamBit s.codemem) 0 (b.toNat + 1) = 2 ^ b.toNat) :
    ∃ t, dInit n (s.setDec { s.dec with bpp := b }) = .ok t ∧ DecSession t b.toNat none ∧ t.dec.out = 0#25 ∧
      t.codemem = s.codemem ∧ t.cr.len.toNat = n ∧ t.cr.bitpos.toNat = b.toNat + 1 ∧ t.pixLast = s.pixLast := by
  have hset := (dBegin_setup n (s.setDec { s.dec with bpp := b }))
  have hdok := dBegin_decOk n (s := s.setDec { s.dec with bpp := b }) hb
  have hset' := DecSetup.setDec _ hset
  have hcap := codeCap_le' s
  have hw : (dBegin n (s.setDec { s.dec with bpp := b })).dec.w.toNat = b.toNat + 1 := by
    show (b + 1#4).toNat = _
    have := hb.2
    rw [BitVec.toNat_add]
    simp only [BitVec.toNat_ofNat]
    omega
  have hnx : (dBegin n (s.setDec { s.dec with bpp := b })).dec.next =
      BitVec.ofNat 13 ((dBegin n (s.setDec { s.dec with bpp := b })).dec.clear.toNat + 2) := rfl
  have hbp : (dBegin n (s.setDec { s.dec with bpp := b })).dec.bpp = b := rfl
  unfold dInit
  generalize dBegin n (s.setDec { s.dec with bpp := b }) = d at *
  have hlen : d.cr.len.toNat = n := by rw [hset.len, BitVec.toNat_ofNat, Nat.mod_eq_of_lt (by omega)]
  have hb0 : d.cr.bitpos.toNat = 0 := by rw [hset.bitpos]; rfl
  have hcodeLast := hset'.codeLast
  have hdc : d.CrOk := by
    refine ⟨?_, by rw [hb0]; exact Nat.zero_le _⟩
    rw [hlen]
    unfold State.codeCap at hn ⊢
    rw [hcodeLast]
    exact hn
  have hdm := hset'.memOk hm
  have hcl : d.dec.clear.toNat = 2 ^ b.toNat := by rw [hdok.clear, hbp]
  obtain ⟨r, u, hr, hrc, hub, huE, hud, hudt⟩ := crRead_codeAt (w := b.toNat + 1) (by have := hb.2; omega) hdc (by
    rw [hb0, hlen]
    omega)
  rw [hset'.codemem, hb0, hopen] at hrc
  have hum := huE.frame.memOk hdm
  have huc := huE.frame.crOk hdc
  refine ⟨u.setDec { u.dec with phase := .first }, ?_, ?_, ?_, ?_, ?_, ?_, ?_⟩
  · rw [hw, hr]
    simp only
    rw [if_neg (by rw [hud, hcl]; exact not_not.mpr hrc)]
  · refine ⟨⟨hum.pixmem, hum.codemem, hum.st, hum.dt, hum.xstack⟩, ⟨huc.len, huc.bitpos⟩,
      hdok.congr (by show u.dec.bpp = _; rw [hud]) (by show u.dec.clear = _; rw [hud]) (by show u.dec.eoi = _; rw [hud])
        (by show u.dec.w = _; rw [hud]) (by show u.dec.limit = _; rw [hud]) (by show u.dec.next = _; rw [hud]), ?_, ?_,
      rfl, ?_, fun se hse => absurd hse (by simp)⟩
    · show u.dec.bpp.toNat = _
      rw [hud, hbp]
    · show u.dec.w.toNat = _
      rw [hud, hw]
      rfl
    · show u.dec.next.toNat = 2 ^ b.toNat + 2
      have hpow : 2 ^ b.toNat ≤ 2 ^ 8 := Nat.pow_le_pow_right (by decide) hb.2
      rw [hud, hnx, hcl, BitVec.toNat_ofNat, Nat.mod_eq_of_lt (by omega)]
  · show u.dec.out = _
    rw [hud, hset.out]
  · show u.codemem = _
    rw [huE.frame.codemem, hset'.codemem]
  · show u.cr.len.toNat = n
    rw [huE.frame.len, hlen]
  · show u.cr.bitpos.toNat = _
    rw [hub, hb0, Nat.zero_add]
  · show u.pixLast = _
    rw [huE.frame.pixLast, hset'.pixLast]

/-- A run of DEC_RUN on a well-formed stream whose pixels fit PIXMEM: it raises nothing, and PIXMEM[0 .. ] holds the
stream's pixels (R180 to R191). -/
theorem decRun_stream {b : BitVec 4} {n : Nat} {s : State} {pix : List Byte} {q : Nat} (hb : legalBpp b) (hm : s.MemOk)
    (hn : n ≤ s.codeCap) (hs : lzwStream (streamBit s.codemem) (8 * n) b.toNat = some (pix, q))
    (hroom : pix.length ≤ s.pixCap) :
    ∃ t, decRun b n s = .ok t ∧ t.dec.out.toNat = pix.length ∧ t.cr.bitpos.toNat = q ∧
      ∀ i, ∀ h : i < pix.length, t.readPix i = pix[i] := by
  unfold lzwStream at hs
  split at hs
  · cases hs
  · rename_i hbits
    split at hs
    · rename_i hopen
      obtain ⟨u, hu, hS, huo, hucm, hul, hub, hup⟩ := dInit_session hb hm hn (Nat.le_of_not_lt hbits) hopen
      have hcap : u.pixCap = s.pixCap := by simp only [State.pixCap, hup]
      rw [show 8 * n / 2 + 1 = 4 * n + 1 by omega] at hs
      obtain ⟨v, hv, hE, hq⟩ := dLoop_codes (4 * n + 1) 0 hS (by rw [hucm, hul, hub]; exact hs) (by
        rw [huo, hcap]
        simpa using hroom)
      refine ⟨(v.setRes0 (zext64 v.dec.out.toNat)).setRes1 (zext64 v.cr.bitpos.toNat), ?_, ?_, hq, ?_⟩
      · have hv' : dLoop (4 * n + 1) u = .ok v := hv
        simp only [decRun, hu, ok_bind, hv']
      · show v.dec.out.toNat = _
        rw [hE.out, huo]
        simp
      · intro i hi
        have := hE.pixels i hi
        rw [huo, show (0#25).toNat = 0 from rfl, Nat.zero_add] at this
        exact this
    · cases hs

/-- A run of DEC_RUN on a well-formed stream whose pixels do not fit PIXMEM raises PIX_OVERFLOW at PIX_CAP (R190, R192). -/
theorem decRun_full {b : BitVec 4} {n : Nat} {s : State} {pix : List Byte} {q : Nat} (hb : legalBpp b) (hm : s.MemOk)
    (hn : n ≤ s.codeCap) (hs : lzwStream (streamBit s.codemem) (8 * n) b.toNat = some (pix, q))
    (hfull : s.pixCap < pix.length) : decRun b n s = .error ⟨.pixOverflow, s.pixCap⟩ := by
  unfold lzwStream at hs
  split at hs
  · cases hs
  · rename_i hbits
    split at hs
    · rename_i hopen
      obtain ⟨u, hu, hS, huo, hucm, hul, hub, hup⟩ := dInit_session hb hm hn (Nat.le_of_not_lt hbits) hopen
      have hcap : u.pixCap = s.pixCap := by simp only [State.pixCap, hup]
      have ho : u.dec.out.toNat = 0 := by rw [huo]; rfl
      rw [show 8 * n / 2 + 1 = 4 * n + 1 by omega] at hs
      have hv : dLoop (4 * n + 1) u = .error ⟨.pixOverflow, u.pixCap⟩ :=
        dLoop_full (4 * n + 1) 0 hS (by rw [hucm, hul, hub]; exact hs) (by omega) (by rw [ho, hcap]; omega)
      simp only [decRun, hu, ok_bind, hv, hcap]
      rfl
    · cases hs

end Sys2Proof.Machine
end

