-- ==== Sys2Proof/Laws/LzwEncoder.lean ====
section
/-! SUPPORT. The encoder against the LZW format over lists: the stream of a run of ENC_RUN that raises nothing spells the
pixels it read (R160 to R165 against `lzwStream`). -/

namespace Sys2Proof.Machine

/-! ## Codes in the written stream -/

theorem codeAt_congr {f g : Nat → Nat} {p w : Nat} (h : ∀ i < w, f (p + i) = g (p + i)) : codeAt f p w = codeAt g p w := by
  induction w with
  | zero => rfl
  | succ w ih =>
    simp only [codeAt]
    rw [ih fun i hi => h i (Nat.lt_succ_of_lt hi), h w (Nat.lt_succ_self w)]

/-- The bits of a number spell it. -/
theorem codeAt_bits {f : Nat → Nat} {p w c : Nat} (h : ∀ i < w, f (p + i) = (c >>> i) % 2) : codeAt f p w = c % 2 ^ w := by
  induction w with
  | zero => simp [codeAt, Nat.mod_one]
  | succ w ih =>
    simp only [codeAt]
    rw [ih fun i hi => h i (Nat.lt_succ_of_lt hi), h w (Nat.lt_succ_self w), Nat.shiftRight_eq_div_pow,
      Nat.mod_pow_succ]
    ring

/-- A code written, from the fact that it was: it lies at the end of the stream so far, and nothing before it moved. -/
theorem eEmit_bits {c : Nat} {s t : State} (hm : s.MemOk) (hs : s.CwOk) (hw : s.enc.w.toNat ≤ 12)
    (h : eEmit c s = .ok t) :
    t = { s with cw := t.cw, codemem := t.codemem, enc := { s.enc with ncodes := s.enc.ncodes + 1#32 } } ∧ t.MemOk ∧
      t.CwOk ∧ t.writtenBits = s.writtenBits + s.enc.w.toNat ∧ (∀ k < s.writtenBits, t.writtenBit k = s.writtenBit k) ∧
      ∀ j < s.enc.w.toNat, t.writtenBit (s.writtenBits + j) = (c >>> j) % 2 := by
  have hroom : s.cw.ptr.toNat + (s.cw.cnt.toNat + s.enc.w.toNat) / 8 ≤ s.codeCap := by
    by_contra hc
    simp only [eEmit, cwWrite_error hs.ptr (Nat.lt_of_not_le hc), error_bind] at h
    cases h
  obtain ⟨u, h1, h2, h3, h4, h5, h6, h7, h8, -⟩ := cwWrite_ok (code := c) hm hs hw hroom
  simp only [eEmit, h1, ok_bind] at h
  obtain rfl := Except.ok.inj h
  have he : u.enc = s.enc := by rw [h2]
  refine ⟨?_, ⟨h3.pixmem, h3.codemem, h3.st, h3.dt, h3.xstack⟩, ⟨h4.ptr, h4.cnt, h4.acc⟩, ?_, h7, h8⟩
  · rw [he]
    generalize u.cw = cw, u.codemem = m at h2
    subst h2
    rfl
  · show 8 * u.cw.ptr.toNat + u.cw.cnt.toNat = 8 * s.cw.ptr.toNat + s.cw.cnt.toNat + s.enc.w.toNat
    omega

/-! ## Following the stream -/

/-- A bit string of so many bits that continues what the state has written. -/
structure Extends (s : State) (f : Nat → Nat) (bits : Nat) : Prop where
  agree : ∀ k < s.writtenBits, f k = s.writtenBit k
  long : s.writtenBits ≤ bits

theorem Extends.back {s t : State} {f : Nat → Nat} {bits : Nat} (h : Extends t f bits)
    (hle : s.writtenBits ≤ t.writtenBits) (hold : ∀ k < s.writtenBits, t.writtenBit k = s.writtenBit k) :
    Extends s f bits :=
  ⟨fun k hk => by rw [h.agree k (by omega), hold k hk], Nat.le_trans hle h.long⟩

/-- From the start of the data codes, j codes lead to a session at position p with these pixels read. -/
def Follows (f : Nat → Nat) (bits b : Nat) (out : List Byte) (se : LzwSession) (p j : Nat) : Prop :=
  ∀ k r q, lzwCodes f bits b k (some se) p = some (r, q) → lzwCodes f bits b (k + j) none (b + 1) = some (out ++ r, q)

/-- The encoder has written nothing in its session yet: whatever raw code it writes opens the session. -/
def Fresh (s : State) (b : Nat) (out : List Byte) (j : Nat) : Prop :=
  ∀ f bits, Extends s f bits → s.writtenBits + (b + 1) ≤ bits → ∀ x < 2 ^ b, codeAt f s.writtenBits (b + 1) = x →
    Follows f bits b (out ++ [BitVec.ofNat 8 x]) ⟨[], [BitVec.ofNat 8 x]⟩ (s.writtenBits + (b + 1)) (j + 1)

/-- The table of the encoder: every occupied slot names a code whose string extends its prefix's by its suffix. -/
def SlotsOk (s : State) (b : Nat) (table : List (List Byte)) : Prop :=
  ∀ i, (s.readSlot i).code ≠ 0#12 → ∃ σ, lzwString b table (s.readSlot i).pre.toNat = some σ ∧
    lzwString b table (s.readSlot i).code.toNat = some (σ ++ [(s.readSlot i).suf])

/-- The run and the format at a micro-step boundary: the written codes spell `out`, and the current string is `c`. -/
structure EncSession (s : State) (b : Nat) (table : List (List Byte)) (c : List Byte) (out : List Byte) (j : Nat) :
    Prop where
  mem : s.MemOk
  cw : s.CwOk
  enc : s.EncOk
  depth : s.enc.bpp.toNat = b
  next : s.enc.next.toNat = lzwNext b table
  slots : SlotsOk s b table
  cur : lzwString b table s.enc.cur.toNat = some c
  nonempty : c ≠ []
  fuel : 2 * j ≤ s.writtenBits
  session : (table = [] ∧ s.enc.w.toNat = b + 1 ∧ Fresh s b out j) ∨
    ∃ se : LzwSession, table = se.table ++ [se.last ++ c.take 1] ∧ se.last ≠ [] ∧
      s.enc.w.toNat = lzwWidth b (some se) ∧ ∀ f bits, Extends s f bits → Follows f bits b out se s.writtenBits j
  opened : ∀ f bits, Extends s f bits → codeAt f 0 (b + 1) = 2 ^ b

theorem lzwString_not_control {b : Nat} {table : List (List Byte)} {c : Nat} {σ : List Byte}
    (h : lzwString b table c = some σ) : c ≠ 2 ^ b ∧ c ≠ 2 ^ b + 1 := by
  by_cases hc : c < 2 ^ b
  · omega
  · obtain ⟨j, hj, rfl, -⟩ := lzwString_table h hc
    simp only [lzwNext, List.length_nil]
    omega

/-- The width of a code is enough for it. -/
theorem cur_lt_width {s : State} {b : Nat} {table : List (List Byte)} {c : List Byte} (he : s.EncOk)
    (hn : s.enc.next.toNat = lzwNext b table) (hc : lzwString b table s.enc.cur.toNat = some c) :
    s.enc.cur.toNat < 2 ^ s.enc.w.toNat := by
  have := lzwString_lt hc
  have := he.fits
  rw [he.limit] at this
  omega

/-- One data code read in a session. -/
theorem lzwCodes_data {f : Nat → Nat} {bits b k p : Nat} {se se' : LzwSession} {σ r : List Byte} {c q : Nat}
    (hlen : p + lzwWidth b (some se) ≤ bits) (hcode : codeAt f p (lzwWidth b (some se)) = c)
    (hc : c ≠ 2 ^ b ∧ c ≠ 2 ^ b + 1) (hd : lzwData b se c = some (σ, se'))
    (hr : lzwCodes f bits b k (some se') (p + lzwWidth b (some se)) = some (r, q)) :
    lzwCodes f bits b (k + 1) (some se) p = some (σ ++ r, q) := by
  simp only [lzwCodes, hcode]
  rw [if_neg (by omega), if_neg hc.2, if_neg hc.1, hd]
  simp only [hr, Option.map_some]

/-- The data code the encoder writes gives the decoder the encoder's own table, and the current string (R187, R188). -/
theorem lzwData_cur {b : Nat} {se : LzwSession} {cur : Nat} {c : List Byte} (hlast : se.last ≠ [])
    (hn : lzwNext b (se.table ++ [se.last ++ c.take 1]) ≤ 4096)
    (hc : lzwString b (se.table ++ [se.last ++ c.take 1]) cur = some c) :
    lzwData b se cur = some (c, ⟨se.table ++ [se.last ++ c.take 1], c⟩) := by
  have hlt := lzwString_lt hc
  have hn1 : lzwNext b (se.table ++ [se.last ++ c.take 1]) = lzwNext b se.table + 1 := by
    simp only [lzwNext, List.length_append, List.length_singleton]
    omega
  have h4 : lzwNext b se.table < 4096 := by omega
  unfold lzwData
  by_cases hlt' : cur < lzwNext b se.table
  · have : lzwString b se.table cur = some c := by
      rw [← hc]
      by_cases hr : cur < 2 ^ b
      · unfold lzwString
        rw [if_pos hr, if_pos hr]
      · have hnc := lzwString_not_control hc
        unfold lzwString
        have hnx : lzwNext b se.table = 2 ^ b + 2 + se.table.length := rfl
        rw [if_neg hr, if_neg hr, if_neg (by omega), if_neg (by omega), List.getElem?_append_left (by omega)]
    rw [if_pos hlt', this]
    simp only [Option.map_some, if_pos h4]
  · have heq : cur = lzwNext b se.table := by omega
    have hcs : c = se.last ++ c.take 1 := by
      have hc' := hc
      unfold lzwString at hc'
      have hnx : lzwNext b se.table = 2 ^ b + 2 + se.table.length := rfl
      rw [if_neg (by omega), if_neg (by omega), show cur - (2 ^ b + 2) = se.table.length by omega] at hc'
      simp only [List.getElem?_append_right (Nat.le_refl _), Nat.sub_self, List.getElem?_cons_zero,
        Option.some.injEq] at hc'
      exact hc'.symm
    have htake : c.take 1 = se.last.take 1 := by
      rw [hcs, List.take_append_of_le_length (by
        cases h : se.last with
        | nil => exact absurd h hlast
        | cons _ _ => simp)]
    rw [if_neg hlt', if_pos heq]
    simp only [Option.map_some, if_pos h4, ← htake, ← hcs]

/-- The written code is what a bit string that continues the stream reads there. -/
theorem codeAt_written {s t : State} {f : Nat → Nat} {bits w c : Nat} (hx : Extends t f bits)
    (hb : t.writtenBits = s.writtenBits + w) (hnew : ∀ j < w, t.writtenBit (s.writtenBits + j) = (c >>> j) % 2)
    (hc : c < 2 ^ w) : codeAt f s.writtenBits w = c := by
  rw [codeAt_bits (c := c) fun i hi => by rw [hx.agree _ (by omega), hnew i hi], Nat.mod_eq_of_lt hc]

/-- Writing the current string: the decoder's session then has the encoder's table and the current string as its last. -/
theorem emit_cur {s t : State} {b : Nat} {table : List (List Byte)} {c out : List Byte} {j : Nat}
    (h : EncSession s b table c out j) (he : eEmit s.enc.cur.toNat s = .ok t) :
    ∀ f bits, Extends t f bits → Follows f bits b (out ++ c) ⟨table, c⟩ t.writtenBits (j + 1) := by
  obtain ⟨-, -, -, hb, hold, hnew⟩ := eEmit_bits h.mem h.cw h.enc.w.2 he
  intro f bits hx
  have hcode := codeAt_written hx hb hnew (cur_lt_width h.enc h.next h.cur)
  have hlong := hx.long
  have hxs : Extends s f bits := hx.back (by omega) hold
  rcases h.session with ⟨rfl, hw, hfresh⟩ | ⟨se, rfl, hlast, hw, hfol⟩
  · have hraw : s.enc.cur.toNat < 2 ^ b := by
      by_contra hc
      obtain ⟨i, hi, -⟩ := lzwString_table h.cur hc
      exact absurd hi (by simp)
    have hcs : c = [BitVec.ofNat 8 s.enc.cur.toNat] := by
      have := h.cur
      unfold lzwString at this
      rw [if_pos hraw] at this
      exact (Option.some.inj this).symm
    rw [hw] at hcode
    have := hfresh f bits hxs (by omega) _ hraw hcode
    rw [hb, hw, hcs]
    exact this
  · have hn := h.enc.next.2
    rw [h.next] at hn
    have hdata := lzwData_cur hlast hn h.cur
    have hctl := lzwString_not_control h.cur
    intro k r q hr
    rw [hb, hw] at hr
    rw [hw] at hcode
    have := hfol f bits hxs (k + 1) (c ++ r) q (lzwCodes_data (by omega) hcode hctl hdata hr)
    rw [show k + (j + 1) = k + 1 + j by omega, this, List.append_assoc]

theorem readSlot_write {s : State} {i k pre : BitVec 12} {suf : BitVec 8} {code : BitVec 12} (hm : s.MemOk) :
    (stWrite i pre suf code s).readSlot k = if k = i then ⟨code, pre, suf⟩ else s.readSlot k := by
  show Cells.read StSlot.empty (Cells.write StSlot.empty s.st i.toNat ⟨code, pre, suf⟩) k.toNat = _
  rw [Cells.read_write hm.st]
  by_cases h : k = i
  · rw [if_pos h, if_pos (by rw [h])]
  · rw [if_neg h, if_neg fun e => h (BitVec.eq_of_toNat_eq e)]
    rfl

theorem SlotsOk.congr {s t : State} {b : Nat} {table : List (List Byte)} (h : SlotsOk s b table) (e : t.st = s.st) :
    SlotsOk t b table := by
  intro i hi
  simp only [State.readSlot, e] at hi ⊢
  exact h i hi

theorem SlotsOk.nil {s : State} (b : Nat) (table : List (List Byte)) (e : s.st = []) : SlotsOk s b table := by
  intro i hi
  simp only [State.readSlot, e] at hi
  exact absurd rfl hi

theorem lzwString_raw {b : Nat} {table : List (List Byte)} {p : Byte} (hp : p.toNat < 2 ^ b) :
    lzwString b table (p.setWidth 12).toNat = some [p] := by
  have : (p.setWidth 12).toNat = p.toNat := by
    rw [BitVec.toNat_setWidth, Nat.mod_eq_of_lt (Nat.lt_of_lt_of_le p.isLt (by decide))]
  unfold lzwString
  rw [this, if_pos hp]
  congr 2
  apply BitVec.eq_of_toNat_eq
  simp

/-- The width after the current string has been written and its extension entered (R164, R93). -/
theorem width_after {s : State} {b : Nat} {table : List (List Byte)} {c out : List Byte} {j : Nat}
    (h : EncSession s b table c out j) :
    (if 2 ^ s.enc.w.toNat ≤ s.enc.next.toNat ∧ s.enc.w.toNat < 12 then s.enc.w.toNat + 1 else s.enc.w.toNat) =
      lzwWidth b (some ⟨table, c⟩) := by
  have hbb := h.enc.bpp
  rw [h.depth] at hbb
  rcases h.session with ⟨rfl, hw, -⟩ | ⟨se, rfl, -, hw, -⟩
  · rw [h.next, hw]
    exact lzwWidth_first hbb
  · rw [h.next]
    refine lzwWidth_grow (n := lzwNext b se.table) hw (Or.inr ?_) (Nat.lt_of_lt_of_le (Nat.two_pow_pos b) (by unfold lzwNext; omega))
    simp only [lzwNext, List.length_append, List.length_singleton]
    omega

/-- The table-full case: CLEAR ends the session at the old width, and a raw code opens the next one (R164, R185). -/
theorem clear_fresh {s t : State} {b : Nat} {se : LzwSession} {out : List Byte} {j : Nat}
    (hb : t.writtenBits = s.writtenBits + lzwWidth b (some se))
    (hold : ∀ k < s.writtenBits, t.writtenBit k = s.writtenBit k)
    (hnew : ∀ i < lzwWidth b (some se), t.writtenBit (s.writtenBits + i) = (2 ^ b >>> i) % 2)
    (hc : 2 ^ b < 2 ^ lzwWidth b (some se))
    (hfol : ∀ f bits, Extends s f bits → Follows f bits b out se s.writtenBits j) : Fresh t b out j := by
  intro f bits hx hlong x hxb hcode k r q hr
  have hcl := codeAt_written hx hb hnew hc
  have hxs : Extends s f bits := hx.back (by omega) hold
  have hstep : lzwCodes f bits b (k + 1) (some se) s.writtenBits = some (BitVec.ofNat 8 x :: r, q) := by
    simp only [lzwCodes, hcl]
    rw [if_neg (by omega), if_neg (by omega), if_pos trivial, ← hb, if_neg (by omega), hcode, if_pos hxb, hr]
    rfl
  rw [show k + (j + 1) = k + 1 + j by omega, hfol f bits hxs (k + 1) _ q hstep]
  simp

/-- E_Miss (R164): the current string is written, and the pixel starts the next one. -/
theorem eMiss_session {s t : State} {b : Nat} {table : List (List Byte)} {c out : List Byte} {j : Nat} {p : Byte}
    {index : BitVec 12} (h : EncSession s b table c out j) (hp : p.toNat < 2 ^ b) (he : eMiss p index s = .ok t) :
    ∃ table' j', EncSession t b table' [p] (out ++ c) j' ∧ t.enc.i = s.enc.i ∧ t.enc.n = s.enc.n ∧
      t.pixmem = s.pixmem := by
  obtain ⟨u, hu, he⟩ := bind_ok_iff.mp he
  obtain ⟨v, hv, he⟩ := bind_ok_iff.mp he
  obtain rfl := Except.ok.inj he
  obtain ⟨hue, hum, huc, hub, huold, hunew⟩ := eEmit_bits h.mem h.cw h.enc.w.2 hu
  have hcur := emit_cur h hu
  have huenc : u.enc = { s.enc with ncodes := s.enc.ncodes + 1#32 } := by rw [hue]
  have hust : u.st = s.st := by rw [hue]
  have hupix : u.pixmem = s.pixmem := by rw [hue]
  have hbb := h.enc.bpp
  have hsw := h.enc.w
  have huok : u.EncOk := by
    have := h.enc
    constructor <;> rw [huenc]
    exacts [this.bpp, this.clear, this.eoi, this.w, this.limit, this.next, this.fits]
  have hufuel : 2 * (j + 1) ≤ u.writtenBits := by
    have := h.fuel
    omega
  have hwidth := width_after h
  unfold eExtend at hv
  by_cases hfull : u.enc.next.toNat ≤ Config.maxCode
  · rw [if_pos hfull] at hv
    obtain rfl := Except.ok.inj hv
    obtain ⟨hok, hnx, henc⟩ := eInsert_encOk (p := p) (i := index) huok hfull
    have hf := eInsert_frame p index u
    have hcw : (eInsert p index u).cw = u.cw := eGrow_cw _
    have hcm : (eInsert p index u).codemem = u.codemem := by
      unfold eInsert eGrow
      split <;> rfl
    have hst : (eInsert p index u).st = (stWrite index u.enc.cur p (u.enc.next.setWidth 12) u).st := eGrow_st _
    have hgw : (eInsert p index u).enc.w.toNat = (if 2 ^ u.enc.w.toNat ≤ u.enc.next.toNat ∧ u.enc.w.toNat < 12 then
        u.enc.w.toNat + 1 else u.enc.w.toNat) := by
      have hl := huok.limit
      have hn1 : (u.enc.next + 1#13).toNat = u.enc.next.toNat + 1 := by
        have : u.enc.next.toNat ≤ 4095 := hfull
        rw [BitVec.toNat_add]
        simp only [BitVec.toNat_ofNat]
        omega
      have e1 : (eEnter p index u).enc = { u.enc with next := u.enc.next + 1#13 } := rfl
      unfold eInsert eGrow
      rw [e1]
      simp only [hn1, hl]
      by_cases hg : 2 ^ u.enc.w.toNat < u.enc.next.toNat + 1 ∧ u.enc.w.toNat < Config.maxCodeWidth
      · rw [if_pos hg, if_pos ⟨by omega, hg.2⟩]
        show (u.enc.w + 1#4).toNat = _
        have : u.enc.w.toNat < 12 := hg.2
        rw [BitVec.toNat_add]
        simp only [BitVec.toNat_ofNat]
        omega
      · rw [if_neg hg, if_neg fun h => hg ⟨by omega, h.2⟩]
        rfl
    have hmem := hf.memOk hum
    have hpixm : (eInsert p index u).pixmem = u.pixmem := by rw [hf.eq]
    have hcl : (eInsert p index u).codeLast = u.codeLast := by rw [hf.eq]
    have hnext : u.enc.next.toNat = lzwNext b table := by rw [huenc]; exact h.next
    have hslots : SlotsOk (eInsert p index u) b (table ++ [c ++ [p]]) := by
      have : SlotsOk (stWrite index u.enc.cur p (u.enc.next.setWidth 12) u) b (table ++ [c ++ [p]]) := by
        intro i hi
        rw [readSlot_write hum] at hi ⊢
        by_cases hii : i = index
        · rw [if_pos hii]
          refine ⟨c, ?_, ?_⟩
          · rw [huenc]
            exact lzwString_append h.cur
          · have h4 : u.enc.next.toNat ≤ 4095 := hfull
            show lzwString b _ (u.enc.next.setWidth 12).toNat = _
            rw [BitVec.toNat_setWidth, Nat.mod_eq_of_lt (by omega), hnext]
            unfold lzwString
            rw [if_neg (by unfold lzwNext; omega), if_neg (by unfold lzwNext; omega),
              show lzwNext b table - (2 ^ b + 2) = table.length by unfold lzwNext; omega]
            simp
        · rw [if_neg hii] at hi ⊢
          obtain ⟨σ, h1, h2⟩ := h.slots.congr hust i hi
          exact ⟨σ, lzwString_append h1, lzwString_append h2⟩
      exact this.congr hst
    generalize eInsert p index u = x at *
    have hwb : ∀ k, (x.setEnc { x.enc with cur := p.setWidth 12 }).writtenBit k = u.writtenBit k := by
      intro k
      show (if k < 8 * x.cw.ptr.toNat then streamBit x.codemem k else (x.cw.acc.toNat >>> (k - 8 * x.cw.ptr.toNat)) % 2) = _
      rw [hcw, hcm]
      rfl
    have hwn : (x.setEnc { x.enc with cur := p.setWidth 12 }).writtenBits = u.writtenBits := by
      show 8 * x.cw.ptr.toNat + x.cw.cnt.toNat = _
      rw [hcw]
      rfl
    have hxu : ∀ f bits, Extends (x.setEnc { x.enc with cur := p.setWidth 12 }) f bits → Extends u f bits :=
      fun f bits hx => ⟨fun k hk => by rw [hx.agree k (by rw [hwn]; exact hk), hwb], by rw [← hwn]; exact hx.long⟩
    refine ⟨table ++ [c ++ [p]], j + 1, ⟨⟨hmem.pixmem, hmem.codemem, hmem.st, hmem.dt, hmem.xstack⟩, ⟨?_, ?_, ?_⟩,
      ⟨hok.bpp, hok.clear, hok.eoi, hok.w, hok.limit, hok.next, hok.fits⟩, ?_, ?_, hslots.congr rfl,
      lzwString_raw hp, by simp, ?_, Or.inr ⟨⟨table, c⟩, rfl, h.nonempty, ?_, ?_⟩, ?_⟩, ?_, ?_, ?_⟩
    · show x.cw.ptr.toNat ≤ x.codeLast.toNat + 1
      rw [hcw, hcl]
      exact huc.ptr
    · show x.cw.cnt.toNat < 8
      rw [hcw]
      exact huc.cnt
    · show x.cw.acc.toNat < 2 ^ x.cw.cnt.toNat
      rw [hcw]
      exact huc.acc
    · show x.enc.bpp.toNat = b
      rw [henc, huenc]
      exact h.depth
    · show x.enc.next.toNat = _
      rw [hnx, hnext]
      simp only [lzwNext, List.length_append, List.length_singleton]
      omega
    · show 2 * (j + 1) ≤ 8 * x.cw.ptr.toNat + x.cw.cnt.toNat
      rw [hcw]
      exact hufuel
    · show x.enc.w.toNat = _
      rw [hgw, huenc]
      exact hwidth
    · intro f bits hx
      rw [hwn]
      exact hcur f bits (hxu f bits hx)
    · intro f bits hx
      exact h.opened f bits ((hxu f bits hx).back (by omega) huold)
    · show x.enc.i = _
      rw [henc, huenc]
    · show x.enc.n = _
      rw [henc, huenc]
    · show x.pixmem = _
      rw [hpixm, hupix]
  · rw [if_neg hfull] at hv
    obtain ⟨x, hx, hv⟩ := bind_ok_iff.mp hv
    obtain rfl := Except.ok.inj hv
    obtain ⟨hxe, hxm, hxc, hxb, hxold, hxnew⟩ := eEmit_bits hum huc huok.w.2 hx
    have hxenc : x.enc = { s.enc with ncodes := s.enc.ncodes + 1#32 + 1#32 } := by rw [hxe, huenc]
    have hxpix : x.pixmem = s.pixmem := by rw [hxe]; exact hupix
    have hnext : s.enc.next.toNat = 4096 := by
      have h1 := h.enc.next.2
      have h2 : ¬ u.enc.next.toNat ≤ 4095 := hfull
      rw [huenc] at h2
      show s.enc.next.toNat = 4096
      have h3 : ¬ s.enc.next.toNat ≤ 4095 := h2
      omega
    have hw12 : s.enc.w.toNat = 12 := by
      have h1 := h.enc.fits
      rw [h.enc.limit, hnext] at h1
      by_contra hc
      have : 2 ^ s.enc.w.toNat ≤ 2 ^ 11 := Nat.pow_le_pow_right (by decide) (by omega)
      omega
    have huw : u.enc.w.toNat = s.enc.w.toNat := by rw [huenc]
    have hwid : lzwWidth b (some ⟨table, c⟩) = 12 := by
      rw [← hwidth, hw12, if_neg (by omega)]
    have hclear : u.enc.clear.toNat = 2 ^ b := by rw [huenc]; show s.enc.clear.toNat = _; rw [h.enc.clear, h.depth]
    have hpow : 2 ^ b ≤ 2 ^ 8 := by
      rw [← h.depth]
      exact Nat.pow_le_pow_right (by decide) hbb.2
    obtain ⟨hok3, hnx3⟩ := encInitSession_encOk (s := x) (by rw [hxenc]; exact h.enc.bpp)
      (by rw [hxenc]; exact h.enc.clear) (by rw [hxenc]; exact h.enc.eoi)
    have hfresh : Fresh x b (out ++ c) (j + 1) := by
      refine clear_fresh (s := u) (se := ⟨table, c⟩) ?_ hxold ?_ ?_ hcur
      · rw [hxb, huw, hw12, hwid]
      · intro i hi
        rw [← hclear]
        exact hxnew i (by rw [huw, hw12]; rw [hwid] at hi; exact hi)
      · rw [hwid]
        omega
    have hiw : (encInitSession x).enc.w.toNat = b + 1 := by
      show (x.enc.bpp + 1#4).toNat = _
      have : x.enc.bpp.toNat = b := by rw [hxenc]; exact h.depth
      rw [h.depth] at hbb
      rw [BitVec.toNat_add, this]
      simp only [BitVec.toNat_ofNat]
      omega
    refine ⟨[], j + 1, ⟨⟨hxm.pixmem, hxm.codemem, Cells.wf_nil, hxm.dt, hxm.xstack⟩, ⟨hxc.ptr, hxc.cnt, hxc.acc⟩,
      ⟨hok3.bpp, hok3.clear, hok3.eoi, hok3.w, hok3.limit, hok3.next, hok3.fits⟩, ?_, ?_, SlotsOk.nil _ _ rfl,
      lzwString_raw hp, by simp, ?_, Or.inl ⟨rfl, hiw, ?_⟩, ?_⟩, ?_, ?_, ?_⟩
    · show x.enc.bpp.toNat = b
      rw [hxenc]
      exact h.depth
    · show (encInitSession x).enc.next.toNat = _
      rw [hnx3, hxenc]
      show s.enc.clear.toNat + 2 = _
      rw [h.enc.clear, h.depth]
      rfl
    · show 2 * (j + 1) ≤ x.writtenBits
      omega
    · intro f bits hxx
      exact hfresh f bits ⟨hxx.agree, hxx.long⟩
    · intro f bits hxx
      have hxx' : Extends x f bits := ⟨hxx.agree, hxx.long⟩
      exact h.opened f bits ((hxx'.back (s := u) (by omega) hxold).back (by omega) huold)
    · show x.enc.i = _
      rw [hxenc]
    · show x.enc.n = _
      rw [hxenc]
    · exact hxpix

/-- What a probe finds is a slot with its key (R143). -/
theorem stProbe_found {pre code index : BitVec 12} {suf : BitVec 8} {s : State} (h : stProbe pre suf s = some (code, index))
    (hc : code ≠ 0#12) : (s.readSlot index).code = code ∧ (s.readSlot index).pre = pre ∧ (s.readSlot index).suf = suf := by
  rcases stProbe_cases pre suf s with ⟨-, hn⟩ | ⟨k, -, -, hstop, hk⟩
  · rw [hn] at h
    cases h
  · rw [hk] at h
    simp only [Option.some.injEq, Prod.mk.injEq] at h
    obtain ⟨rfl, rfl⟩ := h
    unfold State.otherKey at hstop
    refine ⟨rfl, ?_⟩
    by_contra hne
    exact hstop ⟨hc, hne⟩

/-- E_STEP (R163). -/
theorem eStep_session {s t : State} {b : Nat} {table : List (List Byte)} {c out : List Byte} {j : Nat}
    (h : EncSession s b table c out j) (hpix : (List.range s.enc.i.toNat).map s.readPix = out ++ c)
    (hi : s.enc.i.toNat < s.enc.n.toNat) (hn : s.enc.n.toNat ≤ 2 ^ 24) (he : eStep s = .ok t) :
    ∃ table' c' out' j', EncSession t b table' c' out' j' ∧
      (List.range t.enc.i.toNat).map t.readPix = out' ++ c' ∧ t.enc.i.toNat = s.enc.i.toNat + 1 ∧
      t.enc.n = s.enc.n ∧ t.pixmem = s.pixmem := by
  have hi1 : (s.enc.i + 1#25).toNat = s.enc.i.toNat + 1 := by
    rw [BitVec.toNat_add]
    simp only [BitVec.toNat_ofNat]
    omega
  have hrange : (List.range (s.enc.i.toNat + 1)).map s.readPix = out ++ c ++ [s.readPix s.enc.i.toNat] := by
    rw [List.range_succ, List.map_append, hpix]
    rfl
  unfold eStep at he
  split at he
  · cases he
  · rename_i hlt
    have hp : (s.readPix s.enc.i.toNat).toNat < 2 ^ b := by
      rw [h.enc.clear, h.depth] at hlt
      omega
    split at he
    · cases he
    · rename_i code index hprobe
      obtain ⟨u, hu, he⟩ := bind_ok_iff.mp he
      obtain rfl := Except.ok.inj he
      unfold eLookup at hu
      split at hu
      · rename_i hc
        obtain rfl := Except.ok.inj hu
        obtain ⟨h1, h2, h3⟩ := stProbe_found hprobe hc
        obtain ⟨σ, hσ, hcode⟩ := h.slots index (by rw [h1]; exact hc)
        rw [h2, h.cur] at hσ
        obtain rfl := Option.some.inj hσ
        rw [h1, h3] at hcode
        refine ⟨table, c ++ [s.readPix s.enc.i.toNat], out, j,
          ⟨⟨h.mem.pixmem, h.mem.codemem, h.mem.st, h.mem.dt, h.mem.xstack⟩, ⟨h.cw.ptr, h.cw.cnt, h.cw.acc⟩,
            ⟨h.enc.bpp, h.enc.clear, h.enc.eoi, h.enc.w, h.enc.limit, h.enc.next, h.enc.fits⟩, h.depth, h.next,
            h.slots.congr rfl, hcode, by simp, h.fuel, ?_, fun f bits hx => h.opened f bits ⟨hx.agree, hx.long⟩⟩, ?_, hi1,
          rfl, rfl⟩
        · rcases h.session with ⟨rfl, -, -⟩ | ⟨se, hse, hlast, hw, hfol⟩
          · exfalso
            have hraw : code.toNat < 2 ^ b := by
              by_contra hcc
              obtain ⟨i, hi, -⟩ := lzwString_table hcode hcc
              exact absurd hi (by simp)
            unfold lzwString at hcode
            rw [if_pos hraw] at hcode
            have hl := congrArg List.length (Option.some.inj hcode)
            simp only [List.length_append, List.length_singleton] at hl
            have := List.length_pos_of_ne_nil h.nonempty
            omega
          · right
            refine ⟨se, ?_, hlast, hw, fun f bits hx => hfol f bits ⟨hx.agree, hx.long⟩⟩
            rw [hse, List.take_append_of_le_length (List.length_pos_of_ne_nil h.nonempty)]
        · show (List.range (s.enc.i + 1#25).toNat).map s.readPix = _
          rw [hi1, hrange, List.append_assoc]
      · obtain ⟨table', j', hS, hui, hun, hupix⟩ := eMiss_session h hp hu
        have hrd : u.readPix = s.readPix := by
          funext a
          simp only [State.readPix, hupix]
        refine ⟨table', [s.readPix s.enc.i.toNat], out ++ c, j',
          ⟨⟨hS.mem.pixmem, hS.mem.codemem, hS.mem.st, hS.mem.dt, hS.mem.xstack⟩, ⟨hS.cw.ptr, hS.cw.cnt, hS.cw.acc⟩,
            ⟨hS.enc.bpp, hS.enc.clear, hS.enc.eoi, hS.enc.w, hS.enc.limit, hS.enc.next, hS.enc.fits⟩, hS.depth, hS.next,
            hS.slots.congr rfl, hS.cur, hS.nonempty, hS.fuel, ?_, fun f bits hx => hS.opened f bits ⟨hx.agree, hx.long⟩⟩, ?_,
          by show (u.enc.i + 1#25).toNat = _; rw [hui, hi1],
          hun, hupix⟩
        · rcases hS.session with ⟨h1, h2, h3⟩ | ⟨se, h1, h2, h3, h4⟩
          · exact Or.inl ⟨h1, h2, fun f bits hx => h3 f bits ⟨hx.agree, hx.long⟩⟩
          · exact Or.inr ⟨se, h1, h2, h3, fun f bits hx => h4 f bits ⟨hx.agree, hx.long⟩⟩
        · show (List.range (u.enc.i + 1#25).toNat).map u.readPix = _
          rw [hui, hi1, hrd, hrange]

theorem eLoop_session (k : Nat) {s t : State} {b : Nat} {table : List (List Byte)} {c out : List Byte} {j : Nat}
    (h : EncSession s b table c out j) (hpix : (List.range s.enc.i.toNat).map s.readPix = out ++ c)
    (hi : s.enc.i.toNat ≤ s.enc.n.toNat) (hn : s.enc.n.toNat ≤ 2 ^ 24) (hk : s.enc.n.toNat ≤ s.enc.i.toNat + k)
    (he : eLoop k s = .ok t) :
    ∃ table' c' out' j', EncSession t b table' c' out' j' ∧
      (List.range s.enc.n.toNat).map s.readPix = out' ++ c' ∧ t.enc.n = s.enc.n ∧ t.pixmem = s.pixmem := by
  induction k generalizing s table c out j with
  | zero =>
    obtain rfl := Except.ok.inj he
    exact ⟨table, c, out, j, h, by rw [show s.enc.n.toNat = s.enc.i.toNat by omega]; exact hpix, rfl, rfl⟩
  | succ k ih =>
    unfold eLoop at he
    split at he
    · rename_i hlt
      obtain ⟨u, hu, he⟩ := bind_ok_iff.mp he
      obtain ⟨table1, c1, out1, j1, h1, hp1, hi1, hn1, hx1⟩ := eStep_session h hpix hlt hn hu
      obtain ⟨table2, c2, out2, j2, h2, hp2, hn2, hx2⟩ := ih h1 hp1 (by rw [hn1]; omega) (by rw [hn1]; exact hn)
        (by rw [hn1]; omega) he
      have hrd : u.readPix = s.readPix := by
        funext a
        simp only [State.readPix, hx1]
      rw [hn1, hrd] at hp2
      exact ⟨table2, c2, out2, j2, h2, hp2, hn2.trans hn1, hx2.trans hx1⟩
    · obtain rfl := Except.ok.inj he
      exact ⟨table, c, out, j, h, by rw [show s.enc.n.toNat = s.enc.i.toNat by omega]; exact hpix, rfl, rfl⟩

/-- The flush from the fact that it was: the stream's bits lie in CODEMEM, and the padding bits are 0 (R134). -/
theorem cwEnd_bits {s t : State} (hm : s.MemOk) (hs : s.CwOk) (h : cwEnd s = .ok t) :
    Extends s (streamBit t.codemem) (8 * t.cw.ptr.toNat) ∧
      ∀ k, s.writtenBits ≤ k → k < 8 * t.cw.ptr.toNat → streamBit t.codemem k = 0 := by
  have hroom : s.cw.cnt = 0#4 ∨ s.cw.ptr.toNat < s.codeCap := by
    by_contra hc
    rw [cwEnd_error (Nat.le_of_not_lt fun h => hc (Or.inr h)) fun h => hc (Or.inl h)] at h
    cases h
  obtain ⟨u, h1, -, -, -, h5, -, -, h8, h9, -⟩ := cwEnd_ok hm hs hroom
  rw [h1] at h
  obtain rfl := Except.ok.inj h
  refine ⟨⟨h8, ?_⟩, h9⟩
  show 8 * s.cw.ptr.toNat + s.cw.cnt.toNat ≤ 8 * u.cw.ptr.toNat
  have := hs.cnt
  omega

/-- The EOI that ends a stream, read at its own width or one bit wider (R95). -/
theorem lzwCodes_eoi {f : Nat → Nat} {bits b k p w : Nat} {st : Option LzwSession} (hw : lzwWidth b st = w ∨ lzwWidth b st = w + 1)
    (hcode : codeAt f p w = 2 ^ b + 1) (hpad : p + w < bits → f (p + w) = 0) :
    ∃ q, lzwCodes f bits b (k + 1) st p = some ([], q) := by
  simp only [lzwCodes]
  by_cases hex : bits < p + lzwWidth b st
  · rw [if_pos hex]
    exact ⟨_, rfl⟩
  · have hc : codeAt f p (lzwWidth b st) = 2 ^ b + 1 := by
      rcases hw with hw | hw
      · rw [hw, hcode]
      · rw [hw]
        simp only [codeAt]
        rw [hcode, hpad (by omega)]
        omega
    rw [if_neg hex, if_pos hc]
    exact ⟨_, rfl⟩

/-- The opening CLEAR (R162): the run starts with a stream that opens with CLEAR, and an empty session. -/
theorem eBegin_emit {s u : State} (hm : s.MemOk) (hb : 1 ≤ s.enc.bpp.toNat ∧ s.enc.bpp.toNat ≤ 8)
    (h : eEmit (eBegin s).enc.clear.toNat (eBegin s) = .ok u) :
    u.MemOk ∧ u.CwOk ∧ u.EncOk ∧ u.enc.bpp = s.enc.bpp ∧ u.enc.n = s.enc.n ∧ u.enc.w.toNat = s.enc.bpp.toNat + 1 ∧
      u.writtenBits = s.enc.bpp.toNat + 1 ∧ u.st = [] ∧ u.pixmem = s.pixmem ∧
      ∀ f bits, Extends u f bits → codeAt f 0 (s.enc.bpp.toNat + 1) = 2 ^ s.enc.bpp.toNat := by
  obtain ⟨m0, c0, e0, w0, b0, st0, k0, n0, bp0⟩ := eBegin_ok hm hb
  have hpm := (eBegin_setup s).pixmem
  generalize eBegin s = d at *
  obtain ⟨he, hum, huc, hub, -, hnew⟩ := eEmit_bits m0 c0 e0.w.2 h
  have henc : u.enc = { d.enc with ncodes := d.enc.ncodes + 1#32 } := congrArg State.enc he
  refine ⟨hum, huc, ?_, by rw [henc]; exact bp0, by rw [henc]; exact n0, by rw [henc]; exact w0, by rw [hub, b0, w0]; omega,
    by rw [he]; exact st0, by rw [he]; exact hpm, ?_⟩
  · constructor <;> rw [henc]
    exacts [e0.bpp, e0.clear, e0.eoi, e0.w, e0.limit, e0.next, e0.fits]
  · intro f bits hx
    have hcl : d.enc.clear.toNat = 2 ^ s.enc.bpp.toNat := by rw [e0.clear, bp0]
    have := codeAt_written hx hub hnew (by rw [hcl, w0, Nat.pow_succ]; have := Nat.two_pow_pos s.enc.bpp.toNat; omega)
    rw [b0, w0, hcl] at this
    exact this

/-- The state after E_INIT on a first pixel (R162). -/
theorem eInit_session {s t : State} (hm : s.MemOk) (hb : 1 ≤ s.enc.bpp.toNat ∧ s.enc.bpp.toNat ≤ 8)
    (hn : s.enc.n ≠ 0#25) (h : eInit s = .ok t) :
    ∃ c, EncSession t s.enc.bpp.toNat [] c [] 0 ∧ (List.range t.enc.i.toNat).map t.readPix = c ∧ t.enc.i = 1#25 ∧
      t.enc.n = s.enc.n ∧ t.pixmem = s.pixmem := by
  obtain ⟨u, hu, h⟩ := bind_ok_iff.mp h
  obtain ⟨hum, huc, hue, hub, hun, huw, hubits, hust, hupix, hopen⟩ := eBegin_emit hm hb hu
  rw [if_neg (by rw [hun]; exact hn)] at h
  unfold eSeed at h
  split at h
  · cases h
  · rename_i hlt
    obtain rfl := Except.ok.inj h
    have hp : (u.readPix 0).toNat < 2 ^ s.enc.bpp.toNat := by
      rw [hue.clear, hub] at hlt
      omega
    have hnext : u.enc.next.toNat = 2 ^ s.enc.bpp.toNat + 2 := by
      have h1 := (eEmit_enc hu).1
      rw [h1]
      have h2 := (encInitSession_encOk (s := s.setEnc { s.enc with
        clear := BitVec.ofNat 9 (2 ^ s.enc.bpp.toNat), eoi := BitVec.ofNat 9 (2 ^ s.enc.bpp.toNat + 1) }) hb
        (by have hpow : 2 ^ s.enc.bpp.toNat ≤ 2 ^ 8 := Nat.pow_le_pow_right (by decide) hb.2
            show (BitVec.ofNat 9 (2 ^ s.enc.bpp.toNat)).toNat = 2 ^ s.enc.bpp.toNat
            rw [BitVec.toNat_ofNat, Nat.mod_eq_of_lt (by omega)])
        (by have hpow : 2 ^ s.enc.bpp.toNat ≤ 2 ^ 8 := Nat.pow_le_pow_right (by decide) hb.2
            show (BitVec.ofNat 9 (2 ^ s.enc.bpp.toNat + 1)).toNat = (BitVec.ofNat 9 (2 ^ s.enc.bpp.toNat)).toNat + 1
            rw [BitVec.toNat_ofNat, BitVec.toNat_ofNat, Nat.mod_eq_of_lt (by omega), Nat.mod_eq_of_lt (by omega)])).2
      refine Eq.trans h2 ?_
      have hpow : 2 ^ s.enc.bpp.toNat ≤ 2 ^ 8 := Nat.pow_le_pow_right (by decide) hb.2
      show (BitVec.ofNat 9 (2 ^ s.enc.bpp.toNat)).toNat + 2 = _
      rw [BitVec.toNat_ofNat, Nat.mod_eq_of_lt (by omega)]
    refine ⟨[u.readPix 0], ⟨⟨hum.pixmem, hum.codemem, hum.st, hum.dt, hum.xstack⟩, ⟨huc.ptr, huc.cnt, huc.acc⟩,
      ⟨hue.bpp, hue.clear, hue.eoi, hue.w, hue.limit, hue.next, hue.fits⟩, by show u.enc.bpp.toNat = _; rw [hub], hnext,
      SlotsOk.nil _ _ hust, lzwString_raw hp, by simp, Nat.zero_le _, Or.inl ⟨rfl, huw, ?_⟩,
      fun f bits hx => hopen f bits ⟨hx.agree, hx.long⟩⟩, rfl, rfl, hun, hupix⟩
    intro f bits hx hlong x hxb hcode k r q hr
    have hwb : (u.setEnc { u.enc with cur := (u.readPix 0).setWidth 12, i := 1#25 }).writtenBits =
      s.enc.bpp.toNat + 1 := hubits
    rw [hwb] at hlong hcode hr
    simp only [lzwCodes, lzwWidth, hcode]
    rw [if_neg (by omega), if_neg (by omega), if_neg (by omega), if_pos hxb, hr]
    rfl

/-- The stream of a run of ENC_RUN that raises nothing spells the pixels it read (R93, R169). -/
theorem encRun_stream {b : BitVec 4} {n : Nat} {s t : State} (hm : s.MemOk) (hb : legalBpp b) (hn : n ≤ s.pixCap)
    (h : encRun b n s = .ok t) :
    ∃ q, lzwStream (streamBit t.codemem) (8 * t.cw.ptr.toNat) b.toNat = some ((List.range n).map s.readPix, q) := by
  have hpc : s.pixCap ≤ 2 ^ 24 := pixCap_le s
  have hnn : (BitVec.ofNat 25 n).toNat = n := by
    rw [BitVec.toNat_ofNat]
    omega
  have hm0 : (s.setEnc { s.enc with bpp := b, n := BitVec.ofNat 25 n }).MemOk :=
    ⟨hm.pixmem, hm.codemem, hm.st, hm.dt, hm.xstack⟩
  obtain ⟨u, hu, h⟩ := bind_ok_iff.mp h
  obtain ⟨v, hv, h⟩ := bind_ok_iff.mp h
  obtain ⟨w, hw, h⟩ := bind_ok_iff.mp h
  obtain rfl := Except.ok.inj h
  show ∃ q, lzwStream (streamBit w.codemem) (8 * w.cw.ptr.toNat) b.toNat = _
  by_cases hz : n = 0
  · subst hz
    obtain rfl : u = v := Except.ok.inj hv
    obtain ⟨d, hd, hu⟩ := bind_ok_iff.mp hu
    obtain ⟨hdm, hdc, hde, hdb, hdn, hdw, hdbits, -, -, hopen⟩ := eBegin_emit hm0 hb hd
    have hd0 : d.enc.n = 0#25 := hdn
    rw [if_pos hd0] at hu
    obtain ⟨x, hx, hu⟩ := bind_ok_iff.mp hu
    obtain ⟨y, hy, hu⟩ := bind_ok_iff.mp hu
    obtain rfl := Except.ok.inj hu
    have hyn : y.enc.n = 0#25 := by
      have h1 : y.enc.n = x.enc.n := by rw [(cwEnd_frame hy).eq]
      rw [h1, (eEmit_enc hx).1]
      exact hd0
    unfold eFinish at hw
    rw [if_pos (by exact hyn)] at hw
    obtain rfl := Except.ok.inj hw
    obtain ⟨-, hxm, hxc, hxb, hxold, hxnew⟩ := eEmit_bits hdm hdc hde.w.2 hx
    obtain ⟨hext, hpad⟩ := cwEnd_bits hxm hxc hy
    have hdb' : d.enc.bpp = b := hdb
    have hdw' : d.enc.w.toNat = b.toNat + 1 := hdw
    have hdbits' : d.writtenBits = b.toNat + 1 := hdbits
    have hbb : 1 ≤ b.toNat := hb.1
    have hpow : 2 ^ 1 ≤ 2 ^ b.toNat := Nat.pow_le_pow_right (by decide) hbb
    have hcode := codeAt_written hext hxb hxnew (by
      rw [hde.eoi, hde.clear, hdb', hdw', Nat.pow_succ]
      omega)
    rw [hde.eoi, hde.clear, hdb', hdbits', hdw'] at hcode
    have hop := hopen _ _ (hext.back (by omega) hxold)
    have hop' : codeAt (streamBit y.codemem) 0 (b.toNat + 1) = 2 ^ b.toNat := hop
    have hlong := hext.long
    obtain ⟨q, hq⟩ := lzwCodes_eoi (bits := 8 * y.cw.ptr.toNat) (b := b.toNat) (k := 8 * y.cw.ptr.toNat / 2) (st := none)
      (w := b.toNat + 1)
      (Or.inl rfl) hcode (fun hlt => hpad _ (by omega) hlt)
    refine ⟨q, ?_⟩
    show lzwStream (streamBit y.codemem) (8 * y.cw.ptr.toNat) b.toNat = _
    unfold lzwStream
    rw [if_neg (by omega), if_pos hop', hq]
    rfl
  · have hn0 : (s.setEnc { s.enc with bpp := b, n := BitVec.ofNat 25 n }).enc.n ≠ 0#25 := by
      intro e
      have e : BitVec.ofNat 25 n = 0#25 := e
      rw [← hnn, e] at hz
      exact hz rfl
    obtain ⟨c0, hS0, hp0, hi0, hun, hupix⟩ := eInit_session hm0 hb hn0 hu
    have hunn : u.enc.n.toNat = n := by rw [hun]; exact hnn
    obtain ⟨table, c, out, j, hS, hpix, hvn, hvpix⟩ := eLoop_session n hS0 (by rw [hp0]; rfl)
      (by rw [hi0, hunn]; show 1 ≤ n; omega) (by rw [hunn]; omega) (by rw [hunn]; omega) hv
    have hrd : u.readPix = s.readPix := by
      funext a
      simp only [State.readPix, hupix]
      rfl
    rw [hunn, hrd] at hpix
    have hS : EncSession v b.toNat table c out j := hS
    have hvb : v.enc.bpp.toNat = b.toNat := hS.depth
    have hvn0 : v.enc.n ≠ 0#25 := by
      rw [hvn, hun]
      exact hn0
    unfold eFinish at hw
    rw [if_neg hvn0] at hw
    obtain ⟨x, hx, hw⟩ := bind_ok_iff.mp hw
    obtain ⟨y, hy, hw⟩ := bind_ok_iff.mp hw
    obtain ⟨hxe, hxm, hxc, hxb, hxold, hxnew⟩ := eEmit_bits hS.mem hS.cw hS.enc.w.2 hx
    have hxenc : x.enc = { v.enc with ncodes := v.enc.ncodes + 1#32 } := congrArg State.enc hxe
    have hxw : x.enc.w = v.enc.w := by rw [hxenc]
    have hxeoi : x.enc.eoi.toNat = 2 ^ b.toNat + 1 := by
      rw [hxenc]
      show v.enc.eoi.toNat = _
      rw [hS.enc.eoi, hS.enc.clear, hvb]
    obtain ⟨-, hym, hyc, hyb, hyold, hynew⟩ := eEmit_bits hxm hxc (by rw [hxw]; exact hS.enc.w.2) hy
    obtain ⟨hext, hpad⟩ := cwEnd_bits hym hyc hw
    have hextx := hext.back (s := x) (by omega) hyold
    have hfol := emit_cur hS hx _ _ hextx
    have hop := hS.opened _ _ (hextx.back (by omega) hxold)
    have hwv := hS.enc.w
    have hbb : 1 ≤ b.toNat := hb.1
    have hpow : 2 ^ 1 ≤ 2 ^ b.toNat := Nat.pow_le_pow_right (by decide) hbb
    have hpw : 2 ^ (b.toNat + 1) ≤ 2 ^ v.enc.w.toNat := Nat.pow_le_pow_right (by decide) (by omega)
    have hcode := codeAt_written hext hyb hynew (by
      rw [hxeoi, hxw]
      rw [Nat.pow_succ] at hpw
      omega)
    rw [hxeoi, hxw] at hcode
    have hwid : lzwWidth b.toNat (some ⟨table, c⟩) = v.enc.w.toNat ∨
        lzwWidth b.toNat (some ⟨table, c⟩) = v.enc.w.toNat + 1 := by
      rw [← width_after hS]
      split
      · exact Or.inr rfl
      · exact Or.inl rfl
    have hlong := hext.long
    have hfuel := hS.fuel
    rw [hxw] at hyb
    obtain ⟨q, hq⟩ := lzwCodes_eoi (bits := 8 * w.cw.ptr.toNat) (k := 8 * w.cw.ptr.toNat / 2 - (j + 1)) hwid hcode
      (fun hlt => hpad _ (by omega) hlt)
    refine ⟨q, ?_⟩
    unfold lzwStream
    rw [if_neg (by omega), if_pos hop,
      show 8 * w.cw.ptr.toNat / 2 + 1 = 8 * w.cw.ptr.toNat / 2 - (j + 1) + 1 + (j + 1) by omega, hfol _ _ _ hq, hpix]
    simp

end Sys2Proof.Machine
end

