-- ==== Sys2Proof/Laws/GreedyLzw.lean ====
section
/-! SUPPORT. The encoder against the greedy encoder over lists: what one code written, one probe and one pixel consumed do
to the codes written so far and to the table (R163 to R165 against `lzwEncodeFrom`). -/

namespace Sys2Proof.Machine

/-! ## The codes written so far -/

/-- The stream holds exactly these codes, one after the other. -/
structure Written (s : State) (done : List (Nat × Nat)) : Prop where
  mem : s.MemOk
  cw : s.CwOk
  bits : s.writtenBits = codesBits done
  packed : ∀ before after c w, done = before ++ (c, w) :: after → ∀ k < w,
    s.writtenBit (codesBits before + k) = c / 2 ^ k % 2

theorem codesBits_append (xs ys : List (Nat × Nat)) : codesBits (xs ++ ys) = codesBits xs + codesBits ys := by
  simp [codesBits]

theorem codesBits_cons (c w : Nat) (xs : List (Nat × Nat)) : codesBits ((c, w) :: xs) = w + codesBits xs := by
  simp [codesBits]

/-- Only the writer and its bytes matter. -/
theorem Written.congr {s t : State} {done : List (Nat × Nat)} (h : Written s done) (hm : t.MemOk) (hc : t.cw = s.cw)
    (hb : t.codemem = s.codemem) (hl : t.codeLast = s.codeLast) : Written t done := by
  refine ⟨hm, ⟨?_, ?_, ?_⟩, ?_, ?_⟩
  · rw [State.codeCap, hc, hl]
    exact h.cw.ptr
  · rw [hc]
    exact h.cw.cnt
  · rw [hc]
    exact h.cw.acc
  · rw [State.writtenBits, hc]
    exact h.bits
  · intro before after c w hd k hk
    rw [State.writtenBit, hc, hb]
    exact h.packed before after c w hd k hk

/-- The last element of a list with one more element is that one, or lies in the list. -/
theorem append_singleton_split {α : Type} {xs before after : List α} {x y : α} (h : xs ++ [x] = before ++ y :: after) :
    (before = xs ∧ y = x ∧ after = []) ∨ ∃ rest, xs = before ++ y :: rest ∧ after = rest ++ [x] := by
  rcases List.eq_nil_or_concat after with rfl | ⟨rest, z, rfl⟩
  · left
    have := List.append_inj' h (by simp)
    simp only [List.cons.injEq, and_true] at this
    exact ⟨this.1.symm, this.2.symm, rfl⟩
  · right
    simp only [List.concat_eq_append] at h ⊢
    rw [← List.cons_append, ← List.append_assoc] at h
    have := List.append_inj' h (by simp)
    simp only [List.cons.injEq, and_true] at this
    exact ⟨rest, this.1, by rw [this.2]⟩

/-- A code is written at the end of the stream, or the stream does not fit. -/
theorem eEmit_cases (c : Nat) {s : State} {done : List (Nat × Nat)} (h : Written s done) (hw : s.enc.w.toNat ≤ 12) :
    (∃ t, eEmit c s = .ok t ∧ Written t (done ++ [(c, s.enc.w.toNat)]) ∧
      t = { s with cw := t.cw, codemem := t.codemem, enc := { s.enc with ncodes := s.enc.ncodes + 1#32 } }) ∨
    (eEmit c s = .error ⟨.codeOverflow, s.codeCap⟩ ∧ s.codeCap < codesBits (done ++ [(c, s.enc.w.toNat)]) / 8) := by
  have hbits : 8 * s.cw.ptr.toNat + s.cw.cnt.toNat = codesBits done := h.bits
  have hlast : codesBits (done ++ [(c, s.enc.w.toNat)]) = codesBits done + s.enc.w.toNat := by
    rw [codesBits_append]
    simp [codesBits]
  by_cases hroom : s.cw.ptr.toNat + (s.cw.cnt.toNat + s.enc.w.toNat) / 8 ≤ s.codeCap
  · left
    obtain ⟨u, h1, -⟩ := cwWrite_ok (code := c) h.mem h.cw hw hroom
    have he : eEmit c s = .ok (u.setEnc { u.enc with ncodes := u.enc.ncodes + 1#32 }) := by
      simp only [eEmit, h1, ok_bind]
    obtain ⟨h2, h3, h4, h5, h6, h7⟩ := eEmit_bits h.mem h.cw hw he
    refine ⟨_, he, ⟨h3, h4, by rw [h5, hlast, h.bits], ?_⟩, h2⟩
    intro before after c' w' hd k hk
    rcases append_singleton_split hd with ⟨rfl, e, -⟩ | ⟨rest, rfl, -⟩
    · simp only [Prod.mk.injEq] at e
      obtain ⟨rfl, rfl⟩ := e
      rw [← h.bits, h7 k hk, Nat.shiftRight_eq_div_pow]
    · have hlt : codesBits before + k < s.writtenBits := by
        rw [h.bits, codesBits_append, codesBits_cons]
        omega
      rw [h6 _ hlt]
      exact h.packed before rest c' w' rfl k hk
  · right
    refine ⟨?_, by rw [hlast]; omega⟩
    simp only [eEmit, cwWrite_error h.cw.ptr (Nat.lt_of_not_le hroom), error_bind]

/-! ## The table -/

/-- What the slots say of a table of strings: every entry has a slot, every occupied slot holds an entry, and the probe of
a slot's key ends at that slot. The strings are distinct and none is a single pixel. -/
structure TableHolds (s : State) (b : Nat) (table : List (List Byte)) : Prop where
  slots : SlotsOk s b table
  reach : ∀ i, (s.readSlot i).code ≠ 0#12 →
    stProbe (s.readSlot i).pre (s.readSlot i).suf s = some ((s.readSlot i).code, i)
  present : ∀ j < table.length, ∃ i, (s.readSlot i).code.toNat = 2 ^ b + 2 + j
  few : s.st.length ≤ table.length
  nodup : table.Nodup
  long : ∀ σ ∈ table, 2 ≤ σ.length

theorem TableHolds.nil {s : State} (b : Nat) (e : s.st = []) : TableHolds s b [] := by
  refine ⟨SlotsOk.nil b [] e, ?_, by simp, by rw [e]; simp, by simp, by simp⟩
  intro i hi
  simp only [State.readSlot, e] at hi
  exact absurd rfl hi

/-- A probe reads the slots and nothing else. -/
theorem stProbe_congr {s t : State} (h : t.st = s.st) (pre : BitVec 12) (suf : BitVec 8) :
    stProbe pre suf t = stProbe pre suf s := by
  have hr : ∀ i, t.readSlot i = s.readSlot i := fun i => by simp only [State.readSlot, h]
  unfold stProbe
  generalize Config.stSlots = n, stHash pre suf = i
  induction n generalizing i with
  | zero => rfl
  | succ n ih => simp only [stProbeFrom, hr, ih]

theorem TableHolds.congr {s t : State} {b : Nat} {table : List (List Byte)} (h : TableHolds s b table) (e : t.st = s.st) :
    TableHolds t b table := by
  have hr : ∀ i, t.readSlot i = s.readSlot i := fun i => by simp only [State.readSlot, e]
  refine ⟨h.slots.congr e, ?_, ?_, by rw [e]; exact h.few, h.nodup, h.long⟩
  · intro i hi
    rw [hr] at hi ⊢
    rw [stProbe_congr e]
    exact h.reach i hi
  · intro j hj
    obtain ⟨i, hi⟩ := h.present j hj
    exact ⟨i, by rw [hr]; exact hi⟩

/-- A string has one code: its own pixel, or its entry's. -/
theorem lzwString_code {b : Nat} {table : List (List Byte)} {c : Nat} {σ : List Byte} (hb : b ≤ 8) (hn : table.Nodup)
    (hl : ∀ τ ∈ table, 2 ≤ τ.length) (h : lzwString b table c = some σ) : c = lzwCodeOf b table σ := by
  by_cases hc : c < 2 ^ b
  · unfold lzwString at h
    rw [if_pos hc] at h
    obtain rfl := Option.some.inj h
    have : 2 ^ b ≤ 2 ^ 8 := Nat.pow_le_pow_right (by decide) hb
    show c = (BitVec.ofNat 8 c).toNat
    rw [BitVec.toNat_ofNat]
    omega
  · obtain ⟨j, hj, rfl, rfl⟩ := lzwString_table h hc
    have h2 := hl _ (List.getElem_mem hj)
    have : lzwCodeOf b table table[j] = 2 ^ b + 2 + table.idxOf table[j] := by
      unfold lzwCodeOf
      split
      · rename_i e
        rw [e] at h2
        simp at h2
      · rfl
    rw [this, hn.idxOf_getElem j hj]
    rfl

/-- The probe of a string and a pixel: the code of the longer string if the table has it, an empty slot if not. -/
theorem probe_table {s : State} {b : Nat} {table : List (List Byte)} {cur : List Byte} {code : BitVec 12} {p : Byte}
    (hb : b ≤ 8) (h : TableHolds s b table) (hroom : table.length < Config.stSlots) (hcur : cur ≠ [])
    (hc : lzwString b table code.toNat = some cur) :
    (cur ++ [p] ∈ table ∧ ∃ c i, c ≠ 0#12 ∧ stProbe code p s = some (c, i) ∧
      lzwString b table c.toNat = some (cur ++ [p])) ∨
    (cur ++ [p] ∉ table ∧ ∃ i, stProbe code p s = some (0#12, i)) := by
  by_cases hin : cur ++ [p] ∈ table
  · left
    refine ⟨hin, ?_⟩
    obtain ⟨j, hj, he⟩ := List.getElem_of_mem hin
    obtain ⟨i, hi⟩ := h.present j hj
    have hne : (s.readSlot i).code ≠ 0#12 := by
      intro e
      rw [e] at hi
      have := Nat.two_pow_pos b
      simp only [BitVec.toNat_ofNat] at hi
      omega
    obtain ⟨σ, h1, h2⟩ := h.slots i hne
    have hstr : lzwString b table (2 ^ b + 2 + j) = some (cur ++ [p]) := by
      unfold lzwString
      rw [if_neg (by omega), if_neg (by omega), show 2 ^ b + 2 + j - (2 ^ b + 2) = j by omega,
        List.getElem?_eq_getElem hj, he]
    have h2' := h2
    rw [hi, hstr] at h2
    obtain ⟨rfl, hsuf⟩ := List.append_inj' (Option.some.inj h2) (by simp)
    have hsuf : p = (s.readSlot i).suf := by simpa using hsuf
    have hpre : (s.readSlot i).pre = code := by
      apply BitVec.eq_of_toNat_eq
      rw [lzwString_code hb h.nodup h.long h1, lzwString_code hb h.nodup h.long hc]
    refine ⟨(s.readSlot i).code, i, hne, ?_, ?_⟩
    · have := h.reach i hne
      rw [hpre, ← hsuf] at this
      exact this
    · rw [h2', ← hsuf]
  · right
    refine ⟨hin, ?_⟩
    obtain ⟨⟨c, i⟩, hp⟩ := stProbe_isSome (pre := code) (suf := p) (s := s) (Nat.lt_of_le_of_lt h.few hroom)
    by_cases hc0 : c = 0#12
    · exact ⟨i, by rw [hp, hc0]⟩
    · exfalso
      obtain ⟨e1, e2, e3⟩ := stProbe_found hp hc0
      obtain ⟨σ, h1, h2⟩ := h.slots i (by rw [e1]; exact hc0)
      rw [e2, hc] at h1
      obtain rfl := Option.some.inj h1
      rw [e1, e3] at h2
      have hraw : ¬ c.toNat < 2 ^ b := by
        intro hr
        unfold lzwString at h2
        rw [if_pos hr] at h2
        have := congrArg List.length (Option.some.inj h2)
        have := List.length_pos_of_ne_nil hcur
        simp only [List.length_append, List.length_singleton] at *
        omega
      obtain ⟨j, hj, -, e⟩ := lzwString_table h2 hraw
      exact hin (by rw [e]; exact List.getElem_mem hj)

/-- A probe that ended at an empty slot passed over nothing but other keys (R143). -/
theorem stProbe_empty {pre index : BitVec 12} {suf : BitVec 8} {s : State} (h : stProbe pre suf s = some (0#12, index)) :
    (s.readSlot index).code = 0#12 ∧ ∃ k < Config.stSlots, probeSlot (stHash pre suf) k = index ∧
      ∀ j < k, s.otherKey pre suf (probeSlot (stHash pre suf) j) := by
  rcases stProbe_cases pre suf s with ⟨-, hn⟩ | ⟨k, hk, hpass, -, he⟩
  · rw [hn] at h
    cases h
  · rw [he] at h
    simp only [Option.some.injEq, Prod.mk.injEq] at h
    obtain ⟨h1, rfl⟩ := h
    exact ⟨h1, k, hk, rfl, hpass⟩

/-- Entering a new string (R164): the slots hold the longer table. -/
theorem tableHolds_enter {s : State} {b : Nat} {table : List (List Byte)} {cur : List Byte} {code next index : BitVec 12}
    {p : Byte} (hm : s.MemOk) (h : TableHolds s b table) (hcur : cur ≠ [])
    (hc : lzwString b table code.toNat = some cur) (hnew : cur ++ [p] ∉ table) (hn : next.toNat = lzwNext b table)
    (hp : stProbe code p s = some (0#12, index)) :
    TableHolds (stWrite index code p next s) b (table ++ [cur ++ [p]]) := by
  obtain ⟨hempty, k, hk, hki, hpass⟩ := stProbe_empty hp
  have hnx : lzwNext b table = 2 ^ b + 2 + table.length := rfl
  have hne : next ≠ 0#12 := by
    intro e
    rw [e, hnx] at hn
    have := Nat.two_pow_pos b
    simp only [BitVec.toNat_ofNat] at hn
    omega
  have hread : ∀ i, (stWrite index code p next s).readSlot i = if i = index then ⟨next, code, p⟩ else s.readSlot i :=
    fun i => readSlot_write hm
  have hstr : lzwString b (table ++ [cur ++ [p]]) next.toNat = some (cur ++ [p]) := by
    unfold lzwString
    rw [if_neg (by omega), if_neg (by omega), hn, hnx, show 2 ^ b + 2 + table.length - (2 ^ b + 2) = table.length by omega]
    simp
  have hother : ∀ pre suf i, s.otherKey pre suf i → (stWrite index code p next s).otherKey pre suf i := by
    intro pre suf i hi
    have : i ≠ index := by
      rintro rfl
      exact hi.1 hempty
    unfold State.otherKey
    rw [hread, if_neg this]
    exact hi
  refine ⟨?_, ?_, ?_, ?_, ?_, ?_⟩
  · intro i hi
    rw [hread] at hi ⊢
    by_cases hii : i = index
    · rw [if_pos hii]
      exact ⟨cur, lzwString_append hc, hstr⟩
    · rw [if_neg hii] at hi ⊢
      obtain ⟨σ, h1, h2⟩ := h.slots i hi
      exact ⟨σ, lzwString_append h1, lzwString_append h2⟩
  · intro i hi
    have hstop : ∀ pre suf, ((stWrite index code p next s).readSlot i).pre = pre →
        ((stWrite index code p next s).readSlot i).suf = suf → ¬ (stWrite index code p next s).otherKey pre suf i :=
      fun pre suf h1 h2 ho => ho.2 ⟨h1, h2⟩
    by_cases hii : i = index
    · have e1 : ((stWrite index code p next s).readSlot i).pre = code := by rw [hread, if_pos hii]
      have e2 : ((stWrite index code p next s).readSlot i).suf = p := by rw [hread, if_pos hii]
      have hs := stProbeFrom_found (s := stWrite index code p next s) (n := Config.stSlots) hk
        (fun j hj => hother code p _ (hpass j hj)) (by rw [hki.trans hii.symm]; exact hstop code p e1 e2)
      rw [hki.trans hii.symm] at hs
      rw [e1, e2]
      exact hs
    · have e : (stWrite index code p next s).readSlot i = s.readSlot i := by rw [hread, if_neg hii]
      rw [e] at hi ⊢
      have hr := h.reach i hi
      rcases stProbe_cases (s.readSlot i).pre (s.readSlot i).suf s with ⟨-, hnone⟩ | ⟨k', hk', hpass', -, he'⟩
      · rw [hnone] at hr
        cases hr
      · rw [he'] at hr
        simp only [Option.some.injEq, Prod.mk.injEq] at hr
        have hs := stProbeFrom_found (s := stWrite index code p next s) (n := Config.stSlots) hk'
          (fun j hj => hother _ _ _ (hpass' j hj)) (by
            rw [hr.2]
            exact hstop _ _ (by rw [e]) (by rw [e]))
        rw [hr.2, e] at hs
        exact hs
  · intro j hj
    by_cases hjl : j < table.length
    · obtain ⟨i, hi⟩ := h.present j hjl
      refine ⟨i, ?_⟩
      have : i ≠ index := by
        rintro rfl
        rw [hempty] at hi
        have := Nat.two_pow_pos b
        simp only [BitVec.toNat_ofNat] at hi
        omega
      rw [hread, if_neg this]
      exact hi
    · refine ⟨index, ?_⟩
      simp only [List.length_append, List.length_singleton] at hj
      rw [hread, if_pos rfl]
      show next.toNat = _
      rw [hn, hnx]
      omega
  · show (Cells.write StSlot.empty s.st index.toNat ⟨next, code, p⟩).length ≤ _
    have := Cells.length_write_le (default := StSlot.empty) s.st index.toNat ⟨next, code, p⟩
    have := h.few
    simp only [List.length_append, List.length_singleton]
    omega
  · rw [List.nodup_append]
    refine ⟨h.nodup, by simp, ?_⟩
    intro x hx y hy e
    simp only [List.mem_singleton] at hy
    rw [e, hy] at hx
    exact hnew hx
  · intro σ hσ
    rcases List.mem_append.mp hσ with h1 | h1
    · exact h.long σ h1
    · simp only [List.mem_singleton] at h1
      rw [h1]
      have := List.length_pos_of_ne_nil hcur
      simp only [List.length_append, List.length_singleton]
      omega

/-! ## The width -/

/-- The width of an empty session (R93). -/
theorem lzwOutWidth_nil {b : Nat} (hb : 1 ≤ b ∧ b ≤ 8) : lzwOutWidth b [] = b + 1 := by
  have h : Nat.clog 2 (lzwNext b []) ≤ b + 1 := by
    rw [Nat.clog_le_iff_le_pow (by decide), lzwNext, Nat.pow_succ]
    have : 2 ^ 1 ≤ 2 ^ b := Nat.pow_le_pow_right (by decide) hb.1
    simp only [List.length_nil]
    omega
  unfold lzwOutWidth
  omega

/-- The width grows exactly when the next free code passes the limit (R164). -/
theorem lzwOutWidth_grow {b w : Nat} {table : List (List Byte)} {σ : List Byte} (hb : b ≤ 8) (hw : w = lzwOutWidth b table)
    (hfit : lzwNext b table ≤ 2 ^ w) (hn : lzwNext b table ≤ 4095) :
    lzwOutWidth b (table ++ [σ]) = if 2 ^ w < lzwNext b table + 1 ∧ w < 12 then w + 1 else w := by
  have hn1 : lzwNext b (table ++ [σ]) = lzwNext b table + 1 := by
    simp only [lzwNext, List.length_append, List.length_singleton]
    omega
  have hmono : Nat.clog 2 (lzwNext b table) ≤ Nat.clog 2 (lzwNext b table + 1) := Nat.clog_mono_right 2 (Nat.le_succ _)
  have h12 : Nat.clog 2 (lzwNext b table + 1) ≤ 12 := by
    rw [Nat.clog_le_iff_le_pow (by decide)]
    omega
  unfold lzwOutWidth at *
  rw [hn1]
  by_cases h : lzwNext b table = 2 ^ w
  · have h1 : w < Nat.clog 2 (lzwNext b table + 1) := by
      rw [Nat.lt_clog_iff_pow_lt (by decide)]
      omega
    have h2 : Nat.clog 2 (lzwNext b table + 1) ≤ w + 1 := by
      rw [Nat.clog_le_iff_le_pow (by decide), Nat.pow_succ, h]
      have := Nat.two_pow_pos w
      omega
    rw [if_pos ⟨by omega, by omega⟩]
    omega
  · have h1 : Nat.clog 2 (lzwNext b table + 1) ≤ w := by
      rw [Nat.clog_le_iff_le_pow (by decide)]
      omega
    rw [if_neg (by omega)]
    omega

/-! ## One pixel -/

/-- The encoder and the greedy encoder at a micro-step boundary: the table, the current string, and the codes written. -/
structure Greedy (s : State) (b : Nat) (table : List (List Byte)) (cur : List Byte) (done : List (Nat × Nat)) : Prop where
  written : Written s done
  enc : s.EncOk
  depth : s.enc.bpp.toNat = b
  next : s.enc.next.toNat = lzwNext b table
  width : s.enc.w.toNat = lzwOutWidth b table
  count : s.enc.ncodes = BitVec.ofNat 32 done.length
  holds : TableHolds s b table
  nonempty : cur ≠ []
  cur : lzwString b table s.enc.cur.toNat = some cur

/-- The code of the current string. -/
theorem Greedy.code {s : State} {b : Nat} {table : List (List Byte)} {cur : List Byte} {done : List (Nat × Nat)}
    (h : Greedy s b table cur done) : s.enc.cur.toNat = lzwCodeOf b table cur :=
  lzwString_code (by rw [← h.depth]; exact h.enc.bpp.2) h.holds.nodup h.holds.long h.cur

theorem Greedy.room {s : State} {b : Nat} {table : List (List Byte)} {cur : List Byte} {done : List (Nat × Nat)}
    (h : Greedy s b table cur done) : table.length < Config.stSlots := by
  have := h.enc.next.2
  rw [h.next, lzwNext] at this
  have := Nat.two_pow_pos b
  show table.length < 4096
  omega

/-- The greedy encoder ends with the current string and EOI, whatever comes before them. -/
theorem lzwEncodeFrom_two (b : Nat) (ps : List Byte) (table : List (List Byte)) (cur : List Byte) :
    2 ≤ (lzwEncodeFrom b table cur ps).length := by
  induction ps generalizing table cur with
  | nil => simp [lzwEncodeFrom]
  | cons p ps ih =>
    simp only [lzwEncodeFrom]
    split
    · exact ih _ _
    · split
      · exact Nat.le_succ_of_le (ih _ _)
      · exact Nat.le_succ_of_le (Nat.le_succ_of_le (ih _ _))

theorem dropLast_two_append {α : Type} (xs : List α) {ys : List α} (h : 2 ≤ ys.length) :
    (xs ++ ys).dropLast.dropLast = xs ++ ys.dropLast.dropLast := by
  rw [List.dropLast_append_of_ne_nil (by rintro rfl; simp at h), List.dropLast_append_of_ne_nil]
  intro e
  have := congrArg List.length e
  simp only [List.length_dropLast, List.length_nil] at this
  omega

theorem codesBits_dropLast (xs : List (Nat × Nat)) : codesBits xs.dropLast ≤ codesBits xs := by
  rcases List.eq_nil_or_concat xs with rfl | ⟨ys, x, rfl⟩
  · exact Nat.le_refl _
  · rw [List.concat_eq_append, List.dropLast_concat, codesBits_append]
    omega

/-- The codes before the current string and EOI take no more bits than all of them. -/
theorem codesBits_before_le (done rest : List (Nat × Nat)) :
    codesBits (done ++ rest.dropLast.dropLast) ≤ codesBits (done ++ rest) := by
  rw [codesBits_append, codesBits_append]
  exact Nat.add_le_add_left (Nat.le_trans (codesBits_dropLast _) (codesBits_dropLast _)) _

/-- The miss case (R164). -/
theorem eMiss_greedy {s : State} {b : Nat} {table : List (List Byte)} {cur : List Byte} {done : List (Nat × Nat)} {p : Byte}
    {index : BitVec 12} (ps : List Byte) (h : Greedy s b table cur done) (hp : p.toNat < 2 ^ b) (hnew : cur ++ [p] ∉ table)
    (hprobe : stProbe s.enc.cur p s = some (0#12, index)) :
    (∃ t table' done', eMiss p index s = .ok t ∧ Greedy t b table' [p] done' ∧
      done ++ lzwEncodeFrom b table cur (p :: ps) = done' ++ lzwEncodeFrom b table' [p] ps ∧
      t.enc.i = s.enc.i ∧ t.enc.n = s.enc.n ∧ t.pixmem = s.pixmem ∧ t.codeLast = s.codeLast) ∨
    (eMiss p index s = .error ⟨.codeOverflow, s.codeCap⟩ ∧
      s.codeCap < codesBits (done ++ (lzwEncodeFrom b table cur (p :: ps)).dropLast.dropLast) / 8) := by
  have hbb := h.enc.bpp
  rw [h.depth] at hbb
  have hcode := h.code
  have henc : lzwEncodeFrom b table cur (p :: ps) = (s.enc.cur.toNat, s.enc.w.toNat) ::
      if lzwNext b table ≤ 4095 then lzwEncodeFrom b (table ++ [cur ++ [p]]) [p] ps
      else (2 ^ b, s.enc.w.toNat) :: lzwEncodeFrom b [] [p] ps := by
    rw [hcode, h.width]
    simp only [lzwEncodeFrom, if_neg hnew]
  rw [henc]
  rcases eEmit_cases s.enc.cur.toNat h.written h.enc.w.2 with ⟨u, hu, huw, hue⟩ | ⟨he, hlt⟩
  · have huenc : u.enc = { s.enc with ncodes := s.enc.ncodes + 1#32 } := (by rw [hue])
    have hust : u.st = s.st := (by rw [hue])
    have hupix : u.pixmem = s.pixmem := (by rw [hue])
    have hucl : u.codeLast = s.codeLast := (by rw [hue])
    have huok : u.EncOk := by
      have := h.enc
      constructor <;> rw [huenc]
      exacts [this.bpp, this.clear, this.eoi, this.w, this.limit, this.next, this.fits]
    have hucnt : u.enc.ncodes = BitVec.ofNat 32 (done ++ [(s.enc.cur.toNat, s.enc.w.toNat)]).length := by
      rw [huenc, List.length_append, List.length_singleton, BitVec.ofNat_add, ← h.count]
    have hut : TableHolds u b table := h.holds.congr hust
    by_cases hfull : lzwNext b table ≤ 4095
    · left
      have hfull' : u.enc.next.toNat ≤ Config.maxCode := by rw [huenc]; show s.enc.next.toNat ≤ 4095; rw [h.next]; exact hfull
      obtain ⟨hok, hnx, henc2⟩ := eInsert_encOk (p := p) (i := index) huok hfull'
      have hf := eInsert_frame p index u
      have hcw : (eInsert p index u).cw = u.cw := eGrow_cw _
      have hcm : (eInsert p index u).codemem = u.codemem := by
        unfold eInsert eGrow
        split <;> rfl
      have hst : (eInsert p index u).st = (stWrite index u.enc.cur p (u.enc.next.setWidth 12) u).st := eGrow_st _
      have hmem := hf.memOk huw.mem
      have hpx : (eInsert p index u).pixmem = u.pixmem := by rw [hf.eq]
      have hcl : (eInsert p index u).codeLast = u.codeLast := by rw [hf.eq]
      have hnext : u.enc.next.toNat = lzwNext b table := by rw [huenc]; exact h.next
      have hcur' : u.enc.cur = s.enc.cur := by rw [huenc]
      have hgw : (eInsert p index u).enc.w.toNat =
          if 2 ^ s.enc.w.toNat < lzwNext b table + 1 ∧ s.enc.w.toNat < 12 then s.enc.w.toNat + 1 else s.enc.w.toNat := by
        have hl := huok.limit
        have hn1 : (u.enc.next + 1#13).toNat = lzwNext b table + 1 := by
          rw [BitVec.toNat_add, hnext]
          simp only [BitVec.toNat_ofNat]
          omega
        have e1 : (eEnter p index u).enc = { u.enc with next := u.enc.next + 1#13 } := rfl
        have e2 : u.enc.w = s.enc.w := by rw [huenc]
        unfold eInsert eGrow
        rw [e1]
        simp only [hn1, hl, e2]
        by_cases hg : 2 ^ s.enc.w.toNat < lzwNext b table + 1 ∧ s.enc.w.toNat < Config.maxCodeWidth
        · rw [if_pos hg, if_pos ⟨hg.1, hg.2⟩]
          show (s.enc.w + 1#4).toNat = _
          have : s.enc.w.toNat < 12 := hg.2
          rw [BitVec.toNat_add]
          simp only [BitVec.toNat_ofNat]
          omega
        · rw [if_neg hg, if_neg hg]
          exact congrArg BitVec.toNat e2
      have hnx12 : (u.enc.next.setWidth 12).toNat = lzwNext b table := by
        rw [BitVec.toNat_setWidth, hnext]
        omega
      have htab := tableHolds_enter (code := u.enc.cur) (next := u.enc.next.setWidth 12) (index := index) huw.mem hut
        h.nonempty (by rw [hcur']; exact h.cur) hnew hnx12 (by rw [stProbe_congr hust, hcur']; exact hprobe)
      have hfit : lzwNext b table ≤ 2 ^ s.enc.w.toNat := by
        rw [← h.next, ← h.enc.limit]
        exact h.enc.fits
      refine ⟨(eInsert p index u).setEnc { (eInsert p index u).enc with cur := p.setWidth 12 }, table ++ [cur ++ [p]],
        done ++ [(s.enc.cur.toNat, s.enc.w.toNat)], ?_, ⟨?_, ?_, ?_, ?_, ?_, ?_, ?_, by simp, lzwString_raw hp⟩, ?_, ?_, ?_, ?_, ?_⟩
      · simp only [eMiss, hu, ok_bind, eExtend, if_pos hfull']
      · exact huw.congr ⟨hmem.pixmem, hmem.codemem, hmem.st, hmem.dt, hmem.xstack⟩ hcw hcm hcl
      · exact ⟨hok.bpp, hok.clear, hok.eoi, hok.w, hok.limit, hok.next, hok.fits⟩
      · show (eInsert p index u).enc.bpp.toNat = b
        rw [henc2, huenc]
        exact h.depth
      · show (eInsert p index u).enc.next.toNat = _
        rw [hnx, hnext]
        simp only [lzwNext, List.length_append, List.length_singleton]
        omega
      · show (eInsert p index u).enc.w.toNat = _
        rw [hgw, lzwOutWidth_grow hbb.2 h.width hfit hfull]
      · show (eInsert p index u).enc.ncodes = _
        rw [henc2]
        exact hucnt
      · exact htab.congr hst
      · rw [if_pos hfull, List.append_assoc]
        rfl
      · show (eInsert p index u).enc.i = _
        rw [henc2, huenc]
      · show (eInsert p index u).enc.n = _
        rw [henc2, huenc]
      · exact hpx.trans hupix
      · exact hcl.trans hucl
    · have hfull' : ¬ u.enc.next.toNat ≤ Config.maxCode := by
        rw [huenc]
        show ¬ s.enc.next.toNat ≤ 4095
        rw [h.next]
        exact hfull
      rw [if_neg hfull]
      have huwid : u.enc.w = s.enc.w := by rw [huenc]
      have hclear : u.enc.clear.toNat = 2 ^ b := by rw [huenc]; show s.enc.clear.toNat = _; rw [h.enc.clear, h.depth]
      have hassoc : ∀ rest, done ++ (s.enc.cur.toNat, s.enc.w.toNat) :: (2 ^ b, s.enc.w.toNat) :: rest =
          done ++ [(s.enc.cur.toNat, s.enc.w.toNat)] ++ [(u.enc.clear.toNat, u.enc.w.toNat)] ++ rest := by
        intro rest
        rw [hclear, huwid]
        simp
      rcases eEmit_cases u.enc.clear.toNat huw (by rw [huwid]; exact h.enc.w.2) with ⟨x, hx, hxw, hxe⟩ | ⟨he, hlt⟩
      · left
        have hxenc : x.enc = { s.enc with ncodes := u.enc.ncodes + 1#32 } := by rw [hxe, huenc]
        obtain ⟨hok3, hnx3⟩ := encInitSession_encOk (s := x) (by rw [hxenc]; exact h.enc.bpp)
          (by rw [hxenc]; exact h.enc.clear) (by rw [hxenc]; exact h.enc.eoi)
        have hxm := hxw.mem
        refine ⟨(encInitSession x).setEnc { (encInitSession x).enc with cur := p.setWidth 12 }, [],
          done ++ [(s.enc.cur.toNat, s.enc.w.toNat)] ++ [(u.enc.clear.toNat, u.enc.w.toNat)], ?_,
          ⟨?_, ?_, ?_, ?_, ?_, ?_, TableHolds.nil b rfl, by simp, lzwString_raw hp⟩, hassoc _, ?_, ?_, ?_, ?_⟩
        · simp only [eMiss, hu, ok_bind, eExtend, if_neg hfull', eRestart, hx]
        · exact hxw.congr ⟨hxm.pixmem, hxm.codemem, Cells.wf_nil, hxm.dt, hxm.xstack⟩ rfl rfl rfl
        · exact ⟨hok3.bpp, hok3.clear, hok3.eoi, hok3.w, hok3.limit, hok3.next, hok3.fits⟩
        · show x.enc.bpp.toNat = b
          rw [hxenc]
          exact h.depth
        · show (encInitSession x).enc.next.toNat = _
          rw [hnx3, hxenc]
          show s.enc.clear.toNat + 2 = _
          rw [h.enc.clear, h.depth]
          rfl
        · show (x.enc.bpp + 1#4).toNat = _
          have : x.enc.bpp.toNat = b := by rw [hxenc]; exact h.depth
          rw [lzwOutWidth_nil hbb, BitVec.toNat_add, this]
          simp only [BitVec.toNat_ofNat]
          omega
        · show x.enc.ncodes = _
          rw [hxenc]
          show u.enc.ncodes + 1#32 = _
          rw [hucnt, List.length_append (bs := [(u.enc.clear.toNat, u.enc.w.toNat)]), List.length_singleton (a := (u.enc.clear.toNat, u.enc.w.toNat)), BitVec.ofNat_add]
        · show x.enc.i = _
          rw [hxenc]
        · show x.enc.n = _
          rw [hxenc]
        · show x.pixmem = _
          rw [hxe]
          exact hupix
        · show x.codeLast = _
          rw [hxe]
          exact hucl
      · right
        have hcap : u.codeCap = s.codeCap := by rw [State.codeCap, hucl]; rfl
        refine ⟨?_, ?_⟩
        · simp only [eMiss, hu, ok_bind, eExtend, if_neg hfull', eRestart, he, error_bind, hcap]
        · have htwo := lzwEncodeFrom_two b ps [] [p]
          rw [← dropLast_two_append _ (by simp only [List.length_cons]; omega), hassoc, dropLast_two_append _ htwo,
            codesBits_append]
          rw [hcap] at hlt
          omega
  · right
    refine ⟨by simp only [eMiss, he, error_bind], ?_⟩
    have hrest : 2 ≤ (if lzwNext b table ≤ 4095 then lzwEncodeFrom b (table ++ [cur ++ [p]]) [p] ps
        else (2 ^ b, s.enc.w.toNat) :: lzwEncodeFrom b [] [p] ps).length := by
      split
      · exact lzwEncodeFrom_two _ _ _ _
      · exact Nat.le_succ_of_le (lzwEncodeFrom_two _ _ _ _)
    rw [← List.singleton_append, dropLast_two_append _ hrest, ← List.append_assoc, codesBits_append]
    omega

/-- E_STEP (R163) on a pixel that fits the depth. -/
theorem eStep_greedy {s : State} {b : Nat} {table : List (List Byte)} {cur : List Byte} {done : List (Nat × Nat)}
    (ps : List Byte) (h : Greedy s b table cur done) (hp : (s.readPix s.enc.i.toNat).toNat < 2 ^ b) :
    (∃ t table' cur' done', eStep s = .ok t ∧ Greedy t b table' cur' done' ∧
      done ++ lzwEncodeFrom b table cur (s.readPix s.enc.i.toNat :: ps) = done' ++ lzwEncodeFrom b table' cur' ps ∧
      t.enc.i = s.enc.i + 1#25 ∧ t.enc.n = s.enc.n ∧ t.pixmem = s.pixmem ∧ t.codeLast = s.codeLast) ∨
    (eStep s = .error ⟨.codeOverflow, s.codeCap⟩ ∧
      s.codeCap < codesBits (done ++ (lzwEncodeFrom b table cur (s.readPix s.enc.i.toNat :: ps)).dropLast.dropLast) / 8) := by
  have hb8 : b ≤ 8 := by rw [← h.depth]; exact h.enc.bpp.2
  have hclear : ¬ s.enc.clear.toNat ≤ (s.readPix s.enc.i.toNat).toNat := by
    rw [h.enc.clear, h.depth]
    omega
  rcases probe_table (p := s.readPix s.enc.i.toNat) hb8 h.holds h.room h.nonempty h.cur with
    ⟨hin, c, i, hc0, hprobe, hstr⟩ | ⟨hnew, i, hprobe⟩
  · left
    have he := h.enc
    have hm := h.written.mem
    refine ⟨(s.setEnc { s.enc with cur := c }).setEnc { s.enc with cur := c, i := s.enc.i + 1#25 }, table,
      cur ++ [s.readPix s.enc.i.toNat], done, ?_,
      ⟨h.written.congr ⟨hm.pixmem, hm.codemem, hm.st, hm.dt, hm.xstack⟩ rfl rfl rfl,
        ⟨he.bpp, he.clear, he.eoi, he.w, he.limit, he.next, he.fits⟩, h.depth, h.next, h.width, h.count,
        h.holds.congr rfl, by simp, hstr⟩, ?_, rfl, rfl, rfl, rfl⟩
    · simp only [eStep, if_neg hclear, hprobe, eLookup, if_pos hc0, ok_bind]
      rfl
    · simp only [lzwEncodeFrom, if_pos hin]
  · rcases eMiss_greedy ps h hp hnew hprobe with ⟨t, table', done', ht, hg, heq, hi, hn, hx, hl⟩ | ⟨he, hlt⟩
    · left
      have he := hg.enc
      have hm := hg.written.mem
      refine ⟨t.setEnc { t.enc with i := t.enc.i + 1#25 }, table', [s.readPix s.enc.i.toNat], done', ?_,
        ⟨hg.written.congr ⟨hm.pixmem, hm.codemem, hm.st, hm.dt, hm.xstack⟩ rfl rfl rfl,
          ⟨he.bpp, he.clear, he.eoi, he.w, he.limit, he.next, he.fits⟩, hg.depth, hg.next, hg.width, hg.count,
          hg.holds.congr rfl, by simp, hg.cur⟩, heq, ?_, hn, hx, hl⟩
      · simp only [eStep, if_neg hclear, hprobe, eLookup, ne_eq, not_true, if_false, ht, ok_bind]
      · show t.enc.i + 1#25 = _
        rw [hi]
    · right
      refine ⟨?_, hlt⟩
      simp only [eStep, if_neg hclear, hprobe, eLookup, ne_eq, not_true, if_false, he, error_bind]

/-! ## The run -/

/-- The pixels from index i on. -/
def pixelsFrom (s : State) (i : Nat) : Nat → List Byte
  | 0 => []
  | k + 1 => s.readPix i :: pixelsFrom s (i + 1) k

theorem pixelsFrom_congr {s t : State} (h : t.pixmem = s.pixmem) (i k : Nat) : pixelsFrom t i k = pixelsFrom s i k := by
  induction k generalizing i with
  | zero => rfl
  | succ k ih =>
    simp only [pixelsFrom, ih]
    rw [State.readPix, h]
    rfl

theorem pixels_eq (s : State) (n : Nat) : s.pixels n = pixelsFrom s 0 n := by
  have : ∀ i, (List.range n).map (fun j => s.readPix (i + j)) = pixelsFrom s i n := by
    induction n with
    | zero => intro i; rfl
    | succ n ih =>
      intro i
      rw [List.range_succ_eq_map, List.map_cons, List.map_map, pixelsFrom, ← ih (i + 1)]
      refine congrArg₂ _ rfl (List.map_congr_left fun j _ => ?_)
      show s.readPix (i + (j + 1)) = s.readPix (i + 1 + j)
      rw [show i + (j + 1) = i + 1 + j by omega]
  have h0 := this 0
  simp only [Nat.zero_add] at h0
  exact h0

/-- The loop of ENC_RUN over the pixels that are left: it consumes them all, or stops at the first that does not fit the
depth, or at the end of CODEMEM. -/
theorem eLoop_greedy (k : Nat) {s : State} {b : Nat} {table : List (List Byte)} {cur : List Byte} {done : List (Nat × Nat)}
    (h : Greedy s b table cur done) (hk : s.enc.i.toNat + k = s.enc.n.toNat) (m : Nat) (hm : k ≤ m) :
    (∃ t table' cur' done', eLoop m s = .ok t ∧ Greedy t b table' cur' done' ∧
      done ++ lzwEncodeFrom b table cur (pixelsFrom s s.enc.i.toNat k) = done' ++ lzwEncodeFrom b table' cur' [] ∧
      (∀ a, s.enc.i.toNat ≤ a → a < s.enc.n.toNat → (s.readPix a).toNat < 2 ^ b) ∧ t.enc.n = s.enc.n ∧
      t.codeLast = s.codeLast) ∨
    (∃ j, s.enc.i.toNat ≤ j ∧ j < s.enc.n.toNat ∧ eLoop m s = .error ⟨.pixelValue, j⟩ ∧ 2 ^ b ≤ (s.readPix j).toNat ∧
      ∀ a, s.enc.i.toNat ≤ a → a < j → (s.readPix a).toNat < 2 ^ b) ∨
    (eLoop m s = .error ⟨.codeOverflow, s.codeCap⟩ ∧
      s.codeCap < codesBits (done ++ lzwEncodeFrom b table cur (pixelsFrom s s.enc.i.toNat k)) / 8) := by
  induction k generalizing s table cur done m with
  | zero =>
    left
    refine ⟨s, table, cur, done, ?_, h, rfl, fun a h1 h2 => by omega, rfl, rfl⟩
    cases m with
    | zero => rfl
    | succ m => simp only [eLoop, if_neg (show ¬ s.enc.i.toNat < s.enc.n.toNat by omega)]
  | succ k ih =>
    obtain ⟨m, rfl⟩ : ∃ m', m = m' + 1 := ⟨m - 1, by omega⟩
    have hlt : s.enc.i.toNat < s.enc.n.toNat := by omega
    by_cases hp : (s.readPix s.enc.i.toNat).toNat < 2 ^ b
    · rcases eStep_greedy (pixelsFrom s (s.enc.i.toNat + 1) k) h hp with
        ⟨t, table1, cur1, done1, ht, hg, heq, hi, hn, hx, hl⟩ | ⟨he, hov⟩
      · have hnlt := s.enc.n.isLt
        have hi1 : t.enc.i.toNat = s.enc.i.toNat + 1 := by
          rw [hi, BitVec.toNat_add]
          simp only [BitVec.toNat_ofNat]
          omega
        have hcap : t.codeCap = s.codeCap := by rw [State.codeCap, hl]; rfl
        have hrd : ∀ a, t.readPix a = s.readPix a := fun a => by rw [State.readPix, hx]; rfl
        have hloop : eLoop (m + 1) s = eLoop m t := by simp only [eLoop, if_pos hlt, ht, ok_bind]
        have hih := ih hg (by rw [hi1, hn]; omega) m (by omega)
        rw [hi1, hn, pixelsFrom_congr hx, ← heq, hcap, hl] at hih
        simp only [hrd] at hih
        rw [hloop]
        rcases hih with ⟨u, table2, cur2, done2, hu, hg2, heq2, hall, hn2, hl2⟩ | ⟨j, h1, h2, h3, h4, h5⟩ | ⟨h1, h2⟩
        · refine Or.inl ⟨u, table2, cur2, done2, hu, hg2, heq2, fun a ha ha' => ?_, hn2, hl2⟩
          rcases Nat.lt_or_eq_of_le ha with hlt' | rfl
          · exact hall a (by omega) ha'
          · exact hp
        · refine Or.inr (Or.inl ⟨j, by omega, h2, h3, h4, fun a ha ha' => ?_⟩)
          rcases Nat.lt_or_eq_of_le ha with hlt' | rfl
          · exact h5 a (by omega) ha'
          · exact hp
        · exact Or.inr (Or.inr ⟨h1, h2⟩)
      · refine Or.inr (Or.inr ⟨?_, Nat.lt_of_lt_of_le hov (Nat.div_le_div_right (codesBits_before_le _ _))⟩)
        simp only [eLoop, if_pos hlt, he, error_bind]
    · refine Or.inr (Or.inl ⟨s.enc.i.toNat, Nat.le_refl _, hlt, ?_, Nat.le_of_not_lt hp, fun a ha ha' => by omega⟩)
      have hc : s.enc.clear.toNat ≤ (s.readPix s.enc.i.toNat).toNat := by
        rw [h.enc.clear, h.depth]
        omega
      simp only [eLoop, if_pos hlt, eStep, if_pos hc, error_bind]

/-- The bytes written so far have room. -/
theorem Written.fits {s : State} {done : List (Nat × Nat)} (h : Written s done) : codesBits done / 8 ≤ s.codeCap := by
  have hb : 8 * s.cw.ptr.toNat + s.cw.cnt.toNat = codesBits done := h.bits
  have := h.cw.ptr
  have := h.cw.cnt
  omega

/-- The loop of ENC_RUN up to its first pixel that does not fit the depth: it raises PIXEL_VALUE there, unless the codes
before it have no room (R167). -/
theorem eLoop_pixelValue (k : Nat) {s : State} {b : Nat} {table : List (List Byte)} {cur : List Byte}
    {done : List (Nat × Nat)} (h : Greedy s b table cur done) (hk : s.enc.i.toNat + k < s.enc.n.toNat) (m : Nat)
    (hm : k < m) (hp : ∀ a, s.enc.i.toNat ≤ a → a < s.enc.i.toNat + k → (s.readPix a).toNat < 2 ^ b)
    (hbad : 2 ^ b ≤ (s.readPix (s.enc.i.toNat + k)).toNat) :
    let before := codesBits (done ++ (lzwEncodeFrom b table cur (pixelsFrom s s.enc.i.toNat k)).dropLast.dropLast)
    (eLoop m s = .error ⟨.pixelValue, s.enc.i.toNat + k⟩ ∧ before / 8 ≤ s.codeCap) ∨
      (eLoop m s = .error ⟨.codeOverflow, s.codeCap⟩ ∧ s.codeCap < before / 8) := by
  obtain ⟨m, rfl⟩ : ∃ m', m = m' + 1 := ⟨m - 1, by omega⟩
  have hlt : s.enc.i.toNat < s.enc.n.toNat := by omega
  induction k generalizing s table cur done m with
  | zero =>
    left
    have hc : s.enc.clear.toNat ≤ (s.readPix s.enc.i.toNat).toNat := by
      rw [h.enc.clear, h.depth]
      exact hbad
    refine ⟨?_, by simpa [pixelsFrom, lzwEncodeFrom] using h.written.fits⟩
    simp only [eLoop, if_pos hlt, eStep, if_pos hc, error_bind, Nat.add_zero]
  | succ k ih =>
    rcases eStep_greedy (pixelsFrom s (s.enc.i.toNat + 1) k) h (hp _ (Nat.le_refl _) (by omega)) with
      ⟨t, table1, cur1, done1, ht, hg, heq, hi, hn, hx, hl⟩ | ⟨he, hov⟩
    · have hnlt := s.enc.n.isLt
      have hi1 : t.enc.i.toNat = s.enc.i.toNat + 1 := by
        rw [hi, BitVec.toNat_add]
        simp only [BitVec.toNat_ofNat]
        omega
      have hcap : t.codeCap = s.codeCap := by rw [State.codeCap, hl]; rfl
      have hrd : ∀ a, t.readPix a = s.readPix a := fun a => by rw [State.readPix, hx]; rfl
      obtain ⟨m, rfl⟩ : ∃ m', m = m' + 1 := ⟨m - 1, by omega⟩
      have hloop : eLoop (m + 1 + 1) s = eLoop (m + 1) t := by simp only [eLoop, if_pos hlt, ht, ok_bind]
      have hih := ih hg (by rw [hi1, hn]; omega) (fun a h1 h2 => by rw [hrd]; exact hp a (by omega) (by omega))
        (by rw [hrd, hi1, show s.enc.i.toNat + 1 + k = s.enc.i.toNat + (k + 1) by omega]; exact hbad) m (by omega)
        (by rw [hi1, hn]; omega)
      have hbefore := congrArg (fun xs => xs.dropLast.dropLast) heq
      simp only [dropLast_two_append _ (lzwEncodeFrom_two _ _ _ _)] at hbefore
      rw [hi1, pixelsFrom_congr hx, ← hbefore, hcap, show s.enc.i.toNat + 1 + k = s.enc.i.toNat + (k + 1) by omega] at hih
      rw [hloop]
      exact hih
    · right
      refine ⟨?_, hov⟩
      simp only [eLoop, if_pos hlt, he, error_bind]

/-- The flush after the last code (R134): the codes lie in CODEMEM and the padding bits are 0, or there is no room. -/
theorem cwEnd_cases {s : State} {done : List (Nat × Nat)} (h : Written s done) :
    (∃ t, cwEnd s = .ok t ∧ t.cw.ptr.toNat = (codesBits done + 7) / 8 ∧ t.enc = s.enc ∧
      packedIn (streamBit t.codemem) (8 * t.cw.ptr.toNat) done) ∨
    (cwEnd s = .error ⟨.codeOverflow, s.codeCap⟩ ∧ s.codeCap < (codesBits done + 7) / 8) := by
  have hbits : 8 * s.cw.ptr.toNat + s.cw.cnt.toNat = codesBits done := h.bits
  have hcnt := h.cw.cnt
  by_cases hroom : s.cw.cnt = 0#4 ∨ s.cw.ptr.toNat < s.codeCap
  · left
    obtain ⟨t, h1, h2, h3, h4, h5, h6, h7, h8, h9, -⟩ := cwEnd_ok h.mem h.cw hroom
    refine ⟨t, h1, by rw [h5]; omega, (by rw [h2]), ?_, ?_⟩
    · intro before after c w hd k hk
      have hlt : codesBits before + k < s.writtenBits := by
        rw [h.bits, hd, codesBits_append, codesBits_cons]
        omega
      rw [h8 _ hlt]
      exact h.packed before after c w hd k hk
    · intro k hk hk'
      exact h9 k (by rw [h.bits]; exact hk) hk'
  · right
    have h1 : s.cw.cnt ≠ 0#4 := fun e => hroom (Or.inl e)
    have h2 : s.codeCap ≤ s.cw.ptr.toNat := Nat.le_of_not_lt fun e => hroom (Or.inr e)
    have h3 := h.cw.ptr
    have h4 : 0 < s.cw.cnt.toNat := by
      rcases Nat.eq_zero_or_pos s.cw.cnt.toNat with e | e
      · exact absurd (BitVec.eq_of_toNat_eq (by simpa using e)) h1
      · exact e
    refine ⟨?_, by omega⟩
    rw [cwEnd_error h2 h1]
    congr 2
    omega

/-- E_FINISH (R165): the current string, EOI and the flush. -/
theorem eFinish_greedy {s : State} {b : Nat} {table : List (List Byte)} {cur : List Byte} {done : List (Nat × Nat)}
    (h : Greedy s b table cur done) (hn : s.enc.n ≠ 0#25) :
    (∃ t, eFinish s = .ok t ∧ t.cw.ptr.toNat = (codesBits (done ++ lzwEncodeFrom b table cur []) + 7) / 8 ∧
      t.enc.ncodes = BitVec.ofNat 32 (done ++ lzwEncodeFrom b table cur []).length ∧
      packedIn (streamBit t.codemem) (8 * t.cw.ptr.toNat) (done ++ lzwEncodeFrom b table cur [])) ∨
    (eFinish s = .error ⟨.codeOverflow, s.codeCap⟩ ∧
      s.codeCap < (codesBits (done ++ lzwEncodeFrom b table cur []) + 7) / 8) := by
  have hrest : done ++ lzwEncodeFrom b table cur [] =
      done ++ [(s.enc.cur.toNat, s.enc.w.toNat)] ++ [(2 ^ b + 1, s.enc.w.toNat)] := by
    rw [h.code, h.width]
    simp [lzwEncodeFrom]
  rw [hrest]
  unfold eFinish
  rw [if_neg hn]
  rcases eEmit_cases s.enc.cur.toNat h.written h.enc.w.2 with ⟨u, hu, huw, hue⟩ | ⟨he, hlt⟩
  · have huenc : u.enc = { s.enc with ncodes := s.enc.ncodes + 1#32 } := (by rw [hue])
    have hcap : u.codeCap = s.codeCap := by rw [hue]; rfl
    have heoi : u.enc.eoi.toNat = 2 ^ b + 1 := by
      rw [huenc]
      show s.enc.eoi.toNat = _
      rw [h.enc.eoi, h.enc.clear, h.depth]
    have huwid : u.enc.w = s.enc.w := by rw [huenc]
    simp only [hu, ok_bind]
    rcases eEmit_cases u.enc.eoi.toNat huw (by rw [huwid]; exact h.enc.w.2) with ⟨x, hx, hxw, hxe⟩ | ⟨he, hlt⟩
    · have hxenc : x.enc = { u.enc with ncodes := u.enc.ncodes + 1#32 } := (by rw [hxe])
      have hxcap : x.codeCap = s.codeCap := by rw [← hcap, hxe]; rfl
      rw [heoi, huwid] at hxw
      simp only [hx, ok_bind]
      rcases cwEnd_cases hxw with ⟨t, ht, h1, h2, h3⟩ | ⟨h1, h2⟩
      · refine Or.inl ⟨t, ht, h1, ?_, h3⟩
        rw [h2, hxenc]
        show u.enc.ncodes + 1#32 = _
        rw [huenc]
        show s.enc.ncodes + 1#32 + 1#32 = _
        rw [h.count, List.length_append (bs := [(2 ^ b + 1, s.enc.w.toNat)]), List.length_append, List.length_singleton, List.length_singleton, BitVec.ofNat_add,
          BitVec.ofNat_add]
      · rw [hxcap] at h1 h2
        exact Or.inr ⟨h1, h2⟩
    · rw [heoi, huwid, hcap] at hlt
      rw [hcap] at he
      simp only [he, error_bind]
      exact Or.inr ⟨trivial, by omega⟩
  · simp only [he, error_bind]
    refine Or.inr ⟨trivial, ?_⟩
    rw [codesBits_append (ys := [(2 ^ b + 1, s.enc.w.toNat)])]
    omega

/-- E_INIT (R162): the opening CLEAR and the first pixel, or the whole of an empty stream. -/
theorem eInit_greedy {s : State} (hm : s.MemOk) (hb : 1 ≤ s.enc.bpp.toNat ∧ s.enc.bpp.toNat ≤ 8) :
    (∃ u, Written u [(2 ^ s.enc.bpp.toNat, s.enc.bpp.toNat + 1)] ∧ u.EncOk ∧ u.enc.bpp = s.enc.bpp ∧
      u.enc.n = s.enc.n ∧ u.enc.next.toNat = lzwNext s.enc.bpp.toNat [] ∧ u.enc.w.toNat = s.enc.bpp.toNat + 1 ∧
      u.enc.ncodes = 1#32 ∧ u.st = [] ∧ u.pixmem = s.pixmem ∧ u.codeLast = s.codeLast ∧
      eInit s = if u.enc.n = 0#25 then eEmpty u else eSeed u) ∨
    (eInit s = .error ⟨.codeOverflow, s.codeCap⟩ ∧
      s.codeCap < codesBits [(2 ^ s.enc.bpp.toNat, s.enc.bpp.toNat + 1)] / 8) := by
  obtain ⟨m0, c0, e0, w0, b0, st0, k0, n0, bp0⟩ := eBegin_ok hm hb
  have hset := eBegin_setup s
  have hcl := hset.codeLast
  have hpx := hset.pixmem
  have hpow : 2 ^ s.enc.bpp.toNat ≤ 2 ^ 8 := Nat.pow_le_pow_right (by decide) hb.2
  have hcn : (BitVec.ofNat 9 (2 ^ s.enc.bpp.toNat)).toNat = 2 ^ s.enc.bpp.toNat := by
    rw [BitVec.toNat_ofNat, Nat.mod_eq_of_lt (by omega)]
  have hnx : (eBegin s).enc.next.toNat = lzwNext s.enc.bpp.toNat [] := by
    have h := (encInitSession_encOk (s := s.setEnc { s.enc with
      clear := BitVec.ofNat 9 (2 ^ s.enc.bpp.toNat), eoi := BitVec.ofNat 9 (2 ^ s.enc.bpp.toNat + 1) }) hb hcn
      (by show (BitVec.ofNat 9 (2 ^ s.enc.bpp.toNat + 1)).toNat = (BitVec.ofNat 9 (2 ^ s.enc.bpp.toNat)).toNat + 1
          rw [hcn, BitVec.toNat_ofNat, Nat.mod_eq_of_lt (by omega)])).2
    refine Eq.trans h ?_
    show (BitVec.ofNat 9 (2 ^ s.enc.bpp.toNat)).toNat + 2 = _
    rw [hcn]
    rfl
  have hclear : (eBegin s).enc.clear.toNat = 2 ^ s.enc.bpp.toNat := by rw [e0.clear, bp0]
  have hinit : eInit s = (eEmit (eBegin s).enc.clear.toNat (eBegin s) >>= fun u =>
      if u.enc.n = 0#25 then eEmpty u else eSeed u) := rfl
  rw [hinit]
  have hcap : (eBegin s).codeCap = s.codeCap := by rw [State.codeCap, hcl]; rfl
  generalize eBegin s = d at *
  have hw0 : Written d [] := ⟨m0, c0, by rw [b0]; rfl, by
    intro before after c w h
    exact absurd h (by simp)⟩
  rcases eEmit_cases d.enc.clear.toNat hw0 e0.w.2 with ⟨u, hu, huw, hue⟩ | ⟨he, hlt⟩
  · left
    have huenc : u.enc = { d.enc with ncodes := d.enc.ncodes + 1#32 } := by rw [hue]
    refine ⟨u, ?_, ?_, ?_, ?_, ?_, ?_, ?_, ?_, ?_, ?_, ?_⟩
    · rw [hclear, w0] at huw
      exact huw
    · constructor <;> rw [huenc]
      exacts [e0.bpp, e0.clear, e0.eoi, e0.w, e0.limit, e0.next, e0.fits]
    · rw [huenc]
      exact bp0
    · rw [huenc]
      exact n0
    · rw [huenc]
      exact hnx
    · rw [huenc]
      exact w0
    · rw [huenc]
      show d.enc.ncodes + 1#32 = _
      rw [k0]
      rfl
    · rw [hue]
      exact st0
    · rw [hue]
      exact hpx
    · rw [hue]
      exact hcl
    · rw [hu]
      rfl
  · right
    rw [he, hcap]
    rw [hcap, hclear, w0] at hlt
    exact ⟨rfl, hlt⟩

theorem lzwEncodeFrom_length (b : Nat) (ps : List Byte) (table : List (List Byte)) (cur : List Byte) :
    (lzwEncodeFrom b table cur ps).length ≤ 2 * ps.length + 2 := by
  induction ps generalizing table cur with
  | nil => simp [lzwEncodeFrom]
  | cons p ps ih =>
    simp only [lzwEncodeFrom]
    split
    · have := ih table (cur ++ [p])
      simp only [List.length_cons]
      omega
    · split
      · have := ih (table ++ [cur ++ [p]]) [p]
        simp only [List.length_cons]
        omega
      · have := ih [] [p]
        simp only [List.length_cons]
        omega

theorem lzwEncode_length (b : Nat) (ps : List Byte) : (lzwEncode b ps).length ≤ 2 * ps.length + 3 := by
  cases ps with
  | nil => simp [lzwEncode]
  | cons p ps =>
    have := lzwEncodeFrom_length b ps [] [p]
    simp only [lzwEncode, List.length_cons]
    omega

/-- The first pixel (R162) seeds the current string. -/
theorem eSeed_greedy {u : State} {b : Nat} (hw : Written u [(2 ^ b, b + 1)]) (he : u.EncOk) (hd : u.enc.bpp.toNat = b)
    (hn : u.enc.next.toNat = lzwNext b []) (hwid : u.enc.w.toNat = b + 1) (hk : u.enc.ncodes = 1#32) (hst : u.st = []) :
    ((u.readPix 0).toNat < 2 ^ b ∧ ∃ t, eSeed u = .ok t ∧ Greedy t b [] [u.readPix 0] [(2 ^ b, b + 1)] ∧ t.enc.i = 1#25 ∧
      t.enc.n = u.enc.n ∧ t.pixmem = u.pixmem ∧ t.codeLast = u.codeLast) ∨
    (2 ^ b ≤ (u.readPix 0).toNat ∧ eSeed u = .error ⟨.pixelValue, 0⟩) := by
  have hc : u.enc.clear.toNat = 2 ^ b := by rw [he.clear, hd]
  have hbb := he.bpp
  rw [hd] at hbb
  by_cases hp : (u.readPix 0).toNat < 2 ^ b
  · have hm := hw.mem
    refine Or.inl ⟨hp, u.setEnc { u.enc with cur := (u.readPix 0).setWidth 12, i := 1#25 }, ?_, ⟨?_,
      ⟨he.bpp, he.clear, he.eoi, he.w, he.limit, he.next, he.fits⟩, hd, hn, ?_, hk, TableHolds.nil b hst, by simp,
      lzwString_raw hp⟩, rfl, rfl, rfl, rfl⟩
    · unfold eSeed
      rw [if_neg (by omega)]
    · exact hw.congr ⟨hm.pixmem, hm.codemem, hm.st, hm.dt, hm.xstack⟩ rfl rfl rfl
    · rw [lzwOutWidth_nil hbb]
      exact hwid
  · refine Or.inr ⟨Nat.le_of_not_lt hp, ?_⟩
    unfold eSeed
    rw [if_pos (by omega)]

/-- The run of R160 against the greedy encoder: what it writes, or which of its two errors ends it. -/
theorem encRun_greedy {b : BitVec 4} {n : Nat} {s : State} (hm : s.MemOk) (hb : legalBpp b) (hn : n ≤ s.pixCap) :
    (∃ t, encRun b n s = .ok t ∧ (∀ a < n, (s.readPix a).toNat < 2 ^ b.toNat) ∧
      t.cw.ptr.toNat = (codesBits (lzwEncode b.toNat (s.pixels n)) + 7) / 8 ∧ t.res0 = zext64 t.cw.ptr.toNat ∧
      t.res1 = zext64 (lzwEncode b.toNat (s.pixels n)).length ∧
      packedIn (streamBit t.codemem) (8 * t.cw.ptr.toNat) (lzwEncode b.toNat (s.pixels n))) ∨
    (∃ j < n, encRun b n s = .error ⟨.pixelValue, j⟩ ∧ 2 ^ b.toNat ≤ (s.readPix j).toNat ∧
      ∀ a < j, (s.readPix a).toNat < 2 ^ b.toNat) ∨
    (encRun b n s = .error ⟨.codeOverflow, s.codeCap⟩ ∧
      s.codeCap < (codesBits (lzwEncode b.toNat (s.pixels n)) + 7) / 8) := by
  have hpc := pixCap_le s
  have hnn : (BitVec.ofNat 25 n).toNat = n := by
    rw [BitVec.toNat_ofNat]
    omega
  have hm0 : (s.setEnc { s.enc with bpp := b, n := BitVec.ofNat 25 n }).MemOk :=
    ⟨hm.pixmem, hm.codemem, hm.st, hm.dt, hm.xstack⟩
  have hlen := lzwEncode_length b.toNat (s.pixels n)
  have hpl : (s.pixels n).length = n := by simp [State.pixels]
  have hcount : ∀ k : Nat, k ≤ 2 * n + 3 → (BitVec.ofNat 32 k).toNat = k := fun k hk => by
    rw [BitVec.toNat_ofNat]
    omega
  have hhead : ∀ ps, codesBits [(2 ^ b.toNat, b.toNat + 1)] ≤ codesBits (lzwEncode b.toNat ps) := by
    intro ps
    cases ps with
    | nil =>
      simp only [lzwEncode, codesBits_cons]
      omega
    | cons p ps =>
      simp only [lzwEncode, codesBits_cons]
      simp [codesBits]
  have hrun : encRun b n s = (eInit (s.setEnc { s.enc with bpp := b, n := BitVec.ofNat 25 n }) >>= fun u =>
      eLoop n u >>= fun v => eFinish v >>= fun w =>
        .ok ((w.setRes0 (zext64 w.cw.ptr.toNat)).setRes1 (zext64 w.enc.ncodes.toNat))) := rfl
  rw [hrun]
  rcases eInit_greedy hm0 hb with ⟨u, huw, hue, hub, hun, hunx, huwid, huk, hust, hupx, hucl, hinit⟩ | ⟨he, hlt⟩
  · replace huw : Written u [(2 ^ b.toNat, b.toNat + 1)] := huw
    replace hub : u.enc.bpp = b := hub
    replace hun : u.enc.n = BitVec.ofNat 25 n := hun
    replace hunx : u.enc.next.toNat = lzwNext b.toNat [] := hunx
    replace huwid : u.enc.w.toNat = b.toNat + 1 := huwid
    replace hupx : u.pixmem = s.pixmem := hupx
    replace hucl : u.codeLast = s.codeLast := hucl
    have hcapu : u.codeCap = s.codeCap := by rw [State.codeCap, hucl]; rfl
    have hrd : ∀ a, u.readPix a = s.readPix a := fun a => by rw [State.readPix, hupx]; rfl
    by_cases hz : n = 0
    · subst hz
      rw [hun, if_pos (by rfl)] at hinit
      have hp0 : s.pixels 0 = [] := rfl
      have hcodes : lzwEncode b.toNat (s.pixels 0) = [(2 ^ b.toNat, b.toNat + 1)] ++ [(2 ^ b.toNat + 1, b.toNat + 1)] := rfl
      have heoi : u.enc.eoi.toNat = 2 ^ b.toNat + 1 := by rw [hue.eoi, hue.clear, hub]
      rw [hcodes]
      rcases eEmit_cases u.enc.eoi.toNat huw hue.w.2 with ⟨x, hx, hxw, hxe⟩ | ⟨he, hlt⟩
      · have hxenc : x.enc = { u.enc with ncodes := u.enc.ncodes + 1#32 } := by rw [hxe]
        have hcapx : x.codeCap = s.codeCap := by rw [← hcapu, hxe]; rfl
        rw [heoi, huwid] at hxw
        rcases cwEnd_cases hxw with ⟨t, ht, h1, h2, h3⟩ | ⟨h1, h2⟩
        · left
          have htn : t.enc.n = 0#25 := by rw [h2, hxenc]; exact hun
          refine ⟨((t.setEnc { t.enc with i := 0#25 }).setRes0 (zext64 t.cw.ptr.toNat)).setRes1 (zext64 t.enc.ncodes.toNat), ?_,
            fun a ha => absurd ha (Nat.not_lt_zero a), h1, rfl, ?_, h3⟩
          · simp only [hinit, eEmpty, hx, ht, ok_bind, eLoop, eFinish]
            rw [if_pos (by exact htn)]
            rfl
          · show zext64 t.enc.ncodes.toNat = _
            rw [h2, hxenc]
            show zext64 (u.enc.ncodes + 1#32).toNat = _
            rw [huk]
            rfl
        · right; right
          rw [hcapx] at h1 h2
          simp only [hinit, eEmpty, hx, h1, ok_bind, error_bind]
          exact ⟨trivial, h2⟩
      · right; right
        rw [heoi, huwid] at hlt
        rw [hcapu] at he hlt
        simp only [hinit, eEmpty, he, error_bind]
        exact ⟨trivial, by omega⟩
    · have hn0 : u.enc.n ≠ 0#25 := by
        rw [hun]
        intro e
        rw [e] at hnn
        exact hz hnn.symm
      rw [if_neg hn0] at hinit
      obtain ⟨m, rfl⟩ : ∃ m, n = m + 1 := ⟨n - 1, by omega⟩
      have hpix : s.pixels (m + 1) = s.readPix 0 :: pixelsFrom s 1 m := by rw [pixels_eq]; rfl
      have hcodes : lzwEncode b.toNat (s.pixels (m + 1)) =
          [(2 ^ b.toNat, b.toNat + 1)] ++ lzwEncodeFrom b.toNat [] [s.readPix 0] (pixelsFrom s 1 m) := by
        rw [hpix]
        rfl
      rcases eSeed_greedy huw hue (by rw [hub]) hunx huwid huk hust with ⟨hp, v, hv, hg, hvi, hvn, hvpx, hvcl⟩ | ⟨hp, hv⟩
      · rw [hrd] at hp hg
        have hvnn : v.enc.n.toNat = m + 1 := by rw [hvn, hun, hnn]
        have hvi1 : v.enc.i.toNat = 1 := by rw [hvi]; rfl
        have hcapv : v.codeCap = s.codeCap := by rw [← hcapu, State.codeCap, hvcl]; rfl
        have hrdv : ∀ a, v.readPix a = s.readPix a := fun a => by rw [← hrd a, State.readPix, hvpx]; rfl
        have hloop := eLoop_greedy m hg (by rw [hvnn, hvi1]; omega) (m + 1) (Nat.le_succ m)
        rw [hvi1, hvnn, pixelsFrom_congr (hvpx.trans hupx), ← hcodes, hcapv] at hloop
        simp only [hrdv] at hloop
        rcases hloop with ⟨x, table, cur, done, hx, hgx, heq, hall, hxn, hxcl⟩ | ⟨j, h1, h2, h3, h4, h5⟩ | ⟨h1, h2⟩
        · have hxn0 : x.enc.n ≠ 0#25 := by rw [hxn, hvn]; exact hn0
          have hcapx : x.codeCap = s.codeCap := by rw [← hcapv, State.codeCap, hxcl]; rfl
          have hfin := eFinish_greedy hgx hxn0
          rw [← heq, hcapx] at hfin
          rcases hfin with ⟨t, ht, h1, h2, h3⟩ | ⟨h1, h2⟩
          · left
            refine ⟨(t.setRes0 (zext64 t.cw.ptr.toNat)).setRes1 (zext64 t.enc.ncodes.toNat), ?_, ?_, h1, rfl, ?_, h3⟩
            · simp only [hinit, hv, hx, ht, ok_bind]
            · intro a ha
              rcases Nat.eq_zero_or_pos a with rfl | ha0
              · exact hp
              · exact hall a ha0 ha
            · show zext64 t.enc.ncodes.toNat = _
              rw [h2, hcount _ (by omega)]
          · right; right
            simp only [hinit, hv, hx, h1, ok_bind, error_bind]
            exact ⟨trivial, h2⟩
        · right; left
          refine ⟨j, h2, ?_, h4, ?_⟩
          · simp only [hinit, hv, h3, ok_bind, error_bind]
          · intro a ha
            rcases Nat.eq_zero_or_pos a with rfl | ha0
            · exact hp
            · exact h5 a ha0 ha
        · right; right
          simp only [hinit, hv, h1, ok_bind, error_bind]
          exact ⟨trivial, by omega⟩
      · right; left
        rw [hrd] at hp
        refine ⟨0, Nat.succ_pos m, ?_, hp, fun a ha => absurd ha (Nat.not_lt_zero a)⟩
        simp only [hinit, hv, error_bind]
  · right; right
    replace he : eInit (s.setEnc { s.enc with bpp := b, n := BitVec.ofNat 25 n }) = .error ⟨.codeOverflow, s.codeCap⟩ := he
    replace hlt : s.codeCap < codesBits [(2 ^ b.toNat, b.toNat + 1)] / 8 := hlt
    have := hhead (s.pixels n)
    simp only [he, error_bind]
    exact ⟨trivial, by omega⟩

/-- ENC_RUN on a buffer with an illegal pixel raises PIXEL_VALUE for the first one, unless the codes before it have no room
(R167). -/
theorem encRun_pixelValue {b : BitVec 4} {n j : Nat} {s : State} (hm : s.MemOk) (hb : legalBpp b) (hn : n ≤ s.pixCap)
    (hj : j < n) (hp : ∀ a < j, (s.readPix a).toNat < 2 ^ b.toNat) (hbad : 2 ^ b.toNat ≤ (s.readPix j).toNat) :
    (encRun b n s = .error ⟨.pixelValue, j⟩ ∧ codesBits (lzwBeforePixel b.toNat (s.pixels j)) / 8 ≤ s.codeCap) ∨
      (encRun b n s = .error ⟨.codeOverflow, s.codeCap⟩ ∧
        s.codeCap < codesBits (lzwBeforePixel b.toNat (s.pixels j)) / 8) := by
  have hpc := pixCap_le s
  have hnn : (BitVec.ofNat 25 n).toNat = n := by
    rw [BitVec.toNat_ofNat]
    omega
  have hm0 : (s.setEnc { s.enc with bpp := b, n := BitVec.ofNat 25 n }).MemOk :=
    ⟨hm.pixmem, hm.codemem, hm.st, hm.dt, hm.xstack⟩
  have hrun : encRun b n s = (eInit (s.setEnc { s.enc with bpp := b, n := BitVec.ofNat 25 n }) >>= fun u =>
      eLoop n u >>= fun v => eFinish v >>= fun w =>
        .ok ((w.setRes0 (zext64 w.cw.ptr.toNat)).setRes1 (zext64 w.enc.ncodes.toNat))) := rfl
  rw [hrun]
  rcases eInit_greedy hm0 hb with ⟨u, huw, hue, hub, hun, hunx, huwid, huk, hust, hupx, hucl, hinit⟩ | ⟨-, hlt⟩
  · replace huw : Written u [(2 ^ b.toNat, b.toNat + 1)] := huw
    replace hub : u.enc.bpp = b := hub
    replace hun : u.enc.n = BitVec.ofNat 25 n := hun
    replace hunx : u.enc.next.toNat = lzwNext b.toNat [] := hunx
    replace huwid : u.enc.w.toNat = b.toNat + 1 := huwid
    replace hupx : u.pixmem = s.pixmem := hupx
    replace hucl : u.codeLast = s.codeLast := hucl
    have hcapu : u.codeCap = s.codeCap := by rw [State.codeCap, hucl]; rfl
    have hrd : ∀ a, u.readPix a = s.readPix a := fun a => by rw [State.readPix, hupx]; rfl
    have hn0 : u.enc.n ≠ 0#25 := by
      rw [hun]
      intro e
      rw [e] at hnn
      have : n = 0 := hnn.symm
      omega
    rw [if_neg hn0] at hinit
    rcases eSeed_greedy huw hue (by rw [hub]) hunx huwid huk hust with ⟨hp0, v, hv, hg, hvi, hvn, hvpx, hvcl⟩ | ⟨hp0, hv⟩
    · rw [hrd] at hp0 hg
      obtain ⟨j, rfl⟩ : ∃ i, j = i + 1 := by
        cases j with
        | zero => omega
        | succ j => exact ⟨j, rfl⟩
      have hvi1 : v.enc.i.toNat = 1 := by rw [hvi]; rfl
      have hvnn : v.enc.n.toNat = n := by rw [hvn, hun, hnn]
      have hcapv : v.codeCap = s.codeCap := by rw [← hcapu, State.codeCap, hvcl]; rfl
      have hrdv : ∀ a, v.readPix a = s.readPix a := fun a => by rw [← hrd a, State.readPix, hvpx]; rfl
      have hloop := eLoop_pixelValue j hg (by omega) n (by omega)
        (fun a _ ha => by rw [hrdv]; exact hp a (by omega))
        (by rw [hrdv, hvi1, Nat.add_comm]; exact hbad)
      have hbefore : lzwBeforePixel b.toNat (s.pixels (j + 1)) = [(2 ^ b.toNat, b.toNat + 1)] ++
          (lzwEncodeFrom b.toNat [] [s.readPix 0] (pixelsFrom s 1 j)).dropLast.dropLast := by
        rw [pixels_eq, ← dropLast_two_append _ (lzwEncodeFrom_two _ _ _ _)]
        rfl
      rw [hvi1, pixelsFrom_congr (hvpx.trans hupx), ← hbefore, hcapv, Nat.add_comm 1 j] at hloop
      rcases hloop with ⟨h1, h2⟩ | ⟨h1, h2⟩
      · exact Or.inl ⟨by simp only [hinit, hv, h1, ok_bind, error_bind], h2⟩
      · exact Or.inr ⟨by simp only [hinit, hv, h1, ok_bind, error_bind], h2⟩
    · left
      rw [hrd] at hp0
      obtain rfl : j = 0 := by
        by_contra hj0
        have := hp 0 (by omega)
        omega
      refine ⟨by simp only [hinit, hv, error_bind], ?_⟩
      rw [← hcapu]
      exact huw.fits
  · exfalso
    replace hlt : s.codeCap < codesBits [(2 ^ b.toNat, b.toNat + 1)] / 8 := hlt
    have h8 := hb.2
    have : 1 ≤ s.codeCap := Nat.le_add_left 1 _
    simp only [codesBits, List.map_cons, List.map_nil, List.sum_cons, List.sum_nil] at hlt
    omega

end Sys2Proof.Machine
end

