-- ==== Sys2Proof/Laws/Hidden.lean ====
section
/-! SUPPORT. Why the state that is unspecified between runs does not matter (R35 to R40, R43): two runs of DEC_RUN from
states that differ in it alone do the same, and no encoder primitive reads the decoder's registers. -/

namespace Sys2Proof.Machine

/-- Two results that raise the same error, or end in related states. -/
def Alike (R : State → State → Prop) : Except Raise State → Except Raise State → Prop
  | .ok s, .ok t => R s t
  | .error r, .error q => r = q
  | .ok _, .error _ => False
  | .error _, .ok _ => False

theorem Alike.bind {R Q : State → State → Prop} {x y : Except Raise State} {f g : State → Except Raise State}
    (h : Alike R x y) (hfg : ∀ s t, R s t → Alike Q (f s) (g t)) : Alike Q (x >>= f) (y >>= g) := by
  cases x with
  | ok s =>
    cases y with
    | ok t => exact hfg s t h
    | error q => exact h.elim
  | error r =>
    cases y with
    | ok t => exact h.elim
    | error q => exact h

/-- The same state but for the decoder's hidden part, as far as a run will read it: DEC_PREV counts only in the phase RUN,
and DT only for the codes the session has entered (R39). -/
structure DecSame (s t : State) : Prop where
  eq : t = { s with
    enc := t.enc, dec := { s.dec with prev := t.dec.prev }, dt := t.dt, xstack := t.xstack, xsp := t.xsp }
  prev : s.dec.phase = .run → t.dec.prev = s.dec.prev
  entries : ∀ k, s.dec.eoi.toNat < k → k < s.dec.next.toNat → t.readEntry k = s.readEntry k
  dtLeft : Cells.wf DtEntry.empty Config.dtEntries s.dt
  dtRight : Cells.wf DtEntry.empty Config.dtEntries t.dt
  xsLeft : Memory.wf Config.xstackDepth s.xstack
  xsRight : Memory.wf Config.xstackDepth t.xstack

/-- The second state in the terms of the first. -/
theorem DecSame.elim {s t : State} (h : DecSame s t) :
    ∃ e p d x y, t = { s with enc := e, dec := { s.dec with prev := p }, dt := d, xstack := x, xsp := y } :=
  ⟨_, _, _, _, _, h.eq⟩

theorem dEmit_same (p : Byte) {s t : State} (h : DecSame s t) :
    Alike (fun u v => DecSame u v ∧ u.dec = { s.dec with out := u.dec.out } ∧ u.dt = s.dt ∧ v.dt = t.dt) (dEmit p s)
      (dEmit p t) := by
  obtain ⟨e, q, d, x, y, rfl⟩ := h.elim
  unfold dEmit
  by_cases hc : s.pixCap ≤ s.dec.out.toNat
  · rw [if_pos hc, if_pos (by exact hc)]
    rfl
  · rw [if_neg hc, if_neg (by exact hc)]
    exact ⟨⟨rfl, h.prev, h.entries, h.dtLeft, h.dtRight, h.xsLeft, h.xsRight⟩, rfl, rfl, rfl⟩

theorem dEmitSeq_same (ps : List Byte) {s t : State} (h : DecSame s t) :
    Alike (fun u v => DecSame u v ∧ u.dec = { s.dec with out := u.dec.out } ∧ u.dt = s.dt ∧ v.dt = t.dt) (dEmitSeq ps s)
      (dEmitSeq ps t) := by
  induction ps generalizing s t with
  | nil => exact ⟨h, rfl, rfl, rfl⟩
  | cons p ps ih =>
    refine (dEmit_same p h).bind fun u v hu => ?_
    have := ih hu.1
    obtain ⟨-, h2, h3, h4⟩ := hu
    revert this
    show Alike _ (dEmitSeq ps u) (dEmitSeq ps v) → Alike _ (dEmitSeq ps u) (dEmitSeq ps v)
    cases dEmitSeq ps u with
    | ok a =>
      cases dEmitSeq ps v with
      | ok b =>
        rintro ⟨g1, g2, g3, g4⟩
        refine ⟨g1, ?_, g3.trans h3, g4.trans h4⟩
        rw [g2, h2]
      | error r => exact id
    | error r =>
      cases dEmitSeq ps v with
      | ok b => exact id
      | error q => exact id

/-- Two expansions of one code. -/
theorem expandFrom_same (k0 : BitVec 12) (room : Nat) {k : BitVec 12} {s t : State} (hcl : t.dec.clear = s.dec.clear)
    (heoi : t.dec.eoi = s.dec.eoi) (hnx : t.dec.next = s.dec.next)
    (hent : ∀ k, s.dec.eoi.toNat < k → k < s.dec.next.toNat → t.readEntry k = s.readEntry k)
    (hs : Memory.wf Config.xstackDepth s.xstack) (ht : Memory.wf Config.xstackDepth t.xstack)
    (hy : t.xsp = s.xsp) (hroom : s.xsp.toNat + room = Config.xstackDepth)
    (hx : ∀ i < s.xsp.toNat, Memory.read t.xstack i = Memory.read s.xstack i) :
    Alike (fun u v => Memory.wf Config.xstackDepth u.xstack ∧ Memory.wf Config.xstackDepth v.xstack ∧
      u = { s with xstack := u.xstack, xsp := u.xsp } ∧ v = { t with xstack := v.xstack, xsp := v.xsp } ∧ v.xsp = u.xsp ∧
      ∀ i < u.xsp.toNat, Memory.read v.xstack i = Memory.read u.xstack i)
      (expandFrom k0 room k s) (expandFrom k0 room k t) := by
  induction room generalizing k s t with
  | zero =>
    unfold expandFrom
    rw [hcl, heoi, hnx]
    by_cases hc : s.dec.clear.toNat ≤ k.toNat ∧ (k.toNat ≤ s.dec.eoi.toNat ∨ s.dec.next.toNat ≤ k.toNat)
    · simp only [if_pos hc]
      rfl
    · simp only [if_neg hc]
      rfl
  | succ room ih =>
    have hlt : s.xsp.toNat < Config.xstackDepth := by omega
    have hlt' : t.xsp.toNat < Config.xstackDepth := by rw [hy]; exact hlt
    have hpush : ∀ b : Byte, Memory.wf Config.xstackDepth (s.pushX b).xstack ∧
        Memory.wf Config.xstackDepth (t.pushX b).xstack ∧ (t.pushX b).xsp = (s.pushX b).xsp ∧
        ∀ i < (s.pushX b).xsp.toNat, Memory.read (t.pushX b).xstack i = Memory.read (s.pushX b).xstack i := by
      intro b
      refine ⟨Memory.write_wf hs hlt, Memory.write_wf ht hlt', by show t.xsp + 1#13 = s.xsp + 1#13; rw [hy], ?_⟩
      intro i hi
      rw [(pushX_frame b hlt).2.1] at hi
      show Memory.read (Memory.write t.xstack t.xsp.toNat b) i = Memory.read (Memory.write s.xstack s.xsp.toNat b) i
      rw [hy]
      by_cases hi' : i = s.xsp.toNat
      · rw [hi', Memory.read_write_same hs, Memory.read_write_same ht]
      · rw [Memory.read_write_other hi', Memory.read_write_other hi']
        exact hx i (by omega)
    unfold expandFrom
    rw [hcl, heoi, hnx]
    by_cases hc : k.toNat < s.dec.clear.toNat
    · simp only [if_pos hc]
      obtain ⟨h1, h2, h3, h4⟩ := hpush (k.setWidth 8)
      exact ⟨h1, h2, rfl, rfl, h3, h4⟩
    · simp only [if_neg hc]
      by_cases hu : k.toNat ≤ s.dec.eoi.toNat ∨ s.dec.next.toNat ≤ k.toNat
      · simp only [if_pos hu]
        rfl
      · simp only [if_neg hu]
        rw [hent k.toNat (by omega) (by omega)]
        obtain ⟨h1, h2, h3, h4⟩ := hpush (s.readEntry k.toNat).suf
        have := ih (k := (s.readEntry k.toNat).pre) (s := s.pushX (s.readEntry k.toNat).suf)
          (t := t.pushX (s.readEntry k.toNat).suf) hcl heoi hnx hent h1 h2 h3
          (by rw [(pushX_frame (s.readEntry k.toNat).suf hlt).2.1]; omega) h4
        have hps : s.pushX (s.readEntry k.toNat).suf = { s with
          xstack := (s.pushX (s.readEntry k.toNat).suf).xstack, xsp := (s.pushX (s.readEntry k.toNat).suf).xsp } := rfl
        have hpt : t.pushX (s.readEntry k.toNat).suf = { t with
          xstack := (t.pushX (s.readEntry k.toNat).suf).xstack, xsp := (t.pushX (s.readEntry k.toNat).suf).xsp } := rfl
        generalize (s.readEntry k.toNat).pre = k', s.pushX (s.readEntry k.toNat).suf = s',
          t.pushX (s.readEntry k.toNat).suf = t' at *
        revert this
        cases expandFrom k0 room k' s' with
        | ok a =>
          cases expandFrom k0 room k' t' with
          | ok b =>
            rintro ⟨g1, g2, g3, g4, g5, g6⟩
            exact ⟨g1, g2, by rw [g3, hps], by rw [g4, hpt], g5, g6⟩
          | error r => exact id
        | error r =>
          cases expandFrom k0 room k' t' with
          | ok b => exact id
          | error q => exact id

/-- An expansion of one code gives the same pixels, or the same error. -/
theorem expand_same {k : BitVec 12} {s t : State} (h : DecSame s t) :
    (∃ ps u v, expand k s = .ok (ps, u) ∧ expand k t = .ok (ps, v) ∧ DecSame u v ∧ u.dec = s.dec ∧ v.dec = t.dec) ∨
    ∃ r, expand k s = .error r ∧ expand k t = .error r := by
  have hd : t.dec = { s.dec with prev := t.dec.prev } := by rw [h.eq]
  have := expandFrom_same k Config.xstackDepth (k := k) (s := s.setXstack s.xstack 0#13) (t := t.setXstack t.xstack 0#13)
    (by show t.dec.clear = _; rw [hd]; rfl) (by show t.dec.eoi = _; rw [hd]; rfl) (by show t.dec.next = _; rw [hd]; rfl)
    h.entries h.xsLeft h.xsRight rfl rfl (fun i hi => absurd hi (Nat.not_lt_zero i))
  revert this
  unfold expand
  cases expandFrom k Config.xstackDepth k (s.setXstack s.xstack 0#13) with
  | ok u =>
    cases expandFrom k Config.xstackDepth k (t.setXstack t.xstack 0#13) with
    | ok v =>
      rintro ⟨g1, g2, g3, g4, g5, g6⟩
      have hp : xstackPixels v = xstackPixels u := by
        unfold xstackPixels
        rw [g5]
        refine List.map_congr_left fun i hi => g6 i ?_
        simpa using hi
      refine Or.inl ⟨xstackPixels u, u, v, rfl, by rw [ok_bind, hp], ?_, by rw [g3]; rfl, by rw [g4]; rfl⟩
      have heq := h.eq
      have hprev := h.prev
      have hentries := h.entries
      have h1 := h.dtLeft
      have h2 := h.dtRight
      generalize u.xstack = ux, u.xsp = uy, v.xstack = vx, v.xsp = vy at *
      subst g3
      subst g4
      refine ⟨?_, hprev, hentries, h1, h2, g1, g2⟩
      show ({ t with xstack := vx, xsp := vy } : State) =
        { s with enc := t.enc, dec := { s.dec with prev := t.dec.prev }, dt := t.dt, xstack := vx, xsp := vy }
      rw [heq]
    | error r => exact False.elim
  | error r =>
    cases expandFrom k Config.xstackDepth k (t.setXstack t.xstack 0#13) with
    | ok v => exact False.elim
    | error q =>
      intro e
      obtain rfl : r = q := e
      exact Or.inr ⟨r, rfl, rfl⟩

/-- What the two runs share between the turns of the loop (R183). -/
structure DecTurn (s t : State) : Prop where
  same : DecSame s t
  bpp : 1 ≤ s.dec.bpp.toNat ∧ s.dec.bpp.toNat ≤ 8
  clear : s.dec.clear.toNat = 2 ^ s.dec.bpp.toNat
  eoi : s.dec.eoi.toNat = s.dec.clear.toNat + 1

theorem DecTurn.dec {s t u v : State} (h : DecTurn s t) (hd : DecSame u v) (hb : u.dec.bpp = s.dec.bpp)
    (hc : u.dec.clear = s.dec.clear) (he : u.dec.eoi = s.dec.eoi) : DecTurn u v :=
  ⟨hd, by rw [hb]; exact h.bpp, by rw [hc, hb]; exact h.clear, by rw [he, hc]; exact h.eoi⟩

theorem decInitSession_same {s t : State} (h : DecTurn s t) : DecTurn (decInitSession s) (decInitSession t) := by
  have hs := h.same
  refine h.dec ?_ rfl rfl rfl
  obtain ⟨e, q, d, x, y, rfl⟩ := hs.elim
  refine ⟨rfl, hs.prev, fun k hk hk' => ?_, hs.dtLeft, hs.dtRight, hs.xsLeft, hs.xsRight⟩
  exfalso
  have hn : (BitVec.ofNat 13 (s.dec.clear.toNat + 2)).toNat = s.dec.clear.toNat + 2 := by
    rw [BitVec.toNat_ofNat]
    have := s.dec.clear.isLt
    omega
  have hk : s.dec.eoi.toNat < k := hk
  have hk' : k < (BitVec.ofNat 13 (s.dec.clear.toNat + 2)).toNat := hk'
  have := h.eoi
  omega

theorem crRead_same {w : Nat} {s t : State} (h : DecSame s t) :
    (crRead w s = none ∧ crRead w t = none) ∨
    ∃ r u v, crRead w s = some (r, u) ∧ crRead w t = some (r, v) ∧ DecSame u v ∧ u.dec = s.dec ∧ v.dec = t.dec := by
  obtain ⟨e, q, d, x, y, rfl⟩ := h.elim
  unfold crRead
  by_cases hc : 8 * s.cr.len.toNat < s.cr.bitpos.toNat + w
  · rw [if_pos hc, if_pos (by exact hc)]
    exact Or.inl ⟨rfl, rfl⟩
  · rw [if_neg hc, if_neg (by exact hc)]
    exact Or.inr ⟨_, _, _, rfl, rfl, ⟨rfl, h.prev, h.entries, h.dtLeft, h.dtRight, h.xsLeft, h.xsRight⟩, rfl, rfl⟩

/-- A raw pixel after a CLEAR (R185, R186): from then on DEC_PREV agrees too. -/
theorem dFirst_same (c : BitVec 12) {s t : State} (h : DecTurn s t) : Alike DecTurn (dFirst c s) (dFirst c t) := by
  have hcl : t.dec.clear = s.dec.clear := by rw [h.same.eq]
  unfold dFirst
  rw [hcl]
  by_cases hc : s.dec.clear.toNat ≤ c.toNat
  · rw [if_pos hc, if_pos hc]
    rfl
  · rw [if_neg hc, if_neg hc]
    refine (dEmit_same _ h.same).bind fun u v hu => ?_
    obtain ⟨hs, hd, -, -⟩ := hu
    obtain ⟨e, q, d, x, y, rfl⟩ := hs.elim
    refine h.dec ⟨rfl, fun _ => rfl, hs.entries, hs.dtLeft, hs.dtRight, hs.xsLeft, hs.xsRight⟩ ?_ ?_ ?_ <;>
      simp only [State.setDec_dec] <;> rw [hd]

theorem dClear_eq_first {s u : State} {r : BitVec 12} (h : crRead (decInitSession s).dec.w.toNat (decInitSession s) = some (r, u)) :
    dClear s = dFirst r u := by
  unfold dClear dFirst
  rw [h]

theorem dClear_same {s t : State} (h : DecTurn s t) : Alike DecTurn (dClear s) (dClear t) := by
  have hi := decInitSession_same h
  have hw : (decInitSession t).dec.w = (decInitSession s).dec.w := by rw [hi.same.eq]
  rcases crRead_same (w := (decInitSession s).dec.w.toNat) hi.same with ⟨h1, h2⟩ | ⟨r, u, v, h1, h2, h3, h4, h5⟩
  · unfold dClear
    rw [hw, h1, h2]
    have hs := hi.same
    obtain ⟨e, q, d, x, y, he⟩ := hs.elim
    show DecTurn _ _
    refine hi.dec ⟨?_, fun hp => ?_, hs.entries, hs.dtLeft, hs.dtRight, hs.xsLeft, hs.xsRight⟩ rfl rfl rfl
    · rw [he]
      rfl
    · cases hp
  · rw [dClear_eq_first h1, dClear_eq_first (by rw [hw]; exact h2)]
    exact dFirst_same r (hi.dec h3 (by rw [h4]) (by rw [h4]) (by rw [h4]))

theorem dAddEntry_same (p : Byte) {s t : State} (h : DecSame s t) (hp : t.dec.prev = s.dec.prev) :
    DecSame (dAddEntry p s) (dAddEntry p t) ∧ (dAddEntry p s).dec = { s.dec with next := (dAddEntry p s).dec.next } := by
  obtain ⟨e, q, d, x, y, rfl⟩ := h.elim
  obtain rfl : q = s.dec.prev := hp
  unfold dAddEntry
  by_cases hn : s.dec.next.toNat < Config.dtEntries
  · rw [if_pos hn, if_pos (by exact hn)]
    refine ⟨⟨rfl, fun _ => rfl, fun k hk hk' => ?_, Cells.write_wf h.dtLeft hn, Cells.write_wf h.dtRight hn, h.xsLeft,
      h.xsRight⟩, rfl⟩
    have hn1 : (s.dec.next + 1#13).toNat = s.dec.next.toNat + 1 := by
      have : s.dec.next.toNat < 4096 := hn
      rw [BitVec.toNat_add]
      simp only [BitVec.toNat_ofNat]
      omega
    have hk' : k < (s.dec.next + 1#13).toNat := hk'
    show Cells.read _ (Cells.write _ d _ _) k = Cells.read _ (Cells.write _ s.dt _ _) k
    by_cases hkn : k = s.dec.next.toNat
    · rw [hkn, Cells.read_write_same h.dtLeft, Cells.read_write_same h.dtRight]
    · rw [Cells.read_write_other hkn, Cells.read_write_other hkn]
      exact h.entries k hk (by omega)
  · rw [if_neg hn, if_neg (by exact hn)]
    exact ⟨h, rfl⟩

theorem dRepeat_same (known : Bool) (p : Byte) {s t : State} (h : DecSame s t) :
    Alike (fun u v => DecSame u v ∧ u.dec = { s.dec with out := u.dec.out } ∧ u.dt = s.dt ∧ v.dt = t.dt)
      (dRepeat known p s) (dRepeat known p t) := by
  cases known with
  | true => exact ⟨h, rfl, rfl, rfl⟩
  | false => exact dEmit_same p h

/-- `D_Code` (R187) as a chain of its five parts. -/
theorem dCode_eq (c : BitVec 12) (s : State) :
    dCode c s = (expand (if decide (c.toNat < s.dec.next.toNat) then c else s.dec.prev) s >>= fun r =>
      dEmitSeq r.1 r.2 >>= fun a => dRepeat (decide (c.toNat < s.dec.next.toNat)) (r.1.headD 0#8) a >>= fun x =>
        .ok ((dAddEntry (r.1.headD 0#8) x).setDec { (dAddEntry (r.1.headD 0#8) x).dec with prev := c })) := rfl

theorem dCode_same (c : BitVec 12) {s t : State} (h : DecTurn s t) (hr : s.dec.phase = .run) :
    Alike DecTurn (dCode c s) (dCode c t) := by
  have hprev := h.same.prev hr
  have hnx : t.dec.next = s.dec.next := by rw [h.same.eq]
  rw [dCode_eq, dCode_eq, hprev, hnx]
  rcases expand_same (k := if decide (c.toNat < s.dec.next.toNat) = true then c else s.dec.prev) h.same with
    ⟨ps, u, v, h1, h2, h3, h4, h5⟩ | ⟨r, h1, h2⟩
  · rw [h1, h2]
    refine (dEmitSeq_same ps h3).bind fun a b hab => (dRepeat_same _ _ hab.1).bind fun x y hxy => ?_
    obtain ⟨-, hd1, -, -⟩ := hab
    obtain ⟨hs, hd2, -, -⟩ := hxy
    have hdec : x.dec = { s.dec with out := x.dec.out } := by
      rw [hd2, hd1, h4]
    have hxp : y.dec.prev = x.dec.prev := hs.prev (by rw [hdec]; exact hr)
    obtain ⟨g1, g2⟩ := dAddEntry_same (ps.headD 0#8) hs hxp
    have hb : (dAddEntry (ps.headD 0#8) x).dec.bpp = s.dec.bpp := by rw [g2, hdec]
    have hc : (dAddEntry (ps.headD 0#8) x).dec.clear = s.dec.clear := by rw [g2, hdec]
    have he : (dAddEntry (ps.headD 0#8) x).dec.eoi = s.dec.eoi := by rw [g2, hdec]
    generalize dAddEntry (ps.headD 0#8) x = x' at *
    refine h.dec ⟨?_, fun _ => rfl, g1.entries, g1.dtLeft, g1.dtRight, g1.xsLeft, g1.xsRight⟩ hb hc he
    obtain ⟨e, q, d, z, w, hy⟩ := g1.elim
    rw [hy]
    rfl
  · rw [h1, h2]
    rfl

theorem dHandle_same (r : BitVec 12) {s t : State} (h : DecTurn s t) (hp : s.dec.phase = .first ∨ s.dec.phase = .run) :
    Alike DecTurn (dHandle r s) (dHandle r t) := by
  have hc : t.dec.clear = s.dec.clear := by rw [h.same.eq]
  have hph : t.dec.phase = s.dec.phase := by rw [h.same.eq]
  unfold dHandle
  rw [hc, hph]
  by_cases h1 : r.toNat = s.dec.clear.toNat
  · simp only [if_pos h1]
    exact dClear_same h
  · simp only [if_neg h1]
    by_cases h2 : s.dec.phase = .first
    · simp only [if_pos h2]
      exact dFirst_same r h
    · simp only [if_neg h2]
      exact dCode_same r h (hp.resolve_left h2)

theorem dGrow_same {s t : State} (h : DecTurn s t) : DecTurn (dGrow s) (dGrow t) := by
  have hs := h.same
  obtain ⟨e, q, d, x, y, rfl⟩ := hs.elim
  unfold dGrow
  by_cases hc : s.dec.limit.toNat ≤ s.dec.next.toNat ∧ s.dec.w.toNat < Config.maxCodeWidth
  · rw [if_pos hc, if_pos (by exact hc)]
    exact h.dec ⟨rfl, hs.prev, hs.entries, hs.dtLeft, hs.dtRight, hs.xsLeft, hs.xsRight⟩ rfl rfl rfl
  · rw [if_neg hc, if_neg (by exact hc)]
    exact h

theorem DecTurn.setPhase {s t : State} (h : DecTurn s t) (p : DecPhase) (hp : p ≠ .run) :
    DecTurn (s.setDec { s.dec with phase := p }) (t.setDec { t.dec with phase := p }) := by
  have hs := h.same
  refine h.dec ⟨?_, fun e => absurd e hp, hs.entries, hs.dtLeft, hs.dtRight, hs.xsLeft, hs.xsRight⟩ rfl rfl rfl
  obtain ⟨e, q, d, x, y, ht⟩ := hs.elim
  rw [ht]
  rfl

theorem dStep_same {s t : State} (h : DecTurn s t) (hp : s.dec.phase = .first ∨ s.dec.phase = .run) :
    Alike DecTurn (dStep s) (dStep t) := by
  have hw : t.dec.w = s.dec.w := by rw [h.same.eq]
  unfold dStep
  rw [hw]
  rcases crRead_same (w := s.dec.w.toNat) h.same with ⟨h1, h2⟩ | ⟨r, u, v, h1, h2, h3, h4, h5⟩
  · rw [h1, h2]
    exact h.setPhase .done (by decide)
  · rw [h1, h2]
    have hu : DecTurn u v := h.dec h3 (by rw [h4]) (by rw [h4]) (by rw [h4])
    have heoi : v.dec.eoi = u.dec.eoi := by rw [h3.eq]
    show Alike DecTurn (if _ then _ else _) (if _ then _ else _)
    rw [heoi]
    by_cases hr : r.toNat = u.dec.eoi.toNat
    · simp only [if_pos hr]
      exact hu.setPhase .done (by decide)
    · simp only [if_neg hr]
      refine (dHandle_same r hu (by rw [h4]; exact hp)).bind fun a b hab => ?_
      have hph : b.dec.phase = a.dec.phase := by rw [hab.same.eq]
      rw [hph]
      by_cases hd : a.dec.phase = .done
      · simp only [if_pos hd]
        exact hab
      · simp only [if_neg hd]
        exact dGrow_same hab

theorem dLoop_same (k : Nat) {s t : State} (h : DecTurn s t) : Alike DecTurn (dLoop k s) (dLoop k t) := by
  induction k generalizing s t with
  | zero => exact h
  | succ k ih =>
    have hph : t.dec.phase = s.dec.phase := by rw [h.same.eq]
    unfold dLoop
    rw [hph]
    by_cases hp : s.dec.phase = .first ∨ s.dec.phase = .run
    · simp only [if_pos hp]
      exact (dStep_same h hp).bind fun u v huv => ih huv
    · simp only [if_neg hp]
      exact h

/-- The start of a run, written out (R182). -/
theorem dBegin_eq (n : Nat) (s : State) :
    dBegin n s = { s with
      cr := ⟨BitVec.ofNat 25 n, 0#28⟩
      dec :=
        { bpp := s.dec.bpp, clear := BitVec.ofNat 9 (2 ^ s.dec.bpp.toNat), eoi := BitVec.ofNat 9 (2 ^ s.dec.bpp.toNat + 1),
          w := s.dec.bpp + 1#4, limit := BitVec.ofNat 13 (2 ^ (s.dec.bpp.toNat + 1)),
          next := BitVec.ofNat 13 ((BitVec.ofNat 9 (2 ^ s.dec.bpp.toNat)).toNat + 2), prev := s.dec.prev, out := 0#25,
          phase := .init } } := rfl

/-- Two runs of DEC_RUN (R180) from states that differ in the hidden part alone. -/
theorem decRun_same {b : BitVec 4} (hb : legalBpp b) (n : Nat) {s t : State} (hs : s.MemOk) (ht : t.MemOk)
    (h : s.sameVisible t) :
    Alike (fun u v => v = { u with enc := v.enc, dec := v.dec, dt := v.dt, xstack := v.xstack, xsp := v.xsp })
      (decRun b n s) (decRun b n t) := by
  have hpow : 2 ^ b.toNat ≤ 2 ^ 8 := Nat.pow_le_pow_right (by decide) hb.2
  have hc : (BitVec.ofNat 9 (2 ^ b.toNat)).toNat = 2 ^ b.toNat := by
    rw [BitVec.toNat_ofNat, Nat.mod_eq_of_lt (by omega)]
  have he : (BitVec.ofNat 9 (2 ^ b.toNat + 1)).toNat = 2 ^ b.toNat + 1 := by
    rw [BitVec.toNat_ofNat, Nat.mod_eq_of_lt (by omega)]
  have h0 : DecTurn (dBegin n (s.setDec { s.dec with bpp := b })) (dBegin n (t.setDec { t.dec with bpp := b })) := by
    rw [dBegin_eq, dBegin_eq]
    refine ⟨⟨?_, fun e => ?_, fun k hk hk' => ?_, hs.dt, ht.dt, hs.xstack, ht.xstack⟩, hb, hc, ?_⟩
    · unfold State.sameVisible at h
      generalize t.enc = e, t.dec = d, t.dt = dt, t.xstack = x, t.xsp = y at h
      subst h
      rfl
    · cases e
    · exfalso
      have hk : (BitVec.ofNat 9 (2 ^ b.toNat + 1)).toNat < k := hk
      have hk' : k < (BitVec.ofNat 13 ((BitVec.ofNat 9 (2 ^ b.toNat)).toNat + 2)).toNat := hk'
      rw [BitVec.toNat_ofNat, hc, Nat.mod_eq_of_lt (by omega)] at hk'
      omega
    · show (BitVec.ofNat 9 (2 ^ b.toNat + 1)).toNat = (BitVec.ofNat 9 (2 ^ b.toNat)).toNat + 1
      rw [hc, he]
  have hinit : Alike DecTurn (dInit n (s.setDec { s.dec with bpp := b })) (dInit n (t.setDec { t.dec with bpp := b })) := by
    unfold dInit
    generalize dBegin n (s.setDec { s.dec with bpp := b }) = d, dBegin n (t.setDec { t.dec with bpp := b }) = d' at *
    have hw : d'.dec.w = d.dec.w := by rw [h0.same.eq]
    have hp : d'.cr = d.cr := by rw [h0.same.eq]
    rw [hw, hp]
    rcases crRead_same (w := d.dec.w.toNat) h0.same with ⟨h1, h2⟩ | ⟨r, u, v, h1, h2, h3, h4, h5⟩
    · rw [h1, h2]
      rfl
    · rw [h1, h2]
      have hu : DecTurn u v := h0.dec h3 (by rw [h4]) (by rw [h4]) (by rw [h4])
      have hcl : v.dec.clear = u.dec.clear := by rw [h3.eq]
      show Alike DecTurn (if _ then _ else _) (if _ then _ else _)
      rw [hcl]
      by_cases hr : r.toNat ≠ u.dec.clear.toNat
      · simp only [if_pos hr]
        rfl
      · simp only [if_neg hr]
        exact hu.setPhase .first (by decide)
  have hrun : ∀ x : State, decRun b n x = (dInit n (x.setDec { x.dec with bpp := b }) >>= fun u =>
      dLoop (4 * n + 1) u >>= fun v => .ok ((v.setRes0 (zext64 v.dec.out.toNat)).setRes1 (zext64 v.cr.bitpos.toNat))) :=
    fun x => rfl
  rw [hrun, hrun]
  refine hinit.bind fun u v huv => (dLoop_same _ huv).bind fun x y hxy => ?_
  obtain ⟨e, q, d, z, w, hy⟩ := hxy.same.elim
  show (_ : State) = _
  rw [hy]
  rfl

/-! ## The encoder -/

/-- A state with the decoder's registers, DT and XSTACK of another. -/
def hideDec (h s : State) : State := { s with dec := h.dec, dt := h.dt, xstack := h.xstack, xsp := h.xsp }

/-- A state with the encoder's registers of another as well. -/
def hideAll (h s : State) : State := { hideDec h s with enc := h.enc }

theorem bind_map {f : State → State} {x y : Except Raise State} {g g' : State → Except Raise State}
    (hx : x = y.map f) (hg : ∀ u, g (f u) = (g' u).map f) : (x >>= g) = (y >>= g').map f := by
  subst hx
  cases y with
  | error r => rfl
  | ok u => exact hg u

theorem cwEmitByte_hide (h : State) (v : Byte) (s : State) :
    cwEmitByte v (hideAll h s) = (cwEmitByte v s).map (hideAll h) ∧
      cwEmitByte v (hideDec h s) = (cwEmitByte v s).map (hideDec h) := by
  unfold cwEmitByte
  by_cases hc : s.codeCap ≤ s.cw.ptr.toNat
  · rw [if_pos hc]
    exact ⟨if_pos hc, if_pos hc⟩
  · rw [if_neg hc]
    exact ⟨if_neg hc, if_neg hc⟩

theorem cwDrain_hide (h : State) (k : Nat) (s : State) :
    cwDrain k (hideAll h s) = (cwDrain k s).map (hideAll h) ∧
      cwDrain k (hideDec h s) = (cwDrain k s).map (hideDec h) := by
  induction k generalizing s with
  | zero => exact ⟨rfl, rfl⟩
  | succ k ih =>
    unfold cwDrain
    have e := cwEmitByte_hide h (s.cw.acc.setWidth 8) s
    rw [show (hideAll h s).cw.acc = s.cw.acc from rfl, show (hideDec h s).cw.acc = s.cw.acc from rfl, e.1, e.2]
    cases cwEmitByte (s.cw.acc.setWidth 8) s with
    | error r => exact ⟨rfl, rfl⟩
    | ok u => exact ih (u.setCw { u.cw with acc := u.cw.acc >>> 8 })

theorem cwWrite_hide (h : State) (c w : Nat) (s : State) :
    cwWrite c w (hideAll h s) = (cwWrite c w s).map (hideAll h) ∧
      cwWrite c w (hideDec h s) = (cwWrite c w s).map (hideDec h) := by
  rw [cwWrite_eq, cwWrite_eq, cwWrite_eq]
  have e := cwDrain_hide h ((s.cw.cnt.toNat + w) / 8) (cwAppend c w s)
  have e1 : cwDrain (((hideAll h s).cw.cnt.toNat + w) / 8) (cwAppend c w (hideAll h s)) =
      (cwDrain ((s.cw.cnt.toNat + w) / 8) (cwAppend c w s)).map (hideAll h) := e.1
  have e2 : cwDrain (((hideDec h s).cw.cnt.toNat + w) / 8) (cwAppend c w (hideDec h s)) =
      (cwDrain ((s.cw.cnt.toNat + w) / 8) (cwAppend c w s)).map (hideDec h) := e.2
  rw [e1, e2]
  cases cwDrain ((s.cw.cnt.toNat + w) / 8) (cwAppend c w s) with
  | error r => exact ⟨rfl, rfl⟩
  | ok u => exact ⟨rfl, rfl⟩

theorem cwEnd_hide (h s : State) :
    cwEnd (hideAll h s) = (cwEnd s).map (hideAll h) ∧ cwEnd (hideDec h s) = (cwEnd s).map (hideDec h) := by
  have e := cwEmitByte_hide h (s.cw.acc.setWidth 8) s
  unfold cwEnd cwFlush
  rw [show (hideAll h s).cw = s.cw from rfl, show (hideDec h s).cw = s.cw from rfl]
  by_cases hc : 0 < s.cw.cnt.toNat
  · simp only [if_pos hc, e.1, e.2]
    cases cwEmitByte (s.cw.acc.setWidth 8) s with
    | error r => exact ⟨rfl, rfl⟩
    | ok u => exact ⟨rfl, rfl⟩
  · simp only [if_neg hc]
    exact ⟨rfl, rfl⟩

theorem eEmit_hide (h : State) (c : Nat) (s : State) : eEmit c (hideDec h s) = (eEmit c s).map (hideDec h) := by
  unfold eEmit
  rw [show (hideDec h s).enc = s.enc from rfl, (cwWrite_hide h c s.enc.w.toNat s).2]
  cases cwWrite c s.enc.w.toNat s with
  | error r => rfl
  | ok u => rfl

theorem eInsert_hide (h : State) (p : Byte) (i : BitVec 12) (s : State) :
    eInsert p i (hideDec h s) = hideDec h (eInsert p i s) := by
  unfold eInsert eGrow
  by_cases hc : (eEnter p i s).enc.limit.toNat < (eEnter p i s).enc.next.toNat ∧
      (eEnter p i s).enc.w.toNat < Config.maxCodeWidth
  · rw [if_pos hc, if_pos (by exact hc)]
    rfl
  · rw [if_neg hc, if_neg (by exact hc)]
    rfl

theorem eExtend_hide (h : State) (p : Byte) (i : BitVec 12) (s : State) :
    eExtend p i (hideDec h s) = (eExtend p i s).map (hideDec h) := by
  unfold eExtend
  rw [show (hideDec h s).enc = s.enc from rfl]
  by_cases hn : s.enc.next.toNat ≤ Config.maxCode
  · rw [if_pos hn, if_pos hn, eInsert_hide]
    rfl
  · rw [if_neg hn, if_neg hn]
    exact bind_map (eEmit_hide h _ s) fun _ => rfl

theorem eMiss_hide (h : State) (p : Byte) (i : BitVec 12) (s : State) :
    eMiss p i (hideDec h s) = (eMiss p i s).map (hideDec h) :=
  bind_map (eEmit_hide h _ s) fun u => bind_map (eExtend_hide h p i u) fun _ => rfl

theorem eStep_hide (h s : State) : eStep (hideDec h s) = (eStep s).map (hideDec h) := by
  have hr : ∀ a, (hideDec h s).readPix a = s.readPix a := fun _ => rfl
  have hp : ∀ pre suf, stProbe pre suf (hideDec h s) = stProbe pre suf s := by
    intro pre suf
    unfold stProbe
    generalize Config.stSlots = n, stHash pre suf = i
    induction n generalizing i with
    | zero => rfl
    | succ n ih =>
      simp only [stProbeFrom, ih]
      rfl
  unfold eStep
  rw [show (hideDec h s).enc = s.enc from rfl, hr, hp]
  by_cases hc : s.enc.clear.toNat ≤ (s.readPix s.enc.i.toNat).toNat
  · rw [if_pos hc, if_pos hc]
    rfl
  · rw [if_neg hc, if_neg hc]
    cases stProbe s.enc.cur (s.readPix s.enc.i.toNat) s with
    | none => rfl
    | some r =>
      obtain ⟨code, i⟩ := r
      simp only [eLookup]
      by_cases h0 : code ≠ 0#12
      · simp only [if_pos h0]
        rfl
      · simp only [if_neg h0, eMiss_hide]
        cases eMiss (s.readPix s.enc.i.toNat) i s with
        | error r => rfl
        | ok u => rfl

theorem eLoop_hide (h : State) (k : Nat) (s : State) : eLoop k (hideDec h s) = (eLoop k s).map (hideDec h) := by
  induction k generalizing s with
  | zero => rfl
  | succ k ih =>
    unfold eLoop
    rw [show (hideDec h s).enc = s.enc from rfl]
    by_cases hc : s.enc.i.toNat < s.enc.n.toNat
    · simp only [if_pos hc, eStep_hide]
      cases eStep s with
      | error r => rfl
      | ok u => exact ih u
    · simp only [if_neg hc]
      rfl

theorem eFinish_hide (h s : State) : eFinish (hideDec h s) = (eFinish s).map (hideDec h) := by
  unfold eFinish
  rw [show (hideDec h s).enc = s.enc from rfl]
  by_cases hn : s.enc.n = 0#25
  · rw [if_pos hn, if_pos hn]
    rfl
  · rw [if_neg hn, if_neg hn, eEmit_hide]
    cases eEmit s.enc.cur.toNat s with
    | error r => rfl
    | ok u =>
      show (eEmit (hideDec h u).enc.eoi.toNat (hideDec h u) >>= _) = ((eEmit u.enc.eoi.toNat u >>= _) : Except _ _).map _
      rw [show (hideDec h u).enc = u.enc from rfl, eEmit_hide]
      cases eEmit u.enc.eoi.toNat u with
      | error r => rfl
      | ok v => exact (cwEnd_hide h v).2

/-- The registers of a run of which only ENC_CUR and ENC_I, and the decoder's hidden state, come from another state. -/
def hideCur (h s : State) : State := hideAll { h with enc := { s.enc with cur := h.enc.cur, i := h.enc.i } } s

theorem eEmit_hideCur (h : State) (c : Nat) (s : State) : eEmit c (hideCur h s) = (eEmit c s).map (hideCur h) := by
  have hw := (cwWrite_hide { h with enc := { s.enc with cur := h.enc.cur, i := h.enc.i } } c s.enc.w.toNat s).1
  unfold eEmit
  rw [show (hideCur h s).enc.w = s.enc.w from rfl]
  unfold hideCur at *
  rw [hw]
  cases hu : cwWrite c s.enc.w.toNat s with
  | error r => rfl
  | ok u =>
    have he : u.enc = s.enc := by rw [(cwWrite_frame hu).eq]
    show Except.ok (_ : State) = Except.ok _
    congr 1
    unfold hideAll hideDec State.setEnc
    simp only [he]

theorem cwEnd_hideCur (h s : State) : cwEnd (hideCur h s) = (cwEnd s).map (hideCur h) := by
  have hw := (cwEnd_hide { h with enc := { s.enc with cur := h.enc.cur, i := h.enc.i } } s).1
  unfold hideCur at *
  rw [hw]
  cases hu : cwEnd s with
  | error r => rfl
  | ok u =>
    have he : u.enc = s.enc := by rw [(cwEnd_frame hu).eq]
    show Except.ok (_ : State) = Except.ok (hideAll { h with enc := { u.enc with cur := h.enc.cur, i := h.enc.i } } u)
    rw [he]

theorem Alike.of_map {R : State → State → Prop} {f : State → State} {x y : Except Raise State} (h : y = x.map f)
    (hR : ∀ u, x = .ok u → R u (f u)) : Alike R x y := by
  subst h
  cases x with
  | error r => rfl
  | ok u => exact hR u rfl

/-- A run of ENC_RUN (R160) sets every register of the encoder that it reads: what ENC_* and the decoder's hidden state held
before does not matter. -/
theorem encRun_hide (h : State) (b : BitVec 4) (n : Nat) (s : State) :
    Alike (fun u v => v = { u with enc := v.enc, dec := h.dec, dt := h.dt, xstack := h.xstack, xsp := h.xsp })
      (encRun b n s) (encRun b n (hideAll h s)) := by
  have hrun : ∀ x : State, encRun b n x = (eInit (x.setEnc { x.enc with bpp := b, n := BitVec.ofNat 25 n }) >>= fun u =>
      eLoop n u >>= fun v => eFinish v >>= fun w =>
        .ok ((w.setRes0 (zext64 w.cw.ptr.toNat)).setRes1 (zext64 w.enc.ncodes.toNat))) := fun x => rfl
  have hinit : ∀ x : State, eInit x = (eEmit (eBegin x).enc.clear.toNat (eBegin x) >>= fun u =>
      if u.enc.n = 0#25 then eEmpty u else eSeed u) := fun x => rfl
  have hbeg : eBegin ((hideAll h s).setEnc { (hideAll h s).enc with bpp := b, n := BitVec.ofNat 25 n }) =
      hideCur h (eBegin (s.setEnc { s.enc with bpp := b, n := BitVec.ofNat 25 n })) := rfl
  rw [hrun, hrun, hinit, hinit, hbeg]
  generalize eBegin (s.setEnc { s.enc with bpp := b, n := BitVec.ofNat 25 n }) = d
  have hseed : Alike (fun u v => (v = hideCur { h with enc := { h.enc with i := 0#25 } } u ∧ u.enc.n = 0#25) ∨ v = hideDec h u)
      (eEmit d.enc.clear.toNat d >>= fun u => if u.enc.n = 0#25 then eEmpty u else eSeed u)
      (eEmit (hideCur h d).enc.clear.toNat (hideCur h d) >>= fun u => if u.enc.n = 0#25 then eEmpty u else eSeed u) := by
    refine Alike.bind (R := fun u v => v = hideCur h u) (Alike.of_map (eEmit_hideCur h _ d) fun u _ => rfl) ?_
    rintro u v rfl
    show Alike _ (if u.enc.n = 0#25 then eEmpty u else eSeed u) (if u.enc.n = 0#25 then eEmpty (hideCur h u) else eSeed (hideCur h u))
    by_cases hn : u.enc.n = 0#25
    · rw [if_pos hn, if_pos hn]
      unfold eEmpty
      refine Alike.bind (R := fun x y => y = hideCur h x ∧ x.enc.n = 0#25)
        (Alike.of_map (eEmit_hideCur h _ u) fun x hx => ⟨rfl, by rw [(eEmit_enc hx).1]; exact hn⟩) ?_
      rintro x y ⟨rfl, hx⟩
      refine Alike.bind (R := fun x y => y = hideCur h x ∧ x.enc.n = 0#25)
        (Alike.of_map (cwEnd_hideCur h x) fun z hz => ⟨rfl, by rw [(cwEnd_frame hz).eq]; exact hx⟩) ?_
      rintro z w ⟨rfl, hz⟩
      exact Or.inl ⟨rfl, hz⟩
    · rw [if_neg hn, if_neg hn]
      unfold eSeed
      show Alike _ _ (if u.enc.clear.toNat ≤ (u.readPix 0).toNat then _ else _)
      by_cases hp : u.enc.clear.toNat ≤ (u.readPix 0).toNat
      · rw [if_pos hp, if_pos hp]
        rfl
      · rw [if_neg hp, if_neg hp]
        exact Or.inr rfl
  refine hseed.bind ?_
  rintro u v (⟨rfl, hn⟩ | rfl)
  · have hl : ∀ x : State, x.enc.n = 0#25 → eLoop n x = .ok x := by
      intro x hx
      cases n with
      | zero => rfl
      | succ n =>
        unfold eLoop
        rw [hx]
        exact if_neg (Nat.not_lt_zero _)
    have hf : ∀ x : State, x.enc.n = 0#25 → eFinish x = .ok x := by
      intro x hx
      unfold eFinish
      rw [if_pos hx]
    rw [hl u hn, hl _ (by exact hn), ok_bind, ok_bind, hf u hn, hf _ (by exact hn)]
    rfl
  · refine Alike.bind (R := fun x y => y = hideDec h x) (Alike.of_map (eLoop_hide h n u) fun x _ => rfl) ?_
    rintro x y rfl
    refine Alike.bind (R := fun x y => y = hideDec h x) (Alike.of_map (eFinish_hide h x) fun z _ => rfl) ?_
    rintro z w rfl
    rfl

end Sys2Proof.Machine
end

