-- ==== Sys2Proof/Laws/PerInstr.lean ====
section
/-! SUPPORT. Family `Encoding`: the word of every command carries its OPC in [63:56], every reserved bit 0, and every operand
in its field (R80, R81, R84). -/

namespace Sys2Proof.Laws.Encoding

/-- The word of a command has its row's OPC, passes its row's mask test, and its fields hold the operands. -/
def Statement (i : Instr) : Prop :=
  opcOf (encode i) = i.mnemonic.opc ∧ encode i &&& i.mnemonic.mask = i.mnemonic.matchWord ∧
    i.mnemonic.fields (encode i) = i

theorem nop : Statement .nop := ⟨rfl, rfl, rfl⟩

theorem clrerr : Statement .clrerr := ⟨rfl, rfl, rfl⟩

theorem cwReset : Statement .cwReset := ⟨rfl, rfl, rfl⟩

theorem cwWrite (code : BitVec 16) (width : BitVec 4) : Statement (.cwWrite code width) := by
  refine ⟨?_, ?_, ?_⟩
  · change BitVec.extractLsb' (n := 8 + (36 + (4 + 16))) 56 8 (0x11#8 ++ (0#36 ++ (width ++ code))) = _
    rw [BitVec.extractLsb'_append_eq_of_le (by decide)]
    rfl
  · change HAnd.hAnd (α := BitVec (8 + (36 + (4 + 16)))) (0x11#8 ++ (0#36 ++ (width ++ code)))
      (0xFF#8 ++ (BitVec.allOnes 36 ++ (0#4 ++ 0#16))) = _
    rw [BitVec.and_append, BitVec.and_append, BitVec.and_append]
    simp only [BitVec.and_zero]
    rfl
  · have h0 : BitVec.extractLsb' (n := 8 + (36 + (4 + 16))) 0 16 (0x11#8 ++ (0#36 ++ (width ++ code))) = code := by
      rw [BitVec.extractLsb'_append_eq_of_add_le (by decide), BitVec.extractLsb'_append_eq_of_add_le (by decide), BitVec.extractLsb'_append_eq_of_add_le (by decide)]
      exact BitVec.extractLsb'_eq_self
    have h1 : BitVec.extractLsb' (n := 8 + (36 + (4 + 16))) 16 4 (0x11#8 ++ (0#36 ++ (width ++ code))) = width := by
      rw [BitVec.extractLsb'_append_eq_of_add_le (by decide), BitVec.extractLsb'_append_eq_of_add_le (by decide), BitVec.extractLsb'_append_eq_of_le (by decide)]
      exact BitVec.extractLsb'_eq_self
    exact congr (congrArg Instr.cwWrite h0) h1

theorem cwEnd : Statement .cwEnd := ⟨rfl, rfl, rfl⟩

theorem crOpen (len : BitVec 32) : Statement (.crOpen len) := by
  refine ⟨?_, ?_, ?_⟩
  · change BitVec.extractLsb' (n := 8 + (24 + 32)) 56 8 (0x18#8 ++ (0#24 ++ len)) = _
    rw [BitVec.extractLsb'_append_eq_of_le (by decide)]
    rfl
  · change HAnd.hAnd (α := BitVec (8 + (24 + 32))) (0x18#8 ++ (0#24 ++ len))
      (0xFF#8 ++ (BitVec.allOnes 24 ++ 0#32)) = _
    rw [BitVec.and_append, BitVec.and_append]
    simp only [BitVec.and_zero]
    rfl
  · have h0 : BitVec.extractLsb' (n := 8 + (24 + 32)) 0 32 (0x18#8 ++ (0#24 ++ len)) = len := by
      rw [BitVec.extractLsb'_append_eq_of_add_le (by decide), BitVec.extractLsb'_append_eq_of_add_le (by decide)]
      exact BitVec.extractLsb'_eq_self
    exact congrArg Instr.crOpen h0

theorem crRead (width : BitVec 4) : Statement (.crRead width) := by
  refine ⟨?_, ?_, ?_⟩
  · change BitVec.extractLsb' (n := 8 + (36 + (4 + 16))) 56 8 (0x19#8 ++ (0#36 ++ (width ++ 0#16))) = _
    rw [BitVec.extractLsb'_append_eq_of_le (by decide)]
    rfl
  · change HAnd.hAnd (α := BitVec (8 + (36 + (4 + 16)))) (0x19#8 ++ (0#36 ++ (width ++ 0#16)))
      (0xFF#8 ++ (BitVec.allOnes 36 ++ (0#4 ++ BitVec.allOnes 16))) = _
    rw [BitVec.and_append, BitVec.and_append, BitVec.and_append]
    simp only [BitVec.and_zero]
    rfl
  · have h0 : BitVec.extractLsb' (n := 8 + (36 + (4 + 16))) 16 4 (0x19#8 ++ (0#36 ++ (width ++ 0#16))) = width := by
      rw [BitVec.extractLsb'_append_eq_of_add_le (by decide), BitVec.extractLsb'_append_eq_of_add_le (by decide), BitVec.extractLsb'_append_eq_of_le (by decide)]
      exact BitVec.extractLsb'_eq_self
    exact congrArg Instr.crRead h0

theorem stReset : Statement .stReset := ⟨rfl, rfl, rfl⟩

theorem stSearch (pre : BitVec 12) (suf : BitVec 8) : Statement (.stSearch pre suf) := by
  refine ⟨?_, ?_, ?_⟩
  · change BitVec.extractLsb' (n := 8 + (32 + (8 + (4 + 12)))) 56 8 (0x21#8 ++ (0#32 ++ (suf ++ (0#4 ++ pre)))) = _
    rw [BitVec.extractLsb'_append_eq_of_le (by decide)]
    rfl
  · change HAnd.hAnd (α := BitVec (8 + (32 + (8 + (4 + 12))))) (0x21#8 ++ (0#32 ++ (suf ++ (0#4 ++ pre))))
      (0xFF#8 ++ (BitVec.allOnes 32 ++ (0#8 ++ (BitVec.allOnes 4 ++ 0#12)))) = _
    rw [BitVec.and_append, BitVec.and_append, BitVec.and_append, BitVec.and_append]
    simp only [BitVec.and_zero]
    rfl
  · have h0 : BitVec.extractLsb' (n := 8 + (32 + (8 + (4 + 12)))) 0 12 (0x21#8 ++ (0#32 ++ (suf ++ (0#4 ++ pre)))) = pre := by
      rw [BitVec.extractLsb'_append_eq_of_add_le (by decide), BitVec.extractLsb'_append_eq_of_add_le (by decide), BitVec.extractLsb'_append_eq_of_add_le (by decide), BitVec.extractLsb'_append_eq_of_add_le (by decide)]
      exact BitVec.extractLsb'_eq_self
    have h1 : BitVec.extractLsb' (n := 8 + (32 + (8 + (4 + 12)))) 16 8 (0x21#8 ++ (0#32 ++ (suf ++ (0#4 ++ pre)))) = suf := by
      rw [BitVec.extractLsb'_append_eq_of_add_le (by decide), BitVec.extractLsb'_append_eq_of_add_le (by decide), BitVec.extractLsb'_append_eq_of_le (by decide)]
      exact BitVec.extractLsb'_eq_self
    exact congr (congrArg Instr.stSearch h0) h1

theorem stAdd (index pre : BitVec 12) (suf : BitVec 8) (code : BitVec 12) : Statement (.stAdd index pre suf code) := by
  refine ⟨?_, ?_, ?_⟩
  · change BitVec.extractLsb' (n := 8 + (8 + (12 + (12 + (8 + (4 + 12)))))) 56 8 (0x22#8 ++ (0#8 ++ (code ++ (index ++ (suf ++ (0#4 ++ pre)))))) = _
    rw [BitVec.extractLsb'_append_eq_of_le (by decide)]
    rfl
  · change HAnd.hAnd (α := BitVec (8 + (8 + (12 + (12 + (8 + (4 + 12))))))) (0x22#8 ++ (0#8 ++ (code ++ (index ++ (suf ++ (0#4 ++ pre))))))
      (0xFF#8 ++ (BitVec.allOnes 8 ++ (0#12 ++ (0#12 ++ (0#8 ++ (BitVec.allOnes 4 ++ 0#12)))))) = _
    rw [BitVec.and_append, BitVec.and_append, BitVec.and_append, BitVec.and_append, BitVec.and_append, BitVec.and_append]
    simp only [BitVec.and_zero]
    rfl
  · have h0 : BitVec.extractLsb' (n := 8 + (8 + (12 + (12 + (8 + (4 + 12)))))) 24 12 (0x22#8 ++ (0#8 ++ (code ++ (index ++ (suf ++ (0#4 ++ pre)))))) = index := by
      rw [BitVec.extractLsb'_append_eq_of_add_le (by decide), BitVec.extractLsb'_append_eq_of_add_le (by decide), BitVec.extractLsb'_append_eq_of_add_le (by decide), BitVec.extractLsb'_append_eq_of_le (by decide)]
      exact BitVec.extractLsb'_eq_self
    have h1 : BitVec.extractLsb' (n := 8 + (8 + (12 + (12 + (8 + (4 + 12)))))) 0 12 (0x22#8 ++ (0#8 ++ (code ++ (index ++ (suf ++ (0#4 ++ pre)))))) = pre := by
      rw [BitVec.extractLsb'_append_eq_of_add_le (by decide), BitVec.extractLsb'_append_eq_of_add_le (by decide), BitVec.extractLsb'_append_eq_of_add_le (by decide), BitVec.extractLsb'_append_eq_of_add_le (by decide), BitVec.extractLsb'_append_eq_of_add_le (by decide), BitVec.extractLsb'_append_eq_of_add_le (by decide)]
      exact BitVec.extractLsb'_eq_self
    have h2 : BitVec.extractLsb' (n := 8 + (8 + (12 + (12 + (8 + (4 + 12)))))) 16 8 (0x22#8 ++ (0#8 ++ (code ++ (index ++ (suf ++ (0#4 ++ pre)))))) = suf := by
      rw [BitVec.extractLsb'_append_eq_of_add_le (by decide), BitVec.extractLsb'_append_eq_of_add_le (by decide), BitVec.extractLsb'_append_eq_of_add_le (by decide), BitVec.extractLsb'_append_eq_of_add_le (by decide), BitVec.extractLsb'_append_eq_of_le (by decide)]
      exact BitVec.extractLsb'_eq_self
    have h3 : BitVec.extractLsb' (n := 8 + (8 + (12 + (12 + (8 + (4 + 12)))))) 36 12 (0x22#8 ++ (0#8 ++ (code ++ (index ++ (suf ++ (0#4 ++ pre)))))) = code := by
      rw [BitVec.extractLsb'_append_eq_of_add_le (by decide), BitVec.extractLsb'_append_eq_of_add_le (by decide), BitVec.extractLsb'_append_eq_of_le (by decide)]
      exact BitVec.extractLsb'_eq_self
    exact congr (congr (congr (congrArg Instr.stAdd h0) h1) h2) h3

theorem encRun (bpp : BitVec 4) (len : BitVec 32) : Statement (.encRun bpp len) := by
  refine ⟨?_, ?_, ?_⟩
  · change BitVec.extractLsb' (n := 8 + (20 + (4 + 32))) 56 8 (0x30#8 ++ (0#20 ++ (bpp ++ len))) = _
    rw [BitVec.extractLsb'_append_eq_of_le (by decide)]
    rfl
  · change HAnd.hAnd (α := BitVec (8 + (20 + (4 + 32)))) (0x30#8 ++ (0#20 ++ (bpp ++ len)))
      (0xFF#8 ++ (BitVec.allOnes 20 ++ (0#4 ++ 0#32))) = _
    rw [BitVec.and_append, BitVec.and_append, BitVec.and_append]
    simp only [BitVec.and_zero]
    rfl
  · have h0 : BitVec.extractLsb' (n := 8 + (20 + (4 + 32))) 32 4 (0x30#8 ++ (0#20 ++ (bpp ++ len))) = bpp := by
      rw [BitVec.extractLsb'_append_eq_of_add_le (by decide), BitVec.extractLsb'_append_eq_of_add_le (by decide), BitVec.extractLsb'_append_eq_of_le (by decide)]
      exact BitVec.extractLsb'_eq_self
    have h1 : BitVec.extractLsb' (n := 8 + (20 + (4 + 32))) 0 32 (0x30#8 ++ (0#20 ++ (bpp ++ len))) = len := by
      rw [BitVec.extractLsb'_append_eq_of_add_le (by decide), BitVec.extractLsb'_append_eq_of_add_le (by decide), BitVec.extractLsb'_append_eq_of_add_le (by decide)]
      exact BitVec.extractLsb'_eq_self
    exact congr (congrArg Instr.encRun h0) h1

theorem decRun (bpp : BitVec 4) (len : BitVec 32) : Statement (.decRun bpp len) := by
  refine ⟨?_, ?_, ?_⟩
  · change BitVec.extractLsb' (n := 8 + (20 + (4 + 32))) 56 8 (0x38#8 ++ (0#20 ++ (bpp ++ len))) = _
    rw [BitVec.extractLsb'_append_eq_of_le (by decide)]
    rfl
  · change HAnd.hAnd (α := BitVec (8 + (20 + (4 + 32)))) (0x38#8 ++ (0#20 ++ (bpp ++ len)))
      (0xFF#8 ++ (BitVec.allOnes 20 ++ (0#4 ++ 0#32))) = _
    rw [BitVec.and_append, BitVec.and_append, BitVec.and_append]
    simp only [BitVec.and_zero]
    rfl
  · have h0 : BitVec.extractLsb' (n := 8 + (20 + (4 + 32))) 32 4 (0x38#8 ++ (0#20 ++ (bpp ++ len))) = bpp := by
      rw [BitVec.extractLsb'_append_eq_of_add_le (by decide), BitVec.extractLsb'_append_eq_of_add_le (by decide), BitVec.extractLsb'_append_eq_of_le (by decide)]
      exact BitVec.extractLsb'_eq_self
    have h1 : BitVec.extractLsb' (n := 8 + (20 + (4 + 32))) 0 32 (0x38#8 ++ (0#20 ++ (bpp ++ len))) = len := by
      rw [BitVec.extractLsb'_append_eq_of_add_le (by decide), BitVec.extractLsb'_append_eq_of_add_le (by decide), BitVec.extractLsb'_append_eq_of_add_le (by decide)]
      exact BitVec.extractLsb'_eq_self
    exact congr (congrArg Instr.decRun h0) h1

theorem paConfig (depth : Depth) (width height : BitVec 24) (order : RowOrder) : Statement (.paConfig depth width height order) := by
  refine ⟨?_, ?_, ?_⟩
  · change BitVec.extractLsb' (n := 8 + (5 + (1 + (2 + (24 + 24))))) 56 8 (0x40#8 ++ (0#5 ++ (order.toBits ++ (depth.toBits ++ (height ++ width))))) = _
    rw [BitVec.extractLsb'_append_eq_of_le (by decide)]
    rfl
  · change HAnd.hAnd (α := BitVec (8 + (5 + (1 + (2 + (24 + 24)))))) (0x40#8 ++ (0#5 ++ (order.toBits ++ (depth.toBits ++ (height ++ width)))))
      (0xFF#8 ++ (BitVec.allOnes 5 ++ (0#1 ++ (0#2 ++ (0#24 ++ 0#24))))) = _
    rw [BitVec.and_append, BitVec.and_append, BitVec.and_append, BitVec.and_append, BitVec.and_append]
    simp only [BitVec.and_zero]
    rfl
  · have h0 : BitVec.extractLsb' (n := 8 + (5 + (1 + (2 + (24 + 24))))) 48 2 (0x40#8 ++ (0#5 ++ (order.toBits ++ (depth.toBits ++ (height ++ width))))) = depth.toBits := by
      rw [BitVec.extractLsb'_append_eq_of_add_le (by decide), BitVec.extractLsb'_append_eq_of_add_le (by decide), BitVec.extractLsb'_append_eq_of_add_le (by decide), BitVec.extractLsb'_append_eq_of_le (by decide)]
      exact BitVec.extractLsb'_eq_self
    have h1 : BitVec.extractLsb' (n := 8 + (5 + (1 + (2 + (24 + 24))))) 0 24 (0x40#8 ++ (0#5 ++ (order.toBits ++ (depth.toBits ++ (height ++ width))))) = width := by
      rw [BitVec.extractLsb'_append_eq_of_add_le (by decide), BitVec.extractLsb'_append_eq_of_add_le (by decide), BitVec.extractLsb'_append_eq_of_add_le (by decide), BitVec.extractLsb'_append_eq_of_add_le (by decide), BitVec.extractLsb'_append_eq_of_add_le (by decide)]
      exact BitVec.extractLsb'_eq_self
    have h2 : BitVec.extractLsb' (n := 8 + (5 + (1 + (2 + (24 + 24))))) 24 24 (0x40#8 ++ (0#5 ++ (order.toBits ++ (depth.toBits ++ (height ++ width))))) = height := by
      rw [BitVec.extractLsb'_append_eq_of_add_le (by decide), BitVec.extractLsb'_append_eq_of_add_le (by decide), BitVec.extractLsb'_append_eq_of_add_le (by decide), BitVec.extractLsb'_append_eq_of_add_le (by decide), BitVec.extractLsb'_append_eq_of_le (by decide)]
      exact BitVec.extractLsb'_eq_self
    have h3 : BitVec.extractLsb' (n := 8 + (5 + (1 + (2 + (24 + 24))))) 50 1 (0x40#8 ++ (0#5 ++ (order.toBits ++ (depth.toBits ++ (height ++ width))))) = order.toBits := by
      rw [BitVec.extractLsb'_append_eq_of_add_le (by decide), BitVec.extractLsb'_append_eq_of_add_le (by decide), BitVec.extractLsb'_append_eq_of_le (by decide)]
      exact BitVec.extractLsb'_eq_self
    have hd : Depth.ofBits depth.toBits = depth := by cases depth <;> rfl
    have ho : RowOrder.ofBits order.toBits = order := by cases order <;> rfl
    exact (congr (congr (congr (congrArg Instr.paConfig ((congrArg Depth.ofBits h0).trans hd)) h1) h2)
      ((congrArg RowOrder.ofBits h3).trans ho))

theorem paRowlen : Statement .paRowlen := ⟨rfl, rfl, rfl⟩

theorem paOffset (x y : BitVec 24) : Statement (.paOffset x y) := by
  refine ⟨?_, ?_, ?_⟩
  · change BitVec.extractLsb' (n := 8 + (8 + (24 + 24))) 56 8 (0x42#8 ++ (0#8 ++ (y ++ x))) = _
    rw [BitVec.extractLsb'_append_eq_of_le (by decide)]
    rfl
  · change HAnd.hAnd (α := BitVec (8 + (8 + (24 + 24)))) (0x42#8 ++ (0#8 ++ (y ++ x)))
      (0xFF#8 ++ (BitVec.allOnes 8 ++ (0#24 ++ 0#24))) = _
    rw [BitVec.and_append, BitVec.and_append, BitVec.and_append]
    simp only [BitVec.and_zero]
    rfl
  · have h0 : BitVec.extractLsb' (n := 8 + (8 + (24 + 24))) 0 24 (0x42#8 ++ (0#8 ++ (y ++ x))) = x := by
      rw [BitVec.extractLsb'_append_eq_of_add_le (by decide), BitVec.extractLsb'_append_eq_of_add_le (by decide), BitVec.extractLsb'_append_eq_of_add_le (by decide)]
      exact BitVec.extractLsb'_eq_self
    have h1 : BitVec.extractLsb' (n := 8 + (8 + (24 + 24))) 24 24 (0x42#8 ++ (0#8 ++ (y ++ x))) = y := by
      rw [BitVec.extractLsb'_append_eq_of_add_le (by decide), BitVec.extractLsb'_append_eq_of_add_le (by decide), BitVec.extractLsb'_append_eq_of_le (by decide)]
      exact BitVec.extractLsb'_eq_self
    exact congr (congrArg Instr.paOffset h0) h1

theorem paExtract (byte : BitVec 8) (bit : BitVec 4) : Statement (.paExtract byte bit) := by
  refine ⟨?_, ?_, ?_⟩
  · change BitVec.extractLsb' (n := 8 + (44 + (4 + 8))) 56 8 (0x43#8 ++ (0#44 ++ (bit ++ byte))) = _
    rw [BitVec.extractLsb'_append_eq_of_le (by decide)]
    rfl
  · change HAnd.hAnd (α := BitVec (8 + (44 + (4 + 8)))) (0x43#8 ++ (0#44 ++ (bit ++ byte)))
      (0xFF#8 ++ (BitVec.allOnes 44 ++ (0#4 ++ 0#8))) = _
    rw [BitVec.and_append, BitVec.and_append, BitVec.and_append]
    simp only [BitVec.and_zero]
    rfl
  · have h0 : BitVec.extractLsb' (n := 8 + (44 + (4 + 8))) 0 8 (0x43#8 ++ (0#44 ++ (bit ++ byte))) = byte := by
      rw [BitVec.extractLsb'_append_eq_of_add_le (by decide), BitVec.extractLsb'_append_eq_of_add_le (by decide), BitVec.extractLsb'_append_eq_of_add_le (by decide)]
      exact BitVec.extractLsb'_eq_self
    have h1 : BitVec.extractLsb' (n := 8 + (44 + (4 + 8))) 8 4 (0x43#8 ++ (0#44 ++ (bit ++ byte))) = bit := by
      rw [BitVec.extractLsb'_append_eq_of_add_le (by decide), BitVec.extractLsb'_append_eq_of_add_le (by decide), BitVec.extractLsb'_append_eq_of_le (by decide)]
      exact BitVec.extractLsb'_eq_self
    exact congr (congrArg Instr.paExtract h0) h1

theorem paInject (byte : BitVec 8) (bit : BitVec 4) (ci : BitVec 8) : Statement (.paInject byte bit ci) := by
  refine ⟨?_, ?_, ?_⟩
  · change BitVec.extractLsb' (n := 8 + (32 + (8 + (4 + (4 + 8))))) 56 8 (0x44#8 ++ (0#32 ++ (ci ++ (0#4 ++ (bit ++ byte))))) = _
    rw [BitVec.extractLsb'_append_eq_of_le (by decide)]
    rfl
  · change HAnd.hAnd (α := BitVec (8 + (32 + (8 + (4 + (4 + 8)))))) (0x44#8 ++ (0#32 ++ (ci ++ (0#4 ++ (bit ++ byte)))))
      (0xFF#8 ++ (BitVec.allOnes 32 ++ (0#8 ++ (BitVec.allOnes 4 ++ (0#4 ++ 0#8))))) = _
    rw [BitVec.and_append, BitVec.and_append, BitVec.and_append, BitVec.and_append, BitVec.and_append]
    simp only [BitVec.and_zero]
    rfl
  · have h0 : BitVec.extractLsb' (n := 8 + (32 + (8 + (4 + (4 + 8))))) 0 8 (0x44#8 ++ (0#32 ++ (ci ++ (0#4 ++ (bit ++ byte))))) = byte := by
      rw [BitVec.extractLsb'_append_eq_of_add_le (by decide), BitVec.extractLsb'_append_eq_of_add_le (by decide), BitVec.extractLsb'_append_eq_of_add_le (by decide), BitVec.extractLsb'_append_eq_of_add_le (by decide), BitVec.extractLsb'_append_eq_of_add_le (by decide)]
      exact BitVec.extractLsb'_eq_self
    have h1 : BitVec.extractLsb' (n := 8 + (32 + (8 + (4 + (4 + 8))))) 8 4 (0x44#8 ++ (0#32 ++ (ci ++ (0#4 ++ (bit ++ byte))))) = bit := by
      rw [BitVec.extractLsb'_append_eq_of_add_le (by decide), BitVec.extractLsb'_append_eq_of_add_le (by decide), BitVec.extractLsb'_append_eq_of_add_le (by decide), BitVec.extractLsb'_append_eq_of_add_le (by decide), BitVec.extractLsb'_append_eq_of_le (by decide)]
      exact BitVec.extractLsb'_eq_self
    have h2 : BitVec.extractLsb' (n := 8 + (32 + (8 + (4 + (4 + 8))))) 16 8 (0x44#8 ++ (0#32 ++ (ci ++ (0#4 ++ (bit ++ byte))))) = ci := by
      rw [BitVec.extractLsb'_append_eq_of_add_le (by decide), BitVec.extractLsb'_append_eq_of_add_le (by decide), BitVec.extractLsb'_append_eq_of_le (by decide)]
      exact BitVec.extractLsb'_eq_self
    exact congr (congr (congrArg Instr.paInject h0) h1) h2

end Sys2Proof.Laws.Encoding
end

