-- ==== Sys2Proof/Laws/Step.lean ====
section
/-! SUPPORT. What the issue of a command word and the other events of the outside world do to the invariants. -/

namespace Sys2Proof.Machine

theorem endCommand_next {o : Outcome} {t : State} (h : endCommand o = .next t) :
    ∃ u, o = .next u ∧ t = u.setBusy false := by
  cases o with
  | next u => exact ⟨u, rfl, (Host.Outcome.next.inj h).symm⟩
  | fault r => cases h
  | refused r => cases h

theorem issue_decoded {w : Word64} {i : Instr} (s : State) (h : decode w = some i) :
    issue w s = endCommand (exec i (s.setBusy true)) := by
  unfold issue
  rw [h]

theorem issue_undecoded {w : Word64} (s : State) (h : decode w = none) :
    issue w s = endCommand (issueIllegal w (s.setBusy true)) := by
  unfold issue
  rw [h]

/-- Issuing any word is a command or the illegal-command error, and BUSY is 0 after it. -/
theorem issue_frame {w : Word64} {s t : State} (h : issue w s = .next t) :
    ∃ u, ExecFrame (s.setBusy true) u ∧ t = u.setBusy false := by
  cases hd : decode w with
  | some i =>
    rw [issue_decoded s hd] at h
    obtain ⟨u, hu, rfl⟩ := endCommand_next h
    exact ⟨u, exec_frame hu, rfl⟩
  | none =>
    rw [issue_undecoded s hd] at h
    obtain ⟨u, hu, rfl⟩ := endCommand_next h
    refine ⟨u, unlessError_frame hu fun _ hu => ?_, rfl⟩
    obtain rfl := Host.Outcome.next.inj hu
    exact raise_frame _ _

theorem issue_inv {w : Word64} {s t : State} (hm : s.MemOk) (he : s.ErrOk) (h : issue w s = .next t) : t.Inv := by
  obtain ⟨u, hf, rfl⟩ := issue_frame h
  have hm' := hf.memOk ⟨hm.pixmem, hm.codemem, hm.st, hm.dt, hm.xstack⟩
  refine ⟨⟨hm'.pixmem, hm'.codemem, hm'.st, hm'.dt, hm'.xstack⟩, ?_, ?_, rfl⟩
  · show u.err.toNat ≤ 0x0D
    rcases hf.err with ⟨h, -⟩ | ⟨h, -⟩ | ⟨r, h, -⟩
    · rw [h]
      exact he.code
    · rw [h]
      decide
    · rw [h]
      exact r.kind.code_le
  · show u.err = 0#8 → u.errInfo = 0#32
    intro h0
    rcases hf.err with ⟨h, h'⟩ | ⟨-, h'⟩ | ⟨r, h, -⟩
    · rw [h']
      exact he.info (h ▸ h0)
    · exact h'
    · exact absurd (h ▸ h0) r.kind.code_ne_zero

theorem writeReg_inv {r : HostReg} {v : Word32} {s t : State} (hs : s.Inv) (h : writeReg r v s = .next t) : t.Inv := by
  have hm := hs.mem
  have he := hs.err
  cases r <;> simp only [writeReg] at h
  case cmdHi =>
    exact issue_inv (s := s.setCmdHi v) ⟨hm.pixmem, hm.codemem, hm.st, hm.dt, hm.xstack⟩ ⟨he.code, he.info, he.idle⟩ h
  all_goals
    obtain rfl := Host.Outcome.next.inj h
    exact ⟨⟨hm.pixmem, hm.codemem, hm.st, hm.dt, hm.xstack⟩, ⟨he.code, he.info, he.idle⟩⟩

/-- The addresses a window passes on lie inside their memory (R62). -/
theorem windowOf_pixmem {o a : Nat} {s : State} (h : windowOf o s = .pixmem a) : a < s.pixCap := by
  unfold windowOf at h
  split at h
  · cases h
  · split at h
    · obtain rfl := Window.pixmem.inj h
      omega
    · split at h <;> cases h

theorem windowOf_codemem {o a : Nat} {s : State} (h : windowOf o s = .codemem a) : a < s.codeCap := by
  unfold windowOf at h
  split at h
  · cases h
  · split at h
    · cases h
    · split at h
      · obtain rfl := Window.codemem.inj h
        omega
      · cases h

/-- Every event of the outside world keeps the invariant. -/
theorem perform_inv {e : HostEvent} {s t : State} (hs : s.Inv) (h : perform e s = .next t) : t.Inv := by
  have hm := hs.mem
  have he := hs.err
  cases e with
  | read width offset =>
    simp only [perform] at h
    split at h
    · cases h
    · obtain rfl := Host.Outcome.next.inj h
      exact ⟨⟨hm.pixmem, hm.codemem, hm.st, hm.dt, hm.xstack⟩, ⟨he.code, he.info, he.idle⟩⟩
  | write width offset data =>
    simp only [perform] at h
    split at h
    · cases h
    · unfold busWrite at h
      split at h
      · split at h
        · exact writeReg_inv hs h
        · cases h
      · rename_i a hw
        obtain rfl := Host.Outcome.next.inj h
        exact ⟨⟨Memory.write_wf hm.pixmem (windowOf_pixmem hw), hm.codemem, hm.st, hm.dt, hm.xstack⟩,
          ⟨he.code, he.info, he.idle⟩⟩
      · rename_i a hw
        obtain rfl := Host.Outcome.next.inj h
        exact ⟨⟨hm.pixmem, Memory.write_wf hm.codemem (windowOf_codemem hw), hm.st, hm.dt, hm.xstack⟩,
          ⟨he.code, he.info, he.idle⟩⟩
      · cases h
  | hardwareReset =>
    obtain rfl := Host.Outcome.next.inj h
    exact ⟨⟨Memory.wf_nil _, Memory.wf_nil _, Cells.wf_nil, Cells.wf_nil, Memory.wf_nil _⟩,
      ⟨Nat.zero_le _, fun _ => rfl, rfl⟩⟩

end Sys2Proof.Machine
end

