-- ==== Sys2Proof/Tests/Slice0.lean ====
section
/-! SUPPORT. Tests of the model, and a witness for the hypotheses of each statement. Expected words come from the examples
of R90 and the command words of 95_test_vectors.md, expected results from its vectors (named beside each test). -/

namespace Sys2Proof.Tests

open Sys2Proof.Machine

/-! ## Well-formedness: each check refuses an ill-formed operand -/

theorem test_wellFormed_width_zero : (Instr.cwWrite 1#16 0#4).wellFormed = false := by decide
theorem test_wellFormed_width_high : (Instr.crRead 13#4).wellFormed = false := by decide
theorem test_wellFormed_bpp_zero : (Instr.encRun 0#4 5#32).wellFormed = false := by decide
theorem test_wellFormed_bpp_high : (Instr.decRun 9#4 1#32).wellFormed = false := by decide
theorem test_wellFormed_len : (Instr.crOpen 0x1000001#32).wellFormed = false := by decide
theorem test_wellFormed_bit : (Instr.paExtract 0xA5#8 8#4).wellFormed = false := by decide
theorem test_wellFormed_limits :
    (Instr.cwWrite 1#16 12#4).wellFormed && (Instr.encRun 8#4 0x1000000#32).wellFormed &&
      (Instr.paInject 0#8 7#4 2#8).wellFormed = true := by decide

/-! ## Decoding: a word of every row -/

/-- Vectors CT1, CT6 and program P1. -/
theorem test_decode_control_and_writer :
    decode 0x0000000000000000#64 = some .nop ∧ decode 0x0100000000000000#64 = some .clrerr ∧
    decode 0x1000000000000000#64 = some .cwReset ∧ decode 0x1100000000030005#64 = some (.cwWrite 5#16 3#4) ∧
    decode 0x1200000000000000#64 = some .cwEnd := by decide

/-- Vectors CR1 and R90. -/
theorem test_decode_reader :
    decode 0x1800000000000002#64 = some (.crOpen 2#32) ∧ decode 0x19000000000C0000#64 = some (.crRead 12#4) := by decide

/-- R90 and program P2. -/
theorem test_decode_table :
    decode 0x2000000000000000#64 = some .stReset ∧ decode 0x2100000000010000#64 = some (.stSearch 0#12 1#8) ∧
    decode 0x2200105123410104#64 = some (.stAdd 0x123#12 0x104#12 0x41#8 0x105#12) := by decide

/-- R90 and program P2. -/
theorem test_decode_runs :
    decode 0x3000000800000064#64 = some (.encRun 8#4 100#32) ∧
    decode 0x3800000100000002#64 = some (.decRun 1#4 2#32) := by decide

/-- R90 and program P3. -/
theorem test_decode_pixel_address :
    decode 0x400100000300000A#64 = some (.paConfig .bpp4 10#24 3#24 .bottomToTop) ∧
    decode 0x4100000000000000#64 = some .paRowlen ∧ decode 0x4200000000000003#64 = some (.paOffset 3#24 0#24) ∧
    decode 0x43000000000004AC#64 = some (.paExtract 0xAC#8 4#4) ∧
    decode 0x44000000000304FF#64 = some (.paInject 0xFF#8 4#4 3#8) := by decide

/-- Vectors CT2, CT3, CT7 to CT10: reserved bits and reserved OPC values. -/
theorem test_decode_refuses :
    decode 0x0000000000000001#64 = none ∧ decode 0x0200000000000000#64 = none ∧ decode 0x1900000000040001#64 = none ∧
    decode 0x4008000000000000#64 = none ∧ decode 0x3000001000000000#64 = none ∧ decode 0xFF00000000000000#64 = none := by
  decide

/-! ## The states the tests start from -/

/-- The reset state with these bytes in CODEMEM from address 0 (none of them 0). -/
def withCode (bytes : List Byte) : State := { State.reset with codemem := bytes.zipIdx.map fun p => (p.2, p.1) }

/-- PIXMEM = 00 01 00, as in vector S1. -/
def pixels010 : State := { State.reset with pixmem := [(1, 1#8)] }

/-- The string table of vector ST2. -/
def oneSlot : State := { State.reset with st := [(1, ⟨4#12, 0#12, 1#8⟩)] }

/-- A state in which every unit has been used: three pending bits at CODEMEM[5], a reader past bit 4, one slot. -/
def busyUnits : State :=
  { State.reset with
    cw := ⟨5#25, 3#4, 5⟩, cr := ⟨2#25, 4#28⟩, st := [(1, ⟨4#12, 0#12, 1#8⟩)], pa := ⟨.bpp4, 10#24, 3#24, .bottomToTop⟩,
    pixmem := [(1, 1#8)], codemem := [(0, 0x12#8), (1, 0x0C#8)], res0 := 7#64 }

/-- An error is pending. -/
def failed : State := { busyUnits with err := 1#8, errInfo := 2#32 }

/-- CODE_CAP is 2, CODEMEM is full and one bit is pending (vector CW11). -/
def full : State :=
  { State.reset with codeLast := 1#24, cw := ⟨2#25, 1#4, 1⟩, codemem := [(0, 0xAA#8), (1, 0x55#8)] }

/-- The image of vector PA3. -/
def image : State := { State.reset with pa := ⟨.bpp4, 10#24, 3#24, .bottomToTop⟩ }

/-- What a step ends in, as a test of the next state. -/
def endsIn (o : Outcome) (p : State → Bool) : Bool :=
  match o with
  | .next t => p t
  | .fault _ => false
  | .refused _ => false

theorem endsIn_next {o : Outcome} {p : State → Bool} (h : endsIn o p = true) : ∃ t, o = .next t ∧ p t = true := by
  cases o with
  | next t => exact ⟨t, rfl, h⟩
  | fault r => cases h
  | refused r => cases h

/-- The step that issues a command word. -/
def issues (w : Nat) (s : State) (p : State → Bool) : Bool := endsIn (step (s.withFetchWord 64 w)) p

/-- ERR, ERRINFO, RES0, RES1, as the vectors write a result. -/
def result (s : State) : Nat × Nat × Nat × Nat := (s.err.toNat, s.errInfo.toNat, s.res0.toNat, s.res1.toNat)

/-! ## One step of each command -/

/-- CT1. -/
theorem test_nop : issues 0 busyUnits (fun t => decide (result t = (0, 0, 7, 0)) && decide (t.cw = busyUnits.cw)) = true := by
  decide +kernel

/-- CT4: NOP is ignored while an error is pending. -/
theorem test_nop_sticky : issues 0 failed (fun t => decide (result t = (1, 2, 7, 0))) = true := by decide +kernel

/-- CT6. -/
theorem test_clrerr : issues 0x0100000000000000 failed (fun t => decide (result t = (0, 0, 7, 0))) = true := by
  decide +kernel

/-- CT5. -/
theorem test_clrerr_malformed : issues 0x0100000000000001 failed (fun t => decide (result t = (1, 2, 7, 0))) = true := by
  decide +kernel

/-- CW13. -/
theorem test_cwReset : issues 0x1000000000000000 busyUnits (fun t =>
    decide (t.cw = ⟨0#25, 0#4, 0⟩) && decide (t.codemem = busyUnits.codemem)) = true := by decide +kernel

/-- CW5: only the low bits of the code are kept. -/
theorem test_cwWrite_low_bits : issues 0x110000000003FFFF State.reset (fun t =>
    decide (result t = (0, 0, 0, 0)) && decide (t.cw = ⟨0#25, 3#4, 7⟩)) = true := by decide +kernel

/-- CW6, its second write: two bytes complete at once. -/
theorem test_cwWrite_two_bytes : issues 0x11000000000C0FFF { State.reset with cw := ⟨0#25, 7#4, 0x7F⟩ } (fun t =>
    decide (t.res0 = 2#64) && decide (t.cw = ⟨2#25, 3#4, 7⟩) && decide (t.codemem = [(0, 0xFF#8), (1, 0xFF#8)])) = true := by
  decide +kernel

/-- CW7. -/
theorem test_cwEnd : issues 0x1200000000000000 { State.reset with cw := ⟨2#25, 3#4, 7⟩ } (fun t =>
    decide (result t = (0, 0, 3, 0)) && decide (t.cw = ⟨3#25, 0#4, 0⟩) && decide (t.codemem = [(2, 7#8)])) = true := by
  decide +kernel

/-- CW12. -/
theorem test_cwEnd_overflow : issues 0x1200000000000000 full (fun t =>
    decide (t.err = 8#8) && decide (t.errInfo = 2#32)) = true := by decide +kernel

/-- CR1. -/
theorem test_crOpen : issues 0x1800000000000002 busyUnits (fun t => decide (t.cr = ⟨2#25, 0#28⟩)) = true := by
  decide +kernel

/-- CR11. -/
theorem test_crOpen_range : issues 0x1800000000000011 { busyUnits with codeLast := 15#24 } (fun t =>
    decide (result t = (4, 6, 7, 0)) && decide (t.cr = busyUnits.cr)) = true := by decide +kernel

/-- CR6: a code that spans three bytes. -/
theorem test_crRead : issues 0x19000000000C0000 { withCode [0xE0#8, 0xFF#8, 0x01#8] with cr := ⟨3#25, 5#28⟩ } (fun t =>
    decide (result t = (0, 0, 0xFFF, 17)) && decide (t.cr = ⟨3#25, 17#28⟩)) = true := by decide +kernel

/-- CR3: exhaustion consumes nothing. -/
theorem test_crRead_exhausted : issues 0x1900000000040000
    { withCode [0x12#8, 0x0C#8] with cr := ⟨2#25, 13#28⟩, res0 := 3#64, res1 := 13#64 } (fun t =>
      decide (result t = (5, 13, 3, 13)) && decide (t.cr = ⟨2#25, 13#28⟩)) = true := by decide +kernel

/-- ST10. -/
theorem test_stReset : issues 0x2000000000000000 oneSlot (fun t => decide (t.readSlot 1#12 = ⟨0#12, 0#12, 0#8⟩)) = true := by
  decide +kernel

/-- ST2: the probe goes on to slot 1 + 601. -/
theorem test_stSearch_collision : issues 0x2100000000000010 oneSlot (fun t => decide (result t = (0, 0, 0, 602))) = true := by
  decide +kernel

/-- ST4. -/
theorem test_stSearch_found : issues 0x2100000000010000 oneSlot (fun t => decide (result t = (0, 0, 4, 1))) = true := by
  decide +kernel

/-- ST3. -/
theorem test_stAdd : issues 0x220000525A000010 oneSlot (fun t =>
    decide (t.st = [(1, ⟨4#12, 0#12, 1#8⟩), (602, ⟨5#12, 0x10#12, 0#8⟩)])) = true := by decide +kernel

/-- S1 and program P2: the stream, the counts and the two table entries. -/
theorem test_encRun : issues 0x3000000100000003 pixels010 (fun t =>
    decide (result t = (0, 0, 2, 5)) && decide (t.codemem = [(0, 0x12#8), (1, 0x0C#8)]) &&
      decide (t.st = [(1, ⟨4#12, 0#12, 1#8⟩), (256, ⟨5#12, 1#12, 0#8⟩)])) = true := by decide +kernel

/-- EN12. -/
theorem test_encRun_pixelValue : issues 0x3000000200000004 { State.reset with pixmem := [(1, 1#8), (2, 4#8)] } (fun t =>
    decide (t.err = 0x0A#8) && decide (t.errInfo = 2#32)) = true := by decide +kernel

/-- S1 decoded (DC1). -/
theorem test_decRun : issues 0x3800000100000002 (withCode [0x12#8, 0x0C#8]) (fun t =>
    decide (result t = (0, 0, 3, 13)) && decide (t.pixmem = [(1, 1#8)])) = true := by decide +kernel

/-- DC13. -/
theorem test_decRun_undefined : issues 0x3800000200000002 (withCode [0xCC#8, 0x0F#8]) (fun t =>
    decide (t.err = 0x0B#8) && decide (t.errInfo = 7#32)) = true := by decide +kernel

/-- PA3. -/
theorem test_paConfig : issues 0x400100000300000A State.reset (fun t => decide (t.pa = image.pa)) = true := by decide +kernel

/-- PA3. -/
theorem test_paRowlen : issues 0x4100000000000000 image (fun t => decide (result t = (0, 0, 5, 0))) = true := by
  decide +kernel

/-- Program P3, step 4. -/
theorem test_paOffset : issues 0x4200000000000003 image (fun t => decide (result t = (0, 0, 11, 0))) = true := by
  decide +kernel

/-- PA5. -/
theorem test_paOffset_range : issues 0x4200000003000000 image (fun t => decide (result t = (4, 2, 0, 0))) = true := by
  decide +kernel

/-- Program P3, step 10. -/
theorem test_paExtract : issues 0x43000000000004AC image (fun t => decide (result t = (0, 0, 0xA, 0))) = true := by
  decide +kernel

/-- PA25. -/
theorem test_paExtract_range : issues 0x43000000000001A5 image (fun t => decide (result t = (4, 3, 0, 0))) = true := by
  decide +kernel

/-- PA31. -/
theorem test_paInject : issues 0x44000000000304FF image (fun t => decide (result t = (0, 0, 0x3F, 0))) = true := by
  decide +kernel

/-- PA32: the bit offset is checked before the colour index. -/
theorem test_paInject_range : issues 0x4400000000100600 image (fun t => decide (result t = (4, 3, 0, 0))) = true := by
  decide +kernel

/-! ## Witnesses: states and operands that meet the hypotheses of each statement -/

theorem busyUnits_mem : busyUnits.MemOk := ⟨by decide, by decide, by decide, by decide, by decide⟩

theorem busyUnits_inv : busyUnits.Inv := ⟨busyUnits_mem, ⟨by decide, by decide, by decide⟩⟩

theorem busyUnits_cwOk : busyUnits.CwOk := ⟨by decide, by decide, by decide⟩

theorem busyUnits_crOk : busyUnits.CrOk := ⟨by decide, by decide⟩

theorem full_mem : full.MemOk := ⟨by decide, by decide, by decide, by decide, by decide⟩

theorem full_cwOk : full.CwOk := ⟨by decide, by decide, by decide⟩

theorem pixels010_mem : pixels010.MemOk := ⟨by decide, by decide, by decide, by decide, by decide⟩

/-- The same state with the host about to issue CW_WRITE 2, 2. -/
def issuing : State := busyUnits.withFetchWord 64 0x1100000000020002

theorem issuing_mem : issuing.MemOk := ⟨by decide, by decide, by decide, by decide, by decide⟩

theorem witness_StepKeepsTheInvariant : issuing.Inv ∧ ∃ t, step issuing = .next t := by
  refine ⟨⟨issuing_mem, ⟨by decide, by decide, by decide⟩⟩, ?_⟩
  obtain ⟨t, h, -⟩ := endsIn_next (o := step issuing) (p := fun _ => true) (by decide +kernel)
  exact ⟨t, h⟩

theorem witness_ErrorFreeStepKeepsWriterAndReader :
    (issuing.CwOk ∧ issuing.CrOk ∧ ∃ t, step issuing = .next t ∧ t.err = 0#8) ∧
    failed.CwOk ∧ failed.CrOk ∧ failed.err ≠ 0#8 ∧ ∃ t, step failed = .next t := by
  refine ⟨⟨⟨by decide, by decide, by decide⟩, ⟨by decide, by decide⟩, ?_⟩, ⟨by decide, by decide, by decide⟩,
    ⟨by decide, by decide⟩, by decide, ⟨_, rfl⟩⟩
  obtain ⟨t, h, he⟩ := endsIn_next (o := step issuing) (p := fun t => decide (t.err = 0#8)) (by decide +kernel)
  exact ⟨t, h, by simpa using he⟩

/-- The same visible state with other contents in ENC_*, DEC_*, DT and XSTACK. -/
def otherHidden (s : State) : State :=
  { s with
    enc := ⟨3#4, 8#9, 9#9, 4#4, 16#13, 10#13, 5#12, 7#25, 2#25, 4#32⟩, dt := [(5, ⟨1#12, 2#8⟩)], xstack := [(0, 9#8)], xsp := 1#13 }

theorem witness_HiddenStateIsNeverRead :
    issuing.MemOk ∧ (otherHidden issuing).MemOk ∧ issuing.sameVisible (otherHidden issuing) ∧
    (∃ t, step issuing = .next t) ∧
    ∃ s f, State.MemOk s ∧ (otherHidden s).MemOk ∧ s.sameVisible (otherHidden s) ∧ step s = .fault f := by
  refine ⟨issuing_mem, ⟨by decide, by decide, by decide, by decide, by decide⟩, rfl, ?_, ?_⟩
  · obtain ⟨t, h, -⟩ := endsIn_next (o := step issuing) (p := fun _ => true) (by decide +kernel)
    exact ⟨t, h⟩
  · exact ⟨busyUnits.setInbox [.read .bits8 0x08], .busWidth, ⟨by decide, by decide, by decide, by decide, by decide⟩,
      ⟨by decide, by decide, by decide, by decide, by decide⟩, rfl, rfl⟩

theorem witness_StepRunsTheIssuedCommand :
    (issuing.cmdLo = 0x00020002#32 ∧ decode (0x11000000#32 ++ 0x00020002#32) = some (.cwWrite 2#16 2#4) ∧
      issuing.inbox = .write .bits32 0x04 ((0x11000000#32).setWidth 64) :: []) ∧
    (busyUnits.setInbox [.write .bits32 0x00 ((5#32).setWidth 64)]).inbox = .write .bits32 0x00 ((5#32).setWidth 64) :: [] ∧
    busyUnits.inbox = [] ∧ decode 0x1100000000020002#64 = some (.cwWrite 2#16 2#4) := by decide

theorem witness_IssueDispatches :
    (failed.busy = false ∧ failed.err ≠ 0#8 ∧ opcOf 0x1100000000020002#64 ≠ 0x01#8) ∧
    (busyUnits.busy = false ∧ decode 0x0200000000000000#64 = none ∧ busyUnits.err = 0#8) ∧
    (decode 0x0100000000000001#64 = none ∧ failed.err ≠ 0#8) ∧
    decode 0x1100000000020002#64 = some (.cwWrite 2#16 2#4) := by decide

theorem witness_IllegalWordsRaise :
    (opcOf 0x1900000000040001#64 = Mnemonic.crRead.opc ∧
      0x1900000000040001#64 &&& Mnemonic.crRead.mask ≠ Mnemonic.crRead.matchWord ∧ busyUnits.err = 0#8 ∧
      busyUnits.busy = false) ∧
    (Mnemonic.ofOpc (opcOf 0x4500000000000000#64) = none ∧ Mnemonic.ofOpc (opcOf 0xFF00000000000000#64) = none) ∧
    ∀ s, exec .nop s = .next s := by
  refine ⟨by decide, by decide, fun s => ?_⟩
  by_cases h : s.err = 0#8
  · exact if_pos h
  · exact if_neg h

theorem witness_ErrorIsSticky :
    (failed.err ≠ 0#8 ∧ failed.busy = false ∧ decode 0x1100000000020002#64 ≠ some .clrerr ∧
      Instr.clrerr ∉ [Instr.nop, .cwReset, .stReset]) ∧
    busFault .bits32 0x24 failed = none ∧ busFault .bits8 0x01000000 failed = none ∧ 65535 < failed.pixCap ∧
    65535 < failed.codeCap := by decide

theorem witness_DecodeFollowsTheMaskTable :
    (0x1100000000030005#64 &&& 0xFFFFFFFFFFF00000#64 = 0x1100000000000000#64) ∧
    decode 0x1100000000030005#64 = some (Mnemonic.cwWrite.fields 0x1100000000030005#64) := by decide

theorem witness_EncodeOfDecode : decode 0x2200105123410104#64 = some (.stAdd 0x123#12 0x104#12 0x41#8 0x105#12) := by decide

theorem witness_NopChangesNothing : busyUnits.busy = false ∧ failed.busy = false ∧
    (opcOf 0x0000000000000001#64 = Mnemonic.nop.opc ∧
      0x0000000000000001#64 &&& Mnemonic.nop.mask ≠ Mnemonic.nop.matchWord ∧ busyUnits.err = 0#8) := by decide

theorem witness_ClrerrClearsTheError :
    (Instr.cwReset ≠ .clrerr ∧ failed.err ≠ 0#8) ∧
    (opcOf 0x0100000000000001#64 = 0x01#8 ∧ 0x0100000000000001#64 ≠ 0x0100000000000000#64 ∧ failed.busy = false) ∧
    busyUnits.ErrOk ∧ busyUnits.err = 0#8 := ⟨by decide, by decide, busyUnits_inv.err, by decide⟩

theorem witness_CwResetStartsAStream : busyUnits.err = 0#8 := by decide

theorem witness_CwWriteAppendsACode :
    (busyUnits.err = 0#8 ∧ ¬ (1 ≤ (0#4).toNat ∧ (0#4).toNat ≤ 12) ∧ ¬ (1 ≤ (13#4).toNat ∧ (13#4).toNat ≤ 12)) ∧
    (busyUnits.MemOk ∧ 1 ≤ (12#4).toNat ∧ (12#4).toNat ≤ 12 ∧
      busyUnits.cw.ptr.toNat + (busyUnits.cw.cnt.toNat + (12#4).toNat) / 8 ≤ busyUnits.codeCap) ∧
    (full.MemOk ∧ full.err = 0#8 ∧ full.cw.ptr.toNat + (full.cw.cnt.toNat + (6#4).toNat) / 8 ≤ full.codeCap) ∧
    ((0xFFFF#16).toNat % 2 ^ (3#4).toNat = (7#16).toNat % 2 ^ (3#4).toNat) ∧
    full.CwOk ∧ full.codeCap < full.cw.ptr.toNat + (full.cw.cnt.toNat + (7#4).toNat) / 8 :=
  ⟨by decide, ⟨busyUnits_mem, by decide, by decide, by decide⟩, ⟨full_mem, by decide, by decide⟩, by decide, full_cwOk,
    by decide⟩

theorem witness_CwEndFlushesThePendingByte :
    (State.reset.err = 0#8 ∧ State.reset.cw.cnt = 0#4) ∧
    (busyUnits.MemOk ∧ busyUnits.err = 0#8 ∧ busyUnits.cw.cnt ≠ 0#4 ∧ busyUnits.cw.ptr.toNat < busyUnits.codeCap ∧
      busyUnits.CwOk) ∧
    full.err = 0#8 ∧ full.cw.cnt ≠ 0#4 ∧ full.cw.ptr.toNat = full.codeCap :=
  ⟨by decide, ⟨busyUnits_mem, by decide, by decide, by decide, busyUnits_cwOk⟩, by decide⟩

theorem witness_CodeOverflowLeaves : full.err = 0#8 ∧ (∃ t, exec .cwEnd full = .next t ∧ t.err = 0x08#8) ∧
    ∃ t, exec (.cwWrite 1#16 12#4) full = .next t ∧ t.err = 0x08#8 := by
  refine ⟨by decide, ?_, ?_⟩
  · obtain ⟨t, h, he⟩ := endsIn_next (o := exec .cwEnd full) (p := fun t => decide (t.err = 0x08#8)) (by decide +kernel)
    exact ⟨t, h, by simpa using he⟩
  · obtain ⟨t, h, he⟩ := endsIn_next (o := exec (.cwWrite 1#16 12#4) full) (p := fun t => decide (t.err = 0x08#8))
      (by decide +kernel)
    exact ⟨t, h, by simpa using he⟩

/-- Three writes of vector S1's stream. -/
def writes : List (BitVec 16 × BitVec 4) := [(2#16, 2#4), (0#16, 2#4), (1#16, 3#4)]

theorem witness_PackingLaw : busyUnits.MemOk ∧ busyUnits.err = 0#8 ∧
    ∃ t, execAll (.cwReset :: (writes.map fun c => .cwWrite c.1 c.2) ++ [.cwEnd]) busyUnits = .next t ∧ t.err = 0#8 := by
  refine ⟨busyUnits_mem, by decide, ?_⟩
  obtain ⟨t, h, he⟩ := endsIn_next
    (o := execAll (.cwReset :: (writes.map fun c => .cwWrite c.1 c.2) ++ [.cwEnd]) busyUnits)
    (p := fun t => decide (t.err = 0#8)) (by decide +kernel)
  exact ⟨t, h, by simpa using he⟩

theorem witness_CrOpenAttachesTheReader :
    ({ busyUnits with codeLast := 15#24 } : State).err = 0#8 ∧
    ({ busyUnits with codeLast := 15#24 } : State).codeCap < (17#32).toNat ∧
    (16#32).toNat ≤ ({ busyUnits with codeLast := 15#24 } : State).codeCap ∧ 1 ≤ (12#4).toNat ∧ (12#4).toNat ≤ 12 := by decide

theorem witness_CrReadReadsTheNextCode :
    (busyUnits.err = 0#8 ∧ ¬ (1 ≤ (0#4).toNat ∧ (0#4).toNat ≤ 12) ∧ ¬ (1 ≤ (13#4).toNat ∧ (13#4).toNat ≤ 12)) ∧
    (8 * State.reset.cr.len.toNat < State.reset.cr.bitpos.toNat + (1#4).toNat ∧ State.reset.err = 0#8) ∧
    busyUnits.cr.bitpos.toNat + (12#4).toNat ≤ 8 * busyUnits.cr.len.toNat ∧
    busyUnits.cr.bitpos.toNat + (12#4).toNat ≤ 8 * busyUnits.codeCap := by decide

/-- CR_LEN is above CODE_CAP, which only a failed DEC_RUN may leave (R246): the next 12 bits are half in CODEMEM. -/
def longReader : State := { State.reset with codeLast := 1#24, codemem := [(1, 0xA0#8)], cr := ⟨3#25, 12#28⟩ }

theorem witness_NoCommandStops :
    longReader.err = 0#8 ∧ 1 ≤ (12#4).toNat ∧ (12#4).toNat ≤ 12 ∧
      longReader.cr.bitpos.toNat + (12#4).toNat ≤ 8 * longReader.cr.len.toNat ∧
      8 * longReader.codeCap < longReader.cr.bitpos.toNat + (12#4).toNat ∧
      longReader.cr.bitpos.toNat + 3 < 8 * longReader.codeCap := by decide

theorem witness_ReadBackLaw : busyUnits.MemOk ∧ busyUnits.err = 0#8 ∧
    (∃ t, execAll (.cwReset :: (writes.map fun c => .cwWrite c.1 c.2) ++ [.cwEnd]) busyUnits = .next t ∧ t.err = 0#8) ∧
    writes = [(2#16, 2#4), (0#16, 2#4)] ++ (1#16, 3#4) :: [] :=
  ⟨busyUnits_mem, by decide, witness_PackingLaw.2.2, rfl⟩

/-- Every slot holds code 1 for the key (0, 0), as in vector ST7. -/
def fullTable : State := { State.reset with st := (List.range 4096).map fun k => (k, ⟨1#12, 0#12, 0#8⟩) }

theorem read_map (v : StSlot) (l : List Nat) {a : Nat} (h : a ∈ l) :
    Cells.read StSlot.empty (l.map fun k => (k, v)) a = v := by
  induction l with
  | nil => cases h
  | cons k l ih =>
    simp only [List.map_cons, Cells.read]
    by_cases e : a = k
    · rw [if_pos e]
    · rw [if_neg e]
      exact ih ((List.mem_cons.mp h).resolve_left e)

theorem witness_StSearchFindsTheFirstSlot :
    (oneSlot.err = 0#8 ∧ (∀ j < 1, oneSlot.otherKey 0x10#12 0#8 (probeSlot (stHash 0x10#12 0#8) j)) ∧
      ¬ oneSlot.otherKey 0x10#12 0#8 (probeSlot (stHash 0x10#12 0#8) 1)) ∧
    ¬ oneSlot.otherKey 0#12 1#8 (probeSlot (stHash 0#12 1#8) 0) ∧
    fullTable.err = 0#8 ∧ ∀ i, fullTable.otherKey 1#12 1#8 i := by
  refine ⟨⟨by decide, fun j hj => ?_, fun h => h.1 (by decide)⟩, fun h => h.2 (by decide), rfl, fun i => ?_⟩
  · obtain rfl : j = 0 := by omega
    exact ⟨by decide, by decide⟩
  · have hi : i.toNat ∈ List.range 4096 := by
      have := i.isLt
      rw [List.mem_range]
      omega
    have : fullTable.readSlot i = ⟨1#12, 0#12, 0#8⟩ := by
      simp only [State.readSlot, fullTable]
      exact read_map _ _ hi
    unfold State.otherKey
    rw [this]
    decide

theorem witness_StResetEmptiesTheTable : oneSlot.err = 0#8 := by decide

theorem witness_StAddWritesOneSlot : busyUnits.err = 0#8 ∧ busyUnits.MemOk := ⟨by decide, busyUnits_mem⟩

theorem witness_EncRunOperandChecks :
    (busyUnits.err = 0#8 ∧ ¬ (1 ≤ (0#4).toNat ∧ (0#4).toNat ≤ 8) ∧ ¬ (1 ≤ (9#4).toNat ∧ (9#4).toNat ≤ 8)) ∧
    1 ≤ (8#4).toNat ∧ (8#4).toNat ≤ 8 ∧
    ({ busyUnits with pixLast := 99#24 } : State).pixCap < (101#32).toNat := by decide

theorem witness_EncRunCompletes : pixels010.err = 0#8 ∧ pixels010.MemOk ∧ 1 ≤ (1#4).toNat ∧ (1#4).toNat ≤ 8 ∧
    (3#32).toNat ≤ pixels010.pixCap ∧ 3 * (3#32).toNat + 3 ≤ pixels010.codeCap ∧
    ∀ a < (3#32).toNat, (pixels010.readPix a).toNat < 2 ^ (1#4).toNat :=
  ⟨by decide, pixels010_mem, by decide, by decide, by decide, by decide, by decide⟩

/-- CODE_CAP is 1 and PIXMEM is all 0. -/
def oneByte : State := { State.reset with codeLast := 0#24 }

theorem witness_EncRunIsGreedyLzw :
    (oneByte.err = 0#8 ∧ oneByte.MemOk ∧ (1#32).toNat ≤ oneByte.pixCap ∧
      ∀ a < (1#32).toNat, (oneByte.readPix a).toNat < 2 ^ (1#4).toNat) ∧
    (codesBits (lzwEncode 1 (oneByte.pixels 1)) + 7) / 8 ≤ oneByte.codeCap ∧
    oneByte.codeCap < (codesBits (lzwEncode 8 (oneByte.pixels 1)) + 7) / 8 := by
  have h : oneByte.pixels 1 = [0#8] := rfl
  have h1 : lzwOutWidth 1 [] = 2 := lzwOutWidth_nil (by decide)
  have h8 : lzwOutWidth 8 [] = 9 := lzwOutWidth_nil (by decide)
  refine ⟨⟨by decide, ⟨by decide, by decide, by decide, by decide, by decide⟩, by decide, by decide⟩, ?_, ?_⟩
  · rw [h]
    simp only [lzwEncode, lzwEncodeFrom, h1]
    decide
  · rw [h]
    simp only [lzwEncode, lzwEncodeFrom, h8]
    decide

theorem witness_EncRunEndings : busyUnits.err = 0#8 ∧ busyUnits.MemOk ∧ 1 ≤ (8#4).toNat ∧ (8#4).toNat ≤ 8 ∧
    (65536#32).toNat ≤ busyUnits.pixCap := ⟨by decide, busyUnits_mem, by decide, by decide, by decide⟩

/-- An illegal 7-bit pixel after one legal pixel: CLEAR alone is written before it, and fills the one byte of CODEMEM. -/
theorem witness_EncRunEndings_pixelValue :
    let s : State := { oneByte with pixmem := [(1, 0x80#8)] }
    (s.err = 0#8 ∧ s.MemOk ∧ (2#32).toNat ≤ s.pixCap ∧ (s.readPix 0).toNat < 2 ^ (7#4).toNat ∧
      2 ^ (7#4).toNat ≤ (s.readPix 1).toNat) ∧
    codesBits (lzwBeforePixel 7 (s.pixels 1)) / 8 ≤ s.codeCap := by
  refine ⟨⟨by decide, ⟨by decide, by decide, by decide, by decide, by decide⟩, by decide, by decide, by decide⟩, ?_⟩
  show codesBits (lzwBeforePixel 7 [0#8]) / 8 ≤ 1
  simp only [lzwBeforePixel, lzwEncode, lzwEncodeFrom]
  decide

/-- An illegal 7-bit pixel after two legal ones: CLEAR and one more code are written before it, a byte too many. -/
theorem witness_EncRunEndings_overflow :
    let s : State := { oneByte with pixmem := [(1, 1#8), (2, 0x80#8)] }
    (s.err = 0#8 ∧ s.MemOk ∧ (3#32).toNat ≤ s.pixCap ∧ (∀ a < 2, (s.readPix a).toNat < 2 ^ (7#4).toNat) ∧
      2 ^ (7#4).toNat ≤ (s.readPix 2).toNat) ∧
    s.codeCap < codesBits (lzwBeforePixel 7 (s.pixels 2)) / 8 := by
  refine ⟨⟨by decide, ⟨by decide, by decide, by decide, by decide, by decide⟩, by decide, by decide, by decide⟩, ?_⟩
  show 1 < codesBits (lzwBeforePixel 7 [0#8, 1#8]) / 8
  have h : lzwOutWidth 7 [] = 8 := lzwOutWidth_nil (by decide)
  simp only [lzwBeforePixel, lzwEncode, lzwEncodeFrom, h]
  decide

theorem witness_EncRunLeaves : pixels010.err = 0#8 ∧ (∃ t, exec (.encRun 1#4 3#32) pixels010 = .next t ∧ t.err = 0#8) ∧
    ∃ t, exec (.encRun 9#4 3#32) pixels010 = .next t ∧ t.err ≠ 0#8 := by
  refine ⟨by decide, ?_, ?_⟩
  · obtain ⟨t, h, he⟩ := endsIn_next (o := exec (.encRun 1#4 3#32) pixels010) (p := fun t => decide (t.err = 0#8))
      (by decide +kernel)
    exact ⟨t, h, by simpa using he⟩
  · obtain ⟨t, h, he⟩ := endsIn_next (o := exec (.encRun 9#4 3#32) pixels010) (p := fun t => decide (t.err ≠ 0#8))
      (by decide +kernel)
    exact ⟨t, h, by simpa using he⟩

/-- A 1-bpp session at its second pixel: the current string is pixel 0, codes 4 is in slot 1 for the key (0, 1). -/
def session : State :=
  { oneSlot with
    pixmem := [(1, 1#8)], cw := ⟨0#25, 4#4, 2⟩, enc := ⟨1#4, 2#9, 3#9, 3#4, 8#13, 5#13, 0#12, 3#25, 1#25, 2#32⟩ }

theorem witness_EncStepHit : (session.readPix session.enc.i.toNat).toNat < session.enc.clear.toNat ∧
    stProbe session.enc.cur (session.readPix session.enc.i.toNat) session = some (4#12, 1#12) ∧ 4#12 ≠ 0#12 := by
  decide +kernel

/-- The same session at a pixel 0, whose key (0, 0) is new. -/
def sessionMiss : State := { session with pixmem := [] }

/-- A session whose table is full. -/
def sessionFull : State :=
  { sessionMiss with enc := ⟨1#4, 2#9, 3#9, 12#4, 4096#13, 4096#13, 0#12, 3#25, 1#25, 2#32⟩ }

theorem session_encOk : session.EncOk := ⟨by decide, by decide, by decide, by decide, by decide, by decide, by decide⟩

theorem witness_EncStepMiss :
    (sessionMiss.MemOk ∧ sessionMiss.CwOk ∧ sessionMiss.EncOk ∧ sessionMiss.writtenBits + 24 ≤ 8 * sessionMiss.codeCap ∧
      (sessionMiss.readPix sessionMiss.enc.i.toNat).toNat < sessionMiss.enc.clear.toNat ∧
      stProbe sessionMiss.enc.cur (sessionMiss.readPix sessionMiss.enc.i.toNat) sessionMiss = some (0#12, 0#12) ∧
      sessionMiss.enc.next.toNat ≤ 4095) ∧
    (sessionFull.MemOk ∧ sessionFull.CwOk ∧ sessionFull.EncOk ∧ sessionFull.writtenBits + 24 ≤ 8 * sessionFull.codeCap ∧
      (sessionFull.readPix sessionFull.enc.i.toNat).toNat < sessionFull.enc.clear.toNat ∧
      stProbe sessionFull.enc.cur (sessionFull.readPix sessionFull.enc.i.toNat) sessionFull = some (0#12, 0#12) ∧
      sessionFull.enc.next.toNat = 4096) :=
  ⟨⟨⟨by decide, by decide, by decide, by decide, by decide⟩, ⟨by decide, by decide, by decide⟩,
      ⟨by decide, by decide, by decide, by decide, by decide, by decide, by decide⟩, by decide, by decide,
      by decide +kernel, by decide⟩,
    ⟨by decide, by decide, by decide, by decide, by decide⟩, ⟨by decide, by decide, by decide⟩,
    ⟨by decide, by decide, by decide, by decide, by decide, by decide, by decide⟩, by decide, by decide,
    by decide +kernel, by decide⟩

/-- Registers of a run of ENC_RUN 1, 3, and of ENC_RUN 1, 0, before E_INIT. -/
def encReady (n : BitVec 25) : State := { pixels010 with enc := ⟨1#4, 0#9, 0#9, 0#4, 0#13, 0#13, 0#12, n, 0#25, 0#32⟩ }

/-- Whether a run raised nothing. -/
def succeeds (r : Except Raise State) (p : State → Bool) : Bool :=
  match r with
  | .ok t => p t
  | .error _ => false

theorem succeeds_ok {r : Except Raise State} {p : State → Bool} (h : succeeds r p = true) : ∃ t, r = .ok t ∧ p t = true := by
  cases r with
  | ok t => exact ⟨t, rfl, h⟩
  | error e => cases h

theorem witness_EncStepsKeepTheSession :
    (1 ≤ (encReady 3#25).enc.bpp.toNat ∧ (encReady 3#25).enc.bpp.toNat ≤ 8 ∧ ∃ t, eInit (encReady 3#25) = .ok t) ∧
    session.EncOk ∧ ∃ t, eStep session = .ok t := by
  obtain ⟨t, ht, -⟩ := succeeds_ok (r := eInit (encReady 3#25)) (p := fun _ => true) (by decide +kernel)
  obtain ⟨u, hu, -⟩ := succeeds_ok (r := eStep session) (p := fun _ => true) (by decide +kernel)
  exact ⟨⟨by decide, by decide, t, ht⟩, session_encOk, u, hu⟩

theorem witness_DecRunOpeningChecks :
    (busyUnits.err = 0#8 ∧ ¬ (1 ≤ (0#4).toNat ∧ (0#4).toNat ≤ 8) ∧ ¬ (1 ≤ (9#4).toNat ∧ (9#4).toNat ≤ 8)) ∧
    (1 ≤ (8#4).toNat ∧ (8#4).toNat ≤ 8 ∧ ({ busyUnits with codeLast := 15#24 } : State).codeCap < (17#32).toNat) ∧
    ((1#32).toNat ≤ busyUnits.codeCap ∧ 8 * (1#32).toNat < (8#4).toNat + 1) ∧
    (2#4).toNat + 1 ≤ 8 * (1#32).toNat ∧
    codeAt (streamBit (withCode [0x28#8]).codemem) 0 ((2#4).toNat + 1) ≠ 2 ^ (2#4).toNat := by decide

/-- The stream of vector S1. -/
theorem stream_S1 : lzwStream (streamBit (withCode [0x12#8, 0x0C#8]).codemem) 16 1 = some ([0#8, 1#8, 0#8], 13) := by
  decide +kernel

theorem withCode_S1_mem : (withCode [0x12#8, 0x0C#8]).MemOk := ⟨by decide, by decide, by decide, by decide, by decide⟩

theorem witness_DecRunDecodes : (withCode [0x12#8, 0x0C#8]).err = 0#8 ∧ (withCode [0x12#8, 0x0C#8]).MemOk ∧
    1 ≤ (1#4).toNat ∧ (1#4).toNat ≤ 8 ∧ (2#32).toNat ≤ (withCode [0x12#8, 0x0C#8]).codeCap ∧
    lzwStream (streamBit (withCode [0x12#8, 0x0C#8]).codemem) (8 * (2#32).toNat) (1#4).toNat = some ([0#8, 1#8, 0#8], 13) ∧
    [0#8, 1#8, 0#8].length ≤ (withCode [0x12#8, 0x0C#8]).pixCap ∧
    ({ withCode [0x12#8, 0x0C#8] with pixLast := 1#24 } : State).pixCap < [0#8, 1#8, 0#8].length :=
  ⟨by decide, withCode_S1_mem, by decide, by decide, by decide, stream_S1, by decide, by decide⟩

theorem witness_RoundTrip : pixels010.MemOk ∧ pixels010.err = 0#8 ∧
    ∃ t u, exec (.encRun 1#4 3#32) pixels010 = .next t ∧ t.err = 0#8 ∧ State.MemOk u ∧ u.err = 0#8 ∧
      u.pixLast = t.pixLast ∧ u.codeLast = t.codeLast ∧ u.codemem = t.codemem := by
  refine ⟨pixels010_mem, by decide, ?_⟩
  obtain ⟨t, h, he⟩ := endsIn_next (o := exec (.encRun 1#4 3#32) pixels010)
    (p := fun t => decide (t.err = 0#8) && decide (t.pixLast = State.reset.pixLast) &&
      decide (t.codeLast = State.reset.codeLast) && decide (t.codemem = (withCode [0x12#8, 0x0C#8]).codemem))
    (by decide +kernel)
  simp only [Bool.and_eq_true, decide_eq_true_eq] at he
  exact ⟨t, withCode [0x12#8, 0x0C#8], h, he.1.1.1, withCode_S1_mem, by decide, he.1.1.2.symm, he.1.2.symm, he.2.symm⟩

theorem witness_DecRunLeaves : (withCode [0x12#8, 0x0C#8]).err = 0#8 ∧
    (∃ t, exec (.decRun 1#4 2#32) (withCode [0x12#8, 0x0C#8]) = .next t ∧ t.err = 0#8) ∧
    ∃ t, exec (.decRun 2#4 2#32) (withCode [0xCC#8, 0x0F#8]) = .next t ∧ t.err ≠ 0#8 := by
  refine ⟨by decide, ?_, ?_⟩
  · obtain ⟨t, h, he⟩ := endsIn_next (o := exec (.decRun 1#4 2#32) (withCode [0x12#8, 0x0C#8]))
      (p := fun t => decide (t.err = 0#8)) (by decide +kernel)
    exact ⟨t, h, by simpa using he⟩
  · obtain ⟨t, h, he⟩ := endsIn_next (o := exec (.decRun 2#4 2#32) (withCode [0xCC#8, 0x0F#8]))
      (p := fun t => decide (t.err ≠ 0#8)) (by decide +kernel)
    exact ⟨t, h, by simpa using he⟩

/-- A 2-bpp decoder session after two codes: entry 6 is (1, 1), DEC_PREV is 1. -/
def decSession : State :=
  { withCode [0x24#8, 0x01#8] with
    cr := ⟨2#25, 3#28⟩, dec := ⟨2#4, 4#9, 5#9, 3#4, 8#13, 7#13, 1#12, 1#25, .run⟩, dt := [(6, ⟨1#12, 1#8⟩)] }

/-- The same with PIXMEM full. -/
def decFull : State := { decSession with pixLast := 0#24 }

theorem decSession_mem : decSession.MemOk := ⟨by decide, by decide, by decide, by decide, by decide⟩

theorem witness_DecPixelAfterClear :
    decSession.dec.clear.toNat ≤ (4#12).toNat ∧
    ((3#12).toNat < decSession.dec.clear.toNat ∧ decSession.dec.out.toNat < decSession.pixCap) ∧
    ((3#12).toNat < decFull.dec.clear.toNat ∧ decFull.pixCap ≤ decFull.dec.out.toNat) ∧
    crRead (decInitSession { decSession with cr := ⟨2#25, 14#28⟩ }).dec.w.toNat
      (decInitSession { decSession with cr := ⟨2#25, 14#28⟩ }) = none ∧
    ∃ r t, crRead (decInitSession decSession).dec.w.toNat (decInitSession decSession) = some (r, t) :=
  ⟨by decide, by decide, by decide, by decide, _, _, rfl⟩

/-- The session at the head of a one-byte stream, whose first code is the low three bits of the byte. -/
def atCode (b : Byte) (phase : DecPhase) : State :=
  { decSession with
    codemem := (withCode [b]).codemem, cr := ⟨1#25, 0#28⟩, dec := { decSession.dec with phase := phase } }

/-- The five ways of a D_STEP: exhaustion, EOI, CLEAR with a raw pixel and with a CLEAR after it, and the first code, a raw
pixel and a table code. -/
theorem witness_DecPixelAfterClear_step :
    crRead 3 { decSession with cr := ⟨2#25, 14#28⟩ } = none ∧
    (∃ r t, crRead 3 (atCode 5#8 .run) = some (r, t) ∧ r.toNat = t.dec.eoi.toNat) ∧
    (∃ r t u, crRead 3 (atCode 0x0C#8 .run) = some (r, t) ∧ r.toNat ≠ t.dec.eoi.toNat ∧ r.toNat = t.dec.clear.toNat ∧
      dClear t = .ok u) ∧
    (∃ r t e, crRead 3 (atCode 0x24#8 .run) = some (r, t) ∧ r.toNat ≠ t.dec.eoi.toNat ∧ r.toNat = t.dec.clear.toNat ∧
      dClear t = .error e) ∧
    (∃ r t u, crRead 3 (atCode 3#8 .first) = some (r, t) ∧ r.toNat ≠ t.dec.eoi.toNat ∧ r.toNat ≠ t.dec.clear.toNat ∧
      t.dec.phase = .first ∧ dFirst r t = .ok u) ∧
    ∃ r t e, crRead 3 (atCode 6#8 .first) = some (r, t) ∧ r.toNat ≠ t.dec.eoi.toNat ∧ r.toNat ≠ t.dec.clear.toNat ∧
      t.dec.phase = .first ∧ dFirst r t = .error e :=
  ⟨rfl, ⟨_, _, rfl, rfl⟩, ⟨_, _, _, rfl, by decide, rfl, rfl⟩, ⟨_, _, _, rfl, by decide, rfl, rfl⟩,
    ⟨_, _, _, rfl, by decide, by decide, rfl, rfl⟩, ⟨_, _, _, rfl, by decide, by decide, rfl, rfl⟩⟩

/-- Whether an expansion raised nothing. -/
def expands (r : Except Raise (List Byte × State)) (p : List Byte → State → Bool) : Bool :=
  match r with
  | .ok (l, t) => p l t
  | .error _ => false

theorem expands_ok {r : Except Raise (List Byte × State)} {p : List Byte → State → Bool} (h : expands r p = true) :
    ∃ l t, r = .ok (l, t) ∧ p l t = true := by
  cases r with
  | ok x => exact ⟨x.1, x.2, rfl, h⟩
  | error e => cases h

/-- A known code, and the code that is next (KwKwK). -/
theorem witness_DecCodeEmitsAndEnters :
    (∃ pixels t u, expand (if (6#12).toNat < decSession.dec.next.toNat then 6#12 else decSession.dec.prev) decSession =
        .ok (pixels, t) ∧
      dEmitSeq (if (6#12).toNat < decSession.dec.next.toNat then pixels else pixels ++ [pixels.headD 0#8]) t = .ok u) ∧
    ∃ pixels t u, expand (if (7#12).toNat < decSession.dec.next.toNat then 7#12 else decSession.dec.prev) decSession =
        .ok (pixels, t) ∧
      dEmitSeq (if (7#12).toNat < decSession.dec.next.toNat then pixels else pixels ++ [pixels.headD 0#8]) t = .ok u := by
  constructor
  · obtain ⟨l, t, h, hp⟩ := expands_ok
      (r := expand (if (6#12).toNat < decSession.dec.next.toNat then 6#12 else decSession.dec.prev) decSession)
      (p := fun l t => succeeds (dEmitSeq (if (6#12).toNat < decSession.dec.next.toNat then l else l ++ [l.headD 0#8]) t)
        fun _ => true) (by decide +kernel)
    obtain ⟨u, hu, -⟩ := succeeds_ok hp
    exact ⟨l, t, u, h, hu⟩
  · obtain ⟨l, t, h, hp⟩ := expands_ok
      (r := expand (if (7#12).toNat < decSession.dec.next.toNat then 7#12 else decSession.dec.prev) decSession)
      (p := fun l t => succeeds (dEmitSeq (if (7#12).toNat < decSession.dec.next.toNat then l else l ++ [l.headD 0#8]) t)
        fun _ => true) (by decide +kernel)
    obtain ⟨u, hu, -⟩ := succeeds_ok hp
    exact ⟨l, t, u, h, hu⟩

/-- An entry whose prefix is no entry of the table. -/
def dangling : State := { decSession with dt := [(6, ⟨7#12, 1#8⟩)] }

theorem dangling_mem : dangling.MemOk := ⟨by decide, by decide, by decide, by decide, by decide⟩

/-- Whether a computation raised this error. -/
def raises {α : Type} (r : Except Raise α) (e : Raise) : Bool :=
  match r with
  | .ok _ => false
  | .error f => decide (f = e)

theorem raises_error {α : Type} {r : Except Raise α} {e : Raise} (h : raises r e = true) : r = .error e := by
  cases r with
  | ok _ => cases h
  | error f => exact congrArg Except.error (of_decide_eq_true h)

/-- An expansion that fails, a string with no room, and a code in the phase RUN that is known and one that fails. -/
theorem witness_DecCodeEmitsAndEnters_error :
    (∃ e, expand (if (6#12).toNat < dangling.dec.next.toNat then 6#12 else dangling.dec.prev) dangling = .error e) ∧
    (decSession.dec.out.toNat ≤ decSession.pixCap ∧ decSession.dec.out.toNat + [1#8, 2#8].length ≤ decSession.pixCap) ∧
    (decFull.dec.out.toNat ≤ decFull.pixCap ∧ decFull.pixCap < decFull.dec.out.toNat + [1#8].length) ∧
    (∃ r t, crRead 3 (atCode 3#8 .run) = some (r, t) ∧ r.toNat ≠ t.dec.eoi.toNat ∧ r.toNat ≠ t.dec.clear.toNat ∧
      t.dec.phase = .run ∧ ∃ u, dCode r t = .ok u) ∧
    ∃ r t, crRead 3 { atCode 6#8 .run with dt := dangling.dt } = some (r, t) ∧ r.toNat ≠ t.dec.eoi.toNat ∧
      r.toNat ≠ t.dec.clear.toNat ∧ t.dec.phase = .run ∧ ∃ e, dCode r t = .error e := by
  refine ⟨⟨⟨.undefinedEntry, 7⟩, raises_error (by decide +kernel)⟩, by decide, by decide,
    ⟨_, _, rfl, by decide, by decide, rfl, ?_⟩,
    ⟨_, _, rfl, by decide, by decide, rfl, ⟨.undefinedEntry, 7⟩, raises_error (by decide +kernel)⟩⟩
  obtain ⟨u, hu, -⟩ := succeeds_ok (r := dCode 3#12 ((atCode 3#8 .run).setCr ⟨1#25, 3#28⟩)) (p := fun _ => true)
    (by decide +kernel)
  exact ⟨u, hu⟩

theorem witness_DecTableAndWidth :
    (decSession.MemOk ∧ decSession.dec.next.toNat < 4096) ∧
    ({ decSession with dec := { decSession.dec with next := 4096#13 } } : State).dec.next.toNat = 4096 ∧
    (({ decSession with dec := { decSession.dec with next := 8#13 } } : State).dec.limit.toNat ≤
        ({ decSession with dec := { decSession.dec with next := 8#13 } } : State).dec.next.toNat ∧
      ({ decSession with dec := { decSession.dec with next := 8#13 } } : State).dec.w.toNat < 12) ∧
    decSession.dec.next.toNat < decSession.dec.limit.toNat := ⟨⟨decSession_mem, by decide⟩, by decide, by decide, by decide⟩

/-- An entry whose prefix is itself: its expansion never ends by itself (vector DC14). -/
def selfPrefix : State := { decSession with dt := [(6, ⟨6#12, 1#8⟩)] }

theorem witness_ExpandLaw :
    decSession.MemOk ∧ (3#12).toNat < decSession.dec.clear.toNat ∧
    (decSession.dec.clear.toNat ≤ (5#12).toNat ∧ (5#12).toNat ≤ decSession.dec.eoi.toNat) ∧
    (decSession.dec.clear.toNat ≤ (7#12).toNat ∧ decSession.dec.next.toNat ≤ (7#12).toNat) ∧
    decSession.dec.clear.toNat ≤ (6#12).toNat ∧ decSession.dec.eoi.toNat < (6#12).toNat ∧
    (6#12).toNat < decSession.dec.next.toNat ∧
    ∃ pixels t, expand (decSession.readEntry (6#12).toNat).pre decSession = .ok (pixels, t) ∧ pixels.length < 4096 := by
  obtain ⟨l, t, h, hp⟩ := expands_ok (r := expand (decSession.readEntry (6#12).toNat).pre decSession)
    (p := fun l _ => decide (l.length < 4096)) (by decide +kernel)
  exact ⟨decSession_mem, by decide, by decide, by decide, by decide, by decide, by decide, l, t, h, by simpa using hp⟩

/-- The loop of an expansion that follows code 6 to itself uses up XSTACK. -/
theorem selfPrefix_overflows (room : Nat) {s : State} (hd : s.dec = selfPrefix.dec) (ht : s.dt = selfPrefix.dt) :
    expandFrom 6#12 room 6#12 s = .error ⟨.expansionOverflow, 6⟩ := by
  induction room generalizing s with
  | zero =>
    unfold expandFrom
    rw [hd]
    rfl
  | succ room ih =>
    have he : s.readEntry (6#12).toNat = ⟨6#12, 1#8⟩ := by
      unfold State.readEntry
      rw [ht]
      rfl
    have hstep : expandFrom 6#12 (room + 1) 6#12 s = expandFrom 6#12 room 6#12 (s.pushX 1#8) := by
      rw [expandFrom, he, hd, if_neg (by decide), if_neg (by decide)]
    rw [hstep]
    exact ih hd ht

theorem witness_ExpandLaw_overflow : selfPrefix.MemOk ∧ selfPrefix.dec.eoi.toNat < (6#12).toNat ∧
    (6#12).toNat < selfPrefix.dec.next.toNat ∧
    expand (selfPrefix.readEntry (6#12).toNat).pre selfPrefix =
      .error ⟨.expansionOverflow, (selfPrefix.readEntry (6#12).toNat).pre.toNat⟩ := by
  refine ⟨⟨by decide, by decide, by decide, by decide, by decide⟩, by decide, by decide, ?_⟩
  show expand 6#12 selfPrefix = .error ⟨.expansionOverflow, 6⟩
  unfold expand
  rw [selfPrefix_overflows Config.xstackDepth (s := selfPrefix.setXstack selfPrefix.xstack 0#13) rfl rfl]
  rfl

theorem witness_ExpandLaw_undefined : dangling.MemOk ∧ dangling.dec.clear.toNat ≤ (6#12).toNat ∧
    dangling.dec.eoi.toNat < (6#12).toNat ∧ (6#12).toNat < dangling.dec.next.toNat ∧
    expand (dangling.readEntry (6#12).toNat).pre dangling = .error ⟨.undefinedEntry, 7⟩ :=
  ⟨dangling_mem, by decide, by decide, by decide, raises_error (by decide +kernel)⟩

/-- The stream of vector DC10. -/
def decStream : State := { decSession with codemem := (withCode [0x4C#8, 0xA8#8, 0x02#8]).codemem }

theorem witness_RunsEnd :
    (∃ t u, eInit (encReady 3#25) = .ok t ∧ (encReady 3#25).enc.n.toNat ≤ 2 + 1 ∧ eLoop 2 t = .ok u) ∧
    1 ≤ decStream.dec.bpp.toNat ∧ decStream.dec.bpp.toNat ≤ 8 ∧ 3 ≤ decStream.codeCap ∧
    ∃ t u, dInit 3 decStream = .ok t ∧ dLoop (4 * 3) t = .ok u := by
  obtain ⟨t, ht, hp⟩ := succeeds_ok (r := eInit (encReady 3#25)) (p := fun t => succeeds (eLoop 2 t) fun _ => true)
    (by decide +kernel)
  obtain ⟨u, hu, -⟩ := succeeds_ok hp
  obtain ⟨x, hx, hq⟩ := succeeds_ok (r := dInit 3 decStream) (p := fun t => succeeds (dLoop (4 * 3) t) fun _ => true)
    (by decide +kernel)
  obtain ⟨y, hy, -⟩ := succeeds_ok hq
  exact ⟨⟨t, u, ht, by decide, hu⟩, by decide, by decide, by decide, x, y, hx, hy⟩

/-- The stream of `test_decRun_undefined`, whose third D_STEP raises. -/
theorem witness_RunsEnd_error : (withCode [0xCC#8, 0x0F#8]).err = 0#8 ∧ 1 ≤ (2#4).toNat ∧ (2#4).toNat ≤ 8 ∧
    (2#32).toNat ≤ (withCode [0xCC#8, 0x0F#8]).codeCap ∧
    ∃ t u, dInit (2#32).toNat ((withCode [0xCC#8, 0x0F#8]).setDec { (withCode [0xCC#8, 0x0F#8]).dec with bpp := 2#4 }) =
        .ok t ∧
      dLoop 2 t = .ok u ∧ u.dec.phase = .run ∧ dStep u = .error ⟨.undefinedEntry, 7⟩ := by
  refine ⟨by decide, by decide, by decide, by decide, ?_⟩
  obtain ⟨t, ht, hp⟩ := succeeds_ok
    (r := dInit (2#32).toNat ((withCode [0xCC#8, 0x0F#8]).setDec { (withCode [0xCC#8, 0x0F#8]).dec with bpp := 2#4 }))
    (p := fun t => succeeds (dLoop 2 t) fun u => decide (u.dec.phase = .run) && raises (dStep u) ⟨.undefinedEntry, 7⟩)
    (by decide +kernel)
  obtain ⟨u, hu, hq⟩ := succeeds_ok hp
  simp only [Bool.and_eq_true, decide_eq_true_eq] at hq
  exact ⟨t, u, ht, hu, hq.1, raises_error hq.2⟩

theorem witness_PaConfigWritesTheRegisters : busyUnits.err = 0#8 := by decide

theorem witness_PaRowlenGivesTheRowLength : image.err = 0#8 := by decide

theorem witness_PaOffsetGivesTheOffsets :
    image.err = 0#8 ∧ image.pa.width.toNat ≤ (10#24).toNat ∧
    ((9#24).toNat < image.pa.width.toNat ∧ image.pa.height.toNat ≤ (3#24).toNat) ∧
    (2#24).toNat < image.pa.height.toNat := by decide

/-- The image at another depth. -/
def atDepth (d : Depth) : State := { image with pa := ⟨d, 10#24, 3#24, .topToBottom⟩ }

theorem witness_PaExtractTakesTheIndex :
    ((atDepth .bpp24).err = 0#8 ∧ (atDepth .bpp24).pa.depth = .bpp24) ∧
    (∀ d ∈ [Depth.bpp1, .bpp4, .bpp8], (atDepth d).err = 0#8 ∧ (atDepth d).pa.depth ≠ .bpp24 ∧
      legalBit (atDepth d).pa.depth 8#4 = false ∧ legalBit (atDepth d).pa.depth 0#4 = true) ∧
    legalBit (atDepth .bpp1).pa.depth 7#4 = true ∧ legalBit (atDepth .bpp4).pa.depth 4#4 = true := by decide

theorem witness_PaInjectReplacesTheIndex :
    ((atDepth .bpp24).err = 0#8 ∧ (atDepth .bpp24).pa.depth = .bpp24) ∧
    ((atDepth .bpp4).err = 0#8 ∧ (atDepth .bpp4).pa.depth ≠ .bpp24 ∧ legalBit (atDepth .bpp4).pa.depth 1#4 = false) ∧
    (legalBit (atDepth .bpp4).pa.depth 4#4 = true ∧ 2 ^ bitsPerPixel (atDepth .bpp4).pa.depth ≤ (16#8).toNat) ∧
    (15#8).toNat < 2 ^ bitsPerPixel (atDepth .bpp4).pa.depth ∧
    (255#8).toNat < 2 ^ bitsPerPixel (atDepth .bpp8).pa.depth := by decide

theorem witness_PaProperties :
    ((atDepth .bpp4).err = 0#8 ∧ (atDepth .bpp4).pa.depth ≠ .bpp24 ∧ legalBit (atDepth .bpp4).pa.depth 4#4 = true ∧
      (15#8).toNat < 2 ^ bitsPerPixel (atDepth .bpp4).pa.depth ∧ legalBit (atDepth .bpp4).pa.depth 0#4 = true ∧
      0#4 ≠ 4#4) ∧
    ((Instr.paOffset 0#24 0#24).mnemonic ∈ [Mnemonic.paOffset, .paExtract, .paInject] ∧
      image.pa.width.toNat ≤ (10#24).toNat ∧ image.pa.height.toNat ≤ (3#24).toNat) ∧
    (∀ d : Depth, d = .bpp4 ∨ d = .bpp24 → ∃ t t', exec (.paOffset 2#24 0#24) (atDepth d) = .next t ∧ t.err = 0#8 ∧
      exec (.paOffset 3#24 0#24) (atDepth d) = .next t' ∧ t'.err = 0#8) ∧
    ((2#24, 0#24) : BitVec 24 × BitVec 24) ≠ (3#24, 0#24) ∧
    legalBit (atDepth .bpp4).pa.depth 1#4 = false ∧ 2 ^ bitsPerPixel (atDepth .bpp4).pa.depth ≤ (16#8).toNat := by
  refine ⟨by decide, by decide, ?_, by decide⟩
  rintro d (rfl | rfl)
  all_goals exact ⟨_, _, rfl, rfl, rfl, rfl⟩

theorem witness_GenericForm : ∀ d : Depth, d = .bpp1 ∨ d = .bpp4 → bitsPerPixel d < 8 := by
  rintro d (rfl | rfl) <;> decide

theorem witness_RegisterMap :
    (0x08, 0#23 ++ (BitVec.ofBool failed.busy ++ failed.err)) ∈
      [(0x00, 0#32), (0x04, 0#32), (0x08, 0#23 ++ (BitVec.ofBool failed.busy ++ failed.err))] ∧
    0x24 ∈ [0x08, 0x0C, 0x10, 0x14, 0x18, 0x1C, 0x20, 0x24] := by decide

theorem witness_MemoryWindows : busyUnits.MemOk ∧ 65535 < busyUnits.pixCap ∧ 65535 < busyUnits.codeCap :=
  ⟨busyUnits_mem, by decide, by decide⟩

/-- The last admitted offset of each window, and the first refused one after it. -/
theorem witness_RefusedAccesses :
    (0x24 % 4 = 0 ∧ 0x24 ≤ 0x24) ∧ (0x04 % 4 = 0 ∧ 0x04 ≤ 0x24) ∧ ¬ (0x28 % 4 = 0 ∧ 0x28 ≤ 0x24) ∧
    (0x0100FFFF < 0x01000000 + State.reset.pixCap ∧ ¬ 0x01010000 < 0x01000000 + State.reset.pixCap) ∧
    0x0200FFFF < 0x02000000 + State.reset.codeCap ∧ ¬ 0x02010000 < 0x02000000 + State.reset.codeCap := by decide

theorem witness_CommandsTouchTheirUnits :
    ∀ i ∈ [Instr.nop, .clrerr, .cwReset, .cwWrite 2#16 2#4, .cwEnd, .crOpen 2#32, .crRead 2#4, .stReset, .stSearch 0#12 1#8,
      .stAdd 5#12 0#12 1#8 4#12, .encRun 1#4 3#32, .decRun 1#4 2#32, .paConfig .bpp4 10#24 3#24 .bottomToTop, .paRowlen,
      .paOffset 3#24 0#24, .paExtract 0xAC#8 4#4, .paInject 0xFF#8 4#4 3#8],
      ∃ t, exec i busyUnits = .next t := by
  intro i hi
  have h : endsIn (exec i busyUnits) (fun _ => true) = true := by
    revert i
    decide +kernel
  obtain ⟨t, ht, -⟩ := endsIn_next h
  exact ⟨t, ht⟩

end Sys2Proof.Tests
end

section
/-! The invariant of the machine, from one event of the outside world to a whole step. -/

namespace Sys2Proof.Machine

/-- What a step that answers a next state did: nothing, with no access pending (R256), or the oldest pending access. -/
theorem step_cases {s t : State} (h : step s = .next t) :
    (s.inbox = [] ∧ t = s) ∨ ∃ e rest, s.inbox = e :: rest ∧ perform e (s.setInbox rest) = .next t := by
  unfold step at h
  split at h
  · next hempty => exact Or.inl ⟨hempty, (Host.Outcome.next.inj h).symm⟩
  · next e rest hpending => exact Or.inr ⟨e, rest, hpending, h⟩

/-- The invariant does not speak of the pending accesses. -/
theorem State.Inv.setInbox {s : State} (hs : s.Inv) (events : List HostEvent) : (s.setInbox events).Inv := by
  obtain ⟨⟨hpix, hcode, hst, hdt, hxs⟩, ⟨herr, hinfo, hidle⟩⟩ := hs
  exact ⟨⟨hpix, hcode, hst, hdt, hxs⟩, ⟨herr, hinfo, hidle⟩⟩

/-- Settles O5: an idle step changes nothing, and any other performs one event, which keeps the invariant (`perform_inv`;
for a command, `exec_frame` says what it does to the memories and the error state). -/
theorem stepKeepsTheInvariant : Obligations.StepKeepsTheInvariant := by
  intro s t hs h
  rcases step_cases h with ⟨-, rfl⟩ | ⟨e, rest, -, hperform⟩
  · exact hs
  · exact perform_inv (hs.setInbox rest) hperform

end Sys2Proof.Machine
end


section
/-! SUPPORT. What a step does to the part of the state that no host can see (R35 to R40): states that differ there alone step
alike. -/

namespace Sys2Proof.Machine

/-- The second state in the terms of the first. -/
theorem State.sameVisible.elim {s t : State} (h : s.sameVisible t) :
    ∃ e d dt x y, t = { s with enc := e, dec := d, dt := dt, xstack := x, xsp := y } := ⟨_, _, _, _, _, h⟩

/-- A state with the hidden part of another is the same to the host. -/
theorem sameVisible_hideAll (h s : State) : s.sameVisible (hideAll h s) := rfl

theorem State.sameVisible.eq_hideAll {s t : State} (h : s.sameVisible t) : t = hideAll t s := h

/-- Answers that no host can tell apart. A refusal is none of them. -/
inductive SameOutcome : Outcome → Outcome → Prop
  | next {s t : State} (h : s.sameVisible t) : SameOutcome (.next s) (.next t)
  | fault (f : Fault) : SameOutcome (.fault f) (.fault f)

/-- The same test of what both states show. -/
theorem SameOutcome.ite {p : Prop} [Decidable p] {a b a' b' : Outcome} (ha : p → SameOutcome a a')
    (hb : ¬ p → SameOutcome b b') : SameOutcome (if p then a else b) (if p then a' else b') := by
  by_cases hp : p
  · rw [if_pos hp, if_pos hp]
    exact ha hp
  · rw [if_neg hp, if_neg hp]
    exact hb hp

theorem SameOutcome.endCommand {o o' : Outcome} (h : SameOutcome o o') :
    SameOutcome (endCommand o) (endCommand o') := by
  cases h with
  | next h =>
    obtain ⟨e, d, dt, x, y, rfl⟩ := h.elim
    exact .next rfl
  | fault f => exact .fault f

/-- Two states in canonical form that differ in what no host can see. -/
structure Twins (s t : State) : Prop where
  left : s.MemOk
  right : t.MemOk
  same : s.sameVisible t

/-- BUSY, CMD_HI and the pending accesses have no part in the memories. -/
theorem State.MemOk.congr {s t : State} (hs : s.MemOk) (h : t = { s with
    busy := t.busy, cmdHi := t.cmdHi, inbox := t.inbox }) : t.MemOk := by
  rw [h]
  exact ⟨hs.pixmem, hs.codemem, hs.st, hs.dt, hs.xstack⟩

/-- An update of visible registers that moves no memory. -/
theorem Twins.update {f : State → State} {s t : State} (h : Twins s t) (hm : ∀ u, u.MemOk → (f u).MemOk)
    (hf : ∀ v u, f (hideAll v u) = hideAll v (f u)) : Twins (f s) (f t) := by
  refine ⟨hm s h.left, hm t h.right, ?_⟩
  rw [h.same.eq_hideAll, hf]
  exact sameVisible_hideAll t (f s)

theorem Twins.setInbox {s t : State} (h : Twins s t) (v : List HostEvent) : Twins (s.setInbox v) (t.setInbox v) :=
  h.update (f := (·.setInbox v)) (fun _ hu => hu.congr rfl) fun _ _ => rfl

theorem Twins.setCmdHi {s t : State} (h : Twins s t) (v : Word32) : Twins (s.setCmdHi v) (t.setCmdHi v) :=
  h.update (f := (·.setCmdHi v)) (fun _ hu => hu.congr rfl) fun _ _ => rfl

theorem Twins.setBusy {s t : State} (h : Twins s t) (v : Bool) : Twins (s.setBusy v) (t.setBusy v) :=
  h.update (f := (·.setBusy v)) (fun _ hu => hu.congr rfl) fun _ _ => rfl

/-! ## The commands -/

/-- The sticky error is visible (R245). -/
theorem SameOutcome.unlessError {s t : State} {o o' : Outcome} (h : s.sameVisible t) (ho : SameOutcome o o') :
    SameOutcome (unlessError s o) (unlessError t o') := by
  have herr : t.err = s.err := by rw [h]
  unfold Machine.unlessError
  rw [herr]
  exact .ite (fun _ => ho) fun _ => .next h

theorem raise_same (r : Raise) {s t : State} (h : s.sameVisible t) : SameOutcome (.next (raise r s)) (.next (raise r t)) := by
  obtain ⟨e, d, dt, x, y, rfl⟩ := h.elim
  exact .next rfl

theorem Alike.cases {R : State → State → Prop} {x y : Except Raise State} (h : Alike R x y) :
    (∃ u v, x = .ok u ∧ y = .ok v ∧ R u v) ∨ ∃ r, x = .error r ∧ y = .error r := by
  cases x with
  | ok u =>
    cases y with
    | ok v => exact .inl ⟨u, v, rfl, rfl, h⟩
    | error q => exact h.elim
  | error r =>
    cases y with
    | ok v => exact h.elim
    | error q => exact .inr ⟨r, rfl, congrArg Except.error (Eq.symm h)⟩

theorem cwWrite_same (c w : Nat) {s t : State} (h : s.sameVisible t) :
    Alike State.sameVisible (cwWrite c w s) (cwWrite c w t) := by
  rw [h.eq_hideAll]
  exact Alike.of_map (cwWrite_hide t c w s).1 fun u _ => sameVisible_hideAll t u

theorem cwEnd_same {s t : State} (h : s.sameVisible t) : Alike State.sameVisible (cwEnd s) (cwEnd t) := by
  rw [h.eq_hideAll]
  exact Alike.of_map (cwEnd_hide t s).1 fun u _ => sameVisible_hideAll t u

theorem execCwWrite_same (code : BitVec 16) (width : BitVec 4) {s t : State} (h : s.sameVisible t) :
    SameOutcome (execCwWrite code width s) (execCwWrite code width t) := by
  refine .unlessError h (.ite (fun _ => raise_same _ h) fun _ => ?_)
  rcases (cwWrite_same code.toNat width.toNat h).cases with ⟨u, v, hu, hv, huv⟩ | ⟨r, hu, hv⟩ <;> rw [hu, hv]
  · obtain ⟨e, d, dt, x, y, rfl⟩ := huv.elim
    exact .next rfl
  · obtain ⟨e, d, dt, x, y, rfl⟩ := h.elim
    exact .next rfl

theorem execCwEnd_same {s t : State} (h : s.sameVisible t) : SameOutcome (execCwEnd s) (execCwEnd t) := by
  refine .unlessError h ?_
  rcases (cwEnd_same h).cases with ⟨u, v, hu, hv, huv⟩ | ⟨r, hu, hv⟩ <;> rw [hu, hv]
  · obtain ⟨e, d, dt, x, y, rfl⟩ := huv.elim
    exact .next rfl
  · obtain ⟨e, d, dt, x, y, rfl⟩ := h.elim
    exact .next rfl

theorem execCrOpen_same (len : BitVec 32) {s t : State} (h : s.sameVisible t) :
    SameOutcome (execCrOpen len s) (execCrOpen len t) := by
  refine .unlessError h ?_
  obtain ⟨e, d, dt, x, y, rfl⟩ := h.elim
  exact .ite (fun _ => .next rfl) fun _ => .next rfl

theorem crResult_same (w : Nat) (code : BitVec 12) (cr : CrRegs) {s t : State} (h : s.sameVisible t) :
    (crResult w code s (s.setCr cr)).sameVisible (crResult w code t (t.setCr cr)) := by
  obtain ⟨e, d, dt, x, y, rfl⟩ := h.elim
  unfold crResult
  by_cases hc : s.cr.bitpos.toNat + w ≤ 8 * s.codeCap
  · rw [if_pos hc, if_pos (by exact hc)]
    rfl
  · rw [if_neg hc, if_neg (by exact hc)]
    rfl

theorem execCrRead_same (width : BitVec 4) {s t : State} (h : s.sameVisible t) :
    SameOutcome (execCrRead width s) (execCrRead width t) := by
  refine .unlessError h (.ite (fun _ => raise_same _ h) fun _ => ?_)
  have hr := crResult_same width.toNat (BitVec.ofNat 12 (streamBits s.codemem s.cr.bitpos.toNat width.toNat))
    { s.cr with bitpos := BitVec.ofNat 28 (s.cr.bitpos.toNat + width.toNat) } h
  have hcr : t.cr = s.cr := by rw [h]
  have hcode : t.codemem = s.codemem := by rw [h]
  unfold crRead
  rw [hcr, hcode]
  by_cases hx : 8 * s.cr.len.toNat < s.cr.bitpos.toNat + width.toNat
  · rw [if_pos hx, if_pos hx]
    exact raise_same _ h
  · rw [if_neg hx, if_neg hx]
    obtain ⟨e, d, dt, x, y, hxy⟩ := hr.elim
    refine .next ?_
    rw [hxy]
    rfl

theorem execStSearch_same (pre : BitVec 12) (suf : BitVec 8) {s t : State} (h : s.sameVisible t) :
    SameOutcome (execStSearch pre suf s) (execStSearch pre suf t) := by
  refine .unlessError h ?_
  rw [stProbe_congr (show t.st = s.st by rw [h])]
  cases stProbe pre suf s with
  | none => exact raise_same _ h
  | some r =>
    obtain ⟨e, d, dt, x, y, rfl⟩ := h.elim
    exact .next rfl

/-- Every register of the encoder that a run reads was written in it (`encRun_hide`). -/
theorem execEncRun_same (bpp : BitVec 4) (len : BitVec 32) {s t : State} (h : s.sameVisible t) :
    SameOutcome (execEncRun bpp len s) (execEncRun bpp len t) := by
  have hcap : t.pixCap = s.pixCap := by rw [h]; rfl
  have hrun := encRun_hide t bpp len.toNat s
  rw [← h.eq_hideAll] at hrun
  unfold execEncRun
  rw [hcap]
  refine .unlessError h (.ite (fun _ => raise_same _ h) fun _ => .ite (fun _ => raise_same _ h) fun _ => ?_)
  rcases hrun.cases with ⟨u, v, hu, hv, huv⟩ | ⟨r, hu, hv⟩ <;> rw [hu, hv]
  · rw [huv]
    exact .next rfl
  · obtain ⟨e, d, dt, x, y, rfl⟩ := h.elim
    exact .next rfl

/-- Every register of the decoder and every entry of DT and XSTACK that a run reads was written in it (`decRun_same`). -/
theorem execDecRun_same (bpp : BitVec 4) (len : BitVec 32) {s t : State} (h : Twins s t) :
    SameOutcome (execDecRun bpp len s) (execDecRun bpp len t) := by
  obtain ⟨hs, ht, h⟩ := h
  have hcap : t.codeCap = s.codeCap := by rw [h]; rfl
  unfold execDecRun
  rw [hcap]
  refine .unlessError h (.ite (fun _ => raise_same _ h) fun hb => .ite (fun _ => raise_same _ h) fun _ => ?_)
  rcases (decRun_same (not_not.mp hb) len.toNat hs ht h).cases with ⟨u, v, hu, hv, huv⟩ | ⟨r, hu, hv⟩ <;> rw [hu, hv]
  · rw [huv]
    exact .next rfl
  · obtain ⟨e, d, dt, x, y, rfl⟩ := h.elim
    exact .next rfl

theorem execPaOffset_same (x y : BitVec 24) {s t : State} (h : s.sameVisible t) :
    SameOutcome (execPaOffset x y s) (execPaOffset x y t) := by
  refine .unlessError h ?_
  obtain ⟨e, d, dt, xs, sp, rfl⟩ := h.elim
  exact .ite (fun _ => .next rfl) fun _ => .ite (fun _ => .next rfl) fun _ => .next rfl

theorem execPaExtract_same (byte : BitVec 8) (bit : BitVec 4) {s t : State} (h : s.sameVisible t) :
    SameOutcome (execPaExtract byte bit s) (execPaExtract byte bit t) := by
  refine .unlessError h ?_
  rw [show t.pa = s.pa by rw [h]]
  cases colourMask s.pa.depth with
  | none => exact raise_same _ h
  | some mask =>
    refine .ite (fun _ => raise_same _ h) fun _ => ?_
    obtain ⟨e, d, dt, x, y, rfl⟩ := h.elim
    exact .next rfl

theorem execPaInject_same (byte : BitVec 8) (bit : BitVec 4) (ci : BitVec 8) {s t : State} (h : s.sameVisible t) :
    SameOutcome (execPaInject byte bit ci s) (execPaInject byte bit ci t) := by
  refine .unlessError h ?_
  rw [show t.pa = s.pa by rw [h]]
  cases colourMask s.pa.depth with
  | none => exact raise_same _ h
  | some mask =>
    refine .ite (fun _ => raise_same _ h) fun _ => .ite (fun _ => raise_same _ h) fun _ => ?_
    obtain ⟨e, d, dt, x, y, rfl⟩ := h.elim
    exact .next rfl

/-- No command answers by what is hidden. -/
theorem exec_same (i : Instr) {s t : State} (h : Twins s t) : SameOutcome (exec i s) (exec i t) := by
  have hv := h.same
  obtain ⟨e, d, dt, x, y, rfl⟩ := hv.elim
  cases i with
  | nop => exact .unlessError hv (.next hv)
  | clrerr => exact .next rfl
  | cwReset => exact .unlessError hv (.next rfl)
  | cwWrite code width => exact execCwWrite_same code width hv
  | cwEnd => exact execCwEnd_same hv
  | crOpen len => exact execCrOpen_same len hv
  | crRead width => exact execCrRead_same width hv
  | stReset => exact .unlessError hv (.next rfl)
  | stSearch pre suf => exact execStSearch_same pre suf hv
  | stAdd index pre suf code => exact .unlessError hv (.next rfl)
  | encRun bpp len => exact execEncRun_same bpp len hv
  | decRun bpp len => exact execDecRun_same bpp len h
  | paConfig depth width height order => exact .unlessError hv (.next rfl)
  | paRowlen => exact .unlessError hv (.next rfl)
  | paOffset x y => exact execPaOffset_same x y hv
  | paExtract byte bit => exact execPaExtract_same byte bit hv
  | paInject byte bit ci => exact execPaInject_same byte bit ci hv

/-! ## The host's side -/

theorem issue_same (w : Word64) {s t : State} (h : Twins s t) : SameOutcome (issue w s) (issue w t) := by
  have hb := h.setBusy true
  cases hd : decode w with
  | some i =>
    rw [issue_decoded s hd, issue_decoded t hd]
    exact (exec_same i hb).endCommand
  | none =>
    rw [issue_undecoded s hd, issue_undecoded t hd]
    exact (SameOutcome.unlessError hb.same (raise_same _ hb.same)).endCommand

theorem writeReg_same (r : HostReg) (v : Word32) {s t : State} (h : Twins s t) :
    SameOutcome (writeReg r v s) (writeReg r v t) := by
  have hv := h.same
  have hlo : t.cmdLo = s.cmdLo := by rw [hv]
  cases r <;> simp only [writeReg]
  case cmdHi =>
    rw [hlo]
    exact issue_same _ (h.setCmdHi v)
  case cmdLo =>
    obtain ⟨e, d, dt, x, y, rfl⟩ := hv.elim
    exact .next rfl
  all_goals exact .next hv

/-- The windows depend on the capacities alone (R62). -/
theorem windowOf_same {s t : State} (h : s.sameVisible t) (offset : Nat) : windowOf offset t = windowOf offset s := by
  rw [h]
  rfl

theorem busFault_same {s t : State} (h : s.sameVisible t) (width : AccessWidth) (offset : Nat) :
    busFault width offset t = busFault width offset s := by
  rw [h]
  rfl

theorem busRead_same {s t : State} (h : s.sameVisible t) (offset : Nat) : busRead offset t = busRead offset s := by
  rw [h]
  rfl

theorem busWrite_same (offset : Nat) (data : BitVec 64) {s t : State} (h : Twins s t) :
    SameOutcome (busWrite offset data s) (busWrite offset data t) := by
  have hv := h.same
  unfold busWrite
  rw [windowOf_same hv]
  cases windowOf offset s with
  | registers o =>
    cases ho : HostReg.ofOffset o with
    | some r => simpa only [ho] using writeReg_same r (data.setWidth 32) h
    | none => simpa only [ho] using SameOutcome.fault .busUnmapped
  | pixmem a =>
    obtain ⟨e, d, dt, x, y, rfl⟩ := hv.elim
    exact .next rfl
  | codemem a =>
    obtain ⟨e, d, dt, x, y, rfl⟩ := hv.elim
    exact .next rfl
  | unmapped => exact .fault _

theorem perform_same (ev : HostEvent) {s t : State} (h : Twins s t) : SameOutcome (perform ev s) (perform ev t) := by
  have hv := h.same
  cases ev with
  | read width offset =>
    unfold perform
    simp only [busFault_same hv, busRead_same hv]
    cases busFault width offset s with
    | some f => exact .fault f
    | none =>
      obtain ⟨e, d, dt, x, y, rfl⟩ := hv.elim
      exact .next rfl
  | write width offset data =>
    unfold perform
    simp only [busFault_same hv]
    cases busFault width offset s with
    | some f => exact .fault f
    | none => exact busWrite_same offset data h
  | hardwareReset =>
    obtain ⟨e, d, dt, x, y, rfl⟩ := hv.elim
    exact .next rfl

theorem step_same {s t : State} (h : Twins s t) : SameOutcome (step s) (step t) := by
  have hin : t.inbox = s.inbox := by rw [h.same]
  unfold step
  rw [hin]
  cases s.inbox with
  | nil => exact .next h.same
  | cons ev rest => exact perform_same ev (h.setInbox rest)

/-- Settles O7: a run writes every hidden register and entry that it reads (`encRun_hide`, `decRun_same`), and nothing else
reads any. -/
theorem hiddenStateIsNeverRead : Obligations.HiddenStateIsNeverRead := by
  intro s t hs ht h
  have hsame := step_same ⟨hs, ht, h⟩
  generalize step s = o, step t = o' at hsame
  cases hsame with
  | next huv =>
    refine ⟨fun s' e => ?_, nofun, nofun⟩
    obtain rfl := Host.Outcome.next.inj e
    exact ⟨_, rfl, huv⟩
  | fault f => exact ⟨nofun, fun g e => e, nofun⟩

end Sys2Proof.Machine
end

section
/-! SUPPORT. The soundness of the code writer and the code reader from the issue of a command to a whole step (R28, R30), and
the invariants at reset (R44). -/

namespace Sys2Proof.Machine

/-- The soundness of the writer is a fact about CW and CODE_CAP. -/
theorem State.CwOk.congr {s t : State} (hs : s.CwOk) (hcw : t.cw = s.cw) (hcap : t.codeLast = s.codeLast) : t.CwOk := by
  obtain ⟨hptr, hcnt, hacc⟩ := hs
  refine ⟨?_, hcw ▸ hcnt, hcw ▸ hacc⟩
  rw [hcw, State.codeCap, hcap]
  exact hptr

/-- The soundness of the reader is a fact about CR and CODE_CAP. -/
theorem State.CrOk.congr {s t : State} (hs : s.CrOk) (hcr : t.cr = s.cr) (hcap : t.codeLast = s.codeLast) : t.CrOk := by
  obtain ⟨hlen, hbitpos⟩ := hs
  refine ⟨?_, hcr ▸ hbitpos⟩
  rw [hcr, State.codeCap, hcap]
  exact hlen

/-- The writer with nothing written is sound (R132). -/
theorem cwOk_of_zero {s : State} (h : s.cw = ⟨0#25, 0#4, 0⟩) : s.CwOk := by
  refine ⟨?_, ?_, ?_⟩ <;> rw [h]
  · exact Nat.zero_le _
  · decide
  · decide

/-- The reader of an empty input is sound (R44). -/
theorem crOk_of_zero {s : State} (h : s.cr = ⟨0#25, 0#28⟩) : s.CrOk := by
  refine ⟨?_, ?_⟩ <;> rw [h]
  · exact Nat.zero_le _
  · exact Nat.zero_le _

/-- The issue of any word that raises no new error keeps the writer and the reader sound. -/
theorem issue_cwOk_crOk {w : Word64} {s t : State} (hw : s.CwOk) (hr : s.CrOk) (he : s.err ≠ 0#8 ∨ t.err = 0#8)
    (h : issue w s = .next t) : t.CwOk ∧ t.CrOk := by
  obtain ⟨u, hf, rfl⟩ := issue_frame h
  exact ⟨(hf.cwOk he (hw.congr rfl rfl)).congr rfl rfl, (hf.crOk he (hr.congr rfl rfl)).congr rfl rfl⟩

theorem writeReg_cwOk_crOk {r : HostReg} {v : Word32} {s t : State} (hw : s.CwOk) (hr : s.CrOk)
    (he : s.err ≠ 0#8 ∨ t.err = 0#8) (h : writeReg r v s = .next t) : t.CwOk ∧ t.CrOk := by
  cases r <;> simp only [writeReg] at h
  case cmdHi => exact issue_cwOk_crOk (s := s.setCmdHi v) (hw.congr rfl rfl) (hr.congr rfl rfl) he h
  all_goals
    obtain rfl := Host.Outcome.next.inj h
    exact ⟨hw.congr rfl rfl, hr.congr rfl rfl⟩

theorem busWrite_cwOk_crOk {offset : Nat} {data : BitVec 64} {s t : State} (hw : s.CwOk) (hr : s.CrOk)
    (he : s.err ≠ 0#8 ∨ t.err = 0#8) (h : busWrite offset data s = .next t) : t.CwOk ∧ t.CrOk := by
  unfold busWrite at h
  split at h
  · split at h
    · exact writeReg_cwOk_crOk hw hr he h
    · cases h
  · obtain rfl := Host.Outcome.next.inj h
    exact ⟨hw.congr rfl rfl, hr.congr rfl rfl⟩
  · obtain rfl := Host.Outcome.next.inj h
    exact ⟨hw.congr rfl rfl, hr.congr rfl rfl⟩
  · cases h

/-- Every event of the outside world that raises no new error keeps the writer and the reader sound. -/
theorem perform_cwOk_crOk {e : HostEvent} {s t : State} (hw : s.CwOk) (hr : s.CrOk) (he : s.err ≠ 0#8 ∨ t.err = 0#8)
    (h : perform e s = .next t) : t.CwOk ∧ t.CrOk := by
  cases e with
  | read width offset =>
    simp only [perform] at h
    split at h
    · cases h
    · obtain rfl := Host.Outcome.next.inj h
      exact ⟨hw.congr rfl rfl, hr.congr rfl rfl⟩
  | write width offset data =>
    simp only [perform] at h
    split at h
    · cases h
    · exact busWrite_cwOk_crOk hw hr he h
  | hardwareReset =>
    obtain rfl := Host.Outcome.next.inj h
    exact ⟨cwOk_of_zero rfl, crOk_of_zero rfl⟩

/-- Settles O6: a step is idle or performs one event; for a command, `exec_frame` says that it keeps both unless it fails. -/
theorem errorFreeStepKeepsWriterAndReader : Obligations.ErrorFreeStepKeepsWriterAndReader := by
  intro s t hw hr he h
  rcases step_cases h with ⟨-, rfl⟩ | ⟨e, rest, -, hperform⟩
  · exact ⟨hw, hr⟩
  · exact perform_cwOk_crOk (s := s.setInbox rest) (hw.congr rfl rfl) (hr.congr rfl rfl) he hperform

theorem reset_memOk : State.reset.MemOk :=
  ⟨Memory.wf_nil _, Memory.wf_nil _, Cells.wf_nil, Cells.wf_nil, Memory.wf_nil _⟩

/-- Settles O4: the memories and tables are empty, and ERR, ERRINFO, BUSY, CW and CR are 0. -/
theorem resetMeetsTheInvariants : Obligations.ResetMeetsTheInvariants :=
  ⟨⟨reset_memOk, ⟨Nat.zero_le _, fun _ => rfl, rfl⟩⟩, cwOk_of_zero rfl, crOk_of_zero rfl⟩

/-- Settles O1: each value is the one `State.reset` names, and an empty memory or table reads as 0 everywhere. -/
theorem resetState : Obligations.ResetState := by
  refine ⟨?status, ?err, ?busy, ?errInfo, ?res0, ?res1, ?cmdLo, ?cmdHi, ?pixcap, ?codecap, ?ptr, ?cnt, ?acc, ?len, ?bitpos,
    ?slots, ?pa, ?pixmem, ?codemem⟩
  case slots | pixmem | codemem => exact fun _ => rfl
  all_goals rfl

end Sys2Proof.Machine
end

section
/-! SUPPORT. The session invariant of the encoder (R34) over E_INIT and E_STEP, whatever the state of the memories. -/

namespace Sys2Proof.Machine

/-- The session invariant does not speak of the run registers ENC_CUR, ENC_N, ENC_I and ENC_NCODES. -/
theorem State.EncOk.congr {s t : State} (hs : s.EncOk)
    (h : t.enc = { s.enc with cur := t.enc.cur, n := t.enc.n, i := t.enc.i, ncodes := t.enc.ncodes }) : t.EncOk := by
  obtain ⟨hbpp, hclear, heoi, hw, hlimit, hnext, hfits⟩ := hs
  constructor <;> rw [h]
  exacts [hbpp, hclear, heoi, hw, hlimit, hnext, hfits]

theorem eEmit_encOk {c : Nat} {s t : State} (hs : s.EncOk) (h : eEmit c s = .ok t) : t.EncOk :=
  hs.congr (by rw [(eEmit_enc h).1])

/-- The registers E_INIT sets depend on ENC_BPP alone, so `eBegin_ok` gives R34 whatever the memories hold. -/
theorem eBegin_encOk {s : State} (hb : 1 ≤ s.enc.bpp.toNat ∧ s.enc.bpp.toNat ≤ 8) : (eBegin s).EncOk := by
  obtain ⟨-, -, hok, -⟩ := eBegin_ok (s := State.reset.setEnc s.enc) ((EncSetup.setEnc _ _).memOk reset_memOk) hb
  exact hok.congr rfl

theorem eEmpty_encOk {s t : State} (hs : s.EncOk) (h : eEmpty s = .ok t) : t.EncOk := by
  obtain ⟨u, hu, h⟩ := bind_ok_iff.mp h
  obtain ⟨v, hv, h⟩ := bind_ok_iff.mp h
  obtain rfl := Except.ok.inj h
  have hvu : v.enc = u.enc := by rw [(cwEnd_frame hv).eq]
  refine (eEmit_encOk hs hu).congr ?_
  rw [State.setEnc_enc, hvu]

theorem eSeed_encOk {s t : State} (hs : s.EncOk) (h : eSeed s = .ok t) : t.EncOk := by
  unfold eSeed at h
  split at h
  · cases h
  · obtain rfl := Except.ok.inj h
    exact hs.congr rfl

theorem eInit_encOk {s t : State} (hb : 1 ≤ s.enc.bpp.toNat ∧ s.enc.bpp.toNat ≤ 8) (h : eInit s = .ok t) : t.EncOk := by
  obtain ⟨u, hu, h⟩ := bind_ok_iff.mp h
  have hok := eEmit_encOk (eBegin_encOk hb) hu
  split at h
  · exact eEmpty_encOk hok h
  · exact eSeed_encOk hok h

/-- A miss inserts an entry, or starts a new session when the table is full (R164). -/
theorem eExtend_encOk {p : Byte} {i : BitVec 12} {s t : State} (hs : s.EncOk) (h : eExtend p i s = .ok t) : t.EncOk := by
  unfold eExtend at h
  split at h
  · next hn =>
    obtain rfl := Except.ok.inj h
    exact (eInsert_encOk hs hn).1
  · obtain ⟨u, hu, h⟩ := bind_ok_iff.mp h
    obtain rfl := Except.ok.inj h
    have hok := eEmit_encOk hs hu
    exact (encInitSession_encOk hok.bpp hok.clear hok.eoi).1

theorem eLookup_encOk {c : BitVec 12} {p : Byte} {i : BitVec 12} {s t : State} (hs : s.EncOk)
    (h : eLookup c p i s = .ok t) : t.EncOk := by
  unfold eLookup at h
  split at h
  · obtain rfl := Except.ok.inj h
    exact hs.congr rfl
  · obtain ⟨u, hu, h⟩ := bind_ok_iff.mp h
    obtain ⟨v, hv, h⟩ := bind_ok_iff.mp h
    obtain rfl := Except.ok.inj h
    exact (eExtend_encOk (eEmit_encOk hs hu) hv).congr rfl

theorem eStep_encOk {s t : State} (hs : s.EncOk) (h : eStep s = .ok t) : t.EncOk := by
  unfold eStep at h
  split at h
  · cases h
  · split at h
    · cases h
    · obtain ⟨u, hu, h⟩ := bind_ok_iff.mp h
      obtain rfl := Except.ok.inj h
      exact (eLookup_encOk hs hu).congr rfl

/-- Settles O39: a run starts a session for every legal BPP, and each part of E_STEP keeps it. -/
theorem encStepsKeepTheSession : Obligations.EncStepsKeepTheSession :=
  ⟨fun _ _ h1 h8 h => eInit_encOk ⟨h1, h8⟩ h, fun _ _ => eStep_encOk,
    fun _ h => ⟨h.limit, h.w.2, h.next.1, h.next.2, h.fits⟩⟩

end Sys2Proof.Machine
end

section
/-! SUPPORT. The register window (R27): an access at the offset of a register reads or writes that register; and the issue of a
command by a host write to CMD_HI (R26). -/

namespace Sys2Proof.Machine

/-- The offset of each register of the map (R27). -/
def HostReg.offset : HostReg → Nat
  | .cmdLo => 0x00
  | .cmdHi => 0x04
  | .status => 0x08
  | .errInfo => 0x0C
  | .res0Lo => 0x10
  | .res0Hi => 0x14
  | .res1Lo => 0x18
  | .res1Hi => 0x1C
  | .cfgPixcap => 0x20
  | .cfgCodecap => 0x24

theorem HostReg.ofOffset_offset (r : HostReg) : HostReg.ofOffset r.offset = some r := by cases r <;> rfl

theorem windowOf_reg (r : HostReg) (s : State) : windowOf r.offset s = .registers r.offset := by cases r <;> rfl

theorem busFault_reg (r : HostReg) (s : State) : busFault .bits32 r.offset s = none := by cases r <;> rfl

theorem perform_read_reg (r : HostReg) (s : State) :
    perform (.read .bits32 r.offset) s = .next (s.setReply (.word (readReg r s))) := by
  simp only [perform, busFault_reg, busRead, windowOf_reg, HostReg.ofOffset_offset]

theorem perform_write_reg (r : HostReg) (data : BitVec 64) (s : State) :
    perform (.write .bits32 r.offset data) s = writeReg r (data.setWidth 32) s := by
  simp only [perform, busFault_reg, busWrite, windowOf_reg, HostReg.ofOffset_offset]

/-- Settles O56: `perform_read_reg` and `perform_write_reg` at each offset of the map. -/
theorem registerMap : Obligations.RegisterMap := by
  refine ⟨fun s offset value h => ?read, fun s offset data h => ?readOnly,
    fun s data => perform_write_reg .cmdLo data s, fun s data => perform_write_reg .cmdHi data s⟩
  case read =>
    simp only [List.mem_cons, List.not_mem_nil, or_false, Prod.mk.injEq] at h
    rcases h with ⟨rfl, rfl⟩ | ⟨rfl, rfl⟩ | ⟨rfl, rfl⟩ | ⟨rfl, rfl⟩ | ⟨rfl, rfl⟩ | ⟨rfl, rfl⟩ | ⟨rfl, rfl⟩ | ⟨rfl, rfl⟩ |
      ⟨rfl, rfl⟩ | ⟨rfl, rfl⟩
    exacts [perform_read_reg .cmdLo s, perform_read_reg .cmdHi s, perform_read_reg .status s, perform_read_reg .errInfo s,
      perform_read_reg .res0Lo s, perform_read_reg .res0Hi s, perform_read_reg .res1Lo s, perform_read_reg .res1Hi s,
      perform_read_reg .cfgPixcap s, perform_read_reg .cfgCodecap s]
  case readOnly =>
    simp only [List.mem_cons, List.not_mem_nil, or_false] at h
    rcases h with rfl | rfl | rfl | rfl | rfl | rfl | rfl | rfl
    exacts [perform_write_reg .status data s, perform_write_reg .errInfo data s, perform_write_reg .res0Lo data s,
      perform_write_reg .res0Hi data s, perform_write_reg .res1Lo data s, perform_write_reg .res1Hi data s,
      perform_write_reg .cfgPixcap data s, perform_write_reg .cfgCodecap data s]

/-- With no access pending the block holds all state (R256). -/
theorem step_idle {s : State} (h : s.inbox = []) : step s = .next s := by
  unfold step
  rw [h]

theorem step_pending {s : State} {e : HostEvent} {rest : List HostEvent} (h : s.inbox = e :: rest) :
    step s = perform e (s.setInbox rest) := by
  unfold step
  rw [h]

/-- A 32-bit value is the low half of the 64-bit data that carries it. -/
theorem setWidth_32_64 (v : Word32) : (v.setWidth 64).setWidth 32 = v := by
  rw [BitVec.setWidth_setWidth_of_le v (by decide), BitVec.setWidth_eq]

/-- A pending write to a register, with the value in the low half of its data. -/
theorem step_write_reg {s : State} {r : HostReg} {v : Word32} {rest : List HostEvent}
    (h : s.inbox = .write .bits32 r.offset (v.setWidth 64) :: rest) : step s = writeReg r v (s.setInbox rest) := by
  rw [step_pending h, perform_write_reg, setWidth_32_64]

/-- A pending write to CMD_HI runs the command that it completes (R26, R64). -/
theorem step_issues {s : State} {hi : Word32} {rest : List HostEvent} {i : Instr} (hd : decode (hi ++ s.cmdLo) = some i)
    (h : s.inbox = .write .bits32 HostReg.cmdHi.offset (hi.setWidth 64) :: rest) :
    step s = endCommand (exec i (((s.setInbox rest).setCmdHi hi).setBusy true)) := by
  rw [step_write_reg h]
  exact issue_decoded _ hd

/-- A command word is its two halves (R26). -/
theorem word_halves (w : Word64) : w.extractLsb' 32 32 ++ w.extractLsb' 0 32 = w := by
  rw [BitVec.extractLsb'_append_extractLsb'_eq_extractLsb' (by decide), BitVec.extractLsb'_eq_self]

theorem withFetchWord_eq (s : State) (w : Word64) :
    s.withFetchWord 64 w.toNat = (s.setCmdLo (w.extractLsb' 0 32)).setInbox
      (.write .bits32 HostReg.cmdHi.offset ((w.extractLsb' 32 32).setWidth 64) :: s.inbox) := by
  have hw : BitVec.ofNat 64 (w.toNat % 2 ^ 64) = w := by rw [Nat.mod_eq_of_lt w.isLt, BitVec.ofNat_toNat, BitVec.setWidth_eq]
  unfold State.withFetchWord
  rw [hw]
  rfl

/-- Settles O8: `step_issues` for a write to CMD_HI, `step_write_reg` for one to CMD_LO, `step_idle`; and `withFetchWord`
has the low half of the word in CMD_LO and the write of its high half pending. -/
theorem stepRunsTheIssuedCommand : Obligations.StepRunsTheIssuedCommand := by
  refine ⟨?command, fun s v rest h => step_write_reg (r := .cmdLo) h, fun s => step_idle, ?fetched⟩
  case command =>
    rintro s lo hi rest i rfl hd h
    exact step_issues hd h
  case fetched =>
    intro s w i hd
    have hhalves : decode (w.extractLsb' 32 32 ++ w.extractLsb' 0 32) = some i := by rw [word_halves, hd]
    rw [withFetchWord_eq]
    exact step_issues hhalves rfl

end Sys2Proof.Machine
end

section
/-! SUPPORT. The host's windows (R62) and the accesses the bus passes on (R63): the register map and the bytes below the
capacities, and nothing else. -/

namespace Sys2Proof.Machine

theorem windowOf_registers {o k : Nat} {s : State} (h : windowOf o s = .registers k) : k = o := by
  unfold windowOf at h
  split_ifs at h
  exact (Window.registers.inj h).symm

theorem windowOf_pixmem_iff {o a : Nat} {s : State} :
    windowOf o s = .pixmem a ↔ a < s.pixCap ∧ o = 0x01000000 + a := by
  unfold windowOf
  split_ifs <;> simp only [Window.pixmem.injEq, false_iff] <;> omega

/-- PIXMEM is too small to reach the window of CODEMEM (R9). -/
theorem windowOf_codemem_iff {o a : Nat} {s : State} :
    windowOf o s = .codemem a ↔ a < s.codeCap ∧ o = 0x02000000 + a := by
  have := pixCap_le s
  unfold windowOf
  split_ifs <;> simp only [Window.codemem.injEq, false_iff] <;> omega

section
variable {s : State} {a : Nat}

theorem perform_read_pix (ha : a < s.pixCap) :
    perform (.read .bits8 (0x01000000 + a)) s = .next (s.setReply (.byte (s.readPix a))) := by
  have hw := windowOf_pixmem_iff.mpr ⟨ha, rfl⟩
  simp only [perform, busFault, busRead, hw, ne_eq, not_true_eq_false, if_false]

theorem perform_read_code (ha : a < s.codeCap) :
    perform (.read .bits8 (0x02000000 + a)) s = .next (s.setReply (.byte (s.readCode a))) := by
  have hw := windowOf_codemem_iff.mpr ⟨ha, rfl⟩
  simp only [perform, busFault, busRead, hw, ne_eq, not_true_eq_false, if_false]

theorem perform_write_pix (data : BitVec 64) (ha : a < s.pixCap) :
    perform (.write .bits8 (0x01000000 + a) data) s = .next (s.writePix a (data.setWidth 8)) := by
  have hw := windowOf_pixmem_iff.mpr ⟨ha, rfl⟩
  simp only [perform, busFault, busWrite, hw, ne_eq, not_true_eq_false, if_false]

theorem perform_write_code (data : BitVec 64) (ha : a < s.codeCap) :
    perform (.write .bits8 (0x02000000 + a) data) s = .next (s.writeCode a (data.setWidth 8)) := by
  have hw := windowOf_codemem_iff.mpr ⟨ha, rfl⟩
  simp only [perform, busFault, busWrite, hw, ne_eq, not_true_eq_false, if_false]

end

/-- Settles O57: `windowOf_pixmem_iff` and `windowOf_codemem_iff` say which byte an access reaches, and a write to a memory
in canonical form changes that byte alone (`Cells.read_write`). -/
theorem memoryWindows : Obligations.MemoryWindows :=
  ⟨fun _ _ => perform_read_pix, fun _ _ => perform_read_code,
    fun _ _ data hm ha => ⟨_, perform_write_pix data ha, rfl, fun _ => Cells.read_write hm.pixmem⟩,
    fun _ _ data hm ha => ⟨_, perform_write_code data ha, rfl, fun _ => Cells.read_write hm.codemem⟩⟩

end Sys2Proof.Machine
end

section
/-! SUPPORT. What each command may write (R41, R70, R220): the table of the units, and that every command ends in a next state
(R279) that differs from the state it starts in by its units alone. -/

namespace Sys2Proof.Machine

/-- The state s with what a command may write taken from t. STATUS, ERRINFO and the model's counter of free values are every
command's; the rest is one line per unit. That ENC_RUN keeps the decoder's registers, DT and XSTACK, and DEC_RUN the ENC_*
registers, is the model's choice (log entry 18). -/
def State.withUnitsOf (s : State) (m : Mnemonic) (t : State) : State :=
  { s with
    err := t.err
    errInfo := t.errInfo
    busy := t.busy
    freeTick := t.freeTick
    pa := if m ≠ .paConfig then s.pa else t.pa
    cw := if m ∉ [.cwReset, .cwWrite, .cwEnd, .encRun] then s.cw else t.cw
    codemem := if m ∉ [.cwWrite, .cwEnd, .encRun] then s.codemem else t.codemem
    cr := if m ∉ [.crOpen, .crRead, .decRun] then s.cr else t.cr
    st := if m ∉ [.stReset, .stAdd, .encRun] then s.st else t.st
    enc := if m ≠ .encRun then s.enc else t.enc
    pixmem := if m ≠ .decRun then s.pixmem else t.pixmem
    dec := if m ≠ .decRun then s.dec else t.dec
    dt := if m ≠ .decRun then s.dt else t.dt
    xstack := if m ≠ .decRun then s.xstack else t.xstack
    xsp := if m ≠ .decRun then s.xsp else t.xsp
    res0 := if m ∉ [.cwWrite, .cwEnd, .crRead, .stSearch, .encRun, .decRun, .paRowlen, .paOffset, .paExtract, .paInject]
      then s.res0 else t.res0
    res1 := if m ∉ [.crRead, .stSearch, .encRun, .decRun, .paOffset] then s.res1 else t.res1 }

/-- The outcome is a next state, reached from s by writes to the units of m alone. -/
inductive EndsWithin (m : Mnemonic) (s : State) : Outcome → Prop
  | next {t : State} (h : t = s.withUnitsOf m t) : EndsWithin m s (.next t)

section
variable {m : Mnemonic} {s : State}

theorem EndsWithin.same : EndsWithin m s (.next s) := by
  refine .next ?_
  simp only [State.withUnitsOf, ite_self]

/-- Error entry (R244) writes no unit. -/
theorem EndsWithin.raise (r : Raise) : EndsWithin m s (.next (raise r s)) := by
  refine .next ?_
  simp only [State.withUnitsOf, raise_pa, raise_cw, raise_codemem, raise_cr, raise_st, raise_enc, raise_pixmem, raise_dec,
    raise_dt, raise_xstack, raise_xsp, raise_res0, raise_res1, ite_self]
  rfl

theorem EndsWithin.ite {p : Prop} [Decidable p] {a b : Outcome} (ha : p → EndsWithin m s a)
    (hb : ¬ p → EndsWithin m s b) : EndsWithin m s (if p then a else b) := by
  by_cases hp : p
  · rw [if_pos hp]
    exact ha hp
  · rw [if_neg hp]
    exact hb hp

/-- An operand check that raises (R243). -/
theorem EndsWithin.check {p : Prop} [Decidable p] {r : Raise} {o : Outcome} (ho : ¬ p → EndsWithin m s o) :
    EndsWithin m s (if p then .next (Machine.raise r s) else o) :=
  .ite (fun _ => .raise r) ho

theorem EndsWithin.unlessError {o : Outcome} (ho : EndsWithin m s o) : EndsWithin m s (unlessError s o) :=
  .ite (fun _ => ho) fun _ => .same

theorem EndsWithin.elim {o : Outcome} (ho : EndsWithin m s o) : ∃ t, o = .next t ∧ t = s.withUnitsOf m t := by
  cases ho with
  | next h => exact ⟨_, rfl, h⟩

end

theorem execCwWrite_ends (code : BitVec 16) (width : BitVec 4) (s : State) :
    EndsWithin .cwWrite s (execCwWrite code width s) := by
  refine .unlessError (.check fun _ => ?_)
  cases hrun : cwWrite code.toNat width.toNat s with
  | ok t => exact .next (by rw [(cwWrite_frame hrun).eq]; rfl)
  | error r => exact .next rfl

theorem execCwEnd_ends (s : State) : EndsWithin .cwEnd s (execCwEnd s) := by
  refine .unlessError ?_
  cases hrun : cwEnd s with
  | ok t => exact .next (by rw [(cwEnd_frame hrun).eq]; rfl)
  | error r => exact .next rfl

theorem execCrRead_ends (width : BitVec 4) (s : State) : EndsWithin .crRead s (execCrRead width s) := by
  refine .unlessError (.check fun _ => ?_)
  cases hread : crRead width.toNat s with
  | none => exact .raise _
  | some r =>
    obtain ⟨-, -, ht, -⟩ := crRead_some hread
    refine .next ?_
    rw [ht, crResult_eq]
    rfl

theorem execStSearch_ends (pre : BitVec 12) (suf : BitVec 8) (s : State) :
    EndsWithin .stSearch s (execStSearch pre suf s) := by
  refine .unlessError ?_
  cases stProbe pre suf s with
  | none => exact .raise _
  | some r => exact .next rfl

theorem execEncRun_ends (bpp : BitVec 4) (len : BitVec 32) (s : State) :
    EndsWithin .encRun s (execEncRun bpp len s) := by
  refine .unlessError (.check fun _ => .check fun _ => ?_)
  cases hrun : encRun bpp len.toNat s with
  | ok t =>
    obtain ⟨ht, -⟩ := encRun_frame hrun
    exact .next (by rw [ht]; rfl)
  | error r => exact .next rfl

theorem execDecRun_ends (bpp : BitVec 4) (len : BitVec 32) (s : State) :
    EndsWithin .decRun s (execDecRun bpp len s) := by
  refine .unlessError (.check fun _ => .check fun hlen => ?_)
  cases hrun : decRun bpp len.toNat s with
  | ok t =>
    obtain ⟨ht, -⟩ := decRun_frame (Nat.le_of_not_lt hlen) hrun
    exact .next (by rw [ht]; rfl)
  | error r => exact .next rfl

theorem execPaExtract_ends (byte : BitVec 8) (bit : BitVec 4) (s : State) :
    EndsWithin .paExtract s (execPaExtract byte bit s) := by
  refine .unlessError ?_
  cases colourMask s.pa.depth with
  | none => exact .raise _
  | some mask => exact .check fun _ => .next rfl

theorem execPaInject_ends (byte : BitVec 8) (bit : BitVec 4) (ci : BitVec 8) (s : State) :
    EndsWithin .paInject s (execPaInject byte bit ci s) := by
  refine .unlessError ?_
  cases colourMask s.pa.depth with
  | none => exact .raise _
  | some mask => exact .check fun _ => .check fun _ => .next rfl

/-- Every command ends (R279), and writes its own units alone (R70). -/
theorem exec_ends (i : Instr) (s : State) : EndsWithin i.mnemonic s (exec i s) := by
  cases i with
  | nop => exact .unlessError .same
  | clrerr => exact .next rfl
  | cwReset => exact .unlessError (.next rfl)
  | cwWrite code width => exact execCwWrite_ends code width s
  | cwEnd => exact execCwEnd_ends s
  | crOpen len => exact .unlessError (.check fun _ => .next rfl)
  | crRead width => exact execCrRead_ends width s
  | stReset => exact .unlessError (.next rfl)
  | stSearch pre suf => exact execStSearch_ends pre suf s
  | stAdd index pre suf code => exact .unlessError (.next rfl)
  | encRun bpp len => exact execEncRun_ends bpp len s
  | decRun bpp len => exact execDecRun_ends bpp len s
  | paConfig depth width height order => exact .unlessError (.next rfl)
  | paRowlen => exact .unlessError (.next rfl)
  | paOffset x y => exact .unlessError (.check fun _ => .check fun _ => .next rfl)
  | paExtract byte bit => exact execPaExtract_ends byte bit s
  | paInject byte bit ci => exact execPaInject_ends byte bit ci s

/-- What a command that answers a next state leaves alone. -/
theorem exec_units {i : Instr} {s t : State} (h : exec i s = .next t) : t = s.withUnitsOf i.mnemonic t := by
  obtain ⟨u, hu, hunits⟩ := (exec_ends i s).elim
  obtain rfl := Host.Outcome.next.inj (hu.symm.trans h)
  exact hunits

/-- A word that spells no command writes no unit (R85, R86). -/
theorem issueIllegal_ends (w : Word64) (s : State) : EndsWithin .nop s (issueIllegal w s) := .unlessError (.raise _)

/-- The issue of any word ends, with BUSY 0 (R279). -/
theorem issue_next (w : Word64) (s : State) : ∃ t, issue w s = .next t ∧ t.busy = false := by
  cases hd : decode w with
  | some i =>
    obtain ⟨t, ht, -⟩ := (exec_ends i (s.setBusy true)).elim
    rw [issue_decoded s hd, ht]
    exact ⟨t.setBusy false, rfl, rfl⟩
  | none =>
    obtain ⟨t, ht, -⟩ := (issueIllegal_ends w (s.setBusy true)).elim
    rw [issue_undecoded s hd, ht]
    exact ⟨t.setBusy false, rfl, rfl⟩

/-- Settles O60: the host's side is in the frame of every command (`exec_frame`), and each unit is a line of the table
(`exec_units`). -/
theorem commandsTouchTheirUnits : Obligations.CommandsTouchTheirUnits := by
  intro i s t h
  have hframe := exec_frame h
  have ht := exec_units h
  exact ⟨hframe.pixLast, hframe.codeLast, hframe.cmdLo, hframe.cmdHi, hframe.inbox, hframe.reply,
    fun hi => (congrArg State.pa ht).trans (if_pos hi), fun hi => (congrArg State.cw ht).trans (if_pos hi),
    fun hi => (congrArg State.codemem ht).trans (if_pos hi), fun hi => (congrArg State.cr ht).trans (if_pos hi),
    fun hi => (congrArg State.st ht).trans (if_pos hi), fun hi => (congrArg State.enc ht).trans (if_pos hi),
    fun hi => ⟨(congrArg State.pixmem ht).trans (if_pos hi), (congrArg State.dec ht).trans (if_pos hi),
      (congrArg State.dt ht).trans (if_pos hi), (congrArg State.xstack ht).trans (if_pos hi),
      (congrArg State.xsp ht).trans (if_pos hi)⟩,
    fun hi => (congrArg State.res0 ht).trans (if_pos hi), fun hi => (congrArg State.res1 ht).trans (if_pos hi)⟩

end Sys2Proof.Machine
end

section
/-! SUPPORT. The accesses R63 admits, by what they reach; every other access is refused. -/

namespace Sys2Proof.Machine

theorem writeReg_next (r : HostReg) (v : Word32) (s : State) : ∃ t, writeReg r v s = .next t := by
  cases r
  case cmdHi =>
    obtain ⟨t, ht, -⟩ := issue_next (v ++ s.cmdLo) (s.setCmdHi v)
    exact ⟨t, ht⟩
  all_goals exact ⟨_, rfl⟩

theorem HostReg.offset_of_ofOffset {o : Nat} {r : HostReg} (h : HostReg.ofOffset o = some r) : r.offset = o := by
  unfold HostReg.ofOffset at h
  split_ifs at h <;> cases h <;> symm <;> assumption

/-- The offsets of the register map (R27) are the multiples of 4 up to 0x24. -/
theorem HostReg.exists_offset_iff {o : Nat} : (∃ r : HostReg, r.offset = o) ↔ o % 4 = 0 ∧ o ≤ 0x24 := by
  constructor
  · rintro ⟨r, rfl⟩
    cases r <;> decide
  · rintro ⟨h4, hle⟩
    obtain rfl | rfl | rfl | rfl | rfl | rfl | rfl | rfl | rfl | rfl : o = 0x00 ∨ o = 0x04 ∨ o = 0x08 ∨ o = 0x0C ∨
      o = 0x10 ∨ o = 0x14 ∨ o = 0x18 ∨ o = 0x1C ∨ o = 0x20 ∨ o = 0x24 := by omega
    exacts [⟨.cmdLo, rfl⟩, ⟨.cmdHi, rfl⟩, ⟨.status, rfl⟩, ⟨.errInfo, rfl⟩, ⟨.res0Lo, rfl⟩, ⟨.res0Hi, rfl⟩,
      ⟨.res1Lo, rfl⟩, ⟨.res1Hi, rfl⟩, ⟨.cfgPixcap, rfl⟩, ⟨.cfgCodecap, rfl⟩]

/-- An access that reaches a register of the map at 32 bits, or a byte of a memory at 8. -/
inductive Reaches (s : State) : AccessWidth → Nat → Prop
  | reg (r : HostReg) : Reaches s .bits32 r.offset
  | pix {a : Nat} (h : a < s.pixCap) : Reaches s .bits8 (0x01000000 + a)
  | code {a : Nat} (h : a < s.codeCap) : Reaches s .bits8 (0x02000000 + a)

section
variable {s : State} {width : AccessWidth} {offset : Nat}

/-- The conditions of R62 and R63. -/
theorem reaches_iff : Reaches s width offset ↔
    (width = .bits32 ∧ offset % 4 = 0 ∧ offset ≤ 0x24) ∨
    (width = .bits8 ∧ 0x01000000 ≤ offset ∧ offset < 0x01000000 + s.pixCap) ∨
    (width = .bits8 ∧ 0x02000000 ≤ offset ∧ offset < 0x02000000 + s.codeCap) := by
  constructor
  · rintro (r | ha | ha)
    · exact .inl ⟨rfl, HostReg.exists_offset_iff.mp ⟨r, rfl⟩⟩
    · exact .inr (.inl ⟨rfl, by omega, by omega⟩)
    · exact .inr (.inr ⟨rfl, by omega, by omega⟩)
  · rintro (⟨rfl, hreg⟩ | ⟨rfl, hlo, hhi⟩ | ⟨rfl, hlo, hhi⟩)
    · obtain ⟨r, rfl⟩ := HostReg.exists_offset_iff.mpr hreg
      exact .reg r
    · obtain ⟨a, rfl⟩ := Nat.exists_eq_add_of_le hlo
      exact .pix (by omega)
    · obtain ⟨a, rfl⟩ := Nat.exists_eq_add_of_le hlo
      exact .code (by omega)

/-- The bus passes on no other access. -/
theorem reaches_of_busFault (h : busFault width offset s = none) : Reaches s width offset := by
  unfold busFault at h
  split at h
  · next o hw =>
    obtain rfl := windowOf_registers hw
    split_ifs at h with hwidth halign hreg
    obtain ⟨r, hr⟩ := Option.ne_none_iff_exists'.mp hreg
    obtain rfl := HostReg.offset_of_ofOffset hr
    obtain rfl := not_not.mp hwidth
    exact .reg r
  · next a hw =>
    split_ifs at h with hwidth
    obtain ⟨ha, rfl⟩ := windowOf_pixmem_iff.mp hw
    obtain rfl := not_not.mp hwidth
    exact .pix ha
  · next a hw =>
    split_ifs at h with hwidth
    obtain ⟨ha, rfl⟩ := windowOf_codemem_iff.mp hw
    obtain rfl := not_not.mp hwidth
    exact .code ha
  · cases h

theorem Reaches.read_next (h : Reaches s width offset) : ∃ t, perform (.read width offset) s = .next t := by
  cases h with
  | reg r => exact ⟨_, perform_read_reg r s⟩
  | pix ha => exact ⟨_, perform_read_pix ha⟩
  | code ha => exact ⟨_, perform_read_code ha⟩

theorem Reaches.write_next (h : Reaches s width offset) (data : BitVec 64) :
    ∃ t, perform (.write width offset data) s = .next t := by
  cases h with
  | reg r =>
    rw [perform_write_reg]
    exact writeReg_next r _ s
  | pix ha => exact ⟨_, perform_write_pix data ha⟩
  | code ha => exact ⟨_, perform_write_code data ha⟩

theorem busFault_of_not_reaches (h : ¬ Reaches s width offset) : ∃ f, busFault width offset s = some f :=
  Option.ne_none_iff_exists'.mp fun hnone => h (reaches_of_busFault hnone)

end

theorem perform_read_refused {f : Fault} {width : AccessWidth} {offset : Nat} {s : State}
    (h : busFault width offset s = some f) : perform (.read width offset) s = .fault f := by
  simp only [perform, h]

theorem perform_write_refused {f : Fault} {width : AccessWidth} {offset : Nat} {s : State} (data : BitVec 64)
    (h : busFault width offset s = some f) : perform (.write width offset data) s = .fault f := by
  simp only [perform, h]

/-- Settles O58: an access that the bus passes on reaches a register or a byte (`reaches_of_busFault`), and what it does there
has a next state, since the issue of a command ends (`issue_next`). -/
theorem refusedAccesses : Obligations.RefusedAccesses := by
  intro s width offset
  refine ⟨fun hadmitted => ?_, fun hrefused => ?_⟩
  · have hreach := reaches_iff.mpr hadmitted
    refine ⟨hreach.read_next, fun data => ⟨hreach.write_next data, ?_⟩⟩
    rintro rfl
    obtain ⟨rfl, -⟩ | h | h := hadmitted
    · exact perform_write_reg .cmdHi data s
    · omega
    · omega
  · obtain ⟨f, hf⟩ := busFault_of_not_reaches (mt reaches_iff.mp hrefused)
    exact ⟨⟨f, perform_read_refused hf⟩, fun data => ⟨f, perform_write_refused data hf⟩⟩

end Sys2Proof.Machine
end


section
/-! SUPPORT. The encoding from both sides (30_encoding.md sections 1 to 3): the decoder as a match of one row of R84, and the
word of a command as the one word that matches its row and holds its operands. -/

namespace Sys2Proof

/-! ## The rows of the opcode map -/

/-- The 17 rows, in the order of R83. -/
def Mnemonic.all : List Mnemonic :=
  [.nop, .clrerr, .cwReset, .cwWrite, .cwEnd, .crOpen, .crRead, .stReset, .stSearch, .stAdd, .encRun, .decRun, .paConfig,
   .paRowlen, .paOffset, .paExtract, .paInject]

theorem Mnemonic.mem_all (m : Mnemonic) : m ∈ Mnemonic.all := by cases m <;> decide

theorem Mnemonic.ofOpc_opc (m : Mnemonic) : Mnemonic.ofOpc m.opc = some m := by cases m <;> rfl

/-- One line of the map: the OPC is that row's, or a row below gives it. -/
theorem Mnemonic.opc_of_ite {opc c : BitVec 8} {m k : Mnemonic} {rest : Option Mnemonic} (hc : m.opc = c)
    (hrest : rest = some k → k.opc = opc) (h : (if opc = c then some m else rest) = some k) : k.opc = opc := by
  split at h
  · next hopc => rw [← Option.some.inj h, hc, hopc]
  · exact hrest h

theorem Mnemonic.opc_of_ofOpc {opc : BitVec 8} {m : Mnemonic} : Mnemonic.ofOpc opc = some m → m.opc = opc := by
  unfold Mnemonic.ofOpc
  iterate 17 refine Mnemonic.opc_of_ite rfl ?_
  exact fun h => nomatch h

theorem Mnemonic.opc_injective {m k : Mnemonic} (h : m.opc = k.opc) : m = k :=
  Option.some.inj (by rw [← m.ofOpc_opc, h, k.ofOpc_opc])

/-- The OPC values outside the map (R86). -/
theorem Mnemonic.ofOpc_eq_none_iff {opc : BitVec 8} :
    Mnemonic.ofOpc opc = none ↔ ∀ m ∈ Mnemonic.all, m.opc.toNat ≠ opc.toNat := by
  constructor
  · intro h m _ heq
    rw [← BitVec.eq_of_toNat_eq heq, m.ofOpc_opc] at h
    cases h
  · intro h
    cases hm : Mnemonic.ofOpc opc with
    | none => rfl
    | some m => exact absurd (congrArg BitVec.toNat (Mnemonic.opc_of_ofOpc hm)) (h m m.mem_all)

/-! ## Decoding -/

/-- Every mask keeps the OPC field, and a match word has its row's OPC there (R84). -/
theorem opcOf_of_match {m : Mnemonic} {w : Word64} (h : w &&& m.mask = m.matchWord) : opcOf w = m.opc := by
  have hmask : opcOf m.mask = BitVec.allOnes 8 := by cases m <;> rfl
  have hmatch : opcOf m.matchWord = m.opc := by cases m <;> rfl
  calc opcOf w = opcOf w &&& opcOf m.mask := by rw [hmask, BitVec.and_allOnes]
    _ = opcOf (w &&& m.mask) := BitVec.extractLsb'_and.symm
    _ = m.opc := by rw [h, hmatch]

/-- The decoder as the rows of R84: the word matches a row, and the command is that row's. -/
theorem decode_eq_some_iff {w : Word64} {i : Instr} :
    decode w = some i ↔ ∃ m : Mnemonic, w &&& m.mask = m.matchWord ∧ i = m.fields w := by
  constructor
  · intro h
    unfold decode at h
    split at h
    · cases h
    · next m _ =>
      split at h
      · next hmatch => exact ⟨m, hmatch, (Option.some.inj h).symm⟩
      · cases h
  · rintro ⟨m, hmatch, rfl⟩
    unfold decode
    rw [opcOf_of_match hmatch, m.ofOpc_opc]
    exact if_pos hmatch

/-- No word matches two rows (R84). -/
theorem match_unique {w : Word64} {m k : Mnemonic} (hm : w &&& m.mask = m.matchWord) (hk : w &&& k.mask = k.matchWord) :
    m = k :=
  Mnemonic.opc_injective ((opcOf_of_match hm).symm.trans (opcOf_of_match hk))

theorem decode_reserved_bit {w : Word64} {m : Mnemonic} (hopc : opcOf w = m.opc) (h : w &&& m.mask ≠ m.matchWord) :
    decode w = none := by
  unfold decode
  rw [hopc, m.ofOpc_opc]
  exact if_neg h

theorem decode_reserved_opc {w : Word64} (h : Mnemonic.ofOpc (opcOf w) = none) : decode w = none := by
  unfold decode
  rw [h]

theorem decodeTableWord_toNat (w : Word64) : decodeTableWord 64 w.toNat = decode w := by
  unfold decodeTableWord
  rw [if_pos (Nat.le_refl 64), Nat.mod_eq_of_lt w.isLt, BitVec.ofNat_toNat, BitVec.setWidth_eq]

/-- A row as R84 writes it: its match word and its mask word. -/
def Mnemonic.row (m : Mnemonic) : Mnemonic × Word64 × Word64 := (m, m.matchWord, m.mask)

/-- Settles O12: the table written out is the rows of the model (`Mnemonic.row`), the decoder is a match of one of them
(`decode_eq_some_iff`), and the OPC in every mask keeps two rows apart (`match_unique`). -/
theorem decodeFollowsTheMaskTable : Obligations.DecodeFollowsTheMaskTable := by
  unfold Obligations.DecodeFollowsTheMaskTable
  intro rows w
  have hrows : rows = Mnemonic.all.map Mnemonic.row := rfl
  rw [hrows]
  simp only [List.mem_map, exists_exists_and_eq_and, forall_exists_index, and_imp, forall_apply_eq_imp_iff₂]
  refine ⟨fun i => ?_, fun m _ k _ hm hk => congrArg Mnemonic.row (match_unique hm hk)⟩
  rw [decode_eq_some_iff]
  exact exists_congr fun m => (and_iff_right m.mem_all).symm

/-! ## Decoding an encoded command -/

/-- The word of every command carries its OPC, its reserved bits 0, and its operands (R80, R81). -/
theorem encode_statement (i : Instr) : Laws.Encoding.Statement i := by
  cases i with
  | nop => exact Laws.Encoding.nop
  | clrerr => exact Laws.Encoding.clrerr
  | cwReset => exact Laws.Encoding.cwReset
  | cwWrite code width => exact Laws.Encoding.cwWrite code width
  | cwEnd => exact Laws.Encoding.cwEnd
  | crOpen len => exact Laws.Encoding.crOpen len
  | crRead width => exact Laws.Encoding.crRead width
  | stReset => exact Laws.Encoding.stReset
  | stSearch pre suf => exact Laws.Encoding.stSearch pre suf
  | stAdd index pre suf code => exact Laws.Encoding.stAdd index pre suf code
  | encRun bpp len => exact Laws.Encoding.encRun bpp len
  | decRun bpp len => exact Laws.Encoding.decRun bpp len
  | paConfig depth width height order => exact Laws.Encoding.paConfig depth width height order
  | paRowlen => exact Laws.Encoding.paRowlen
  | paOffset x y => exact Laws.Encoding.paOffset x y
  | paExtract byte bit => exact Laws.Encoding.paExtract byte bit
  | paInject byte bit ci => exact Laws.Encoding.paInject byte bit ci

theorem encode_match (i : Instr) : encode i &&& i.mnemonic.mask = i.mnemonic.matchWord := (encode_statement i).2.1

theorem fields_encode (i : Instr) : i.mnemonic.fields (encode i) = i := (encode_statement i).2.2

theorem decode_encode (i : Instr) : decode (encode i) = some i :=
  decode_eq_some_iff.mpr ⟨i.mnemonic, encode_match i, (fields_encode i).symm⟩

/-- Settles O13: the word matches its command's row and its fields hold the operands, row by row (`encode_statement`). -/
theorem decodeOfEncode : Obligations.DecodeOfEncode :=
  fun i => ⟨decode_encode i, (decodeTableWord_toNat (encode i)).trans (decode_encode i)⟩

/-! ## Encoding a decoded word -/

theorem Mnemonic.mnemonic_fields (m : Mnemonic) (w : Word64) : (m.fields w).mnemonic = m := by cases m <;> rfl

theorem Depth.ofBits_injective : ∀ d e : BitVec 2, Depth.ofBits d = Depth.ofBits e → d = e := by decide

theorem RowOrder.ofBits_injective : ∀ o p : BitVec 1, RowOrder.ofBits o = RowOrder.ofBits p → o = p := by decide

/-- The operand fields of each row (R81), each as its lowest bit and its width. -/
def Mnemonic.spans : Mnemonic → List (Nat × Nat)
  | .cwWrite => [(0, 16), (16, 4)]
  | .crOpen => [(0, 32)]
  | .crRead => [(16, 4)]
  | .stSearch => [(0, 12), (16, 8)]
  | .stAdd => [(24, 12), (0, 12), (16, 8), (36, 12)]
  | .encRun => [(32, 4), (0, 32)]
  | .decRun => [(32, 4), (0, 32)]
  | .paConfig => [(48, 2), (0, 24), (24, 24), (50, 1)]
  | .paOffset => [(0, 24), (24, 24)]
  | .paExtract => [(0, 8), (8, 4)]
  | .paInject => [(0, 8), (8, 4), (16, 8)]
  | .nop | .clrerr | .cwReset | .cwEnd | .stReset | .paRowlen => []

/-- Words with the same operands agree on every field of the row. -/
theorem Mnemonic.agree_of_fields_eq {m : Mnemonic} {w v : Word64} (h : m.fields w = m.fields v) :
    ∀ f ∈ m.spans, w.extractLsb' f.1 f.2 = v.extractLsb' f.1 f.2 := by
  cases m with
  | paConfig =>
    simp only [Mnemonic.fields, Instr.paConfig.injEq] at h
    obtain ⟨hdepth, hwidth, hheight, horder⟩ := h
    simp only [Mnemonic.spans, List.forall_mem_cons]
    exact ⟨Depth.ofBits_injective _ _ hdepth, hwidth, hheight, RowOrder.ofBits_injective _ _ horder, by simp⟩
  | nop | clrerr | cwReset | cwEnd | stReset | paRowlen => exact fun f hf => nomatch hf
  | _ => simpa [Mnemonic.fields, Mnemonic.spans] using h

/-- Every bit of a word is in the mask of the row or in one of its fields: no bit is ignored (R84, R85). -/
theorem Mnemonic.bit_covered (m : Mnemonic) :
    ∀ k < 64, m.mask.getLsbD k = true ∨ ∃ f ∈ m.spans, f.1 ≤ k ∧ k < f.1 + f.2 := by
  cases m <;> decide

/-- A word that matches a row is determined by its operands. -/
theorem Mnemonic.eq_of_fields_eq {m : Mnemonic} {w v : Word64} (hw : w &&& m.mask = m.matchWord)
    (hv : v &&& m.mask = m.matchWord) (h : m.fields w = m.fields v) : w = v := by
  refine BitVec.eq_of_getLsbD_eq fun k hk => ?_
  rcases m.bit_covered k hk with hmask | ⟨f, hf, hlo, hhi⟩
  · have hbit := congrArg (BitVec.getLsbD · k) (hw.trans hv.symm)
    simpa only [BitVec.getLsbD_and, hmask, Bool.and_true] using hbit
  · have hbit := congrArg (BitVec.getLsbD · (k - f.1)) (Mnemonic.agree_of_fields_eq h f hf)
    simpa only [BitVec.getLsbD_extractLsb', show k - f.1 < f.2 by omega, decide_true, Bool.true_and,
      Nat.add_sub_cancel' hlo] using hbit

/-- Settles O14: the word and `encode i` match the same row and hold the same operands, and these cover all 64 bits. -/
theorem encodeOfDecode : Obligations.EncodeOfDecode := by
  intro w i h
  obtain ⟨m, hmatch, hi⟩ := decode_eq_some_iff.mp h
  have hm : i.mnemonic = m := hi ▸ m.mnemonic_fields w
  have hmatch' := encode_match i
  have hfields := fields_encode i
  rw [hm] at hmatch' hfields
  exact Mnemonic.eq_of_fields_eq hmatch' hmatch (hfields.trans hi)

/-! ## Spelling -/

/-- The decoder reads back every word the encoder gives, so a spelling is the assembler's and the encoder's part. -/
theorem spelledAs_of_encode {i : Instr} {operands : List Nat} {w : Word64}
    (hasm : assemble i.mnemonic operands = some i) (hword : encode i = w) : Machine.spelledAs i operands w :=
  ⟨hasm, hword, hword ▸ decode_encode i⟩

/-- Settles O15: each example assembles to its command, and the encoder gives R90's word. -/
theorem exampleWords : Obligations.ExampleWords :=
  ⟨spelledAs_of_encode rfl rfl, spelledAs_of_encode rfl rfl, spelledAs_of_encode rfl rfl, spelledAs_of_encode rfl rfl,
    spelledAs_of_encode rfl rfl, spelledAs_of_encode rfl rfl⟩

end Sys2Proof
end


section
/-! SUPPORT. ENC_RUN and DEC_RUN as commands: what a run that succeeds and a run that raises answer (R160, R180, R246), from the
laws of the runs. -/

namespace Sys2Proof.Machine

/-- `zext_64` loses nothing of a number of at most 64 bits (R10). -/
theorem toNat_zext64 {n : Nat} (h : n < 2 ^ 64) : (zext64 n).toNat = n := by
  unfold zext64
  rw [BitVec.toNat_ofNat, Nat.mod_eq_of_lt h]

theorem State.pixels_length (s : State) (n : Nat) : (s.pixels n).length = n := by simp [State.pixels]

/-! ## The command ENC_RUN -/

section
variable {bpp : BitVec 4} {len : BitVec 32} {s t : State} {r : Raise}

theorem exec_encRun_ok (he : s.err = 0#8) (hb : legalBpp bpp) (hlen : len.toNat ≤ s.pixCap)
    (h : encRun bpp len.toNat s = .ok t) : exec (.encRun bpp len) s = .next (forgetEnc t) := by
  change execEncRun bpp len s = _
  simp only [execEncRun, unlessError_ready he, if_neg (not_not.mpr hb), if_neg (Nat.not_lt.mpr hlen), h]

theorem exec_encRun_error (he : s.err = 0#8) (hb : legalBpp bpp) (hlen : len.toNat ≤ s.pixCap)
    (h : encRun bpp len.toNat s = .error r) : exec (.encRun bpp len) s = .next (failEnc r s) := by
  change execEncRun bpp len s = _
  simp only [execEncRun, unlessError_ready he, if_neg (not_not.mpr hb), if_neg (Nat.not_lt.mpr hlen), h]

/-! ## The command DEC_RUN -/

theorem exec_decRun_ok (he : s.err = 0#8) (hb : legalBpp bpp) (hlen : len.toNat ≤ s.codeCap)
    (h : decRun bpp len.toNat s = .ok t) : exec (.decRun bpp len) s = .next (forgetDec t) := by
  change execDecRun bpp len s = _
  simp only [execDecRun, unlessError_ready he, if_neg (not_not.mpr hb), if_neg (Nat.not_lt.mpr hlen), h]

theorem exec_decRun_error (he : s.err = 0#8) (hb : legalBpp bpp) (hlen : len.toNat ≤ s.codeCap)
    (h : decRun bpp len.toNat s = .error r) : exec (.decRun bpp len) s = .next (failDec r s) := by
  change execDecRun bpp len s = _
  simp only [execDecRun, unlessError_ready he, if_neg (not_not.mpr hb), if_neg (Nat.not_lt.mpr hlen), h]

end

/-- The bytes a run wrote fit in CODEMEM. -/
theorem encRun_ptr_le {b : BitVec 4} {n : Nat} {s t : State} (h : encRun b n s = .ok t) : t.cw.ptr.toNat ≤ s.codeCap := by
  obtain ⟨ht, -, -, -, -, hcw⟩ := encRun_frame h
  have hcap : t.codeCap = s.codeCap := by rw [ht]; rfl
  exact hcap ▸ hcw.ptr

/-- Settles O34: `encRun_greedy` gives the codes a run writes or the error that ends it. On legal pixels that error is
CODE_OVERFLOW, and the stream of a run that succeeds has room (`encRun_ptr_le`), so the two endings exclude each other. -/
theorem encRunIsGreedyLzw : Obligations.EncRunIsGreedyLzw := by
  intro bpp len s he hm hb1 hb8 hlen hpix codes
  have hb : legalBpp bpp := ⟨hb1, hb8⟩
  rcases encRun_greedy hm hb hlen with
    ⟨t, hrun, -, hptr, hres0, hres1, hpacked⟩ | ⟨j, hj, -, hbad, -⟩ | ⟨hrun, hover⟩
  case inl =>
    have hbytes : t.res0.toNat = t.cw.ptr.toNat := by rw [hres0, toNat_zext64 (by omega)]
    have hfits : (codesBits codes + 7) / 8 ≤ s.codeCap := hptr ▸ encRun_ptr_le hrun
    refine ⟨fun _ => ⟨forgetEnc t, exec_encRun_ok he hb hlen hrun, ?err, ?res0, ?res1, ?packed⟩,
      fun hover => absurd hover (Nat.not_lt.mpr hfits)⟩
    case err =>
      obtain ⟨ht, -⟩ := encRun_frame hrun
      rw [forgetEnc_err, ht]
      exact he
    case res0 => exact hbytes.trans hptr
    case res1 =>
      have hcount := lzwEncode_length bpp.toNat (s.pixels len.toNat)
      rw [State.pixels_length] at hcount
      rw [forgetEnc_res1, hres1, toNat_zext64 (by omega)]
    case packed =>
      rw [forgetEnc_codemem, forgetEnc_res0, hbytes]
      exact hpacked
  case inr.inl => exact absurd (hpix j hj) (Nat.not_lt.mpr hbad)
  case inr.inr =>
    exact ⟨fun hroom => absurd hroom (Nat.not_le.mpr hover), fun _ => ⟨_, exec_encRun_error he hb hlen hrun, rfl, rfl⟩⟩

/-- The pixels of a buffer, read one by one. -/
theorem State.pixels_eq_of_getElem {s : State} {pixels : List Byte}
    (h : ∀ i, ∀ hi : i < pixels.length, s.readPix i = pixels[i]) : s.pixels pixels.length = pixels := by
  refine List.ext_getElem (s.pixels_length _) fun i _ hi => ?_
  simpa [State.pixels] using h i hi

/-- Settles O41: a run on a well-formed stream emits its pixels (`decRun_stream`), or raises PIX_OVERFLOW where they do not
fit (`decRun_full`); the results and CR are the run's last registers (`decRun_frame`). -/
theorem decRunDecodes : Obligations.DecRunDecodes := by
  intro bpp len s pixels q he hm hb1 hb8 hlen hstream
  have hb : legalBpp bpp := ⟨hb1, hb8⟩
  refine ⟨fun hroom => ?fits, fun hfull => ?full⟩
  case fits =>
    obtain ⟨t, hrun, hout, hbitpos, hpixels⟩ := decRun_stream hb hm hlen hstream hroom
    obtain ⟨ht, hres0, hres1, hcrlen, -⟩ := decRun_frame hlen hrun
    have hpixcap := pixCap_le s
    have hcodecap := codeCap_le s
    refine ⟨forgetDec t, exec_decRun_ok he hb hlen hrun, ?err, ?res0, ?res1, ?crlen, hbitpos,
      State.pixels_eq_of_getElem (s := forgetDec t) hpixels⟩
    case err =>
      rw [forgetDec_err, ht]
      exact he
    case res0 => rw [forgetDec_res0, hres0, hout, toNat_zext64 (by omega)]
    case res1 => rw [forgetDec_res1, hres1, toNat_zext64 (by omega), hbitpos]
    case crlen => rw [forgetDec_cr, hcrlen, BitVec.toNat_ofNat, Nat.mod_eq_of_lt (by omega)]
  case full => exact ⟨_, exec_decRun_error he hb hlen (decRun_full hb hm hlen hstream hfull), rfl, rfl⟩

end Sys2Proof.Machine
end


section
/-! SUPPORT. Words that spell no command raise ILLEGAL_COMMAND (R85, R86), and NOP alone does nothing from every state. -/

namespace Sys2Proof.Machine

/-! ## Illegal words -/

/-- A word that does not decode is an error of its own, ILLEGAL_COMMAND with the OPC (R85, R86, R112). -/
theorem issue_illegal {w : Word64} {s : State} (hd : decode w = none) (he : s.err = 0#8) :
    issue w s = .next (s.withError 0x01#8 (opcOf w).toNat) := by
  rw [issue_undecoded s hd]
  unfold issueIllegal
  rw [unlessError_ready (s := s.setBusy true) he]
  rfl

theorem rejectsReserved_all (m : Mnemonic) : rejectsReserved m := by
  intro w s hopc hmask he _
  rw [issue_illegal (decode_reserved_bit hopc hmask) he, hopc]

/-! ## Commands that do something -/

/-- The outcome is something else than no change. -/
def Changes (s : State) (o : Outcome) : Prop := o ≠ .next s

section
variable {s t : State}

/-- A field with another value is a change. -/
theorem Changes.field {α : Type} (f : State → α) (h : f t ≠ f s) : Changes s (.next t) :=
  fun heq => h (congrArg f (Host.Outcome.next.inj heq))

/-- A command that fails changes STATUS. -/
theorem Changes.error {k : ErrorKind} (he : s.err = 0#8) (h : t.err = k.code) : Changes s (.next t) :=
  .field State.err (by rw [he, h]; exact k.code_ne_zero)

theorem Changes.raise (r : Raise) (he : s.err = 0#8) : Changes s (.next (raise r s)) := .error he rfl

/-- An operand check that raises (R243) is a change where it fails. -/
theorem Changes.check {p : Prop} [Decidable p] {r : Raise} {o : Outcome} (he : s.err = 0#8) (ho : ¬ p → Changes s o) :
    Changes s (if p then .next (Machine.raise r s) else o) := by
  by_cases hp : p
  · rw [if_pos hp]
    exact .error he rfl
  · rw [if_neg hp]
    exact ho hp

theorem Changes.unlessError {o : Outcome} (he : s.err = 0#8) (ho : Changes s o) : Changes s (unlessError s o) := by
  rw [unlessError_ready he]
  exact ho

end

/-- The reset state, but RES0 holds a value that no command puts there: every result is shorter. -/
def fullRes0 : State := State.reset.setRes0 (BitVec.allOnes 64)

/-- A command that puts a result in RES0 changes `fullRes0`. -/
theorem Changes.result {t : State} {n : Nat} (h : t.res0 = zext64 n) (hn : n < 2 ^ 32) : Changes fullRes0 (.next t) := by
  refine .field State.res0 fun heq => ?_
  have hval := congrArg BitVec.toNat (h.symm.trans heq)
  rw [toNat_zext64 (by omega)] at hval
  have hfull : fullRes0.res0.toNat = 2 ^ 64 - 1 := rfl
  omega

theorem execCwWrite_changes (code : BitVec 16) (width : BitVec 4) : Changes fullRes0 (execCwWrite code width fullRes0) := by
  refine .unlessError rfl (.check rfl fun _ => ?_)
  cases cwWrite code.toNat width.toNat fullRes0 with
  | ok t => exact .result rfl (by omega)
  | error r => exact .error rfl rfl

theorem execCwEnd_changes : Changes fullRes0 (execCwEnd fullRes0) := by
  refine .unlessError rfl ?_
  cases cwEnd fullRes0 with
  | ok t => exact .result rfl (by omega)
  | error r => exact .error rfl rfl

/-- The reset state has no input to read (R44). -/
theorem execCrRead_changes (width : BitVec 4) : Changes State.reset (execCrRead width State.reset) := by
  refine .unlessError rfl (.check rfl fun hlegal => ?_)
  have hpos : 0 < 0 + width.toNat := by
    have := (not_not.mp hlegal).1
    omega
  have hempty : crRead width.toNat State.reset = none := if_pos hpos
  rw [hempty]
  exact .raise _ rfl

theorem execStSearch_changes (pre : BitVec 12) (suf : BitVec 8) : Changes fullRes0 (execStSearch pre suf fullRes0) := by
  refine .unlessError rfl ?_
  cases stProbe pre suf fullRes0 with
  | some found => exact .result rfl (by omega)
  | none => exact .raise _ rfl

/-- Writing a slot that holds the same key with another code changes it. -/
theorem execStAdd_changes (index pre : BitVec 12) (suf : BitVec 8) (code : BitVec 12) :
    ∃ s, Changes s (execStAdd index pre suf code s) := by
  have hm : (stWrite index pre suf (code + 1#12) State.reset).MemOk :=
    ⟨reset_memOk.pixmem, reset_memOk.codemem, Cells.write_wf reset_memOk.st index.isLt, reset_memOk.dt,
      reset_memOk.xstack⟩
  refine ⟨stWrite index pre suf (code + 1#12) State.reset, .unlessError rfl (.field (·.readSlot index) ?_)⟩
  simp [readSlot_write hm, readSlot_write reset_memOk]

theorem execEncRun_changes (bpp : BitVec 4) (len : BitVec 32) : Changes fullRes0 (execEncRun bpp len fullRes0) := by
  refine .unlessError rfl (.check rfl fun _ => .check rfl fun _ => ?_)
  cases hrun : encRun bpp len.toNat fullRes0 with
  | ok t =>
    obtain ⟨-, hres0, -⟩ := encRun_frame hrun
    exact .result hres0 (by omega)
  | error r => exact .error rfl rfl

theorem execDecRun_changes (bpp : BitVec 4) (len : BitVec 32) : Changes fullRes0 (execDecRun bpp len fullRes0) := by
  refine .unlessError rfl (.check rfl fun _ => .check rfl fun hlen => ?_)
  cases hrun : decRun bpp len.toNat fullRes0 with
  | ok t =>
    obtain ⟨-, hres0, -⟩ := decRun_frame (Nat.le_of_not_lt hlen) hrun
    exact .result hres0 (by omega)
  | error r => exact .error rfl rfl

/-- The reset state has an image without a column (R44). -/
theorem execPaOffset_changes (x y : BitVec 24) : Changes State.reset (execPaOffset x y State.reset) :=
  .unlessError rfl (.check rfl fun hx => absurd (Nat.zero_le x.toNat) hx)

/-- A state from which the extractor and the injector raise RANGE (R214, R215). -/
def trueColour : State := State.reset.setPa ⟨.bpp24, 0#24, 0#24, .bottomToTop⟩

/-- Every command but NOP does something from some state. -/
theorem exec_changes (i : Instr) (hi : i ≠ .nop) : ∃ s, Changes s (exec i s) := by
  cases i with
  | nop => exact absurd rfl hi
  | clrerr => exact ⟨State.reset.withError 0x01#8 0, .field State.err (by decide)⟩
  | cwReset => exact ⟨State.reset.setCw ⟨1#25, 0#4, 0⟩, .unlessError rfl (.field (·.cw.ptr) (by decide))⟩
  | cwWrite code width => exact ⟨fullRes0, execCwWrite_changes code width⟩
  | cwEnd => exact ⟨fullRes0, execCwEnd_changes⟩
  | crOpen len =>
    exact ⟨State.reset.setCr ⟨0#25, 1#28⟩, .unlessError rfl (.check rfl fun _ => .field (·.cr.bitpos)
      (show 0#28 ≠ 1#28 by decide))⟩
  | crRead width => exact ⟨State.reset, execCrRead_changes width⟩
  | stReset =>
    exact ⟨State.reset.setSt [(0, ⟨1#12, 0#12, 0#8⟩)], .unlessError rfl (.field State.st (List.cons_ne_nil _ _).symm)⟩
  | stSearch pre suf => exact ⟨fullRes0, execStSearch_changes pre suf⟩
  | stAdd index pre suf code => exact execStAdd_changes index pre suf code
  | encRun bpp len => exact ⟨fullRes0, execEncRun_changes bpp len⟩
  | decRun bpp len => exact ⟨fullRes0, execDecRun_changes bpp len⟩
  | paConfig depth width height order =>
    exact ⟨State.reset.setPa ⟨depth, width + 1#24, height, order⟩, .unlessError rfl (.field (·.pa.width) (by simp))⟩
  | paRowlen => exact ⟨fullRes0, .unlessError rfl (.result rfl (by decide))⟩
  | paOffset x y => exact ⟨State.reset, execPaOffset_changes x y⟩
  | paExtract byte bit => exact ⟨trueColour, .unlessError rfl (.raise _ rfl)⟩
  | paInject byte bit ci => exact ⟨trueColour, .unlessError rfl (.raise _ rfl)⟩

/-- Settles O10: neither kind of illegal word decodes (`issue_illegal`); the reserved OPC values are those of no row
(`Mnemonic.ofOpc_eq_none_iff`); and every command but NOP changes some state (`exec_changes`). -/
theorem illegalWordsRaise : Obligations.IllegalWordsRaise := by
  refine ⟨rejectsReserved_all, fun w s hopc he _ => issue_illegal (decode_reserved_opc hopc) he, fun opc => ?_,
    fun i hi => ?_⟩
  · rw [Mnemonic.ofOpc_eq_none_iff]
    simp only [Mnemonic.all, List.forall_mem_cons, List.not_mem_nil, false_implies, implies_true, and_true, Mnemonic.opc,
      BitVec.toNat_ofNat]
    have := opc.isLt
    omega
  · by_contra hne
    obtain ⟨s, hs⟩ := exec_changes i hne
    exact hs (hi s)

end Sys2Proof.Machine
end


section
/-! SUPPORT. The control commands and the order of `Issue(w)`: what an error leaves of a command word (R110, R111, R112,
R245). -/

namespace Sys2Proof.Machine

/-- A word that decodes to a command has the OPC of its row (R83, R84). -/
theorem opcOf_of_decode {w : Word64} {i : Instr} (h : decode w = some i) : opcOf w = i.mnemonic.opc := by
  obtain ⟨m, hmatch, rfl⟩ := decode_eq_some_iff.mp h
  rw [m.mnemonic_fields, opcOf_of_match hmatch]

/-- BUSY rises and falls within the issue, so a command that changes nothing leaves the state as it was. -/
theorem endCommand_setBusy {s : State} (hb : s.busy = false) : endCommand (.next (s.setBusy true)) = .next s := by
  change Host.Outcome.next { s with busy := false } = .next s
  rw [← hb]

/-! ## The sticky error -/

/-- The meaning of every command but CLRERR stands under the guard of R245. -/
theorem exec_of_error {i : Instr} {s : State} (hi : i ≠ .clrerr) (he : s.err ≠ 0#8) : exec i s = .next s := by
  cases i with
  | clrerr => exact absurd rfl hi
  | _ => exact unlessError_error he

/-- While ERR is not 0 an issued word has an effect only where it is a well-formed CLRERR (R111, R245). -/
theorem issue_of_error {w : Word64} {s : State} (hw : decode w ≠ some .clrerr) (he : s.err ≠ 0#8) (hb : s.busy = false) :
    issue w s = .next s := by
  have he' : (s.setBusy true).err ≠ 0#8 := he
  cases hd : decode w with
  | none => rw [issue_undecoded s hd, issueIllegal, unlessError_error he', endCommand_setBusy hb]
  | some i =>
    have hi : i ≠ .clrerr := fun h => hw (h ▸ hd)
    rw [issue_decoded s hd, exec_of_error hi he', endCommand_setBusy hb]

/-! ## The order of R112 -/

/-- Settles O9: under an error only a word with the OPC of CLRERR can decode to CLRERR (`opcOf_of_decode`), and any other
word is ignored (`issue_of_error`); with ERR 0 a word that decodes to nothing raises (`issue_illegal`). -/
theorem issueDispatches : Obligations.IssueDispatches := by
  intro w s hb
  refine ⟨fun he hopc => ?_, issue_illegal, fun hd he => ?_, fun i hd => issue_decoded s hd⟩
  · exact issue_of_error (fun hd => hopc (opcOf_of_decode hd)) he hb
  · exact issue_of_error (by simp [hd]) he hb

/-! ## NOP and CLRERR -/

/-- Both branches of the guard of R245 leave the state as it is. -/
theorem exec_nop (s : State) : exec .nop s = .next s := ite_self _

theorem exec_clrerr (s : State) : exec .clrerr s = .next { s with err := 0#8, errInfo := 0#32 } := rfl

/-- Settles O17: every other command is ignored under an error (`exec_of_error`), and so is a word that is not the one word
of CLRERR (`encodeOfDecode`); with ERR 0, `ErrOk` says that ERRINFO is 0 too, so clearing both changes nothing. -/
theorem clrerrClearsTheError : Obligations.ClrerrClearsTheError := by
  refine ⟨spelledAs_of_encode rfl rfl, rejectsReserved_all _, exec_clrerr, fun i s => exec_of_error, ?_, ?_⟩
  · intro w s _ hw he hb
    exact issue_of_error (fun hd => hw (encodeOfDecode w .clrerr hd).symm) he hb
  · intro s hok he
    rw [exec_clrerr, ← he, ← hok.info he]

/-- Settles O16: NOP is the all-zero word (`decode_encode`), and its meaning changes nothing (`exec_nop`). -/
theorem nopChangesNothing : Obligations.NopChangesNothing := by
  refine ⟨spelledAs_of_encode rfl rfl, rejectsReserved_all _, exec_nop, fun s hb => ?_⟩
  calc issue (encode .nop) s = endCommand (exec .nop (s.setBusy true)) := issue_decoded s (decode_encode .nop)
    _ = .next s := by rw [exec_nop, endCommand_setBusy hb]

end Sys2Proof.Machine
end

section
/-! SUPPORT. The code reader as commands (R121, R122), and the read-back law (R123): the codes that a sequence of CW_WRITE lays
in CODEMEM are those that the same sequence of CR_READ takes from there. -/

namespace Sys2Proof.Machine

/-! ## Sequences of commands -/

theorem execAll_cons_iff {i : Instr} {is : List Instr} {s t : State} :
    execAll (i :: is) s = .next t ↔ ∃ u, exec i s = .next u ∧ execAll is u = .next t := by
  rw [execAll]
  cases exec i s with
  | next u => simp
  | fault r => simp
  | refused r => simp

theorem execAll_append_iff {is js : List Instr} {s t : State} :
    execAll (is ++ js) s = .next t ↔ ∃ u, execAll is s = .next u ∧ execAll js u = .next t := by
  induction is generalizing s with
  | nil => simp [execAll]
  | cons i is ih =>
    simp only [List.cons_append, execAll_cons_iff, ih]
    exact ⟨fun ⟨u, hi, v, his, hjs⟩ => ⟨v, ⟨u, hi, his⟩, hjs⟩, fun ⟨v, ⟨u, hi, his⟩, hjs⟩ => ⟨u, hi, v, his, hjs⟩⟩

theorem execAll_singleton (i : Instr) (s : State) : execAll [i] s = exec i s := by
  rw [execAll]
  cases exec i s <;> rfl

/-- An error stays over every sequence of commands without a CLRERR (R245). -/
theorem execAll_of_error {is : List Instr} {s : State} (his : Instr.clrerr ∉ is) (he : s.err ≠ 0#8) :
    execAll is s = .next s := by
  induction is with
  | nil => rfl
  | cons i is ih =>
    rw [List.mem_cons, not_or] at his
    exact execAll_cons_iff.mpr ⟨s, exec_of_error (Ne.symm his.1) he, ih his.2⟩

/-- A sequence without a CLRERR that ends with ERR 0 starts with ERR 0. -/
theorem err_zero_of_execAll {is : List Instr} {s t : State} (his : Instr.clrerr ∉ is) (h : execAll is s = .next t)
    (ht : t.err = 0#8) : s.err = 0#8 := by
  by_contra he
  rw [execAll_of_error his he] at h
  exact he (Host.Outcome.next.inj h ▸ ht)

/-! ## The command CR_OPEN (R121) -/

section
variable {len : BitVec 32} {s : State}

theorem exec_crOpen_range (he : s.err = 0#8) (h : s.codeCap < len.toNat) :
    exec (.crOpen len) s = .next (s.withError 0x04#8 6) := by
  change execCrOpen len s = _
  rw [execCrOpen, unlessError_ready he, if_pos h]
  rfl

theorem exec_crOpen_ok (he : s.err = 0#8) (h : len.toNat ≤ s.codeCap) :
    exec (.crOpen len) s = .next (crOpen len.toNat s) := by
  change execCrOpen len s = _
  rw [execCrOpen, unlessError_ready he, if_neg (Nat.not_lt.mpr h)]

end

/-- CR_LEN holds every length up to CODE_CAP (R9, R30). -/
theorem crOpen_len_toNat {n : Nat} {s : State} (h : n ≤ s.codeCap) : (crOpen n s).cr.len.toNat = n := by
  have := codeCap_le s
  rw [crOpen_cr, BitVec.toNat_ofNat, Nat.mod_eq_of_lt (by omega)]

/-! ## The command CR_READ (R122) -/

/-- The state after a read of w bits that CODEMEM holds (R120, R122). -/
def crAdvance (w : Nat) (s : State) : State :=
  { s with
    cr := { s.cr with bitpos := BitVec.ofNat 28 (s.cr.bitpos.toNat + w) }
    res0 := zext64 (streamBits s.codemem s.cr.bitpos.toNat w)
    res1 := zext64 (s.cr.bitpos.toNat + w) }

section
variable {w : Nat} {width : BitVec 4} {s : State}

/-- CR_BITPOS does not wrap: 8·CR_LEN is below 2^28 in every state. -/
theorem crAdvance_bitpos (h : s.cr.bitpos.toNat + w ≤ 8 * s.cr.len.toNat) :
    (crAdvance w s).cr.bitpos.toNat = s.cr.bitpos.toNat + w := by
  have := s.cr.len.isLt
  change (BitVec.ofNat 28 (s.cr.bitpos.toNat + w)).toNat = _
  rw [BitVec.toNat_ofNat, Nat.mod_eq_of_lt (by omega)]

theorem crAdvance_res0 (hw : w ≤ 12) : (crAdvance w s).res0.toNat = streamBits s.codemem s.cr.bitpos.toNat w := by
  have hlt := streamBits_lt s.codemem s.cr.bitpos.toNat w
  have hpow : 2 ^ w ≤ 2 ^ 12 := Nat.pow_le_pow_right (by decide) hw
  exact toNat_zext64 (by omega)

theorem crAdvance_res1 (h : s.cr.bitpos.toNat + w ≤ 8 * s.cr.len.toNat) :
    (crAdvance w s).res1.toNat = s.cr.bitpos.toNat + w := by
  have := s.cr.len.isLt
  exact toNat_zext64 (by omega)

theorem exec_crRead_badWidth (he : s.err = 0#8) (hw : ¬ legalWidth width) :
    exec (.crRead width) s = .next (s.withError 0x02#8 width.toNat) := by
  change execCrRead width s = _
  rw [execCrRead, unlessError_ready he, if_pos hw]
  rfl

theorem exec_crRead_exhausted (he : s.err = 0#8) (hw : legalWidth width)
    (h : 8 * s.cr.len.toNat < s.cr.bitpos.toNat + width.toNat) :
    exec (.crRead width) s = .next (s.withError 0x05#8 s.cr.bitpos.toNat) := by
  change execCrRead width s = _
  simp only [execCrRead, unlessError_ready he, if_neg (not_not.mpr hw), crRead_none.mpr h]
  rfl

/-- A code that CODEMEM holds whole; past CODE_CAP a read answers free bits (log entry 7). -/
theorem exec_crRead_held (he : s.err = 0#8) (hw : legalWidth width)
    (hlen : s.cr.bitpos.toNat + width.toNat ≤ 8 * s.cr.len.toNat)
    (hcap : s.cr.bitpos.toNat + width.toNat ≤ 8 * s.codeCap) :
    exec (.crRead width) s = .next (crAdvance width.toNat s) := by
  change execCrRead width s = _
  cases hread : crRead width.toNat s with
  | none => exact absurd (crRead_none.mp hread) (Nat.not_lt.mpr hlen)
  | some rt =>
    obtain ⟨r, t⟩ := rt
    have hcode := crRead_code hread hw.2
    have hpos := crAdvance_bitpos hlen
    obtain ⟨-, -, rfl, -⟩ := crRead_some hread
    simp only [execCrRead, unlessError_ready he, if_neg (not_not.mpr hw), hread, crResult, if_pos hcap, hcode]
    change Host.Outcome.next { crAdvance width.toNat s with res1 := zext64 (crAdvance width.toNat s).cr.bitpos.toNat } = _
    rw [hpos]
    rfl

end

/-- The stream of a memory, bit by bit as R12 gives it. -/
theorem streamBit_readCode (s : State) (k : Nat) :
    streamBit s.codemem k = (s.readCode (k / 8)).toNat / 2 ^ (k % 8) % 2 := by
  rw [streamBit, Nat.shiftRight_eq_div_pow]
  rfl

/-- Settles O23: CR_OPEN by its length check (`exec_crOpen_ok`); with CR_LEN 0 even one bit is more than is left
(`exec_crRead_exhausted`). -/
theorem crOpenAttachesTheReader : Obligations.CrOpenAttachesTheReader := by
  refine ⟨fun len => spelledAs_of_encode ?asm rfl, rejectsReserved_all _, fun len s => exec_crOpen_range,
    fun len s he hlen => ⟨_, exec_crOpen_ok he hlen, rfl, crOpen_len_toNat hlen, rfl⟩, fun width s he hw hw' => ?empty⟩
  case asm => simp [assemble, Instr.mnemonic, len.isLt]
  case empty =>
    have hleft : 8 * (crOpen 0 s).cr.len.toNat < (crOpen 0 s).cr.bitpos.toNat + width.toNat := by
      change 0 < 0 + width.toNat
      omega
    refine execAll_cons_iff.mpr ⟨crOpen 0 s, exec_crOpen_ok he (Nat.zero_le _), ?_⟩
    rw [execAll_singleton, exec_crRead_exhausted (s := crOpen 0 s) he ⟨hw, hw'⟩ hleft]
    rfl

/-- Settles O24: the width check, then the two answers of the read primitive (`exec_crRead_exhausted`,
`exec_crRead_held`). -/
theorem crReadReadsTheNextCode : Obligations.CrReadReadsTheNextCode := by
  refine ⟨fun width => spelledAs_of_encode ?asm rfl, rejectsReserved_all _, fun width s => exec_crRead_badWidth,
    fun width s he hw hw' => exec_crRead_exhausted he ⟨hw, hw'⟩, fun width s he hw hw' hlen hcap => ?held⟩
  case asm => simp [assemble, Instr.mnemonic, width.isLt]
  case held =>
    refine ⟨_, exec_crRead_held he ⟨hw, hw'⟩ hlen hcap, rfl, rfl, crAdvance_bitpos hlen, crAdvance_res1 hlen, ?_, ?_⟩
    · rw [crAdvance_res0 hw']
      exact streamBits_lt _ _ _
    · rw [crAdvance_res0 hw', ← codeAt_streamBit]
      exact codeAt_congr fun i _ => streamBit_readCode s _

/-! ## What a sequence of CW_WRITE leaves in CODEMEM (R133 to R135) -/

/-- The codes and widths of a sequence of commands, as numbers. -/
def codePairs (codes : List (BitVec 16 × BitVec 4)) : List (Nat × Nat) := codes.map fun c => (c.1.toNat, c.2.toNat)

@[simp] theorem codePairs_nil : codePairs [] = [] := rfl

@[simp] theorem codePairs_cons (c : BitVec 16 × BitVec 4) (cs : List (BitVec 16 × BitVec 4)) :
    codePairs (c :: cs) = (c.1.toNat, c.2.toNat) :: codePairs cs := rfl

@[simp] theorem codePairs_append (cs ds : List (BitVec 16 × BitVec 4)) :
    codePairs (cs ++ ds) = codePairs cs ++ codePairs ds := List.map_append

theorem cwReset_written {s : State} (hm : s.MemOk) : Written (cwReset s) [] :=
  ⟨⟨hm.pixmem, hm.codemem, hm.st, hm.dt, hm.xstack⟩, cwOk_of_zero rfl, rfl, fun _ _ _ _ h => by simp at h⟩

/-- A write that succeeds adds its code at the end of the stream. -/
theorem cwWrite_written {c w : Nat} {s t : State} {done : List (Nat × Nat)} (h : Written s done) (hw : w ≤ 12)
    (hrun : cwWrite c w s = .ok t) : Written t (done ++ [(c, w)]) := by
  have hroom : s.cw.ptr.toNat + (s.cw.cnt.toNat + w) / 8 ≤ s.codeCap := by
    by_contra hover
    rw [cwWrite_error h.cw.ptr (Nat.lt_of_not_le hover)] at hrun
    cases hrun
  obtain ⟨u, hu, -, hmem, hcw, hptr, hcnt, hold, hnew, -⟩ := cwWrite_ok (code := c) h.mem h.cw hw hroom
  obtain rfl := Except.ok.inj (hrun.symm.trans hu)
  have hbits := h.bits
  refine ⟨hmem, hcw, ?bits, fun before after c' w' hd k hk => ?packed⟩
  case bits =>
    rw [codesBits_append, codesBits_cons, ← hbits]
    change 8 * t.cw.ptr.toNat + t.cw.cnt.toNat = 8 * s.cw.ptr.toNat + s.cw.cnt.toNat + (w + 0)
    omega
  case packed =>
    rcases append_singleton_split hd with ⟨rfl, hc, -⟩ | ⟨rest, rfl, -⟩
    · obtain ⟨rfl, rfl⟩ := Prod.mk.inj hc
      rw [← hbits, hnew k hk, Nat.shiftRight_eq_div_pow]
    · rw [codesBits_append, codesBits_cons] at hbits
      rw [hold _ (by omega)]
      exact h.packed before rest c' w' rfl k hk

/-- A CW_WRITE that ends with ERR 0 had a legal width, and its write succeeded. -/
theorem exec_cwWrite_inv {code : BitVec 16} {width : BitVec 4} {s t : State} (he : s.err = 0#8) (ht : t.err = 0#8)
    (h : exec (.cwWrite code width) s = .next t) :
    legalWidth width ∧ ∃ u, cwWrite code.toNat width.toNat s = .ok u ∧ t = u.setRes0 (zext64 u.cw.ptr.toNat) := by
  change execCwWrite code width s = _ at h
  rw [execCwWrite, unlessError_ready he] at h
  by_cases hw : legalWidth width
  · rw [if_neg (not_not.mpr hw)] at h
    cases hrun : cwWrite code.toNat width.toNat s with
    | ok u =>
      rw [hrun] at h
      exact ⟨hw, u, rfl, (Host.Outcome.next.inj h).symm⟩
    | error r =>
      rw [hrun] at h
      obtain rfl := Host.Outcome.next.inj h
      exact absurd ht r.kind.code_ne_zero
  · rw [if_pos hw] at h
    obtain rfl := Host.Outcome.next.inj h
    exact absurd ht ErrorKind.badWidth.code_ne_zero

/-- A CW_END that ends with ERR 0 flushed. -/
theorem exec_cwEnd_inv {s t : State} (he : s.err = 0#8) (ht : t.err = 0#8) (h : exec .cwEnd s = .next t) :
    ∃ u, cwEnd s = .ok u ∧ t = u.setRes0 (zext64 u.cw.ptr.toNat) := by
  change execCwEnd s = _ at h
  rw [execCwEnd, unlessError_ready he] at h
  cases hrun : cwEnd s with
  | ok u =>
    rw [hrun] at h
    exact ⟨u, rfl, (Host.Outcome.next.inj h).symm⟩
  | error r =>
    rw [hrun] at h
    obtain rfl := Host.Outcome.next.inj h
    exact absurd ht r.kind.code_ne_zero

theorem exec_cwWrite_written {code : BitVec 16} {width : BitVec 4} {s t : State} {done : List (Nat × Nat)}
    (hs : Written s done) (he : s.err = 0#8) (ht : t.err = 0#8) (h : exec (.cwWrite code width) s = .next t) :
    legalWidth width ∧ Written t (done ++ [(code.toNat, width.toNat)]) := by
  obtain ⟨hw, u, hu, rfl⟩ := exec_cwWrite_inv he ht h
  have hwritten := cwWrite_written hs hw.2 hu
  have hm := hwritten.mem
  exact ⟨hw, hwritten.congr ⟨hm.pixmem, hm.codemem, hm.st, hm.dt, hm.xstack⟩ rfl rfl rfl⟩

/-- Every CW_WRITE of a sequence that ends with ERR 0 adds its code. -/
theorem execAll_cwWrite_written {codes : List (BitVec 16 × BitVec 4)} {s t : State} {done : List (Nat × Nat)}
    (hs : Written s done) (ht : t.err = 0#8) (h : execAll (codes.map fun c => .cwWrite c.1 c.2) s = .next t) :
    (∀ c ∈ codes, legalWidth c.2) ∧ Written t (done ++ codePairs codes) := by
  induction codes generalizing s done with
  | nil =>
    obtain rfl := Host.Outcome.next.inj h
    simpa using hs
  | cons c cs ih =>
    have he : s.err = 0#8 := err_zero_of_execAll (by simp) h ht
    obtain ⟨u, hu, hrest⟩ := execAll_cons_iff.mp h
    have hu0 : u.err = 0#8 := err_zero_of_execAll (by simp) hrest ht
    obtain ⟨hw, hwritten⟩ := exec_cwWrite_written hs he hu0 hu
    obtain ⟨hws, hall⟩ := ih hwritten hrest
    exact ⟨List.forall_mem_cons.mpr ⟨hw, hws⟩, by simpa using hall⟩

/-- A whole stream, from CW_RESET to CW_END: its codes lie packed in the completed bytes, and these lie in CODEMEM. -/
theorem writer_packs {codes : List (BitVec 16 × BitVec 4)} {s t : State} (hm : s.MemOk) (ht : t.err = 0#8)
    (h : execAll (.cwReset :: (codes.map fun c => .cwWrite c.1 c.2) ++ [.cwEnd]) s = .next t) :
    (∀ c ∈ codes, legalWidth c.2) ∧ t.cw.ptr.toNat ≤ t.codeCap ∧
      t.cw.ptr.toNat = (codesBits (codePairs codes) + 7) / 8 ∧
      packedIn (streamBit t.codemem) (8 * t.cw.ptr.toNat) (codePairs codes) := by
  have he : s.err = 0#8 := err_zero_of_execAll (by simp) h ht
  obtain ⟨v, hv, hend⟩ := execAll_append_iff.mp h
  have hv0 : v.err = 0#8 := err_zero_of_execAll (by simp) hend ht
  obtain ⟨u, hu, hwrites⟩ := execAll_cons_iff.mp hv
  obtain rfl : cwReset s = u := Host.Outcome.next.inj ((unlessError_ready he).symm.trans hu)
  obtain ⟨hws, hwritten⟩ := execAll_cwWrite_written (cwReset_written hm) hv0 hwrites
  rw [execAll_singleton] at hend
  obtain ⟨x, hx, rfl⟩ := exec_cwEnd_inv hv0 ht hend
  refine ⟨hws, (cwEnd_frame hx).bound hwritten.cw.ptr, ?_⟩
  rcases cwEnd_cases hwritten with ⟨y, hy, hptr, -, hpacked⟩ | ⟨herr, -⟩
  · obtain rfl := Except.ok.inj (hx.symm.trans hy)
    exact ⟨hptr, hpacked⟩
  · rw [hx] at herr
    cases herr

/-! ## Reading a stream back (R123) -/

/-- A sequence of CR_READ for which enough bits are left moves CR_BITPOS over its codes, and leaves the stream. -/
theorem execAll_crRead {codes : List (BitVec 16 × BitVec 4)} {s : State} (he : s.err = 0#8)
    (hws : ∀ c ∈ codes, legalWidth c.2) (hcap : s.cr.len.toNat ≤ s.codeCap)
    (hlen : s.cr.bitpos.toNat + codesBits (codePairs codes) ≤ 8 * s.cr.len.toNat) :
    ∃ t, execAll (codes.map fun c => .crRead c.2) s = .next t ∧ t = { s with cr := t.cr, res0 := t.res0, res1 := t.res1 } ∧
      t.cr.len = s.cr.len ∧ t.cr.bitpos.toNat = s.cr.bitpos.toNat + codesBits (codePairs codes) := by
  induction codes generalizing s with
  | nil => exact ⟨s, rfl, rfl, rfl, rfl⟩
  | cons c cs ih =>
    obtain ⟨hw, hws⟩ := List.forall_mem_cons.mp hws
    rw [codePairs_cons, codesBits_cons] at hlen ⊢
    have hpos : (crAdvance c.2.toNat s).cr.bitpos.toNat = s.cr.bitpos.toNat + c.2.toNat := crAdvance_bitpos (by omega)
    have hread : exec (.crRead c.2) s = .next (crAdvance c.2.toNat s) := exec_crRead_held he hw (by omega) (by omega)
    obtain ⟨t, hrest, ht, htlen, htpos⟩ := ih (s := crAdvance c.2.toNat s) he hws hcap (by
      rw [hpos]
      change _ ≤ 8 * s.cr.len.toNat
      omega)
    exact ⟨t, execAll_cons_iff.mpr ⟨_, hread, hrest⟩, ht, htlen, by omega⟩

/-- A packed code is read, reduced to its width, at the end of the codes before it. -/
theorem streamBits_packed {m : Memory} {bits c w : Nat} {before after : List (Nat × Nat)}
    (h : packedIn (streamBit m) bits (before ++ (c, w) :: after)) :
    streamBits m (codesBits before) w = c % 2 ^ w :=
  streamBits_eq_mod fun i hi => by rw [h.1 before after c w rfl i hi, Nat.shiftRight_eq_div_pow]

/-- A reader attached to n bytes, in which a sequence of codes lies packed, returns each code after the ones before it. -/
theorem execAll_crOpen_crRead {before after : List (BitVec 16 × BitVec 4)} {code : BitVec 16} {width : BitVec 4} {n : Nat}
    {s : State} (he : s.err = 0#8) (hws : ∀ c ∈ before ++ (code, width) :: after, legalWidth c.2) (hn : n ≤ s.codeCap)
    (hbits : codesBits (codePairs (before ++ (code, width) :: after)) ≤ 8 * n)
    (hpacked : packedIn (streamBit s.codemem) (8 * n) (codePairs (before ++ (code, width) :: after))) :
    ∃ u, execAll (.crOpen (BitVec.ofNat 32 n) :: (before.map fun c => .crRead c.2) ++ [.crRead width]) s = .next u ∧
      u.err = 0#8 ∧ u.res0.toNat = code.toNat % 2 ^ width.toNat := by
  obtain ⟨hbefore, hlast⟩ := List.forall_mem_append.mp hws
  have hw : legalWidth width := hlast (code, width) List.mem_cons_self
  rw [codePairs_append, codePairs_cons] at hpacked
  simp only [codePairs_append, codePairs_cons, codesBits_append, codesBits_cons] at hbits
  have hn32 : (BitVec.ofNat 32 n).toNat = n := by
    have := codeCap_le s
    rw [BitVec.toNat_ofNat, Nat.mod_eq_of_lt (by omega)]
  have hopen : exec (.crOpen (BitVec.ofNat 32 n)) s = .next (crOpen n s) := by
    rw [exec_crOpen_ok he (hn32.symm ▸ hn), hn32]
  have hlen : (crOpen n s).cr.len.toNat = n := crOpen_len_toNat hn
  have hstart : (crOpen n s).cr.bitpos.toNat = 0 := rfl
  obtain ⟨v, hreads, hv, hvlen, hvpos⟩ := execAll_crRead (s := crOpen n s) he hbefore (hlen.symm ▸ hn) (by omega)
  have hv0 : v.err = 0#8 := by rw [hv]; exact he
  have hvcap : v.codeCap = s.codeCap := by rw [hv]; rfl
  have hvmem : v.codemem = s.codemem := by rw [hv]; rfl
  rw [hstart, Nat.zero_add] at hvpos
  rw [← hvlen] at hlen
  refine ⟨crAdvance width.toNat v, execAll_append_iff.mpr ⟨v, execAll_cons_iff.mpr ⟨_, hopen, hreads⟩, ?_⟩, hv0, ?_⟩
  · rw [execAll_singleton, exec_crRead_held hv0 hw (by omega) (by omega)]
  · rw [crAdvance_res0 hw.2, hvmem, hvpos]
    exact streamBits_packed hpacked

/-- Settles O26: the codes lie packed in the CW_PTR bytes of CODEMEM (`writer_packs`, by induction over the writes), and a
reader attached to them returns each (`execAll_crOpen_crRead`, by induction over the reads). -/
theorem readBackLaw : Obligations.ReadBackLaw := by
  rintro s t codes hm - ht hrun before after code width rfl
  obtain ⟨hws, hroom, hptr, hpacked⟩ := writer_packs hm ht hrun
  exact execAll_crOpen_crRead ht hws hroom (by omega) hpacked

end Sys2Proof.Machine
end

section
/-! SUPPORT. The code writer as commands (R132 to R135): what CW_RESET, CW_WRITE and CW_END answer from every state with ERR 0,
a sound writer or not (R246 may leave an unsound one). -/

namespace Sys2Proof.Machine

/-! ## The command CW_RESET (R132) -/

theorem exec_cwReset {s : State} (he : s.err = 0#8) : exec .cwReset s = .next (cwReset s) := unlessError_ready he

/-- Settles O18: the writer alone is set (`exec_cwReset`). -/
theorem cwResetStartsAStream : Obligations.CwResetStartsAStream :=
  ⟨spelledAs_of_encode rfl rfl, rejectsReserved_all _, fun _ => exec_cwReset⟩

/-! ## The primitive `CW_Write`, from every writer (R133) -/

/-- Byte j that the loop of `CW_Write` completes. -/
theorem cwDrain_byte {k j : Nat} {s t : State} (hm : s.MemOk) (hroom : s.cw.ptr.toNat + k ≤ s.codeCap)
    (h : cwDrain k s = .ok t) (hj : j < k) : t.readCode (s.cw.ptr.toNat + j) = (s.cw.acc >>> (8 * j)).setWidth 8 := by
  induction k generalizing s j with
  | zero => omega
  | succ k ih =>
    have hlt : s.cw.ptr.toNat < s.codeCap := by omega
    have hp : (cwTurn s).cw.ptr.toNat = s.cw.ptr.toNat + 1 := ptr_succ (codeCap_le s) hlt
    have hcap : (cwTurn s).codeCap = s.codeCap := rfl
    rw [cwDrain_succ_ok hlt] at h
    cases j with
    | zero =>
      rw [(cwDrain_frame h).outside _ (by omega)]
      exact Memory.read_write_same hm.codemem
    | succ j =>
      have hnext := ih (cwTurn_memOk hm hlt) (by omega) h (Nat.lt_of_succ_lt_succ hj)
      rw [hp, Nat.add_right_comm] at hnext
      rw [← Nat.add_assoc, hnext]
      change ((s.cw.acc >>> 8) >>> (8 * j)).setWidth 8 = _
      rw [← BitVec.shiftRight_add, Nat.mul_succ, Nat.add_comm]

theorem cwAppend_memOk {code w : Nat} {s : State} (hm : s.MemOk) : (cwAppend code w s).MemOk :=
  ⟨hm.pixmem, hm.codemem, hm.st, hm.dt, hm.xstack⟩

/-- The accumulator holds the code's bits above any number of pending ones: 15 + 12 is below 28 (R136). -/
theorem cwAppend_acc_or {code w : Nat} {s : State} (hw : w ≤ 12) :
    (cwAppend code w s).cw.acc.toNat = s.cw.acc.toNat ||| code % 2 ^ w * 2 ^ s.cw.cnt.toNat := by
  have hc : code % 2 ^ w < 2 ^ w := Nat.mod_lt _ (Nat.two_pow_pos w)
  have hpow : 2 ^ w ≤ 2 ^ 12 := Nat.pow_le_pow_right (by decide) hw
  have hshift : 2 ^ s.cw.cnt.toNat ≤ 2 ^ 15 := Nat.pow_le_pow_right (by decide) (Nat.le_of_lt_succ s.cw.cnt.isLt)
  have hlt : code % 2 ^ w * 2 ^ s.cw.cnt.toNat < 2 ^ 28 :=
    Nat.lt_of_le_of_lt (Nat.mul_le_mul (Nat.le_trans (Nat.le_of_lt hc) hpow) hshift) (by decide)
  change (s.cw.acc ||| BitVec.ofNat 28 (code % 2 ^ w) <<< s.cw.cnt.toNat).toNat = _
  rw [BitVec.toNat_or, BitVec.toNat_shiftLeft, BitVec.toNat_ofNat, Nat.mod_eq_of_lt (by omega : code % 2 ^ w < 2 ^ 28),
    Nat.shiftLeft_eq, Nat.mod_eq_of_lt hlt]

/-- Only the low w bits of the code count. -/
theorem cwWrite_congr {code code' w : Nat} (h : code % 2 ^ w = code' % 2 ^ w) (s : State) :
    cwWrite code w s = cwWrite code' w s := by
  simp only [cwWrite_eq, cwAppend, h]

section
variable {code w : Nat} {s : State}

theorem cwWrite_succeeds (hm : s.MemOk) (hroom : s.cw.ptr.toNat + (s.cw.cnt.toNat + w) / 8 ≤ s.codeCap) :
    ∃ t, cwWrite code w s = .ok t := by
  obtain ⟨u, hu, -⟩ := cwDrain_ok _ (cwAppend_memOk hm) hroom
  exact ⟨_, by rw [cwWrite_eq, hu]; rfl⟩

variable {t : State}

/-- A write that succeeds drains the whole bytes, and counts the bits left. -/
theorem cwWrite_inv (h : cwWrite code w s = .ok t) :
    ∃ u, cwDrain ((s.cw.cnt.toNat + w) / 8) (cwAppend code w s) = .ok u ∧
      t = u.setCw { u.cw with cnt := BitVec.ofNat 4 ((s.cw.cnt.toNat + w) % 8) } := by
  obtain ⟨u, hu, h⟩ := bind_ok_iff.mp h
  exact ⟨u, hu, (Except.ok.inj h).symm⟩

theorem cwWrite_cnt (h : cwWrite code w s = .ok t) : t.cw.cnt.toNat = (s.cw.cnt.toNat + w) % 8 := by
  obtain ⟨u, -, rfl⟩ := cwWrite_inv h
  change (BitVec.ofNat 4 _).toNat = _
  rw [BitVec.toNat_ofNat]
  omega

theorem cwWrite_acc (hw : w ≤ 12) (h : cwWrite code w s = .ok t) :
    t.cw.acc.toNat = (s.cw.acc.toNat ||| code % 2 ^ w * 2 ^ s.cw.cnt.toNat) / 2 ^ (8 * ((s.cw.cnt.toNat + w) / 8)) := by
  obtain ⟨u, hu, rfl⟩ := cwWrite_inv h
  change u.cw.acc.toNat = _
  rw [cwDrain_acc hu, BitVec.toNat_ushiftRight, cwAppend_acc_or hw, Nat.shiftRight_eq_div_pow]

variable (hm : s.MemOk) (hroom : s.cw.ptr.toNat + (s.cw.cnt.toNat + w) / 8 ≤ s.codeCap)
include hm hroom

theorem cwWrite_ptr (h : cwWrite code w s = .ok t) : t.cw.ptr.toNat = s.cw.ptr.toNat + (s.cw.cnt.toNat + w) / 8 := by
  obtain ⟨u, hu, rfl⟩ := cwWrite_inv h
  obtain ⟨v, hv, -, -, hptr, -⟩ := cwDrain_ok _ (cwAppend_memOk hm) hroom
  obtain rfl := Except.ok.inj (hu.symm.trans hv)
  exact hptr

/-- The bytes of CODEMEM after a write: those it completed, from CW_PTR on, and all others as they were. -/
theorem cwWrite_readCode (hw : w ≤ 12) (h : cwWrite code w s = .ok t) (a : Nat) :
    (t.readCode a).toNat =
      if s.cw.ptr.toNat ≤ a ∧ a < s.cw.ptr.toNat + (s.cw.cnt.toNat + w) / 8 then
        (s.cw.acc.toNat ||| code % 2 ^ w * 2 ^ s.cw.cnt.toNat) / 2 ^ (8 * (a - s.cw.ptr.toNat)) % 256
      else (s.readCode a).toNat := by
  split
  case isTrue ha =>
    obtain ⟨j, rfl⟩ := Nat.exists_eq_add_of_le ha.1
    obtain ⟨u, hu, rfl⟩ := cwWrite_inv h
    have hbyte := cwDrain_byte (cwAppend_memOk hm) hroom hu (Nat.lt_of_add_lt_add_left ha.2)
    change (u.readCode ((cwAppend code w s).cw.ptr.toNat + j)).toNat = _
    rw [hbyte, BitVec.toNat_setWidth, BitVec.toNat_ushiftRight, cwAppend_acc_or hw, Nat.shiftRight_eq_div_pow,
      Nat.add_sub_cancel_left]
  case isFalse ha =>
    have hptr := cwWrite_ptr hm hroom h
    rw [(cwWrite_frame h).outside a (by omega)]

end

/-! ## The command CW_WRITE (R133) -/

section
variable {code : BitVec 16} {width : BitVec 4} {s t : State} {r : Raise}

theorem exec_cwWrite_badWidth (he : s.err = 0#8) (hw : ¬ legalWidth width) :
    exec (.cwWrite code width) s = .next (s.withError 0x02#8 width.toNat) := by
  change execCwWrite code width s = _
  rw [execCwWrite, unlessError_ready he, if_pos hw]
  rfl

theorem exec_cwWrite_ok (he : s.err = 0#8) (hw : legalWidth width) (h : cwWrite code.toNat width.toNat s = .ok t) :
    exec (.cwWrite code width) s = .next (t.setRes0 (zext64 t.cw.ptr.toNat)) := by
  change execCwWrite code width s = _
  simp only [execCwWrite, unlessError_ready he, if_neg (not_not.mpr hw), h]

theorem exec_cwWrite_error (he : s.err = 0#8) (hw : legalWidth width) (h : cwWrite code.toNat width.toNat s = .error r) :
    exec (.cwWrite code width) s = .next (failCw r s) := by
  change execCwWrite code width s = _
  simp only [execCwWrite, unlessError_ready he, if_neg (not_not.mpr hw), h]

theorem exec_cwWrite_congr {code' : BitVec 16} (h : code.toNat % 2 ^ width.toNat = code'.toNat % 2 ^ width.toNat)
    (s : State) : exec (.cwWrite code width) s = exec (.cwWrite code' width) s := by
  change execCwWrite code width s = execCwWrite code' width s
  rw [execCwWrite, execCwWrite, cwWrite_congr h]

end

/-- Settles O19: the width check; the drain of the whole bytes, which the laws of `cwWrite` describe register by register and
byte by byte; and the raise at CODE_CAP (`cwWrite_error`). -/
theorem cwWriteAppendsACode : Obligations.CwWriteAppendsACode := by
  refine ⟨fun code width => spelledAs_of_encode ?asm rfl, rejectsReserved_all _, fun _ _ _ => exec_cwWrite_badWidth,
    fun code width s he hm hw hw' hroom => ?appends, fun _ _ _ s h => exec_cwWrite_congr h s,
    fun code width s he hs hw hw' hroom =>
      ⟨_, exec_cwWrite_error he ⟨hw, hw'⟩ (cwWrite_error hs.ptr hroom), rfl, rfl⟩⟩
  case asm => simp [assemble, Instr.mnemonic, code.isLt, width.isLt]
  case appends =>
    obtain ⟨t, ht⟩ := cwWrite_succeeds (code := code.toNat) hm hroom
    have hptr := cwWrite_ptr hm hroom ht
    refine ⟨_, exec_cwWrite_ok he ⟨hw, hw'⟩ ht, ?frame, hptr, (cwWrite_cnt ht :), (cwWrite_acc hw' ht :),
      fun hs => (cwWrite_cwOk hw' ht hs).congr rfl rfl, (cwWrite_readCode hm hroom hw' ht :)⟩
    case frame =>
      rw [hptr, (cwWrite_frame ht).eq]
      rfl

/-! ## The primitive `CW_End`, from every writer (R134) -/

section
variable {s : State}

theorem cwEnd_nothing_pending (h : s.cw.cnt = 0#4) : cwEnd s = .ok (s.setCw ⟨s.cw.ptr, 0#4, 0⟩) := by
  simp [cwEnd, cwFlush, h]

theorem cwEnd_pending (hc : s.cw.cnt ≠ 0#4) (hroom : s.cw.ptr.toNat < s.codeCap) :
    cwEnd s = .ok ((s.writeCode s.cw.ptr.toNat (s.cw.acc.setWidth 8)).setCw ⟨s.cw.ptr + 1#25, 0#4, 0⟩) := by
  have hpos : 0 < s.cw.cnt.toNat := Nat.pos_of_ne_zero fun h0 => hc (BitVec.eq_of_toNat_eq h0)
  simp only [cwEnd, cwFlush, if_pos hpos, cwEmitByte_ok hroom, ok_bind]
  rfl

/-! ## The command CW_END (R134) -/

variable {t : State} {r : Raise}

theorem exec_cwEnd_ok (he : s.err = 0#8) (h : cwEnd s = .ok t) :
    exec .cwEnd s = .next (t.setRes0 (zext64 t.cw.ptr.toNat)) := by
  change execCwEnd s = _
  simp only [execCwEnd, unlessError_ready he, h]

theorem exec_cwEnd_error (he : s.err = 0#8) (h : cwEnd s = .error r) : exec .cwEnd s = .next (failCw r s) := by
  change execCwEnd s = _
  simp only [execCwEnd, unlessError_ready he, h]

/-- A sound writer's pending bits fit in one byte. -/
theorem cwOk_acc_byte (hs : s.CwOk) : (s.cw.acc.setWidth 8).toNat = s.cw.acc.toNat := by
  have hpow : 2 ^ s.cw.cnt.toNat ≤ 2 ^ 8 := Nat.pow_le_pow_right (by decide) (Nat.le_of_lt hs.cnt)
  rw [BitVec.toNat_setWidth, Nat.mod_eq_of_lt (Nat.lt_of_lt_of_le hs.acc hpow)]

end

/-- Settles O20: the three answers of `CW_End` (`cwEnd_nothing_pending`, `cwEnd_pending`, `cwEnd_error`); the pending byte is
the one byte that changes (`Cells.read_write`). -/
theorem cwEndFlushesThePendingByte : Obligations.CwEndFlushesThePendingByte := by
  refine ⟨spelledAs_of_encode rfl rfl, rejectsReserved_all _, fun s he hc => exec_cwEnd_ok he (cwEnd_nothing_pending hc),
    fun s he hm hc hroom => ?pending, fun s he hc hfull => ?full⟩
  case pending =>
    have hptr : (s.cw.ptr + 1#25).toNat = s.cw.ptr.toNat + 1 := ptr_succ (codeCap_le s) hroom
    refine ⟨_, exec_cwEnd_ok he (cwEnd_pending hc hroom), by rw [← hptr]; rfl, hptr, rfl, rfl, fun hs => ?_,
      fun a => Cells.read_write hm.codemem⟩
    exact (congrArg BitVec.toNat (Memory.read_write_same hm.codemem)).trans (cwOk_acc_byte hs)
  case full =>
    refine ⟨_, exec_cwEnd_error he (cwEnd_error hfull.ge hc), rfl, ?_⟩
    rw [← hfull]
    rfl

/-! ## The packing law (R135) -/

/-- Settles O22: `writer_packs`, by induction over the writes. -/
theorem packingLaw : Obligations.PackingLaw := by
  intro s t codes hm _ ht hrun
  obtain ⟨-, -, hptr, hpacked⟩ := writer_packs hm ht hrun
  exact ⟨hptr, hpacked⟩

end Sys2Proof.Machine
end

section
/-! SUPPORT. The string table as commands (R141 to R146): the two forms of the hash, the order of a probe, and what ST_RESET,
ST_SEARCH and ST_ADD answer from every state with ERR 0. -/

namespace Sys2Proof.Machine

/-! ## The hash (R141) -/

section
variable (pre : BitVec 12) (suf : BitVec 8)

theorem stKey_toNat : (stKey pre suf).toNat = pre.toNat <<< 8 ||| suf.toNat := BitVec.toNat_append pre suf

theorem stHash_toNat : (stHash pre suf).toNat = ((stKey pre suf).toNat ^^^ (stKey pre suf).toNat >>> 12) &&& 0xFFF := by
  rw [stHash, BitVec.toNat_setWidth, BitVec.toNat_xor, BitVec.toNat_ushiftRight]
  exact (Nat.and_two_pow_sub_one_eq_mod _ 12).symm

/-- The part of the key that the mask of R141 keeps: the low four bits of `pre`, above `suf`. -/
theorem stKey_mod : (stKey pre suf).toNat % 2 ^ 12 = (pre.toNat &&& 0xF) <<< 8 ||| suf.toNat := by
  have hmask : pre.toNat &&& 0xF = pre.toNat % 2 ^ 4 := Nat.and_two_pow_sub_one_eq_mod _ 4
  rw [stKey_toNat, ← Nat.shiftLeft_add_eq_or_of_lt suf.isLt, ← Nat.shiftLeft_add_eq_or_of_lt suf.isLt, hmask,
    Nat.shiftLeft_eq, Nat.shiftLeft_eq]
  have := suf.isLt
  omega

/-- The other bits of the key, which the hash folds in: the high eight of `pre`. -/
theorem stKey_shiftRight : (stKey pre suf).toNat >>> 12 = pre.toNat >>> 4 := by
  rw [stKey_toNat, ← Nat.shiftLeft_add_eq_or_of_lt suf.isLt, Nat.shiftLeft_eq, Nat.shiftRight_eq_div_pow,
    Nat.shiftRight_eq_div_pow]
  have := suf.isLt
  omega

theorem stHash_toNat_split :
    (stHash pre suf).toNat = ((pre.toNat &&& 0xF) <<< 8 ||| suf.toNat) ^^^ pre.toNat >>> 4 := by
  have hhigh : pre.toNat >>> 4 < 2 ^ 12 := Nat.lt_of_le_of_lt (Nat.shiftRight_le _ 4) pre.isLt
  calc (stHash pre suf).toNat
      = ((stKey pre suf).toNat ^^^ (stKey pre suf).toNat >>> 12) % 2 ^ 12 := by
        rw [stHash_toNat, ← Nat.and_two_pow_sub_one_eq_mod]
    _ = ((stKey pre suf).toNat % 2 ^ 12) ^^^ ((stKey pre suf).toNat >>> 12 % 2 ^ 12) := Nat.xor_mod_two_pow
    _ = _ := by rw [stKey_mod, stKey_shiftRight, Nat.mod_eq_of_lt hhigh]

end

/-- Settles O27: `stHash_toNat` with the key of `stKey_toNat`, and `stHash_toNat_split`, where the XOR is taken below and
above the mask apart. -/
theorem hashForms : Obligations.HashForms := by
  refine ⟨fun pre suf => ⟨?_, stHash_toNat_split pre suf⟩, by decide, by decide, by decide, by decide⟩
  rw [← stKey_toNat]
  exact stHash_toNat pre suf

/-! ## The probe sequence (R142) -/

theorem probeSlot_toNat (h : BitVec 12) (k : Nat) : (probeSlot h k).toNat = (h.toNat + 601 * k) % 4096 :=
  BitVec.toNat_ofNat _ 12

theorem stNext_probeSlot (h : BitVec 12) (k : Nat) : stNext (probeSlot h k) = probeSlot h (k + 1) := by
  apply BitVec.eq_of_toNat_eq
  rw [stNext, BitVec.toNat_add, probeSlot_toNat, probeSlot_toNat, Config.probeStride, BitVec.toNat_ofNat]
  omega

/-- Settles O28: a slot is reached (`probeSlot_surjective`), and no two of the 4096 probes meet (`probeSlot_injective`). -/
theorem probeVisitsEverySlotOnce : Obligations.ProbeVisitsEverySlotOnce := by
  refine ⟨probeSlot_toNat, fun h k => ⟨probeSlot_zero h, (stNext_probeSlot h k).symm⟩, by decide, fun h i => ?_⟩
  obtain ⟨k, hk, rfl⟩ := probeSlot_surjective h i
  exact ⟨k, ⟨hk, rfl⟩, fun j ⟨hj, e⟩ => probeSlot_injective hj hk e⟩

/-! ## The commands (R144 to R146) -/

section
variable {pre : BitVec 12} {suf : BitVec 8} {s : State}

theorem exec_stReset (he : s.err = 0#8) : exec .stReset s = .next (stClear s) := unlessError_ready he

theorem readSlot_stClear (s : State) (i : BitVec 12) : (stClear s).readSlot i = StSlot.empty := rfl

theorem exec_stAdd {index code : BitVec 12} (he : s.err = 0#8) :
    exec (.stAdd index pre suf code) s = .next (stWrite index pre suf code s) := unlessError_ready he

theorem exec_stSearch_some {code index : BitVec 12} (he : s.err = 0#8) (h : stProbe pre suf s = some (code, index)) :
    exec (.stSearch pre suf) s = .next ((s.setRes0 (zext64 code.toNat)).setRes1 (zext64 index.toNat)) := by
  change execStSearch pre suf s = _
  rw [execStSearch, unlessError_ready he, h]

theorem exec_stSearch_none (he : s.err = 0#8) (h : stProbe pre suf s = none) :
    exec (.stSearch pre suf) s = .next (raise (tableFull pre suf) s) := by
  change execStSearch pre suf s = _
  rw [execStSearch, unlessError_ready he, h]

theorem raise_tableFull : raise (tableFull pre suf) s = s.withError 0x0D#8 (pre.toNat <<< 8 ||| suf.toNat) := by
  rw [← stKey_toNat]
  rfl

end

/-- Settles O29: ST_RESET lists no slot (`exec_stReset`), so the first slot of any probe, the key's hash, is empty. -/
theorem stResetEmptiesTheTable : Obligations.StResetEmptiesTheTable := by
  refine ⟨spelledAs_of_encode rfl rfl, rejectsReserved_all _, fun s he =>
    ⟨stClear s, exec_stReset he, rfl, readSlot_stClear s, fun pre suf => ?search⟩⟩
  case search =>
    have hprobe : stProbe pre suf (stClear s) = some (0#12, stHash pre suf) := rfl
    exact exec_stSearch_some (s := stClear s) he hprobe

/-- Settles O30: the loop of the probe ends at the first slot that is not another key's (`stProbeFrom_found`), or passes all
4096 (`stProbeFrom_full`). -/
theorem stSearchFindsTheFirstSlot : Obligations.StSearchFindsTheFirstSlot := by
  refine ⟨fun pre suf => spelledAs_of_encode ?asm rfl, rejectsReserved_all _, fun pre suf s k he hk hpass hstop => ?found,
    fun pre suf s he hall => ?full⟩
  case asm => simp [assemble, Instr.mnemonic, pre.isLt, suf.isLt]
  case found => exact exec_stSearch_some he (stProbeFrom_found hk hpass hstop)
  case full =>
    rw [exec_stSearch_none he (stProbeFrom_full fun _ _ => hall _), raise_tableFull]

/-- Settles O31: `exec_stAdd`, and what a slot reads after the write (`readSlot_write`). -/
theorem stAddWritesOneSlot : Obligations.StAddWritesOneSlot := by
  refine ⟨fun index pre suf code => spelledAs_of_encode ?asm rfl, rejectsReserved_all _, fun index pre suf code s he hm =>
    ⟨_, exec_stAdd he, rfl, fun i => readSlot_write hm⟩⟩
  case asm => simp [assemble, Instr.mnemonic, index.isLt, pre.isLt, suf.isLt, code.isLt]

end Sys2Proof.Machine
end

section
/-! SUPPORT. The encoder as a command (R160 to R166): the checks of its operands, what a run that ends can answer, and the
round trip through the decoder (R169). -/

namespace Sys2Proof.Machine

section
variable {bpp : BitVec 4} {len : BitVec 32} {s t : State}

theorem exec_encRun_badDepth (he : s.err = 0#8) (hb : ¬ legalBpp bpp) :
    exec (.encRun bpp len) s = .next (raise ⟨.badDepth, bpp.toNat⟩ s) := by
  change execEncRun bpp len s = _
  rw [execEncRun, unlessError_ready he, if_pos hb]

theorem exec_encRun_range (he : s.err = 0#8) (hb : legalBpp bpp) (hlen : s.pixCap < len.toNat) :
    exec (.encRun bpp len) s = .next (raise (.range .len) s) := by
  change execEncRun bpp len s = _
  rw [execEncRun, unlessError_ready he, if_neg (not_not.mpr hb), if_pos hlen]

/-- What ENC_RUN can answer with ERR 0: the end of a run, or an error, raised before the run (R243) or in it (R246). -/
theorem exec_encRun_cases (he : s.err = 0#8) (h : exec (.encRun bpp len) s = .next t) :
    (∃ u, legalBpp bpp ∧ len.toNat ≤ s.pixCap ∧ encRun bpp len.toNat s = .ok u ∧ t = forgetEnc u) ∨
    ∃ r, t = raise r s ∨ t = failEnc r s := by
  by_cases hb : legalBpp bpp
  · by_cases hlen : len.toNat ≤ s.pixCap
    · cases hrun : encRun bpp len.toNat s with
      | ok u => exact .inl ⟨u, hb, hlen, rfl, Host.Outcome.next.inj (h.symm.trans (exec_encRun_ok he hb hlen hrun))⟩
      | error r => exact .inr ⟨r, .inr (Host.Outcome.next.inj (h.symm.trans (exec_encRun_error he hb hlen hrun)))⟩
    · exact .inr ⟨_, .inl (Host.Outcome.next.inj (h.symm.trans (exec_encRun_range he hb (Nat.lt_of_not_le hlen))))⟩
  · exact .inr ⟨_, .inl (Host.Outcome.next.inj (h.symm.trans (exec_encRun_badDepth he hb)))⟩

/-- An ENC_RUN that answers ERR 0 is one whose run succeeds: either kind of error sets ERR (R244). -/
theorem exec_encRun_succeeds (he : s.err = 0#8) (h : exec (.encRun bpp len) s = .next t) (ht : t.err = 0#8) :
    ∃ u, legalBpp bpp ∧ len.toNat ≤ s.pixCap ∧ encRun bpp len.toNat s = .ok u ∧ t = forgetEnc u := by
  rcases exec_encRun_cases he h with hrun | ⟨r, rfl | rfl⟩
  · exact hrun
  · exact absurd ht r.kind.code_ne_zero
  · exact absurd ht r.kind.code_ne_zero

/-- An ENC_RUN that answers another ERR has raised it: a run that succeeds keeps ERR (`encRun_frame`). -/
theorem exec_encRun_fails (he : s.err = 0#8) (h : exec (.encRun bpp len) s = .next t) (ht : t.err ≠ 0#8) :
    ∃ r, t = raise r s ∨ t = failEnc r s := by
  rcases exec_encRun_cases he h with ⟨u, -, -, hrun, rfl⟩ | hraise
  · obtain ⟨hu, -⟩ := encRun_frame hrun
    rw [forgetEnc_err, hu] at ht
    exact absurd he ht
  · exact hraise

end

/-- Settles O32: the encoder's word and the two checks in their order (`exec_encRun_badDepth`, `exec_encRun_range`). -/
theorem encRunOperandChecks : Obligations.EncRunOperandChecks := by
  refine ⟨fun bpp len => spelledAs_of_encode ?asm rfl, rejectsReserved_all _, fun bpp len s => exec_encRun_badDepth,
    fun bpp len s he hb1 hb8 => exec_encRun_range he ⟨hb1, hb8⟩⟩
  case asm => simp [assemble, Instr.mnemonic, bpp.isLt, len.isLt]

/-- Settles O33: `encRun_ok` carries the invariant of a run (`EncRun`) from E_INIT to E_FINISH: the table always has a free
slot, and the codes written so far leave room for the rest. The run itself never sets ERR (`encRun_frame`). -/
theorem encRunCompletes : Obligations.EncRunCompletes := by
  intro bpp len s he hm hb1 hb8 hlen hroom hpix
  obtain ⟨u, hrun⟩ := encRun_ok hm ⟨hb1, hb8⟩ hlen hroom hpix
  obtain ⟨hu, -⟩ := encRun_frame hrun
  refine ⟨forgetEnc u, exec_encRun_ok he ⟨hb1, hb8⟩ hlen hrun, ?_⟩
  rw [forgetEnc_err, hu]
  exact he

/-- Settles O42: the stream of a run that succeeds spells the pixels it read (`encRun_stream`), and the decoder decodes every
stream of the format (`decRunDecodes`). -/
theorem roundTrip : Obligations.RoundTrip := by
  intro bpp len s t u hm he h ht hum hue hupix hucode humem
  obtain ⟨w, hb, hlen, hrun, rfl⟩ := exec_encRun_succeeds he h ht
  obtain ⟨hw, hres0, -⟩ := encRun_frame hrun
  obtain ⟨q, hstream⟩ := encRun_stream hm hb hlen hrun
  have hptr := encRun_ptr_le hrun
  have hcap := codeCap_le s
  have hpixcap : u.pixCap = s.pixCap := by rw [State.pixCap, hupix, forgetEnc_pixLast, hw]; rfl
  have hcodecap : u.codeCap = s.codeCap := by rw [State.codeCap, hucode, forgetEnc_codeLast, hw]; rfl
  have hbytes : (forgetEnc w).res0.toNat = w.cw.ptr.toNat := by rw [forgetEnc_res0, hres0, toNat_zext64 (by omega)]
  have hoperand : (BitVec.ofNat 32 (forgetEnc w).res0.toNat).toNat = w.cw.ptr.toNat := by
    rw [hbytes, BitVec.toNat_ofNat, Nat.mod_eq_of_lt (by omega)]
  have hcount := s.pixels_length len.toNat
  obtain ⟨v, hexec, hverr, hvres0, -, -, -, hpixels⟩ :=
    (decRunDecodes bpp (BitVec.ofNat 32 (forgetEnc w).res0.toNat) u (s.pixels len.toNat) q hue hum hb.1 hb.2
      (by rw [hoperand, hcodecap]; exact hptr) (by rw [hoperand, humem]; exact hstream)).1
      (by rw [hcount, hpixcap]; exact hlen)
  rw [hcount] at hvres0 hpixels
  exact ⟨v, hexec, hverr, hvres0, hpixels⟩

/-- Settles O36: a run that succeeds leaves what `encRun_frame` says, with nothing pending (`encRun_clean`); an error raised
before the run or in it is written out in `raise` and `failEnc`. -/
theorem encRunLeaves : Obligations.EncRunLeaves := by
  intro bpp len s t he h
  refine ⟨fun ht => ?success, fun ht => ?failure⟩
  case success =>
    obtain ⟨u, hb, hlen, hrun, rfl⟩ := exec_encRun_succeeds he h ht
    obtain ⟨hu, hres0, -, houtside, -⟩ := encRun_frame hrun
    obtain ⟨hcnt, hacc⟩ := encRun_clean hrun
    have hbytes : (forgetEnc u).res0.toNat = u.cw.ptr.toNat := by rw [forgetEnc_res0, hres0, toNat_zext64 (by omega)]
    refine ⟨by rw [hu]; rfl, hbytes.symm, hcnt, congrArg BitVec.toNat hacc, fun a ha => houtside a ?_⟩
    rwa [hbytes] at ha
  case failure =>
    obtain ⟨r, rfl | rfl⟩ := exec_encRun_fails he h ht
    · rfl
    · rfl

end Sys2Proof.Machine
end

section
/-! SUPPORT. One E_STEP (R163, R164): what it does to the registers of the session and to the code stream, in its hit case and
in both branches of its miss case. -/

namespace Sys2Proof.Machine

/-- The end of a miss (R163, R164): the pixel becomes the current string, and ENC_I moves past it. -/
def eTake (p : Byte) (s : State) : State := s.setEnc { s.enc with cur := p.setWidth 12, i := s.enc.i + 1#25 }

section
variable {s : State} {code index : BitVec 12}

theorem eStep_hit (hp : (s.readPix s.enc.i.toNat).toNat < s.enc.clear.toNat)
    (hprobe : stProbe s.enc.cur (s.readPix s.enc.i.toNat) s = some (code, index)) (hc : code ≠ 0#12) :
    eStep s = .ok (s.setEnc { s.enc with cur := code, i := s.enc.i + 1#25 }) := by
  rw [eStep, if_neg (Nat.not_le.mpr hp), hprobe]
  simp only [eLookup, if_pos hc, ok_bind]
  rfl

theorem eStep_miss (hp : (s.readPix s.enc.i.toNat).toNat < s.enc.clear.toNat)
    (hprobe : stProbe s.enc.cur (s.readPix s.enc.i.toNat) s = some (0#12, index)) :
    eStep s = eEmit s.enc.cur.toNat s >>= fun u => eExtend (s.readPix s.enc.i.toNat) index u >>= fun v =>
      .ok (eTake (s.readPix s.enc.i.toNat) v) := by
  rw [eStep, if_neg (Nat.not_le.mpr hp), hprobe]
  simp only [eLookup, eMiss, ne_eq, not_true_eq_false, if_false]
  cases eEmit s.enc.cur.toNat s with
  | error r => rfl
  | ok u =>
    simp only [ok_bind]
    cases eExtend (s.readPix s.enc.i.toNat) index u with
    | error r => rfl
    | ok v => rfl

end

/-- Settles O37: the probe's code is not 0, so `eStep_hit`. -/
theorem encStepHit : Obligations.EncStepHit := fun _ _ _ => eStep_hit

/-! ## The code stream -/

/-- A code of w bits appended to the written stream: no earlier bit moves, and its bits follow, the low one first (R133). -/
structure Appends (s t : State) (c w : Nat) : Prop where
  bits : t.writtenBits = s.writtenBits + w
  old : ∀ k < s.writtenBits, t.writtenBit k = s.writtenBit k
  new : ∀ k < w, t.writtenBit (s.writtenBits + k) = c / 2 ^ k % 2

/-- Only the writer and its bytes matter. -/
theorem Appends.congr {s t u : State} {c w : Nat} (h : Appends s t c w) (hcw : u.cw = t.cw) (hmem : u.codemem = t.codemem) :
    Appends s u c w := by
  have hbits : u.writtenBits = t.writtenBits := by rw [State.writtenBits, hcw]; rfl
  have hbit : u.writtenBit = t.writtenBit := by
    funext k
    rw [State.writtenBit, hcw, hmem]
    rfl
  exact ⟨hbits.trans h.bits, by rw [hbit]; exact h.old, by rw [hbit]; exact h.new⟩

/-- `E_Emit` with room for a code of full width. -/
theorem eEmit_appends (c : Nat) {s : State} (hm : s.MemOk) (hs : s.CwOk) (hw : s.enc.w.toNat ≤ 12)
    (hroom : s.writtenBits + 12 ≤ 8 * s.codeCap) :
    ∃ t, eEmit c s = .ok t ∧ t.MemOk ∧ t.CwOk ∧ Appends s t c s.enc.w.toNat ∧
      t.enc = { s.enc with ncodes := s.enc.ncodes + 1#32 } ∧ t.st = s.st ∧ t.codeCap = s.codeCap := by
  obtain ⟨t, h, -⟩ := eEmit_ok c hm hs hw hroom
  obtain ⟨-, hm', hs', hbits, hold, hnew⟩ := eEmit_bits hm hs hw h
  obtain ⟨henc, hst, -⟩ := eEmit_enc h
  have hcap : t.codeCap = s.codeCap := by rw [(eEmit_frame h).eq]; rfl
  refine ⟨t, h, hm', hs', ⟨hbits, hold, fun k hk => ?_⟩, henc, hst, hcap⟩
  rw [hnew k hk, Nat.shiftRight_eq_div_pow]

/-! ## Insertion -/

theorem eGrow_codemem (s : State) : (eGrow s).codemem = s.codemem := by
  unfold eGrow
  split <;> rfl

theorem eGrow_w (s : State) : (eGrow s).enc.w =
    if s.enc.limit.toNat < s.enc.next.toNat ∧ s.enc.w.toNat < Config.maxCodeWidth then s.enc.w + 1#4 else s.enc.w := by
  unfold eGrow
  split <;> rfl

section
variable {s : State} {p : Byte} {i : BitVec 12}

/-- The width grows exactly when the code just inserted equals the old limit: below 4096 there is a wider code (R164). -/
theorem eInsert_w (h : s.EncOk) (hn : s.enc.next.toNat ≤ 4095) :
    (eInsert p i s).enc.w.toNat = if s.enc.next.toNat = 2 ^ s.enc.w.toNat then s.enc.w.toNat + 1 else s.enc.w.toNat := by
  have hfits := h.fits
  have hlimit := h.limit
  have hw := h.w
  have hnext : (s.enc.next + 1#13).toNat = s.enc.next.toNat + 1 := by
    rw [BitVec.toNat_add, BitVec.toNat_ofNat, Nat.mod_eq_of_lt (by omega)]
  have hwider : (s.enc.w + 1#4).toNat = s.enc.w.toNat + 1 := by
    rw [BitVec.toNat_add, BitVec.toNat_ofNat, Nat.mod_eq_of_lt (by omega)]
  have hgrow : (s.enc.limit.toNat < (s.enc.next + 1#13).toNat ∧ s.enc.w.toNat < 12) ↔
      s.enc.next.toNat = 2 ^ s.enc.w.toNat := by
    constructor
    · omega
    · intro heq
      have hne : s.enc.w.toNat ≠ 12 := fun e => by rw [e] at heq; omega
      omega
  have hwidth : (eInsert p i s).enc.w =
      if s.enc.limit.toNat < (s.enc.next + 1#13).toNat ∧ s.enc.w.toNat < 12 then s.enc.w + 1#4 else s.enc.w := eGrow_w _
  rw [hwidth, apply_ite BitVec.toNat, hwider]
  simp only [hgrow]

theorem eInsert_readSlot (hm : s.MemOk) (k : BitVec 12) :
    (eInsert p i s).readSlot k = if k = i then ⟨s.enc.next.setWidth 12, s.enc.cur, p⟩ else s.readSlot k := by
  have hst : (eInsert p i s).st = (stWrite i s.enc.cur p (s.enc.next.setWidth 12) s).st := eGrow_st _
  rw [State.readSlot, hst]
  exact readSlot_write hm

/-- While codes are left, the pair takes the next one and nothing is written (R164). -/
theorem eExtend_insert (hm : s.MemOk) (h : s.EncOk) (hn : s.enc.next.toNat ≤ 4095) :
    ∃ t, eExtend p i s = .ok t ∧ t.cw = s.cw ∧ t.codemem = s.codemem ∧ t.enc.ncodes = s.enc.ncodes ∧
      t.enc.next.toNat = s.enc.next.toNat + 1 ∧
      t.enc.w.toNat = (if s.enc.next.toNat = 2 ^ s.enc.w.toNat then s.enc.w.toNat + 1 else s.enc.w.toNat) ∧
      ∀ k, t.readSlot k = if k = i then ⟨s.enc.next.setWidth 12, s.enc.cur, p⟩ else s.readSlot k := by
  obtain ⟨-, hnext, henc⟩ := eInsert_encOk (p := p) (i := i) h hn
  exact ⟨eInsert p i s, if_pos hn, eGrow_cw _, eGrow_codemem _, by rw [henc], hnext, eInsert_w h hn, eInsert_readSlot hm⟩

/-! ## Restart -/

/-- A full table is reached at the greatest width (R34, R164). -/
theorem State.EncOk.w_of_full (h : s.EncOk) (hn : s.enc.next.toNat = 4096) : s.enc.w.toNat = 12 := by
  have hfits := h.fits
  have hlimit := h.limit
  have hw := h.w
  have hpow : s.enc.w.toNat < 12 → 2 ^ s.enc.w.toNat ≤ 2 ^ 11 := fun hlt => Nat.pow_le_pow_right (by decide) (by omega)
  omega

/-- The table-full case with room for CLEAR: CLEAR is appended, and a new session starts with no slot occupied (R161, R164). -/
theorem eExtend_restart (hm : s.MemOk) (hs : s.CwOk) (h : s.EncOk)
    (hroom : s.writtenBits + 12 ≤ 8 * s.codeCap) (hn : s.enc.next.toNat = 4096) :
    ∃ t, eExtend p i s = .ok t ∧ Appends s t s.enc.clear.toNat s.enc.w.toNat ∧ t.enc.ncodes = s.enc.ncodes + 1#32 ∧
      t.enc.next.toNat = s.enc.clear.toNat + 2 ∧ t.enc.w.toNat = s.enc.bpp.toNat + 1 ∧
      ∀ k, t.readSlot k = ⟨0#12, 0#12, 0#8⟩ := by
  have hbpp := h.bpp
  have hfull : ¬ s.enc.next.toNat ≤ Config.maxCode := by
    rw [hn]
    decide
  obtain ⟨t, ht, -, -, happ, henc, -⟩ := eEmit_appends s.enc.clear.toNat hm hs h.w.2 hroom
  have hok := eEmit_encOk h ht
  obtain ⟨-, hnext⟩ := encInitSession_encOk hok.bpp hok.clear hok.eoi
  refine ⟨encInitSession t, ?run, happ.congr rfl rfl, ?ncodes, ?next, ?width, fun k => rfl⟩
  case run => rw [eExtend, if_neg hfull, eRestart, ht, ok_bind]
  case ncodes =>
    change t.enc.ncodes = _
    rw [henc]
  case next => rw [hnext, henc]
  case width =>
    have hbits : (t.enc.bpp + 1#4).toNat = s.enc.bpp.toNat + 1 := by
      rw [henc, BitVec.toNat_add, BitVec.toNat_ofNat]
      change (s.enc.bpp.toNat + 1) % 2 ^ 4 = _
      omega
    exact hbits

/-! ## The miss case -/

theorem eExtend_i {t : State} (h : eExtend p i s = .ok t) : t.enc.i = s.enc.i := by
  unfold eExtend at h
  split at h
  · obtain rfl := Except.ok.inj h
    unfold eInsert eGrow
    split <;> rfl
  · obtain ⟨u, hu, h⟩ := bind_ok_iff.mp h
    obtain rfl := Except.ok.inj h
    obtain ⟨henc, -⟩ := eEmit_enc hu
    change u.enc.i = _
    rw [henc]

end

/-- Settles O38: a miss (`eStep_miss`) writes the current string (`eEmit_appends`), then enters the pair (`eExtend_insert`) or,
where the next free code is 4096 and so the width 12, writes CLEAR and starts again (`eExtend_restart`). -/
theorem encStepMiss : Obligations.EncStepMiss := by
  intro s index hm hs h hroom hp hprobe
  have hnext := h.next
  have hw := h.w
  obtain ⟨u, hu, hmu, hsu, happ, henc, hst, hcap⟩ := eEmit_appends s.enc.cur.toNat hm hs hw.2 (by omega)
  have hok := eEmit_encOk h hu
  have hbits := happ.bits
  generalize hpix : s.readPix s.enc.i.toNat = p at hp hprobe ⊢
  have hcur : (p.setWidth 12).toNat = p.toNat := BitVec.toNat_setWidth_of_le (by decide)
  have hstep : ∀ v, eExtend p index u = .ok v → eStep s = .ok (eTake p v) := fun v hv => by
    subst hpix
    rw [eStep_miss hp hprobe, hu, ok_bind, hv, ok_bind]
  have hi : ∀ v, eExtend p index u = .ok v → (eTake p v).enc.i = s.enc.i + 1#25 := fun v hv => by
    change v.enc.i + 1#25 = _
    rw [eExtend_i hv, henc]
  by_cases hn : s.enc.next.toNat ≤ 4095
  case pos =>
    obtain ⟨v, hv, hcw, hmem, hncodes, hnextv, hwv, hslots⟩ := eExtend_insert (p := p) (i := index) hmu hok
      (by rw [henc]; exact hn)
    have happv : Appends s (eTake p v) s.enc.cur.toNat s.enc.w.toNat := happ.congr hcw hmem
    rw [henc] at hncodes hnextv hwv
    refine ⟨_, hstep v hv, (eStep_frame (hstep v hv)).eq, happv.old, happv.new, hi v hv, hcur,
      fun _ => ⟨happv.bits, hncodes, hnextv, hwv, fun k => ?slots⟩, fun hfull => by omega⟩
    case slots =>
      refine (hslots k).trans ?_
      rw [henc, State.readSlot, hst]
      rfl
  case neg =>
    have hfull : s.enc.next.toNat = 4096 := by omega
    have hw12 := h.w_of_full hfull
    obtain ⟨v, hv, happv, hncodes, hnextv, hwv, hslots⟩ := eExtend_restart (p := p) (i := index) hmu hsu hok
      (by omega) (by rw [henc]; exact hfull)
    have hclear := happv.new
    have hbitsv := happv.bits
    have hold := happv.old
    rw [henc] at hclear hbitsv hncodes hnextv hwv
    refine ⟨_, hstep v hv, (eStep_frame (hstep v hv)).eq, fun k hk => ?old, fun k hk => ?new, hi v hv, hcur,
      fun hle => absurd hle hn, fun _ => ⟨hw12, ?bits, ?ncodes, fun k hk => ?clear, hnextv, hwv, hslots⟩⟩
    case old => exact (hold k (by omega)).trans (happ.old k hk)
    case new => exact (hold _ (by omega)).trans (happ.new k hk)
    case bits =>
      refine hbitsv.trans ?_
      change u.writtenBits + s.enc.w.toNat = _
      omega
    case ncodes => exact hncodes.trans (BitVec.add_assoc _ _ _)
    case clear =>
      rw [hbits, hw12] at hclear
      exact hclear k hk

end Sys2Proof.Machine
end

section
/-! SUPPORT. The ends of the loops of ENC_RUN and DEC_RUN (R168, R194): turns after the last micro-step change nothing, and a
micro-step that raises ends the run. -/

namespace Sys2Proof.Machine

/-! ## The loop of ENC_RUN -/

/-- So many turns and then some more are one loop. -/
theorem eLoop_add (k d : Nat) (s : State) : eLoop (k + d) s = eLoop k s >>= eLoop d := by
  induction k generalizing s with
  | zero => rw [Nat.zero_add]; rfl
  | succ k ih =>
    rw [Nat.succ_add, eLoop, eLoop]
    by_cases hi : s.enc.i.toNat < s.enc.n.toNat
    · rw [if_pos hi, if_pos hi]
      cases eStep s with
      | error r => rfl
      | ok t => exact ih t
    · rw [if_neg hi, if_neg hi, ok_bind]
      cases d with
      | zero => rfl
      | succ d => rw [eLoop, if_neg hi]

theorem eLoop_of_done (k : Nat) {s : State} (h : s.enc.n.toNat ≤ s.enc.i.toNat) : eLoop k s = .ok s := by
  cases k with
  | zero => rfl
  | succ k => rw [eLoop, if_neg (Nat.not_lt.mpr h)]

/-- Whether the pair is found or not, `eLookup` leaves ENC_I to E_STEP. -/
theorem eLookup_i {c index : BitVec 12} {p : Byte} {s t : State} (h : eLookup c p index s = .ok t) :
    t.enc.i = s.enc.i := by
  unfold eLookup at h
  split at h
  · obtain rfl := Except.ok.inj h
    rfl
  · obtain ⟨u, hu, h⟩ := bind_ok_iff.mp h
    obtain ⟨v, hv, h⟩ := bind_ok_iff.mp h
    obtain rfl := Except.ok.inj h
    change v.enc.i = _
    rw [eExtend_i hv, (eEmit_enc hu).1]

/-- The pixel registers of the run: a micro-step keeps ENC_N and advances ENC_I by 1, in the hit and in the miss case. -/
theorem eStep_pixels {s t : State} (h : eStep s = .ok t) : t.enc.n = s.enc.n ∧ t.enc.i = s.enc.i + 1#25 := by
  unfold eStep at h
  split at h
  · cases h
  · split at h
    · cases h
    · obtain ⟨u, hu, h⟩ := bind_ok_iff.mp h
      obtain rfl := Except.ok.inj h
      have hn := eLookup_n hu
      have hi := eLookup_i hu
      exact ⟨hn, congrArg (· + 1#25) hi⟩

/-- The pixel registers after E_INIT: no pixel at all, or the first one consumed (R162). -/
theorem eInit_pixels {s t : State} (h : eInit s = .ok t) :
    t.enc.n = s.enc.n ∧ (s.enc.n = 0#25 ∨ t.enc.i = 1#25) := by
  obtain ⟨u, hu, h⟩ := bind_ok_iff.mp h
  have hun : u.enc.n = s.enc.n := by
    rw [(eEmit_enc hu).1]
    rfl
  split at h
  · next hn =>
    obtain ⟨v, hv, h⟩ := bind_ok_iff.mp h
    obtain ⟨w, hw, h⟩ := bind_ok_iff.mp h
    obtain rfl := Except.ok.inj h
    have hwn : w.enc.n = v.enc.n := by rw [(cwEnd_frame hw).eq]
    have hvn : v.enc.n = u.enc.n := by rw [(eEmit_enc hv).1]
    exact ⟨hwn.trans (hvn.trans hun), .inl (hun ▸ hn)⟩
  · unfold eSeed at h
    split at h
    · cases h
    · obtain rfl := Except.ok.inj h
      exact ⟨hun, .inr rfl⟩

/-- A loop with a turn for every pixel left consumes them all. -/
theorem eLoop_consumes {k : Nat} {s t : State} (hk : s.enc.n.toNat ≤ s.enc.i.toNat + k) (h : eLoop k s = .ok t) :
    t.enc.n.toNat ≤ t.enc.i.toNat := by
  induction k generalizing s with
  | zero =>
    obtain rfl := Except.ok.inj h
    exact hk
  | succ k ih =>
    rw [eLoop] at h
    split at h
    · obtain ⟨u, hu, h⟩ := bind_ok_iff.mp h
      obtain ⟨hn, hi⟩ := eStep_pixels hu
      have hnext : (s.enc.i + 1#25).toNat = s.enc.i.toNat + 1 := by
        rw [BitVec.toNat_add, BitVec.toNat_ofNat, Nat.mod_eq_of_lt (by omega)]
      exact ih (by rw [hn, hi, hnext]; omega) h
    · obtain rfl := Except.ok.inj h
      omega

/-- More turns than pixels left change nothing. -/
theorem eLoop_more {j k : Nat} {s : State} (hk : s.enc.n.toNat ≤ s.enc.i.toNat + k) (hkj : k ≤ j) :
    eLoop j s = eLoop k s := by
  obtain ⟨d, rfl⟩ := Nat.exists_eq_add_of_le hkj
  rw [eLoop_add]
  cases h : eLoop k s with
  | error r => rfl
  | ok t => exact eLoop_of_done d (eLoop_consumes hk h)

/-- The loop after E_INIT is over in ENC_N − 1 turns (R168). -/
theorem eLoop_after_init {s t : State} {k : Nat} (h : eInit s = .ok t) (hk : s.enc.n.toNat ≤ k + 1) :
    eLoop k t = eLoop s.enc.n.toNat t ∧ ∀ u, eLoop k t = .ok u → s.enc.n.toNat ≤ u.enc.i.toNat := by
  obtain ⟨hn, hi⟩ := eInit_pixels h
  have hturns : t.enc.n.toNat ≤ t.enc.i.toNat + (s.enc.n.toNat - 1) := by
    rcases hi with hzero | hone
    · rw [hn, hzero]
      exact Nat.zero_le _
    · have hfirst : t.enc.i.toNat = 1 := by rw [hone]; rfl
      rw [hn, hfirst]
      omega
  refine ⟨?turns, fun u hu => ?pixels⟩
  case turns => exact (eLoop_more hturns (by omega)).trans (eLoop_more hturns (Nat.sub_le _ _)).symm
  case pixels =>
    have hconsumed := eLoop_consumes (by omega) hu
    rwa [eLoop_n hu, hn] at hconsumed

/-! ## The loop of DEC_RUN -/

theorem dLoop_add (k d : Nat) (s : State) : dLoop (k + d) s = dLoop k s >>= dLoop d := by
  induction k generalizing s with
  | zero => rw [Nat.zero_add]; rfl
  | succ k ih =>
    rw [Nat.succ_add, dLoop, dLoop]
    by_cases hp : s.dec.phase = .first ∨ s.dec.phase = .run
    · rw [if_pos hp, if_pos hp]
      cases dStep s with
      | error r => rfl
      | ok t => exact ih t
    · rw [if_neg hp, if_neg hp, ok_bind]
      cases d with
      | zero => rfl
      | succ d => rw [dLoop, if_neg hp]

/-- After D_INIT the session and the reader are sound, the opening code is consumed, and the phase is FIRST (R182). -/
theorem dInit_ready {n : Nat} {s t : State} (hb : 1 ≤ s.dec.bpp.toNat ∧ s.dec.bpp.toNat ≤ 8) (hn : n ≤ s.codeCap)
    (h : dInit n s = .ok t) :
    t.DecOk ∧ t.CrOk ∧ t.dec.phase = .first ∧ t.cr.len.toNat = n ∧ 2 ≤ t.cr.bitpos.toNat := by
  obtain ⟨hset, hframe⟩ := dInit_frame h
  have hdok := dBegin_decOk n hb
  have hcap := codeCap_le s
  have hlen : (dBegin n s).cr.len.toNat = n := by rw [hset.len, BitVec.toNat_ofNat, Nat.mod_eq_of_lt (by omega)]
  have hcr : (dBegin n s).CrOk := by
    refine ⟨?_, by rw [hset.bitpos]; exact Nat.zero_le _⟩
    rw [hlen]
    exact hn
  have hbpp := hdok.bpp
  have hw := hdok.w
  unfold dInit at h
  split at h
  · cases h
  · next r u hread =>
    split at h
    · cases h
    · obtain rfl := Except.ok.inj h
      have huok := hdok.ofOut (dBegin n s).dec.out (crRead_dec hread)
      have hbits := crRead_bitpos hread (by omega)
      refine ⟨huok.congr rfl rfl rfl rfl rfl rfl, hframe.crOk hcr, rfl, by rw [hframe.len, hlen], ?_⟩
      change 2 ≤ u.cr.bitpos.toNat
      omega

/-- The loop after D_INIT is over in 4·LEN turns: the opening code took at least 2 bits, as every turn does (R194). -/
theorem dLoop_after_init {n : Nat} {s t : State} (hb : 1 ≤ s.dec.bpp.toNat ∧ s.dec.bpp.toNat ≤ 8) (hn : n ≤ s.codeCap)
    (h : dInit n s = .ok t) {k : Nat} (hk : 4 * n ≤ k) :
    dLoop k t = dLoop (4 * n) t ∧ ∀ u, dLoop k t = .ok u → u.dec.phase = .done := by
  obtain ⟨hok, hcr, hphase, hlen, hbits⟩ := dInit_ready hb hn h
  have hdone : ∀ j u, 4 * n ≤ j → dLoop j t = .ok u → u.dec.phase = .done := fun j u hj =>
    dLoop_done hok hcr (.inl hphase) (by rw [hlen]; omega)
  refine ⟨?_, fun u => hdone k u hk⟩
  obtain ⟨d, rfl⟩ := Nat.exists_eq_add_of_le hk
  rw [dLoop_add]
  cases hloop : dLoop (4 * n) t with
  | error r => rfl
  | ok u => exact dLoop_of_done d (hdone _ u (Nat.le_refl _) hloop)

/-- A D_STEP that raises ends the loop, whatever turns are left. -/
theorem dLoop_raises {k : Nat} {s t : State} {r : Raise} (h : dLoop k s = .ok t)
    (hp : t.dec.phase = .first ∨ t.dec.phase = .run) (hr : dStep t = .error r) (d : Nat) :
    dLoop (k + (d + 1)) s = .error r := by
  rw [dLoop_add, h, ok_bind, dLoop, if_pos hp, hr, error_bind]

theorem decRun_raises {b : BitVec 4} {n k : Nat} {s t u : State} {r : Raise} (hb : legalBpp b) (hn : n ≤ s.codeCap)
    (hinit : dInit n (s.setDec { s.dec with bpp := b }) = .ok t) (hloop : dLoop k t = .ok u)
    (hp : u.dec.phase = .first ∨ u.dec.phase = .run) (hr : dStep u = .error r) : decRun b n s = .error r := by
  have hk : k < 4 * n := by
    by_contra hk
    have hdone := (dLoop_after_init (s := s.setDec { s.dec with bpp := b }) hb hn hinit (Nat.le_of_not_lt hk)).2 u hloop
    rw [hdone] at hp
    exact absurd hp (by decide)
  obtain ⟨d, hd⟩ := Nat.exists_eq_add_of_lt hk
  have hrest : dLoop (4 * n + 1) t = .error r := by
    rw [hd]
    exact dLoop_raises hloop hp hr (d + 1)
  simp only [decRun, hinit, ok_bind, hrest, error_bind]

/-- Settles O48: both loops compose (`eLoop_add`, `dLoop_add`), so what they do after their last turn (`eLoop_after_init`,
`dLoop_after_init`) and after a turn that raises (`decRun_raises`) is seen at that turn. -/
theorem runsEnd : Obligations.RunsEnd := by
  refine ⟨fun s t k => eLoop_after_init, fun s t n k hb1 hb8 hn h hk => ?bounds,
    fun bpp len s t u k r he hb1 hb8 hlen hinit hloop hp hr => ?raises⟩
  case bounds =>
    obtain ⟨hturns, hdone⟩ := dLoop_after_init ⟨hb1, hb8⟩ hn h hk
    exact ⟨hturns.trans (dLoop_after_init ⟨hb1, hb8⟩ hn h (Nat.le_succ _)).1.symm, hdone⟩
  case raises =>
    exact ⟨_, exec_decRun_error he ⟨hb1, hb8⟩ hlen (decRun_raises ⟨hb1, hb8⟩ hlen hinit hloop hp hr), rfl, rfl⟩

end Sys2Proof.Machine
end

section
/-! SUPPORT. The decode table and the expansion of a code as laws for every state (R184, R188, R189): what D_AddEntry and D_Grow
do, and what a walk through one more entry adds. -/

namespace Sys2Proof.Machine

/-! ## The table and the width -/

section
variable {p : Byte} {s : State}

theorem dAddEntry_room (h : s.dec.next.toNat < 4096) :
    dAddEntry p s =
      (s.writeEntry s.dec.next.toNat ⟨s.dec.prev, p⟩).setDec { s.dec with next := s.dec.next + 1#13 } := if_pos h

theorem dAddEntry_frozen (h : 4096 ≤ s.dec.next.toNat) : dAddEntry p s = s := if_neg (Nat.not_lt.mpr h)

theorem dAddEntry_next (h : s.dec.next.toNat < 4096) : (dAddEntry p s).dec.next.toNat = s.dec.next.toNat + 1 := by
  rw [dAddEntry_room h, State.setDec_dec, BitVec.toNat_add, BitVec.toNat_ofNat, Nat.mod_eq_of_lt (by omega)]

theorem dAddEntry_readEntry (hm : s.MemOk) (h : s.dec.next.toNat < 4096) (k : Nat) :
    (dAddEntry p s).readEntry k = if k = s.dec.next.toNat then ⟨s.dec.prev, p⟩ else s.readEntry k := by
  rw [dAddEntry_room h]
  exact Cells.read_write hm.dt

theorem dAddEntry_phase (p : Byte) (s : State) : (dAddEntry p s).dec.phase = s.dec.phase := by
  unfold dAddEntry
  split <;> rfl

theorem dGrow_grows (hn : s.dec.limit.toNat ≤ s.dec.next.toNat) (hw : s.dec.w.toNat < 12) :
    dGrow s = s.setDec { s.dec with w := s.dec.w + 1#4, limit := s.dec.limit <<< 1 } := if_pos ⟨hn, hw⟩

theorem dGrow_stays (h : s.dec.next.toNat < s.dec.limit.toNat ∨ 12 ≤ s.dec.w.toNat) : dGrow s = s := by
  refine if_neg fun hgrow => ?_
  obtain ⟨hn, hw⟩ := hgrow
  have hw : s.dec.w.toNat < 12 := hw
  omega

end

/-- Settles O46: D_AddEntry writes one entry below 4096 (`dAddEntry_room`, `dAddEntry_readEntry`) and none at it
(`dAddEntry_frozen`); D_Grow has the one condition of R189 (`dGrow_grows`, `dGrow_stays`). -/
theorem decTableAndWidth : Obligations.DecTableAndWidth := by
  refine ⟨fun p s hm h => ⟨dAddEntry_next h, ?frame, dAddEntry_readEntry hm h⟩,
    fun p s h => dAddEntry_frozen (Nat.le_of_eq h.symm), fun s => dGrow_grows, fun s => dGrow_stays⟩
  case frame =>
    rw [dAddEntry_room h]
    rfl

/-! ## Pixels on XSTACK -/

/-- The pixels of an expansion, pushed in their order (R184): the last pixel of the string is pushed first. -/
def State.pushAll (s : State) (ps : List Byte) : State := ps.foldl State.pushX s

theorem State.pushAll_cons (s : State) (p : Byte) (ps : List Byte) : s.pushAll (p :: ps) = (s.pushX p).pushAll ps := rfl

/-- A push puts its pixel before those already in XSTACK. -/
theorem xstackPixels_pushX {s : State} (hm : s.MemOk) (p : Byte) (h : s.xsp.toNat < 4096) :
    xstackPixels (s.pushX p) = p :: xstackPixels s := by
  obtain ⟨-, hsp, -⟩ := pushX_frame p (s := s) h
  unfold xstackPixels
  rw [hsp, List.range_succ, List.reverse_append, List.reverse_singleton, List.singleton_append, List.map_cons]
  refine congrArg₂ List.cons (Memory.read_write_same hm.xstack) (List.map_congr_left fun i hi => ?_)
  have hlt : i < s.xsp.toNat := List.mem_range.mp (List.mem_reverse.mp hi)
  exact Memory.read_write_other (Nat.ne_of_lt hlt)

theorem xstackPixels_pushAll (ps : List Byte) {s : State} (hm : s.MemOk) (h : s.xsp.toNat + ps.length ≤ 4096) :
    xstackPixels (s.pushAll ps) = ps.reverse ++ xstackPixels s := by
  induction ps generalizing s with
  | nil => rfl
  | cons p ps ih =>
    rw [List.length_cons] at h
    have hlt : s.xsp.toNat < 4096 := by omega
    obtain ⟨hf, hsp, -⟩ := pushX_frame p (s := s) hlt
    rw [State.pushAll_cons, ih (hf.memOk hm) (by omega), xstackPixels_pushX hm p hlt, List.reverse_cons, List.append_assoc,
      List.singleton_append]

theorem pushAll_xsp (ps : List Byte) {s : State} (h : s.xsp.toNat + ps.length ≤ 4096) :
    (s.pushAll ps).xsp.toNat = s.xsp.toNat + ps.length := by
  induction ps generalizing s with
  | nil => rfl
  | cons p ps ih =>
    rw [List.length_cons] at h
    obtain ⟨-, hsp, -⟩ := pushX_frame p (s := s) (show s.xsp.toNat < 4096 by omega)
    rw [State.pushAll_cons, ih (by omega), hsp, List.length_cons]
    omega

/-! ## The loop of an expansion -/

section
variable {k0 k : BitVec 12} {room : Nat} {s t : State}

theorem expandFrom_raw (h : k.toNat < s.dec.clear.toNat) :
    expandFrom k0 (room + 1) k s = .ok (s.pushX (k.setWidth 8)) := by
  rw [expandFrom, if_pos h]

theorem expandFrom_noEntry (h : s.noEntry k) : expandFrom k0 room k s = .error ⟨.undefinedEntry, k.toNat⟩ := by
  cases room with
  | zero => exact if_pos h
  | succ room => rw [expandFrom, if_neg (Nat.not_lt.mpr h.1), if_pos h.2]

theorem expandFrom_full (h : ¬ s.noEntry k) : expandFrom k0 0 k s = .error ⟨.expansionOverflow, k0.toNat⟩ :=
  if_neg h

theorem expandFrom_entry (h : s.hasEntry k) :
    expandFrom k0 (room + 1) k s = expandFrom k0 room (s.prefixOf k) (s.pushX (s.readEntry k.toNat).suf) := by
  obtain ⟨hclear, heoi, hnext⟩ := h
  rw [expandFrom, if_neg (Nat.not_lt.mpr hclear), if_neg (by omega)]
  rfl

/-- A code is a raw pixel, has no entry, or has one (R39, R184). -/
theorem code_cases (s : State) (k : BitVec 12) : k.toNat < s.dec.clear.toNat ∨ s.noEntry k ∨ s.hasEntry k := by
  unfold State.noEntry State.hasEntry
  omega

/-- The session and the table that a walk reads. -/
structure SameTable (s s' : State) : Prop where
  dec : s'.dec = s.dec
  dt : s'.dt = s.dt

theorem SameTable.hasEntry {s' : State} (h : SameTable s s') (hk : s.hasEntry k) : s'.hasEntry k := by
  unfold State.hasEntry
  rw [h.dec]
  exact hk

theorem SameTable.noEntry_iff {s' : State} (h : SameTable s s') : s'.noEntry k ↔ s.noEntry k := by
  unfold State.noEntry
  rw [h.dec]

theorem SameTable.readEntry {s' : State} (h : SameTable s s') (a : Nat) : s'.readEntry a = s.readEntry a := by
  unfold State.readEntry
  rw [h.dt]

theorem SameTable.pushX {s' : State} (h : SameTable s s') (p q : Byte) : SameTable (s.pushX p) (s'.pushX q) := ⟨h.dec, h.dt⟩

/-- A walk past a defined entry, in the terms of another state with that table. -/
theorem SameTable.expandFrom_entry {s' : State} (h : SameTable s s') (hk : s.hasEntry k) :
    expandFrom k0 (room + 1) k s' = expandFrom k0 room (s.prefixOf k) (s'.pushX (s.readEntry k.toNat).suf) := by
  rw [Machine.expandFrom_entry (h.hasEntry hk), State.prefixOf, h.readEntry]
  rfl

/-- A walk that reaches a raw pixel pushes at least one pixel, and the same pixels from every state with that session and table
and with room for them. -/
theorem expandFrom_pushes (h : expandFrom k0 room k s = .ok t) :
    ∃ ps, ps ≠ [] ∧ ps.length ≤ room ∧ t = s.pushAll ps ∧ ∀ (k1 : BitVec 12) (room' : Nat) (s' : State),
      SameTable s s' → ps.length ≤ room' → expandFrom k1 room' k s' = .ok (s'.pushAll ps) := by
  induction room generalizing k s with
  | zero =>
    unfold expandFrom at h
    split at h <;> cases h
  | succ room ih =>
    rcases code_cases s k with hraw | hno | hentry
    · rw [expandFrom_raw hraw] at h
      obtain rfl := Except.ok.inj h
      refine ⟨[k.setWidth 8], List.cons_ne_nil _ _, Nat.succ_le_succ (Nat.zero_le _), rfl, fun k1 room' s' hs hroom => ?_⟩
      obtain ⟨r, rfl⟩ := Nat.exists_eq_add_of_le' hroom
      exact expandFrom_raw (hs.dec ▸ hraw)
    · rw [expandFrom_noEntry hno] at h
      cases h
    · rw [expandFrom_entry hentry] at h
      obtain ⟨ps, -, hlen, rfl, hps⟩ := ih h
      refine ⟨(s.readEntry k.toNat).suf :: ps, List.cons_ne_nil _ _, Nat.succ_le_succ hlen, rfl,
        fun k1 room' s' hs hroom => ?_⟩
      obtain ⟨r, rfl⟩ : ∃ r, room' = r + 1 := Nat.exists_eq_add_one_of_ne_zero (Nat.ne_of_gt (Nat.zero_lt_of_lt hroom))
      rw [hs.expandFrom_entry hentry]
      exact hps k1 r _ (hs.pushX _ _) (Nat.le_of_succ_le_succ hroom)

/-- A walk too long for XSTACK is too long for less room too, and reports the code whose expansion it is (R184). -/
theorem expandFrom_overflow {k1 : BitVec 12} {room' c : Nat} {s' : State}
    (h : expandFrom k0 room k s = .error ⟨.expansionOverflow, c⟩) (hs : SameTable s s') (hroom : room' ≤ room) :
    expandFrom k1 room' k s' = .error ⟨.expansionOverflow, k1.toNat⟩ := by
  have hno : ¬ s.noEntry k := fun hno => by
    rw [expandFrom_noEntry hno] at h
    cases h
  induction room generalizing k s s' room' with
  | zero =>
    obtain rfl := Nat.le_zero.mp hroom
    exact expandFrom_full (mt hs.noEntry_iff.mp hno)
  | succ room ih =>
    cases room' with
    | zero => exact expandFrom_full (mt hs.noEntry_iff.mp hno)
    | succ room' =>
      rcases code_cases s k with hraw | hno' | hentry
      · rw [expandFrom_raw hraw] at h
        cases h
      · exact absurd hno' hno
      · rw [expandFrom_entry hentry] at h
        rw [hs.expandFrom_entry hentry]
        refine ih h (hs.pushX _ _) (Nat.le_of_succ_le_succ hroom) fun hno' => ?_
        rw [expandFrom_noEntry hno'] at h
        cases h

end

/-! ## Expansion -/

section
variable {k : BitVec 12} {s t : State} {pixels : List Byte}

/-- An expansion starts with XSTACK empty. -/
def State.emptyX (s : State) : State := s.setXstack s.xstack 0#13

theorem expand_eq (k : BitVec 12) (s : State) :
    expand k s = expandFrom k (4095 + 1) k s.emptyX >>= fun u => .ok (xstackPixels u, u) := rfl

theorem emptyX_memOk (hm : s.MemOk) : s.emptyX.MemOk := ⟨hm.pixmem, hm.codemem, hm.st, hm.dt, hm.xstack⟩

/-- The pixels of an expansion are those pushed, the last one first. -/
theorem xstackPixels_emptyX (hm : s.MemOk) {ps : List Byte} (h : ps.length ≤ 4096) :
    xstackPixels (s.emptyX.pushAll ps) = ps.reverse := by
  have hroom : s.emptyX.xsp.toNat + ps.length ≤ 4096 := (Nat.zero_add _).trans_le h
  exact (xstackPixels_pushAll ps (emptyX_memOk hm) hroom).trans (List.append_nil _)

/-- What an expansion that succeeds pushed, in XSTACK from the bottom and in a walk from any state with that table. -/
theorem expand_pushes (h : expand k s = .ok (pixels, t)) :
    ∃ ps, ps ≠ [] ∧ ps.length ≤ 4096 ∧ pixels = xstackPixels (s.emptyX.pushAll ps) ∧
      ∀ (k1 : BitVec 12) (room : Nat) (s' : State), SameTable s s' → ps.length ≤ room →
        expandFrom k1 room k s' = .ok (s'.pushAll ps) := by
  rw [expand_eq] at h
  obtain ⟨u, hu, h⟩ := bind_ok_iff.mp h
  obtain ⟨rfl, -⟩ := Prod.mk.inj (Except.ok.inj h)
  obtain ⟨ps, hne, hlen, rfl, hps⟩ := expandFrom_pushes hu
  exact ⟨ps, hne, hlen, rfl, fun k1 room s' hs => hps k1 room s' ⟨hs.dec, hs.dt⟩⟩

/-- No expansion is empty (R184). -/
theorem expand_ne_nil (h : expand k s = .ok (pixels, t)) : pixels ≠ [] := by
  obtain ⟨ps, hne, hlen, rfl, -⟩ := expand_pushes h
  have hsp : (s.emptyX.pushAll ps).xsp.toNat = 0 + ps.length := pushAll_xsp ps ((Nat.zero_add _).trans_le hlen)
  have hpos := List.length_pos_iff.mpr hne
  rw [← List.length_pos_iff, xstackPixels, List.length_map, List.length_reverse, List.length_range, hsp]
  omega

theorem expand_raw (hm : s.MemOk) (h : k.toNat < s.dec.clear.toNat) :
    expand k s = .ok ([k.setWidth 8], s.emptyX.pushX (k.setWidth 8)) := by
  have hpixels : xstackPixels (s.emptyX.pushX (k.setWidth 8)) = [k.setWidth 8] :=
    xstackPixels_emptyX (ps := [k.setWidth 8]) hm (Nat.succ_le_succ (Nat.zero_le _))
  rw [expand_eq, expandFrom_raw (s := s.emptyX) h, ok_bind, hpixels]

theorem expand_noEntry (h : s.noEntry k) : expand k s = .error ⟨.undefinedEntry, k.toNat⟩ := by
  rw [expand_eq, expandFrom_noEntry (s := s.emptyX) h, error_bind]

/-- The walk from a defined code is that from the code its entry names, with the suffix already in XSTACK. -/
theorem expand_hasEntry (hk : s.hasEntry k) :
    expand k s = expandFrom k 4095 (s.prefixOf k) (s.emptyX.pushX (s.readEntry k.toNat).suf) >>= fun u =>
      .ok (xstackPixels u, u) := by
  rw [expand_eq, expandFrom_entry (s := s.emptyX) hk]
  rfl

theorem expand_entry (hm : s.MemOk) (hk : s.hasEntry k) (h : expand (s.prefixOf k) s = .ok (pixels, t))
    (hroom : pixels.length < 4096) : ∃ u, expand k s = .ok (pixels ++ [(s.readEntry k.toNat).suf], u) := by
  obtain ⟨ps, -, hlen, rfl, hps⟩ := expand_pushes h
  rw [xstackPixels_emptyX hm hlen] at hroom ⊢
  rw [List.length_reverse] at hroom
  have hwalk : expandFrom k 4095 (s.prefixOf k) (s.emptyX.pushX (s.readEntry k.toNat).suf) =
      .ok (s.emptyX.pushAll ((s.readEntry k.toNat).suf :: ps)) := hps k 4095 _ ⟨rfl, rfl⟩ (Nat.le_of_lt_succ hroom)
  refine ⟨s.emptyX.pushAll ((s.readEntry k.toNat).suf :: ps), ?_⟩
  rw [expand_hasEntry hk, hwalk, ok_bind, xstackPixels_emptyX (ps := _ :: ps) hm hroom, List.reverse_cons]

theorem expand_overflow (hk : s.hasEntry k) {c : Nat} (h : expand (s.prefixOf k) s = .error ⟨.expansionOverflow, c⟩) :
    expand k s = .error ⟨.expansionOverflow, k.toNat⟩ := by
  rw [expand_eq] at h
  rcases bind_error_iff.mp h with hwalk | ⟨_, _, hok⟩
  · have hshort : expandFrom k 4095 (s.prefixOf k) (s.emptyX.pushX (s.readEntry k.toNat).suf) =
        .error ⟨.expansionOverflow, k.toNat⟩ := expandFrom_overflow hwalk ⟨rfl, rfl⟩ (Nat.le_succ _)
    rw [expand_hasEntry hk, hshort, error_bind]
  · cases hok

end

/-- Settles O47: a walk pushes the same pixels after one push as before it (`expandFrom_pushes`), and with less room overflows
where it did with more (`expandFrom_overflow`); a walk to a code without an entry is never too long (`expand_undefined`). -/
theorem expandLaw : Obligations.ExpandLaw := by
  intro k s hm
  refine ⟨fun h => ⟨_, expand_raw hm h⟩, fun hclear h => expand_noEntry ⟨hclear, h⟩, fun hclear heoi hnext => ?_⟩
  have hk : s.hasEntry k := ⟨hclear, heoi, hnext⟩
  exact ⟨fun pixels t => expand_entry hm hk, expand_overflow hk, fun c => expand_undefined hk⟩

end Sys2Proof.Machine
end

section
/-! SUPPORT. One D_STEP (R183): what each kind of code does, and what D_Code does from every state whose expansion is known
(R185 to R187, R190). -/

namespace Sys2Proof.Machine

/-! ## Output -/

/-- A string emitted in two parts. -/
theorem dEmitSeq_append (ps qs : List Byte) (s : State) : dEmitSeq (ps ++ qs) s = dEmitSeq ps s >>= dEmitSeq qs := by
  induction ps generalizing s with
  | nil => rfl
  | cons p ps ih =>
    rw [List.cons_append, dEmitSeq, dEmitSeq]
    cases dEmit p s with
    | error r => rfl
    | ok t => exact ih t

theorem dEmitSeq_singleton (p : Byte) (s : State) : dEmitSeq [p] s = dEmit p s := by
  rw [dEmitSeq]
  cases dEmit p s with
  | error r => rfl
  | ok t => rfl

section
variable {p : Byte} {s : State}

theorem dEmit_room (h : s.dec.out.toNat < s.pixCap) :
    dEmit p s = .ok ((s.writePix s.dec.out.toNat p).setDec { s.dec with out := s.dec.out + 1#25 }) :=
  if_neg (Nat.not_le.mpr h)

theorem dEmit_atCap (h : s.pixCap ≤ s.dec.out.toNat) : dEmit p s = .error ⟨.pixOverflow, s.dec.out.toNat⟩ := if_pos h

/-- Pixels that fit in PIXMEM are emitted, from every state (R190). -/
theorem dEmitSeq_room {ps : List Byte} (h : s.dec.out.toNat + ps.length ≤ s.pixCap) : ∃ t, dEmitSeq ps s = .ok t := by
  induction ps generalizing s with
  | nil => exact ⟨s, rfl⟩
  | cons p ps ih =>
    rw [List.length_cons] at h
    obtain ⟨u, hu⟩ : ∃ u, dEmit p s = .ok u := ⟨_, dEmit_room (by omega)⟩
    obtain ⟨hf, hout, -⟩ := dEmit_frame hu
    have hcap : u.pixCap = s.pixCap := by simp only [State.pixCap, hf.pixLast]
    rw [dEmitSeq, hu, ok_bind]
    exact ih (by rw [hout, hcap]; omega)

end

/-! ## D_First and D_Clear -/

section
variable {c r : BitVec 12} {s t u : State}

theorem dFirst_notAPixel (h : s.dec.clear.toNat ≤ c.toNat) : dFirst c s = .error ⟨.notAPixel, c.toNat⟩ := if_pos h

theorem dFirst_pixel (h : c.toNat < s.dec.clear.toNat) :
    dFirst c s = dEmit (c.setWidth 8) s >>= fun u => .ok (u.setDec { u.dec with prev := c, phase := .run }) :=
  if_neg (Nat.not_le.mpr h)

theorem dFirst_phase (h : dFirst c s = .ok u) : u.dec.phase = .run := by
  by_cases hc : s.dec.clear.toNat ≤ c.toNat
  · rw [dFirst_notAPixel hc] at h
    cases h
  · rw [dFirst_pixel (Nat.lt_of_not_le hc)] at h
    obtain ⟨v, -, h⟩ := bind_ok_iff.mp h
    obtain rfl := Except.ok.inj h
    rfl

theorem dClear_exhausted (h : crRead (decInitSession s).dec.w.toNat (decInitSession s) = none) :
    dClear s = .ok ((decInitSession s).setDec { (decInitSession s).dec with phase := .done }) := by
  rw [dClear, h]

/-! ## D_Code -/

/-- D_Code emits the string of R187, whole: its KwKwK case ends in the first pixel again. -/
theorem dCode_emits (c : BitVec 12) (s : State) :
    dCode c s = expand (if c.toNat < s.dec.next.toNat then c else s.dec.prev) s >>= fun r =>
      dEmitSeq (if c.toNat < s.dec.next.toNat then r.1 else r.1 ++ [r.1.headD 0#8]) r.2 >>= fun u =>
        .ok ((dAddEntry (r.1.headD 0#8) u).setDec { (dAddEntry (r.1.headD 0#8) u).dec with prev := c }) := by
  rw [dCode_eq]
  by_cases hc : c.toNat < s.dec.next.toNat
  · simp only [hc, decide_true, if_true, dRepeat, ok_bind]
  · simp only [hc, decide_false, Bool.false_eq_true, if_false, dRepeat, dEmitSeq_append, bind_assoc,
      dEmitSeq_singleton]

theorem dCode_phase (h : dCode c s = .ok u) : u.dec.phase = s.dec.phase := by
  rw [dCode_emits] at h
  obtain ⟨⟨ps, v⟩, hv, h⟩ := bind_ok_iff.mp h
  obtain ⟨w, hw, h⟩ := bind_ok_iff.mp h
  obtain rfl := Except.ok.inj h
  obtain ⟨-, hve⟩ := expand_frame hv
  obtain ⟨hwd, -⟩ := dEmitSeq_dec hw
  change (dAddEntry (ps.headD 0#8) w).dec.phase = _
  rw [dAddEntry_phase, hwd, hve]

/-! ## D_STEP -/

theorem dStep_exhausted (h : crRead s.dec.w.toNat s = none) : dStep s = .ok (s.setDec { s.dec with phase := .done }) := by
  rw [dStep, h]

theorem dStep_eoi (h : crRead s.dec.w.toNat s = some (r, t)) (hr : r.toNat = t.dec.eoi.toNat) :
    dStep s = .ok (t.setDec { t.dec with phase := .done }) := by
  rw [dStep, h]
  exact if_pos hr

/-- A code that is not EOI is handled, and then the width grows unless the run is over. -/
theorem dStep_code (h : crRead s.dec.w.toNat s = some (r, t)) (hr : r.toNat ≠ t.dec.eoi.toNat) :
    dStep s = dHandle r t >>= fun u => .ok (if u.dec.phase = .done then u else dGrow u) := by
  rw [dStep, h]
  exact if_neg hr

theorem dHandle_clear (h : r.toNat = s.dec.clear.toNat) : dHandle r s = dClear s := if_pos h

theorem dHandle_first (h : r.toNat ≠ s.dec.clear.toNat) (hp : s.dec.phase = .first) : dHandle r s = dFirst r s := by
  rw [dHandle, if_neg h, if_pos hp]

theorem dHandle_run (h : r.toNat ≠ s.dec.clear.toNat) (hp : s.dec.phase = .run) : dHandle r s = dCode r s := by
  rw [dHandle, if_neg h, if_neg (by rw [hp]; decide)]

/-- A code whose handling leaves the run in the phase RUN, and the width then grows; an error of it is the step's. -/
theorem dStep_running {handled : Except Raise State} (h : crRead s.dec.w.toNat s = some (r, t))
    (hr : r.toNat ≠ t.dec.eoi.toNat) (hh : dHandle r t = handled) (hp : ∀ u, handled = .ok u → u.dec.phase = .run) :
    (∀ u, handled = .ok u → dStep s = .ok (dGrow u)) ∧ ∀ e, handled = .error e → dStep s = .error e := by
  rw [dStep_code h hr, hh]
  refine ⟨fun u hu => ?_, fun e he => by rw [he, error_bind]⟩
  have hrun : ¬ u.dec.phase = .done := by
    rw [hp u hu]
    decide
  rw [hu, ok_bind, if_neg hrun]

end

/-- Settles O44: D_First emits a raw pixel or raises (`dFirst_pixel`, `dFirst_notAPixel`), a loop CLEAR is followed by D_First
(`dClear_eq_first`) or the end, and D_STEP runs the case of its code (`dStep_code`), D_First never ending the run
(`dFirst_phase`). -/
theorem decPixelAfterClear : Obligations.DecPixelAfterClear := by
  refine ⟨fun c s => dFirst_notAPixel, fun c s hc hroom => ?pixel, fun c s hc hfull => ?full, fun s => dClear_exhausted,
    fun s t r => dClear_eq_first, fun s => dStep_exhausted, fun s t r => dStep_eoi, fun s t r h hr hclear => ?clear,
    fun s t r h hr hclear hp => dStep_running h hr (dHandle_first hclear hp) fun u => dFirst_phase⟩
  case pixel =>
    rw [dFirst_pixel hc, dEmit_room hroom, ok_bind]
    rfl
  case full => rw [dFirst_pixel hc, dEmit_atCap hfull, error_bind]
  case clear =>
    rw [dStep_code h hr, dHandle_clear hclear]
    exact ⟨fun u hu => by rw [hu, ok_bind], fun e he => by rw [he, error_bind]⟩

/-- Settles O45: the string that D_Code emits is one string in both of its cases (`dCode_emits`), so its errors are those of the
expansion and of that one output (`dEmitSeq_room`, `dEmitSeq_full`), and D_Code keeps the phase RUN (`dCode_phase`). -/
theorem decCodeEmitsAndEnters : Obligations.DecCodeEmitsAndEnters := by
  refine ⟨fun c s t pixels h => ⟨expand_ne_nil h, fun u hu => ?ok, fun e he => ?error⟩, fun c s e h => ?expansion,
    fun pixels s hout => ⟨dEmitSeq_room, dEmitSeq_full pixels hout⟩,
    fun s t r h hr hclear hp => dStep_running h hr (dHandle_run hclear hp) fun u hu => (dCode_phase hu).trans hp⟩
  case ok => rw [dCode_emits, h, ok_bind, hu, ok_bind]
  case error => rw [dCode_emits, h, ok_bind, he, error_bind]
  case expansion => rw [dCode_emits, h, error_bind]

end Sys2Proof.Machine
end

section
/-! SUPPORT. The decoder as a command (R180, R182, R191, R192): the checks of its operands, the errors of its opening read, and
what a run that ends can answer. -/

namespace Sys2Proof.Machine

section
variable {bpp : BitVec 4} {len : BitVec 32} {s t : State}

theorem exec_decRun_badDepth (he : s.err = 0#8) (hb : ¬ legalBpp bpp) :
    exec (.decRun bpp len) s = .next (raise ⟨.badDepth, bpp.toNat⟩ s) := by
  change execDecRun bpp len s = _
  rw [execDecRun, unlessError_ready he, if_pos hb]

theorem exec_decRun_range (he : s.err = 0#8) (hb : legalBpp bpp) (hlen : s.codeCap < len.toNat) :
    exec (.decRun bpp len) s = .next (raise (.range .len) s) := by
  change execDecRun bpp len s = _
  rw [execDecRun, unlessError_ready he, if_neg (not_not.mpr hb), if_pos hlen]

end

/-! ## The opening read -/

section
variable {b : BitVec 4} {n : Nat} {s : State}

/-- The state from which a run reads its opening code (R182). -/
def decOpening (b : BitVec 4) (n : Nat) (s : State) : State := dBegin n (s.setDec { s.dec with bpp := b })

theorem decOpening_w (hb : legalBpp b) : (decOpening b n s).dec.w.toNat = b.toNat + 1 := by
  have hb8 := hb.2
  change (b + 1#4).toNat = _
  rw [BitVec.toNat_add, BitVec.toNat_ofNat]
  omega

theorem decOpening_clear (hb : legalBpp b) : (decOpening b n s).dec.clear.toNat = 2 ^ b.toNat :=
  (dBegin_decOk n (s := s.setDec { s.dec with bpp := b }) hb).clear

theorem decOpening_setup (b : BitVec 4) (n : Nat) (s : State) : DecSetup n s (decOpening b n s) :=
  .setDec _ (dBegin_setup n _)

theorem decOpening_len (hn : n ≤ s.codeCap) : (decOpening b n s).cr.len.toNat = n := by
  have hcap := codeCap_le s
  rw [(decOpening_setup b n s).len, BitVec.toNat_ofNat, Nat.mod_eq_of_lt (by omega)]

theorem decOpening_bitpos : (decOpening b n s).cr.bitpos.toNat = 0 := by
  rw [(decOpening_setup b n s).bitpos]
  rfl

theorem decOpening_crOk (hn : n ≤ s.codeCap) : (decOpening b n s).CrOk := by
  have hcap : (decOpening b n s).codeCap = s.codeCap := by simp only [State.codeCap, (decOpening_setup b n s).codeLast]
  exact ⟨by rwa [decOpening_len hn, hcap], by rw [decOpening_bitpos]; exact Nat.zero_le _⟩

theorem decRun_exhausted (h : crRead (decOpening b n s).dec.w.toNat (decOpening b n s) = none) :
    decRun b n s = .error ⟨.noMoreCode, 0⟩ := by
  have hinit : dInit n (s.setDec { s.dec with bpp := b }) = .error ⟨.noMoreCode, 0⟩ := by
    unfold decOpening at h
    rw [dInit, h]
    rfl
  rw [decRun, hinit, error_bind]

theorem decRun_otherCode {r : BitVec 12} {t : State}
    (h : crRead (decOpening b n s).dec.w.toNat (decOpening b n s) = some (r, t)) (hr : r.toNat ≠ t.dec.clear.toNat) :
    decRun b n s = .error ⟨.notAClearCode, r.toNat⟩ := by
  have hinit : dInit n (s.setDec { s.dec with bpp := b }) = .error ⟨.notAClearCode, r.toNat⟩ := by
    unfold decOpening at h
    rw [dInit, h]
    exact if_pos hr
  rw [decRun, hinit, error_bind]

/-- A stream shorter than the opening code (R182). -/
theorem decRun_short (hb : legalBpp b) (hn : n ≤ s.codeCap) (hbits : 8 * n < b.toNat + 1) :
    decRun b n s = .error ⟨.noMoreCode, 0⟩ := by
  refine decRun_exhausted (crRead_none.mpr ?_)
  rw [decOpening_len hn, decOpening_bitpos, decOpening_w hb]
  omega

/-- A stream that opens with another code than CLEAR (R182). -/
theorem decRun_notClear (hb : legalBpp b) (hn : n ≤ s.codeCap) (hbits : b.toNat + 1 ≤ 8 * n)
    (hopen : codeAt (streamBit s.codemem) 0 (b.toNat + 1) ≠ 2 ^ b.toNat) :
    decRun b n s = .error ⟨.notAClearCode, codeAt (streamBit s.codemem) 0 (b.toNat + 1)⟩ := by
  have hb8 := hb.2
  obtain ⟨r, t, hread, hr, -, -, hdec, -⟩ := crRead_codeAt (w := b.toNat + 1) (by omega) (decOpening_crOk (b := b) hn)
    (by rw [decOpening_bitpos, decOpening_len hn]; omega)
  rw [(decOpening_setup b n s).codemem, decOpening_bitpos] at hr
  rw [← hr] at hopen ⊢
  refine decRun_otherCode (t := t) ?read ?other
  case read => rwa [decOpening_w hb]
  case other => rwa [hdec, decOpening_clear hb]

end

/-- Settles O40: the encoder's word, the two checks in their order (`exec_decRun_badDepth`, `exec_decRun_range`), and the two
answers of the opening read that are no CLEAR (`decRun_short`, `decRun_notClear`). -/
theorem decRunOpeningChecks : Obligations.DecRunOpeningChecks := by
  refine ⟨fun bpp len => spelledAs_of_encode ?asm rfl, rejectsReserved_all _, fun bpp len s => exec_decRun_badDepth,
    fun bpp len s he hb1 hb8 => exec_decRun_range he ⟨hb1, hb8⟩, fun bpp len s he hb1 hb8 hlen hbits => ?short,
    fun bpp len s he hb1 hb8 hlen hbits hopen => ?notClear⟩
  case asm => simp [assemble, Instr.mnemonic, bpp.isLt, len.isLt]
  case short => exact ⟨_, exec_decRun_error he ⟨hb1, hb8⟩ hlen (decRun_short ⟨hb1, hb8⟩ hlen hbits), rfl, rfl⟩
  case notClear =>
    exact ⟨_, exec_decRun_error he ⟨hb1, hb8⟩ hlen (decRun_notClear ⟨hb1, hb8⟩ hlen hbits hopen), rfl, rfl⟩

/-! ## What DEC_RUN answers -/

/-- The errors of DEC_RUN: those of its operand checks (R180) and those of R192. -/
def decError (k : ErrorKind) : Prop := k = .badDepth ∨ k = .range ∨ k = .noMoreCode ∨ k = .notAClearCode ∨ loopError k

theorem decError_code {k : ErrorKind} (h : decError k) :
    0x03 ≤ k.code.toNat ∧ k.code.toNat ≤ 0x07 ∨ k.code = 0x09#8 ∨ k.code = 0x0B#8 ∨ k.code = 0x0C#8 := by
  rcases h with rfl | rfl | rfl | rfl | rfl | rfl | rfl | rfl <;> decide

section
variable {bpp : BitVec 4} {len : BitVec 32} {s t : State}

/-- What DEC_RUN can answer with ERR 0: the end of a run, or an error, raised before the run (R243) or in it (R246). -/
theorem exec_decRun_cases (he : s.err = 0#8) (h : exec (.decRun bpp len) s = .next t) :
    (∃ u, len.toNat ≤ s.codeCap ∧ decRun bpp len.toNat s = .ok u ∧ t = forgetDec u) ∨
    ∃ r, decError r.kind ∧ (t = raise r s ∨ t = failDec r s) := by
  by_cases hb : legalBpp bpp
  · by_cases hlen : len.toNat ≤ s.codeCap
    · cases hrun : decRun bpp len.toNat s with
      | ok u => exact .inl ⟨u, hlen, rfl, Host.Outcome.next.inj (h.symm.trans (exec_decRun_ok he hb hlen hrun))⟩
      | error r =>
        exact .inr ⟨r, .inr (.inr (decRun_error hrun)),
          .inr (Host.Outcome.next.inj (h.symm.trans (exec_decRun_error he hb hlen hrun)))⟩
    · exact .inr ⟨_, .inr (.inl rfl),
        .inl (Host.Outcome.next.inj (h.symm.trans (exec_decRun_range he hb (Nat.lt_of_not_le hlen))))⟩
  · exact .inr ⟨_, .inl rfl, .inl (Host.Outcome.next.inj (h.symm.trans (exec_decRun_badDepth he hb)))⟩

/-- A DEC_RUN that answers ERR 0 is one whose run succeeds: either kind of error sets ERR (R244). -/
theorem exec_decRun_succeeds (he : s.err = 0#8) (h : exec (.decRun bpp len) s = .next t) (ht : t.err = 0#8) :
    ∃ u, len.toNat ≤ s.codeCap ∧ decRun bpp len.toNat s = .ok u ∧ t = forgetDec u := by
  rcases exec_decRun_cases he h with hrun | ⟨r, -, rfl | rfl⟩
  · exact hrun
  · exact absurd ht r.kind.code_ne_zero
  · exact absurd ht r.kind.code_ne_zero

/-- A DEC_RUN that answers another ERR has raised it: a run that succeeds keeps ERR (`decRun_frame`). -/
theorem exec_decRun_fails (he : s.err = 0#8) (h : exec (.decRun bpp len) s = .next t) (ht : t.err ≠ 0#8) :
    ∃ r, decError r.kind ∧ (t = raise r s ∨ t = failDec r s) := by
  rcases exec_decRun_cases he h with ⟨u, hlen, hrun, rfl⟩ | hraise
  · obtain ⟨hu, -⟩ := decRun_frame hlen hrun
    rw [forgetDec_err, hu] at ht
    exact absurd he ht
  · exact hraise

end

/-- Settles O43: a run that succeeds leaves what `decRun_frame` says; an error raised before the run or in it is one of
`decError`, and what it leaves is written out in `raise` and `failDec`. -/
theorem decRunLeaves : Obligations.DecRunLeaves := by
  intro bpp len s t he h
  refine ⟨fun ht => ?success, fun ht => ?failure⟩
  case success =>
    obtain ⟨u, hlen, hrun, rfl⟩ := exec_decRun_succeeds he h ht
    obtain ⟨hu, hres0, hres1, hcrlen, -, houtside, -⟩ := decRun_frame hlen hrun
    have hcap := codeCap_le s
    refine ⟨by rw [hu]; rfl, ?len, ?bitpos, fun a ha => houtside a ?outside⟩
    case len => rw [forgetDec_cr, hcrlen, BitVec.toNat_ofNat, Nat.mod_eq_of_lt (by omega)]
    case bitpos => rw [forgetDec_cr, forgetDec_res1, hres1, toNat_zext64 (by omega)]
    case outside => rwa [forgetDec_res0, hres0, toNat_zext64 (by omega)] at ha
  case failure =>
    obtain ⟨r, hr, rfl | rfl⟩ := exec_decRun_fails he h ht
    · exact ⟨decError_code hr, rfl⟩
    · exact ⟨decError_code hr, rfl⟩

end Sys2Proof.Machine
end

section
/-! SUPPORT. The pixel-address translator (46_pixel_address.md): its arithmetic in the generic form of R217, what each of its
commands answers from every state with ERR 0 (R210 to R215), and the properties of R218. -/

namespace Sys2Proof.Machine

/-! ## The generic form (R217) -/

theorem colByte_eq (d : Depth) (x : BitVec 24) : colByte d x = x.toNat * bitsPerPixel d / 8 := by
  cases d <;> simp only [colByte, bitsPerPixel] <;> omega

theorem bitOff_eq (d : Depth) (x : BitVec 24) :
    bitOff d x = if bitsPerPixel d < 8 then 8 - bitsPerPixel d - x.toNat * bitsPerPixel d % 8 else 0 := by
  cases d with
  | bpp1 => simp [bitOff, bitsPerPixel]
  | bpp4 =>
    simp only [bitOff, bitsPerPixel, Nat.reduceLT, if_true]
    split <;> omega
  | bpp8 => rfl
  | bpp24 => rfl

theorem rowLen_eq (pa : PaRegs) : rowLen pa = (pa.width.toNat * bitsPerPixel pa.depth + 7) / 8 := by
  obtain ⟨d, w, h, o⟩ := pa
  cases d <;> simp only [rowLen, bitsPerPixel] <;> omega

theorem rowIdx_eq (pa : PaRegs) (y : BitVec 24) :
    rowIdx pa y = if pa.order = .bottomToTop then pa.height.toNat - 1 - y.toNat else y.toNat := by
  obtain ⟨d, w, h, o⟩ := pa
  cases o <;> rfl

/-- Settles O54: each helper function at each depth (`colByte_eq`, `bitOff_eq`, `rowLen_eq`). -/
theorem genericForm : Obligations.GenericForm := by
  refine ⟨colByte_eq, fun d x hd => ?_, fun _ => ⟨rfl, rfl⟩, rowLen_eq⟩
  have hbits : bitsPerPixel d < 8 := by rcases hd with rfl | rfl <;> decide
  rw [bitOff_eq, if_pos hbits]

/-! ## The place of a pixel in the raster -/

theorem rowLen_le (pa : PaRegs) : rowLen pa ≤ 3 * (2 ^ 24 - 1) := by
  have hw := pa.width.isLt
  obtain ⟨d, w, h, o⟩ := pa
  cases d <;> simp only [rowLen] at hw ⊢ <;> omega

theorem bitOff_le (d : Depth) (x : BitVec 24) : bitOff d x ≤ 7 := by
  rw [bitOff_eq]
  have hbits : 1 ≤ bitsPerPixel d := by cases d <;> decide
  split <;> omega

/-- The byte offset of a pixel (R212). -/
def byteOff (pa : PaRegs) (x y : BitVec 24) : Nat := rowIdx pa y * rowLen pa + colByte pa.depth x

section
variable {pa : PaRegs} {x y x' y' : BitVec 24}

theorem colByte_lt (hx : x.toNat < pa.width.toNat) : colByte pa.depth x < rowLen pa := by
  obtain ⟨d, w, h, o⟩ := pa
  cases d <;> simp only [colByte, rowLen] at hx ⊢ <;> omega

theorem rowIdx_lt (hy : y.toNat < pa.height.toNat) : rowIdx pa y < pa.height.toNat := by
  rw [rowIdx_eq]
  split <;> omega

theorem rowIdx_injective (hy : y.toNat < pa.height.toNat) (hy' : y'.toNat < pa.height.toNat)
    (h : rowIdx pa y = rowIdx pa y') : y = y' := by
  simp only [rowIdx_eq] at h
  apply BitVec.eq_of_toNat_eq
  split at h <;> omega

/-- Below 24 bpp a column byte and a bit offset in it belong to one column. -/
theorem column_injective {d : Depth} (hd : d ≠ .bpp24) (hcol : colByte d x = colByte d x')
    (hbit : bitOff d x = bitOff d x') : x = x' := by
  apply BitVec.eq_of_toNat_eq
  cases d with
  | bpp1 => simp only [colByte, bitOff] at hcol hbit; omega
  | bpp4 =>
    simp only [colByte, bitOff] at hcol hbit
    split at hbit <;> split at hbit <;> omega
  | bpp8 => exact hcol
  | bpp24 => exact absurd rfl hd

theorem byteOff_lt (hx : x.toNat < pa.width.toNat) (hy : y.toNat < pa.height.toNat) :
    byteOff pa x y < rowLen pa * pa.height.toNat := by
  have hcol := colByte_lt hx
  calc byteOff pa x y < (rowIdx pa y + 1) * rowLen pa := by rw [byteOff, Nat.succ_mul]; omega
    _ ≤ pa.height.toNat * rowLen pa := Nat.mul_le_mul_right _ (rowIdx_lt hy)
    _ = rowLen pa * pa.height.toNat := Nat.mul_comm _ _

/-- An offset of R212 never wraps: RES0 has 64 bits. -/
theorem byteOff_lt_pow (hx : x.toNat < pa.width.toNat) (hy : y.toNat < pa.height.toNat) : byteOff pa x y < 2 ^ 51 := by
  have hheight := pa.height.isLt
  calc byteOff pa x y < rowLen pa * pa.height.toNat := byteOff_lt hx hy
    _ ≤ 3 * (2 ^ 24 - 1) * 2 ^ 24 := Nat.mul_le_mul (rowLen_le pa) (by omega)
    _ ≤ 2 ^ 51 := by decide

/-- Rows of n cells: the number of a cell gives its row and its column. -/
theorem row_col_unique {n r c r' c' : Nat} (hc : c < n) (hc' : c' < n) (h : r * n + c = r' * n + c') :
    r = r' ∧ c = c' := by
  have hn : 0 < n := Nat.zero_lt_of_lt hc
  obtain ⟨hrow, hcol⟩ := (Nat.div_mod_unique (a := r * n + c) (d := r) hn).mpr ⟨by ring, hc⟩
  obtain ⟨hrow', hcol'⟩ := (Nat.div_mod_unique (a := r * n + c) (d := r') hn).mpr ⟨by rw [h]; ring, hc'⟩
  exact ⟨hrow.symm.trans hrow', hcol.symm.trans hcol'⟩

/-- Below 24 bpp two pixels of the image with the same byte and the same bit offset are one pixel (R218). -/
theorem pixel_unique (hd : pa.depth ≠ .bpp24) (hx : x.toNat < pa.width.toNat) (hy : y.toNat < pa.height.toNat)
    (hx' : x'.toNat < pa.width.toNat) (hy' : y'.toNat < pa.height.toNat) (hbyte : byteOff pa x y = byteOff pa x' y')
    (hbit : bitOff pa.depth x = bitOff pa.depth x') : (x, y) = (x', y') := by
  obtain ⟨hrow, hcol⟩ := row_col_unique (colByte_lt hx) (colByte_lt hx') hbyte
  rw [column_injective hd hcol hbit, rowIdx_injective hy hy' hrow]

/-- At 24 bpp the byte offset is three times the number of the pixel in the raster. -/
theorem byteOff_bpp24 (hd : pa.depth = .bpp24) : byteOff pa x y = 3 * (rowIdx pa y * pa.width.toNat + x.toNat) := by
  rw [byteOff, rowLen_eq, colByte_eq, hd, bitsPerPixel, show (pa.width.toNat * 24 + 7) / 8 = 3 * pa.width.toNat by omega,
    show x.toNat * 24 / 8 = 3 * x.toNat by omega, Nat.mul_left_comm, Nat.mul_add]

/-- At 24 bpp the three bytes of two different pixels are disjoint (R218): their numbers differ. -/
theorem pixel_disjoint (hd : pa.depth = .bpp24) (hx : x.toNat < pa.width.toNat) (hy : y.toNat < pa.height.toNat)
    (hx' : x'.toNat < pa.width.toNat) (hy' : y'.toNat < pa.height.toNat) (hne : (x, y) ≠ (x', y')) :
    byteOff pa x y + 3 ≤ byteOff pa x' y' ∨ byteOff pa x' y' + 3 ≤ byteOff pa x y := by
  have hnumber : rowIdx pa y * pa.width.toNat + x.toNat ≠ rowIdx pa y' * pa.width.toNat + x'.toNat := by
    intro h
    obtain ⟨hrow, hcol⟩ := row_col_unique hx hx' h
    exact hne (by rw [BitVec.eq_of_toNat_eq hcol, rowIdx_injective hy hy' hrow])
  rw [byteOff_bpp24 hd, byteOff_bpp24 hd]
  omega

end

/-! ## PA_CONFIG and PA_ROWLEN (R210, R211) -/

/-- Settles O49: the word is `encode`'s, and PA_CONFIG checks nothing but ERR (R245). -/
theorem paConfigWritesTheRegisters : Obligations.PaConfigWritesTheRegisters := by
  refine ⟨fun depth width height order => spelledAs_of_encode ?asm rfl, rejectsReserved_all _,
    fun _ _ _ _ _ he => unlessError_ready he⟩
  case asm => cases depth <;> cases order <;>
    simp [assemble, Instr.mnemonic, bitsPerPixel, RowOrder.toBits, RowOrder.ofBits, width.isLt, height.isLt]

/-- Settles O50: the row length in its generic form (`rowLen_eq`) and its bound (`rowLen_le`). -/
theorem paRowlenGivesTheRowLength : Obligations.PaRowlenGivesTheRowLength := by
  refine ⟨spelledAs_of_encode rfl rfl, rejectsReserved_all _, fun s he => ?_⟩
  rw [← rowLen_eq]
  exact ⟨rowLen_le s.pa, unlessError_ready he⟩

/-! ## PA_OFFSET (R212) -/

section
variable {x y : BitVec 24} {s t : State}

theorem exec_paOffset_x (he : s.err = 0#8) (hx : s.pa.width.toNat ≤ x.toNat) :
    exec (.paOffset x y) s = .next (s.withError 0x04#8 1) := by
  change execPaOffset x y s = _
  rw [execPaOffset, unlessError_ready he, if_pos hx]
  rfl

theorem exec_paOffset_y (he : s.err = 0#8) (hx : x.toNat < s.pa.width.toNat) (hy : s.pa.height.toNat ≤ y.toNat) :
    exec (.paOffset x y) s = .next (s.withError 0x04#8 2) := by
  change execPaOffset x y s = _
  rw [execPaOffset, unlessError_ready he, if_neg (Nat.not_le.mpr hx), if_pos hy]
  rfl

theorem exec_paOffset_ok (he : s.err = 0#8) (hx : x.toNat < s.pa.width.toNat) (hy : y.toNat < s.pa.height.toNat) :
    exec (.paOffset x y) s =
      .next ((s.setRes0 (zext64 (byteOff s.pa x y))).setRes1 (zext64 (bitOff s.pa.depth x))) := by
  change execPaOffset x y s = _
  rw [execPaOffset, unlessError_ready he, if_neg (Nat.not_le.mpr hx), if_neg (Nat.not_le.mpr hy)]
  rfl

theorem exec_paOffset_range (he : s.err = 0#8) (h : s.pa.width.toNat ≤ x.toNat ∨ s.pa.height.toNat ≤ y.toNat) :
    ∃ sub, exec (.paOffset x y) s = .next (s.withError 0x04#8 sub) := by
  by_cases hx : s.pa.width.toNat ≤ x.toNat
  · exact ⟨1, exec_paOffset_x he hx⟩
  · exact ⟨2, exec_paOffset_y he (Nat.lt_of_not_le hx) (h.resolve_left hx)⟩

/-- What PA_OFFSET can answer with ERR 0: the offsets of a pixel of the image, or RANGE. -/
theorem exec_paOffset_cases (he : s.err = 0#8) (h : exec (.paOffset x y) s = .next t) :
    (x.toNat < s.pa.width.toNat ∧ y.toNat < s.pa.height.toNat ∧
      t = (s.setRes0 (zext64 (byteOff s.pa x y))).setRes1 (zext64 (bitOff s.pa.depth x))) ∨
    ∃ sub, t = s.withError 0x04#8 sub := by
  by_cases hout : s.pa.width.toNat ≤ x.toNat ∨ s.pa.height.toNat ≤ y.toNat
  · obtain ⟨sub, hsub⟩ := exec_paOffset_range he hout
    exact .inr ⟨sub, Host.Outcome.next.inj (h.symm.trans hsub)⟩
  · obtain ⟨hx, hy⟩ := not_or.mp hout
    have hx := Nat.lt_of_not_le hx
    have hy := Nat.lt_of_not_le hy
    exact .inl ⟨hx, hy, Host.Outcome.next.inj (h.symm.trans (exec_paOffset_ok he hx hy))⟩

/-- A PA_OFFSET that answers ERR 0 is one of a pixel of the image, and RES0 and RES1 hold its offsets unwrapped. -/
theorem exec_paOffset_succeeds (he : s.err = 0#8) (h : exec (.paOffset x y) s = .next t) (ht : t.err = 0#8) :
    x.toNat < s.pa.width.toNat ∧ y.toNat < s.pa.height.toNat ∧ t.res0.toNat = byteOff s.pa x y ∧
      t.res1.toNat = bitOff s.pa.depth x := by
  rcases exec_paOffset_cases he h with ⟨hx, hy, rfl⟩ | ⟨sub, rfl⟩
  · have hbyte := byteOff_lt_pow hx hy
    have hbit := bitOff_le s.pa.depth x
    exact ⟨hx, hy, toNat_zext64 (by omega), toNat_zext64 (by omega)⟩
  · exact absurd ht (by decide : ¬ 0x04#8 = 0#8)

end

/-- Settles O51: x before y (`exec_paOffset_x`, `exec_paOffset_y`), then the offsets in their generic form, which stay below
the size of the raster (`byteOff_lt_pow`). -/
theorem paOffsetGivesTheOffsets : Obligations.PaOffsetGivesTheOffsets := by
  refine ⟨fun x y => spelledAs_of_encode ?asm rfl, rejectsReserved_all _, fun x y s => exec_paOffset_x,
    fun x y s => exec_paOffset_y, fun x y s he hx hy => ?inside⟩
  case asm => simp [assemble, Instr.mnemonic, x.isLt, y.isLt]
  case inside =>
    have hoffsets := And.intro (byteOff_lt_pow hx hy) (And.intro (bitOff_le s.pa.depth x) (exec_paOffset_ok he hx hy))
    rw [byteOff, rowIdx_eq, rowLen_eq, colByte_eq, bitOff_eq] at hoffsets
    exact hoffsets

/-! ## The fields of a byte -/

theorem exists_colourMask {d : Depth} (hd : d ≠ .bpp24) :
    ∃ mask, colourMask d = some mask ∧ mask.toNat = 2 ^ bitsPerPixel d - 1 := by
  cases d with
  | bpp24 => exact absurd rfl hd
  | _ => exact ⟨_, rfl, rfl⟩

theorem legalBit_bpp1 (k : BitVec 4) : legalBit .bpp1 k = true ↔ k.toNat ≤ 7 := by simp [legalBit]

theorem legalBit_bpp4 (k : BitVec 4) : legalBit .bpp4 k = true ↔ k.toNat = 0 ∨ k.toNat = 4 := by simp [legalBit]

theorem legalBit_bpp8 (k : BitVec 4) : legalBit .bpp8 k = true ↔ k.toNat = 0 := by simp [legalBit]

/-- A legal bit offset leaves room in the byte for the field. -/
theorem legalBit_fits {d : Depth} {k : BitVec 4} (h : legalBit d k = true) : k.toNat + bitsPerPixel d ≤ 8 := by
  cases d with
  | bpp1 => have := (legalBit_bpp1 k).mp h; simp only [bitsPerPixel]; omega
  | bpp4 => have := (legalBit_bpp4 k).mp h; simp only [bitsPerPixel]; omega
  | bpp8 => have := (legalBit_bpp8 k).mp h; simp only [bitsPerPixel]; omega
  | bpp24 => exact absurd h (by simp [legalBit])

/-- The fields at different legal bit offsets are disjoint. -/
theorem legalBit_disjoint {d : Depth} {k k' : BitVec 4} (h : legalBit d k = true) (h' : legalBit d k' = true) (hne : k ≠ k') :
    k.toNat + bitsPerPixel d ≤ k'.toNat ∨ k'.toNat + bitsPerPixel d ≤ k.toNat := by
  have hne : k.toNat ≠ k'.toNat := fun e => hne (BitVec.eq_of_toNat_eq e)
  cases d with
  | bpp1 => simp only [bitsPerPixel]; omega
  | bpp4 => have := (legalBit_bpp4 k).mp h; have := (legalBit_bpp4 k').mp h'; simp only [bitsPerPixel]; omega
  | bpp8 => have := (legalBit_bpp8 k).mp h; have := (legalBit_bpp8 k').mp h'; omega
  | bpp24 => exact absurd h (by simp [legalBit])

/-- The field of n bits at bit k of a number, from its bits. -/
theorem field_eq_of_testBit {v c k n : Nat} (hc : c < 2 ^ n) (h : ∀ j < n, v.testBit (k + j) = c.testBit j) :
    v / 2 ^ k % 2 ^ n = c := by
  refine Nat.eq_of_testBit_eq fun j => ?_
  rw [Nat.testBit_mod_two_pow, Nat.testBit_div_two_pow]
  by_cases hj : j < n
  · rw [Nat.add_comm j k, h j hj, decide_eq_true hj, Bool.true_and]
  · have hhigh : c < 2 ^ j := Nat.lt_of_lt_of_le hc (Nat.pow_le_pow_right (by decide) (Nat.le_of_not_lt hj))
    rw [decide_eq_false hj, Bool.false_and, Nat.testBit_lt_two_pow hhigh]

section
variable {mask byte ci : BitVec 8} {bit : BitVec 4} {n : Nat}

theorem extractIndex_toNat (hmask : mask.toNat = 2 ^ n - 1) :
    (extractIndex mask byte bit).toNat = byte.toNat / 2 ^ bit.toNat % 2 ^ n := by
  rw [extractIndex, BitVec.toNat_and, BitVec.toNat_ushiftRight, hmask, Nat.and_two_pow_sub_one_eq_mod,
    Nat.shiftRight_eq_div_pow]

/-- The injected byte bit by bit (R215): the field at the bit offset is the colour index, and every other bit is kept. -/
theorem injectIndex_testBit (hmask : mask.toNat = 2 ^ n - 1) (hci : ci.toNat < 2 ^ n) {j : Nat} (hj : j < 8) :
    (injectIndex mask byte bit ci).toNat.testBit j =
      if bit.toNat ≤ j ∧ j < bit.toNat + n then ci.toNat.testBit (j - bit.toNat) else byte.toNat.testBit j := by
  have hmaskbit : mask.getLsbD (j - bit.toNat) = decide (j - bit.toNat < n) := by
    rw [BitVec.getLsbD, hmask, Nat.testBit_two_pow_sub_one]
  rw [BitVec.testBit_toNat, injectIndex]
  simp only [BitVec.getLsbD_or, BitVec.getLsbD_and, BitVec.getLsbD_not, BitVec.getLsbD_shiftLeft, hj, decide_true,
    Bool.true_and, hmaskbit, BitVec.testBit_toNat]
  by_cases hlo : j < bit.toNat
  · simp [hlo, Nat.not_le.mpr hlo]
  · by_cases hhi : j < bit.toNat + n
    · simp [hlo, Nat.not_lt.mp hlo, hhi, show j - bit.toNat < n by omega]
    · have hhigh : ci.toNat < 2 ^ (j - bit.toNat) :=
        Nat.lt_of_lt_of_le hci (Nat.pow_le_pow_right (by decide) (by omega))
      have hzero : ci.getLsbD (j - bit.toNat) = false := Nat.testBit_lt_two_pow hhigh
      simp [hlo, hhi, hzero, show ¬ j - bit.toNat < n by omega]

end

/-! ## PA_EXTRACT and PA_INJECT (R214, R215) -/

section
variable {byte ci mask : BitVec 8} {bit : BitVec 4} {s t : State}

theorem exec_paExtract_depth24 (he : s.err = 0#8) (hd : s.pa.depth = .bpp24) :
    exec (.paExtract byte bit) s = .next (s.withError 0x04#8 5) := by
  change execPaExtract byte bit s = _
  rw [execPaExtract, unlessError_ready he, hd]
  rfl

theorem exec_paExtract_bit (he : s.err = 0#8) (hd : s.pa.depth ≠ .bpp24) (hbit : legalBit s.pa.depth bit = false) :
    exec (.paExtract byte bit) s = .next (s.withError 0x04#8 3) := by
  obtain ⟨mask, hmask, -⟩ := exists_colourMask hd
  change execPaExtract byte bit s = _
  simp only [execPaExtract, unlessError_ready he, hmask, if_pos hbit]
  rfl

theorem exec_paExtract_ok (he : s.err = 0#8) (hd : s.pa.depth ≠ .bpp24) (hbit : legalBit s.pa.depth bit = true) :
    exec (.paExtract byte bit) s =
      .next { s with res0 := BitVec.ofNat 64 (byte.toNat / 2 ^ bit.toNat % 2 ^ bitsPerPixel s.pa.depth) } := by
  obtain ⟨mask, hmask, hval⟩ := exists_colourMask hd
  change execPaExtract byte bit s = _
  simp only [execPaExtract, unlessError_ready he, hmask, hbit, Bool.true_eq_false, if_false, extractIndex_toNat hval]
  rfl

theorem exec_paInject_depth24 (he : s.err = 0#8) (hd : s.pa.depth = .bpp24) :
    exec (.paInject byte bit ci) s = .next (s.withError 0x04#8 5) := by
  change execPaInject byte bit ci s = _
  rw [execPaInject, unlessError_ready he, hd]
  rfl

theorem exec_paInject_bit (he : s.err = 0#8) (hd : s.pa.depth ≠ .bpp24) (hbit : legalBit s.pa.depth bit = false) :
    exec (.paInject byte bit ci) s = .next (s.withError 0x04#8 3) := by
  obtain ⟨mask, hmask, -⟩ := exists_colourMask hd
  change execPaInject byte bit ci s = _
  simp only [execPaInject, unlessError_ready he, hmask, if_pos hbit]
  rfl

theorem exec_paInject_colour (he : s.err = 0#8) (hd : s.pa.depth ≠ .bpp24) (hbit : legalBit s.pa.depth bit = true)
    (hci : 2 ^ bitsPerPixel s.pa.depth ≤ ci.toNat) : exec (.paInject byte bit ci) s = .next (s.withError 0x04#8 4) := by
  obtain ⟨mask, hmask, hval⟩ := exists_colourMask hd
  have hover : mask.toNat < ci.toNat := by have := Nat.two_pow_pos (bitsPerPixel s.pa.depth); omega
  change execPaInject byte bit ci s = _
  simp only [execPaInject, unlessError_ready he, hmask, hbit, Bool.true_eq_false, if_false, if_pos hover]
  rfl

theorem exec_paInject_ok (he : s.err = 0#8) (hd : s.pa.depth ≠ .bpp24) (hbit : legalBit s.pa.depth bit = true)
    (hci : ci.toNat < 2 ^ bitsPerPixel s.pa.depth) :
    ∃ v : Byte, exec (.paInject byte bit ci) s = .next { s with res0 := BitVec.ofNat 64 v.toNat } ∧
      ∀ j < 8, v.toNat.testBit j =
        if bit.toNat ≤ j ∧ j < bit.toNat + bitsPerPixel s.pa.depth then ci.toNat.testBit (j - bit.toNat)
        else byte.toNat.testBit j := by
  obtain ⟨mask, hmask, hval⟩ := exists_colourMask hd
  have hin : ¬ mask.toNat < ci.toNat := by omega
  refine ⟨injectIndex mask byte bit ci, ?_, fun j hj => injectIndex_testBit hval hci hj⟩
  change execPaInject byte bit ci s = _
  simp only [execPaInject, unlessError_ready he, hmask, hbit, Bool.true_eq_false, if_false, if_neg hin]
  rfl

/-- A bit offset that is not legal raises, at 24 bpp, where none is legal, as RANGE(5). -/
theorem exec_paExtract_range (he : s.err = 0#8) (hbit : legalBit s.pa.depth bit = false) :
    ∃ sub, exec (.paExtract byte bit) s = .next (s.withError 0x04#8 sub) := by
  by_cases hd : s.pa.depth = .bpp24
  · exact ⟨5, exec_paExtract_depth24 he hd⟩
  · exact ⟨3, exec_paExtract_bit he hd hbit⟩

theorem exec_paInject_range (he : s.err = 0#8)
    (h : legalBit s.pa.depth bit = false ∨ 2 ^ bitsPerPixel s.pa.depth ≤ ci.toNat) :
    ∃ sub, exec (.paInject byte bit ci) s = .next (s.withError 0x04#8 sub) := by
  by_cases hd : s.pa.depth = .bpp24
  · exact ⟨5, exec_paInject_depth24 he hd⟩
  · cases hbit : legalBit s.pa.depth bit with
    | false => exact ⟨3, exec_paInject_bit he hd hbit⟩
    | true => exact ⟨4, exec_paInject_colour he hd hbit (h.resolve_left (by simp [hbit]))⟩

/-- At 24 bpp no bit offset is legal. -/
theorem depth_ne_bpp24_of_legalBit {d : Depth} (h : legalBit d bit = true) : d ≠ .bpp24 := by
  rintro rfl
  cases h

theorem exec_paExtract_cases (he : s.err = 0#8) (h : exec (.paExtract byte bit) s = .next t) :
    t.err = 0#8 ∨ ∃ sub, t = s.withError 0x04#8 sub := by
  cases hbit : legalBit s.pa.depth bit with
  | false =>
    obtain ⟨sub, hsub⟩ := exec_paExtract_range he hbit
    exact .inr ⟨sub, Host.Outcome.next.inj (h.symm.trans hsub)⟩
  | true =>
    obtain rfl := Host.Outcome.next.inj (h.symm.trans (exec_paExtract_ok he (depth_ne_bpp24_of_legalBit hbit) hbit))
    exact .inl he

theorem exec_paInject_cases (he : s.err = 0#8) (h : exec (.paInject byte bit ci) s = .next t) :
    t.err = 0#8 ∨ ∃ sub, t = s.withError 0x04#8 sub := by
  by_cases hout : legalBit s.pa.depth bit = false ∨ 2 ^ bitsPerPixel s.pa.depth ≤ ci.toNat
  · obtain ⟨sub, hsub⟩ := exec_paInject_range he hout
    exact .inr ⟨sub, Host.Outcome.next.inj (h.symm.trans hsub)⟩
  · obtain ⟨hbit, hci⟩ := not_or.mp hout
    have hbit := (Bool.not_eq_false _).mp hbit
    obtain ⟨v, hv, -⟩ := exec_paInject_ok he (depth_ne_bpp24_of_legalBit hbit) hbit (Nat.lt_of_not_le hci)
    obtain rfl := Host.Outcome.next.inj (h.symm.trans hv)
    exact .inl he

end

/-- Settles O52: the two checks in their order (`exec_paExtract_depth24`, `exec_paExtract_bit`), the field
(`exec_paExtract_ok`), and the legal bit offsets of each depth. -/
theorem paExtractTakesTheIndex : Obligations.PaExtractTakesTheIndex := by
  refine ⟨fun byte bit => spelledAs_of_encode ?asm rfl, rejectsReserved_all _, fun _ _ _ => exec_paExtract_depth24,
    fun _ _ _ => exec_paExtract_bit, fun _ _ _ => exec_paExtract_ok,
    fun bit => ⟨legalBit_bpp1 bit, legalBit_bpp4 bit, legalBit_bpp8 bit⟩⟩
  case asm => simp [assemble, Instr.mnemonic, byte.isLt, bit.isLt]

/-- Settles O53: the three checks in their order, and the injected byte bit by bit (`injectIndex_testBit`). -/
theorem paInjectReplacesTheIndex : Obligations.PaInjectReplacesTheIndex := by
  refine ⟨fun byte bit ci => spelledAs_of_encode ?asm rfl, rejectsReserved_all _, fun _ _ _ _ => exec_paInject_depth24,
    fun _ _ _ _ => exec_paInject_bit, fun _ _ _ _ => exec_paInject_colour, fun _ _ _ _ => exec_paInject_ok⟩
  case asm => simp [assemble, Instr.mnemonic, byte.isLt, bit.isLt, ci.isLt]

/-! ## The properties of R218 -/

/-- PA_EXTRACT after PA_INJECT: the field at the bit offset is the colour index, and the field at every other legal bit
offset, disjoint from it (`legalBit_disjoint`), is what it was. -/
theorem paExtract_of_paInject {byte ci : BitVec 8} {bit : BitVec 4} {s : State} (he : s.err = 0#8)
    (hd : s.pa.depth ≠ .bpp24) (hbit : legalBit s.pa.depth bit = true) (hci : ci.toNat < 2 ^ bitsPerPixel s.pa.depth) :
    ∃ v : Byte, exec (.paInject byte bit ci) s = .next { s with res0 := BitVec.ofNat 64 v.toNat } ∧
      exec (.paExtract v bit) s = .next { s with res0 := BitVec.ofNat 64 ci.toNat } ∧
      ∀ other : BitVec 4, legalBit s.pa.depth other = true → other ≠ bit →
        exec (.paExtract v other) s = exec (.paExtract byte other) s := by
  obtain ⟨v, hexec, hv⟩ := exec_paInject_ok (byte := byte) he hd hbit hci
  refine ⟨v, hexec, ?same, fun other hother hne => ?other⟩
  case same =>
    have hfits := legalBit_fits hbit
    rw [exec_paExtract_ok he hd hbit, field_eq_of_testBit hci fun j hj => ?_]
    rw [hv _ (by omega), if_pos (by omega), Nat.add_sub_cancel_left]
  case other =>
    have hfits := legalBit_fits hother
    have hdisjoint := legalBit_disjoint hother hbit hne
    rw [exec_paExtract_ok he hd hother, exec_paExtract_ok he hd hother,
      field_eq_of_testBit (Nat.mod_lt _ (Nat.two_pow_pos _)) fun j hj => ?_]
    rw [hv _ (by omega), if_neg (by omega), Nat.testBit_mod_two_pow, Nat.testBit_div_two_pow, decide_eq_true hj,
      Bool.true_and, Nat.add_comm]

/-- Settles O55: the injected field and the others (`paExtract_of_paInject`), the ranges, and the place of a pixel in the
raster (`byteOff_lt`, `pixel_unique`, `pixel_disjoint`). -/
theorem paProperties : Obligations.PaProperties := by
  refine ⟨fun _ _ _ _ => paExtract_of_paInject, fun i s t hi he h => ?errors, fun _ _ _ => exec_paOffset_range,
    fun byte bit ci s he => ⟨fun hbit => ⟨exec_paExtract_range he hbit, exec_paInject_range he (.inl hbit)⟩,
      fun hci => exec_paInject_range he (.inr hci)⟩,
    fun x y x' y' s t t' he h ht h' ht' => ?places⟩
  case errors =>
    cases i with
    | paOffset x y =>
      rcases exec_paOffset_cases he h with ⟨-, -, rfl⟩ | hrange
      · exact .inl he
      · exact .inr hrange
    | paExtract byte bit => exact exec_paExtract_cases he h
    | paInject byte bit ci => exact exec_paInject_cases he h
    | _ => simp [Instr.mnemonic] at hi
  case places =>
    obtain ⟨hx, hy, hbyte, hbit⟩ := exec_paOffset_succeeds he h ht
    obtain ⟨hx', hy', hbyte', hbit'⟩ := exec_paOffset_succeeds he h' ht'
    rw [hbyte, hbyte']
    refine ⟨byteOff_lt hx hy, fun hne => ⟨fun hd hsame => hne ?_, fun hd => pixel_disjoint hd hx hy hx' hy' hne⟩⟩
    obtain ⟨hres0, hres1⟩ := Prod.mk.inj hsame
    exact pixel_unique hd hx hy hx' hy' (by rw [← hbyte, ← hbyte', hres0]) (by rw [← hbit, ← hbit', hres1])

end Sys2Proof.Machine
end

section
/-! SUPPORT. The hardware reset (R270), and the command sequence that restores the command-visible registers (R272). -/

namespace Sys2Proof

/-- Settles O2 (in this namespace, since `Machine.hardwareReset` is the reset itself): as for `resetState`, each value is the one
`State.reset` names; the capacities and the pending accesses are those of the state before. -/
theorem hardwareReset : Obligations.HardwareReset := by
  intro s
  refine ⟨Machine.hardwareReset s, rfl, ?status, ?errInfo, ?res0, ?res1, ?cmdLo, ?cmdHi, ?pixcap, ?codecap, ?ptr, ?cnt,
    ?acc, ?len, ?bitpos, ?slots, ?pa, ?pixmem, ?codemem, ?inbox⟩
  case status =>
    calc (Machine.hardwareReset s).status = Machine.State.reset.status := rfl
      _ = 0#32 := rfl
  case slots | pixmem | codemem => exact fun _ => rfl
  all_goals rfl

end Sys2Proof

namespace Sys2Proof.Machine

theorem exec_paConfig {depth : Depth} {width height : BitVec 24} {order : RowOrder} {s : State} (he : s.err = 0#8) :
    exec (.paConfig depth width height order) s = .next (s.setPa ⟨depth, width, height, order⟩) := unlessError_ready he

/-- A command that answers a next state hands it to the rest of the sequence. -/
theorem execAll_cons {i : Instr} {is : List Instr} {s t : State} (h : exec i s = .next t) :
    execAll (i :: is) s = execAll is t := by
  rw [execAll, h]

/-- Settles O3: CLRERR makes ERR 0, so each of the other four commands runs (R245) and sets its own unit; the length 0 passes
the check of CR_OPEN at every capacity. -/
theorem restoreSequence : Obligations.RestoreSequence := by
  intro s
  refine ⟨(stClear (crOpen 0 (cwReset (clearError s)))).setPa ⟨.bpp8, 0#24, 0#24, .bottomToTop⟩, ?_, rfl, fun _ => rfl⟩
  have hclear : exec .clrerr s = .next (clearError s) := rfl
  have hwriter : exec .cwReset (clearError s) = .next (cwReset (clearError s)) := exec_cwReset rfl
  have hreader : exec (.crOpen 0#32) (cwReset (clearError s)) = .next (crOpen 0 (cwReset (clearError s))) :=
    exec_crOpen_ok rfl (Nat.zero_le _)
  rw [execAll_cons hclear, execAll_cons hwriter, execAll_cons hreader, execAll_cons (exec_stReset rfl), execAll_singleton,
    exec_paConfig rfl]

end Sys2Proof.Machine
end

section
/-! SUPPORT. Errors and the end of a command (R242 to R246, R279): what an error leaves of the host's accesses, what a failed
CW_WRITE or CW_END leaves, a CR_READ past CODE_CAP, and the errors of ENC_RUN. -/

namespace Sys2Proof.Machine

/-! ## The sticky error (R245) -/

/-- A byte is the low byte of the 64-bit data that carries it. -/
theorem setWidth_8_64 (v : Byte) : (v.setWidth 64).setWidth 8 = v := by
  rw [BitVec.setWidth_setWidth_of_le v (by decide), BitVec.setWidth_eq]

theorem perform_read_admitted {width : AccessWidth} {offset : Nat} {s : State} (h : busFault width offset s = none) :
    perform (.read width offset) s = .next (s.setReply (busRead offset s)) := by
  simp only [perform, h]

/-- Settles O11: an error stays over every command but CLRERR (`issue_of_error`, `execAll_of_error`), and no host access looks
at ERR. -/
theorem errorIsSticky : Obligations.ErrorIsSticky := by
  intro s he hb
  refine ⟨fun w hw => issue_of_error hw he hb, fun is his => execAll_of_error his he,
    fun width offset => perform_read_admitted, fun a v ha => ?pix, fun a v ha => ?code, fun v => ?cmdLo⟩
  case pix => rw [perform_write_pix _ ha, setWidth_8_64]
  case code => rw [perform_write_code _ ha, setWidth_8_64]
  case cmdLo =>
    refine (perform_write_reg .cmdLo (v.setWidth 64) s).trans ?_
    rw [setWidth_32_64]
    rfl

/-! ## The errors of the code writer (R131, R246) -/

section
variable {s t : State} {r : Raise}

/-- The error of a write or a flush that has no room: CODE_OVERFLOW at the first address that CODEMEM does not have (R131), or
at a CW_PTR above it (log entry 8). -/
def cwOverflow (s : State) : Raise := ⟨.codeOverflow, max s.cw.ptr.toNat s.codeCap⟩

theorem cwOverflow_eq_of_full (h : s.codeCap ≤ s.cw.ptr.toNat) : cwOverflow s = ⟨.codeOverflow, s.cw.ptr.toNat⟩ := by
  rw [cwOverflow, Nat.max_eq_left h]

/-- Storing a byte that has room moves CW_PTR no further than CODE_CAP. -/
theorem cwOverflow_cwTurn (h : s.cw.ptr.toNat < s.codeCap) : cwOverflow (cwTurn s) = cwOverflow s := by
  have hp : (cwTurn s).cw.ptr.toNat = s.cw.ptr.toNat + 1 := ptr_succ (codeCap_le s) h
  have hcap : (cwTurn s).codeCap = s.codeCap := rfl
  rw [cwOverflow, cwOverflow, hp, hcap, Nat.max_eq_right h, Nat.max_eq_right (Nat.le_of_lt h)]

theorem cwDrain_raises {k : Nat} (h : cwDrain k s = .error r) : r = cwOverflow s := by
  induction k generalizing s with
  | zero => cases h
  | succ k ih =>
    by_cases hlt : s.cw.ptr.toNat < s.codeCap
    · rw [cwDrain_succ_ok hlt] at h
      rw [ih h, cwOverflow_cwTurn hlt]
    · have hfull : s.codeCap ≤ s.cw.ptr.toNat := Nat.le_of_not_lt hlt
      rw [cwDrain, cwEmitByte_error hfull, error_bind] at h
      rw [cwOverflow_eq_of_full hfull, Except.error.inj h]

theorem cwWrite_raises {code w : Nat} (h : cwWrite code w s = .error r) : r = cwOverflow s := by
  rw [cwWrite_eq] at h
  rcases bind_error_iff.mp h with hdrain | ⟨u, -, hok⟩
  · exact cwDrain_raises (s := cwAppend code w s) hdrain
  · cases hok

theorem cwEnd_raises (h : cwEnd s = .error r) : r = cwOverflow s := by
  by_cases hc : s.cw.cnt = 0#4
  · rw [cwEnd_nothing_pending hc] at h
    cases h
  · by_cases hlt : s.cw.ptr.toNat < s.codeCap
    · rw [cwEnd_pending hc hlt] at h
      cases h
    · have hfull : s.codeCap ≤ s.cw.ptr.toNat := Nat.le_of_not_lt hlt
      rw [cwEnd_error hfull hc] at h
      rw [cwOverflow_eq_of_full hfull, Except.error.inj h]

/-- What CW_WRITE can answer with ERR 0. -/
theorem exec_cwWrite_cases {code : BitVec 16} {width : BitVec 4} (he : s.err = 0#8)
    (h : exec (.cwWrite code width) s = .next t) : t.err = 0#8 ∨ t.err = 0x02#8 ∨ t = failCw (cwOverflow s) s := by
  by_cases hw : legalWidth width
  · cases hrun : cwWrite code.toNat width.toNat s with
    | ok u =>
      obtain rfl := Host.Outcome.next.inj (h.symm.trans (exec_cwWrite_ok he hw hrun))
      refine .inl ?_
      rw [State.setRes0_err, (cwWrite_frame hrun).eq]
      exact he
    | error r =>
      obtain rfl := cwWrite_raises hrun
      exact .inr (.inr (Host.Outcome.next.inj (h.symm.trans (exec_cwWrite_error he hw hrun))))
  · obtain rfl := Host.Outcome.next.inj (h.symm.trans (exec_cwWrite_badWidth he hw))
    exact .inr (.inl rfl)

/-- What CW_END can answer with ERR 0. -/
theorem exec_cwEnd_cases (he : s.err = 0#8) (h : exec .cwEnd s = .next t) :
    t.err = 0#8 ∨ t = failCw (cwOverflow s) s := by
  cases hrun : cwEnd s with
  | ok u =>
    obtain rfl := Host.Outcome.next.inj (h.symm.trans (exec_cwEnd_ok he hrun))
    refine .inl ?_
    rw [State.setRes0_err, (cwEnd_frame hrun).eq]
    exact he
  | error r =>
    obtain rfl := cwEnd_raises hrun
    exact .inr (Host.Outcome.next.inj (h.symm.trans (exec_cwEnd_error he hrun)))

theorem exec_writer_cases {i : Instr} (hi : i = .cwEnd ∨ ∃ code width, i = .cwWrite code width) (he : s.err = 0#8)
    (h : exec i s = .next t) : t.err = 0#8 ∨ t.err = 0x02#8 ∨ t = failCw (cwOverflow s) s := by
  rcases hi with rfl | ⟨code, width, rfl⟩
  · exact (exec_cwEnd_cases he h).imp_right .inr
  · exact exec_cwWrite_cases he h

end

/-- Settles O21: CW_WRITE and CW_END end with ERR 0, with BAD_WIDTH, or in `failCw` (`exec_writer_cases`), whose free bytes lie
from CW_PTR on. -/
theorem codeOverflowLeaves : Obligations.CodeOverflowLeaves := by
  refine ⟨fun i s t hi he h ht => ?leaves, fun i s t hi he h => ?errors⟩
  case leaves =>
    rcases exec_writer_cases hi he h with hok | hwidth | rfl
    · exact absurd (ht.symm.trans hok) (by decide)
    · exact absurd (ht.symm.trans hwidth) (by decide)
    · exact ⟨rfl, rfl, fun a ha => freeMemory_read_outside (.inl ha)⟩
  case errors => exact (exec_writer_cases hi he h).imp_right (.imp_right fun hfail => congrArg State.err hfail)

/-! ## The end of a command (R279) -/

section
variable {w : Nat} {width : BitVec 4} {s : State}

/-- The state after a read of w bits that reach past CODE_CAP (log entry 7). -/
def crAdvancePastCap (w : Nat) (s : State) : State :=
  ((crAdvance w s).setRes0 (zext64 (crPastCap w s))).setFreeTick (s.freeTick + 1)

theorem exec_crRead_pastCap (he : s.err = 0#8) (hw : legalWidth width)
    (hlen : s.cr.bitpos.toNat + width.toNat ≤ 8 * s.cr.len.toNat)
    (hcap : 8 * s.codeCap < s.cr.bitpos.toNat + width.toNat) :
    exec (.crRead width) s = .next (crAdvancePastCap width.toNat s) := by
  change execCrRead width s = _
  cases hread : crRead width.toNat s with
  | none => exact absurd (crRead_none.mp hread) (Nat.not_lt.mpr hlen)
  | some rt =>
    obtain ⟨r, t⟩ := rt
    have hpos := crAdvance_bitpos hlen
    obtain ⟨-, -, rfl, -⟩ := crRead_some hread
    simp only [execCrRead, unlessError_ready he, if_neg (not_not.mpr hw), hread, crResult, if_neg (Nat.not_le.mpr hcap)]
    change Host.Outcome.next
      { crAdvancePastCap width.toNat s with res1 := zext64 (crAdvance width.toNat s).cr.bitpos.toNat } = _
    rw [hpos]
    rfl

theorem crAdvancePastCap_res0 (hw : w ≤ 12) (hcap : 8 * s.codeCap < s.cr.bitpos.toNat + w) :
    (crAdvancePastCap w s).res0.toNat = crPastCap w s := by
  obtain ⟨hlt, -⟩ := crPastCap_bits hcap
  have hpow : 2 ^ w ≤ 2 ^ 12 := Nat.pow_le_pow_right (by decide) hw
  exact toNat_zext64 (by omega)

/-- The bits of such a code that CODEMEM holds are the stream's. -/
theorem crPastCap_held {j : Nat} (hcap : 8 * s.codeCap < s.cr.bitpos.toNat + w)
    (hj : s.cr.bitpos.toNat + j < 8 * s.codeCap) :
    crPastCap w s / 2 ^ j % 2 = streamBit s.codemem (s.cr.bitpos.toNat + j) := by
  obtain ⟨-, hheld⟩ := crPastCap_bits hcap
  have hlt : j < 8 * s.codeCap - s.cr.bitpos.toNat := by omega
  rw [← streamBits_testBit s.codemem s.cr.bitpos.toNat _ j hlt, ← hheld, ← Nat.shiftRight_eq_div_pow, shiftRight_mod_two,
    shiftRight_mod_two, Nat.testBit_mod_two_pow, decide_eq_true hlt, Bool.true_and]

end

/-- Settles O25: a CR_READ past CODE_CAP ends in `crAdvancePastCap` (`exec_crRead_pastCap`), and every command ends
(`exec_ends`). -/
theorem noCommandStops : Obligations.NoCommandStops := by
  refine ⟨fun width s he hw hw' hlen hcap => ?pastCap, fun i s => ?ends⟩
  case pastCap =>
    refine ⟨_, exec_crRead_pastCap he ⟨hw, hw'⟩ hlen hcap, rfl, rfl, crAdvance_bitpos hlen, crAdvance_res1 hlen, ?_, ?_⟩
    · rw [crAdvancePastCap_res0 hw' hcap]
      exact (crPastCap_bits hcap).1
    · rw [crAdvancePastCap_res0 hw' hcap]
      exact fun j => crPastCap_held hcap
  case ends =>
    obtain ⟨t, ht, -⟩ := (exec_ends i s).elim
    exact ⟨t, ht⟩

/-- Settles O59: every command ends (`exec_ends`), and its end sets BUSY to 0; so does an illegal word (`issue_next`). -/
theorem everyCommandEnds : Obligations.EveryCommandEnds := issue_next

/-! ## The endings of ENC_RUN (R242) -/

/-- The error of a run on a buffer whose first illegal pixel is j, by the room that the codes written before it need. -/
theorem failEnc_firstIllegal {b : BitVec 4} {n j : Nat} {s : State} {r : Raise} (hm : s.MemOk) (hb : legalBpp b)
    (hn : n ≤ s.pixCap) (hj : j < n) (hlegal : ∀ a < j, (s.readPix a).toNat < 2 ^ b.toNat)
    (hbad : 2 ^ b.toNat ≤ (s.readPix j).toNat) (h : encRun b n s = .error r) :
    let bytes := codesBits (lzwBeforePixel b.toNat (s.pixels j)) / 8
    (bytes ≤ s.codeCap → (failEnc r s).err = 0x0A#8 ∧ (failEnc r s).errInfo = BitVec.ofNat 32 j) ∧
      (s.codeCap < bytes → (failEnc r s).err = 0x08#8 ∧ (failEnc r s).errInfo = BitVec.ofNat 32 s.codeCap) := by
  rcases encRun_pixelValue hm hb hn hj hlegal hbad with ⟨hrun, hfits⟩ | ⟨hrun, hover⟩
  · obtain rfl := Except.error.inj (h.symm.trans hrun)
    exact ⟨fun _ => ⟨rfl, rfl⟩, fun hover => absurd hfits (Nat.not_le.mpr hover)⟩
  · obtain rfl := Except.error.inj (h.symm.trans hrun)
    exact ⟨fun hfits => absurd hover (Nat.not_lt.mpr hfits), fun _ => ⟨rfl, rfl⟩⟩

/-- Settles O35: a run succeeds on legal pixels, or ends at its first illegal pixel or at CODE_CAP (`encRun_greedy`); which of
the two errors it is, follows from the codes before that pixel (`failEnc_firstIllegal`). -/
theorem encRunEndings : Obligations.EncRunEndings := by
  intro bpp len s he hm hb1 hb8 hlen
  have hb : legalBpp bpp := ⟨hb1, hb8⟩
  rcases encRun_greedy hm hb hlen with ⟨u, hrun, hlegal, -⟩ | ⟨j, hj, hrun, hbad, hlegal⟩ | ⟨hrun, -⟩
  case inl =>
    obtain ⟨hu, -⟩ := encRun_frame hrun
    have herr : (forgetEnc u).err = 0#8 := by
      rw [forgetEnc_err, hu]
      exact he
    exact ⟨forgetEnc u, exec_encRun_ok he hb hlen hrun, .inl ⟨herr, hlegal⟩,
      fun j hj _ hbad => absurd (hlegal j hj) (Nat.not_lt.mpr hbad)⟩
  case inr.inl =>
    exact ⟨_, exec_encRun_error he hb hlen hrun, .inr (.inl ⟨j, hj, rfl, rfl, hbad, hlegal⟩),
      fun i hi hlegal hbad => failEnc_firstIllegal hm hb hlen hi hlegal hbad hrun⟩
  case inr.inr =>
    exact ⟨_, exec_encRun_error he hb hlen hrun, .inr (.inr ⟨rfl, rfl⟩),
      fun i hi hlegal hbad => failEnc_firstIllegal hm hb hlen hi hlegal hbad hrun⟩

end Sys2Proof.Machine
end
